-- ==== Sys2Proof/Word.lean ====
section
/-! DEFINITION. The word types of the ST412: bytes on the link, the small numbered sets (ports, lines, entry indexes) and time values. -/

namespace Sys2Proof

/-- One byte on a host port, or one byte of a record (R165). -/
abbrev Byte := BitVec 8

/-- A host port, 0 to 3. A port and the controller behind it are not distinguished (00_scope.md). -/
abbrev Port := Fin 4

/-- A trigger output TRG0 to TRG7 or an event input EVT0 to EVT7 (00_scope.md). -/
abbrev Line := Fin 8

/-- The index of one of the 64 schedule entries (R43). -/
abbrev Index := Fin 64

/-- A time value, held as its count number: seconds times 10 000 000 plus the fraction (R1, log 19). -/
abbrev Time := Nat

end Sys2Proof
end

