-- ==== Sys2Proof/Syntax.lean ====
section
/-! DEFINITION. The commands of the ST412: one constructor per row of spec/opcode_table.json, in the table's order. -/

namespace Sys2Proof

/-- The level of a pin. -/
inductive Level where
  | low
  | high
  deriving DecidableEq, Repr

/-- The blocks of the part (00_scope.md, block overview). -/
inductive Block where
  | tbu
  | rsv
  | scu
  | tou
  | ecu
  | elu
  | sau
  | hpu
  deriving DecidableEq, Repr

/-- One step of the part. A row that is a request names the port whose slot holds it: its fields are the payload bytes
in that slot, decoded when the owning block takes the request (R159, R166, log 3). -/
inductive Instr where
  | powerOn
  | resetAssert
  /-- Release of RST# with the strap levels at that moment (R145). -/
  | resetRelease (sen1 sen0 : Level)
  | tick
  | trimCorrectionDue
  | slewCorrectionDue
  | timeAdvance
  | stepHandover
  | primingHandover (input : Line)
  | lineOperation
  | pulseEnd (line : Line)
  /-- The sample of one input that has come due, with the level of its pin (R101). -/
  | inputSample (input : Line) (level : Level)
  | ecuStepHandover
  | windowClose
  | missingDeclaration
  | holdoverAgeIncrement
  | holdoverExpiry
  | ppsEdgeHandover
  | disciplineSlew
  /-- The ELU takes the oldest waiting record of one producing block (R116, R118). -/
  | recordTake (producer : Block)
  | subscriptionInstall (port : Port)
  | scuSessionEnd (port : Port)
  | eluSessionEnd (port : Port)
  | idleExpiry (port : Port)
  | validFrameReport (port : Port)
  | frameBegin (port : Port)
  /-- A rising edge of PnSEL#, with the bits sampled on PnSDI in the frame, one for each rising edge of PnSCK (R153). -/
  | frameEnd (port : Port) (bits : List Bool)
  | requestCompletion (port : Port)
  | attach (port : Port)
  | detach (port : Port)
  | getStatus (port : Port)
  | claim (port : Port)
  | release (port : Port)
  | take (port : Port)
  | readTime (port : Port)
  | readTimebase (port : Port)
  | setTime (port : Port)
  | stepTime (port : Port)
  | slewTime (port : Port)
  | setTrim (port : Port)
  | readRef (port : Port)
  | refConfig (port : Port)
  | ppsConfig (port : Port)
  | arm (port : Port)
  | prime (port : Port)
  | cancel (port : Port)
  | hold (port : Port)
  | resume (port : Port)
  | queryEntry (port : Port)
  | listEntries (port : Port)
  | setQuota (port : Port)
  | bindLine (port : Port)
  | lineConfig (port : Port)
  | driveLine (port : Port)
  | readLines (port : Port)
  | inputConfig (port : Port)
  | readInputs (port : Port)
  | subscribe (port : Port)
  | readLog (port : Port)
  | ackLog (port : Port)
  | logPolicy (port : Port)
  | refclkEdge
  deriving DecidableEq, Repr

end Sys2Proof
end

