-- ==== Sys2Proof/WellFormed.lean ====
section
/-! DEFINITION. Which commands can occur. Ports, lines and levels are bounded by their types. The one check left is the producer of a record. -/

namespace Sys2Proof

/-- The five blocks that post records (R116). -/
def Block.producesRecords : Block → Bool
  | .tbu | .rsv | .scu | .ecu | .sau => true
  | .tou | .elu | .hpu => false

/-- RECORD_TAKE names a block that posts records (R116). Every other command is well formed as it stands. -/
def Instr.wellFormed : Instr → Bool
  | .recordTake b => b.producesRecords
  | _ => true

end Sys2Proof
end

