-- ==== Sys2Proof/Config.lean ====
section
/-! DEFINITION. The numbers the data book fixes for the part. No value is left free: the book leaves no computed value open. -/

namespace Sys2Proof.Config

/-- Counts in one second (R1). -/
def countsPerSecond : Nat := 10000000

/-- The number of seconds values, 2^40 (R1). -/
def secondsRange : Nat := 1099511627776

/-- The count number of the maximum time value, 2^40-1 s + 9 999 999 counts (R1). -/
def maxTime : Time := 10995116277759999999

/-- An accumulator that reaches this makes a trim correction due (R4). -/
def trimFull : Nat := 1000000000

/-- The greatest magnitude of a trim, in ppb (R4). -/
def maxTrim : Nat := 200000

/-- The greatest magnitude of a slew's initial offset, in counts (R5). -/
def maxSlew : Nat := 10000000

/-- Internal cycles in one supervision window (R24). -/
def windowCycles : Nat := 1000

/-- Internal cycles without a REFCLK edge that make a window MISSING (R25). -/
def gapCycles : Nat := 16

/-- Internal cycles in one internal second (00_scope.md, terms). -/
def secondCycles : Nat := 10000000

/-- Slots of the event log (R120). -/
def logSlots : Nat := 128

/-- The last seq before the seq wraps to 1 (R117). -/
def maxSeq : Nat := 4294967295

/-- The shortest period, 0 s + 1 000 counts (R43). -/
def minPeriod : Nat := 1000

/-- The longest period, 1 000 000 s + 0 counts (R43). -/
def maxPeriod : Nat := 10000000000000

/-- The longest priming delay, in counts (R43). -/
def maxDelay : Nat := 100000000

/-- The greatest magnitude of the offset field of a STEP record, 2^47-1 (R15). -/
def maxStepField : Int := 140737488355327

/-- The quota of every port after power-on and device reset (R65). -/
def defaultQuota : Nat := 16

end Sys2Proof.Config
end

