-- ==== Sys2Proof/Machine/State.lean ====
section
/-! DEFINITION. The state of the ST412 as plain data: each block's own state (00_scope.md, block overview), the hand-overs between blocks that have been made and not yet taken, and the queue of commands. -/

namespace Sys2Proof.Machine

/-! ## Timebase Unit (chapter 1) -/

/-- The sign of a trim or slew correction of one count (R4, R5). -/
inductive Sign where
  | plus
  | minus
  deriving DecidableEq, Repr

/-- Who started a slew (R5). -/
inductive Origin where
  | host
  | pps
  deriving DecidableEq, Repr

/-- The source of the timebase clock (R2, R29). -/
inductive Source where
  | internal
  | refclk
  deriving DecidableEq, Repr

/-- The quality of the timescale (R9). -/
inductive Quality where
  | unset
  | freerun
  | holdover
  | locked
  deriving DecidableEq, Repr

/-- The slew record (R5). -/
structure Slew where
  origin : Origin
  initial : Int
  residual : Int
  spacing : Nat
  counter : Nat
  deferred : Bool
  deriving DecidableEq, Repr

/-- The state of the TBU. `trimTaken` and `slewTaken` are the model's marks of the parts of the tick now beginning that
TRIM_CORRECTION_DUE and SLEW_CORRECTION_DUE have already taken (log 6). -/
structure Tbu where
  time : Time
  isSet : Bool
  refTrim : Int
  intTrim : Int
  refAcc : Nat
  intAcc : Nat
  slew : Option Slew
  trimTaken : Option Sign
  slewTaken : Bool
  deriving DecidableEq, Repr

/-! ## Reference Supervisor (chapter 2) -/

/-- The supervision state (R26 to R28). -/
inductive SupState where
  | unlocked
  | locked
  | holdover
  deriving DecidableEq, Repr

/-- The class of a supervision window (R24, R25). -/
inductive WindowClass where
  | good
  | fast
  | slow
  | missing
  deriving DecidableEq, Repr

/-- The reason of a REFSTATE record (R30). -/
inductive RefReason where
  | qualified
  | fast
  | slow
  | missing
  | expired
  | disabled
  deriving DecidableEq, Repr

/-- The supervision configuration (R31). -/
structure SupConfig where
  enabled : Bool
  tolerance : Nat
  qualLength : Nat
  limit : Nat
  deriving DecidableEq, Repr

/-- The PPS configuration (R35). -/
structure PpsConfig where
  role : Bool
  discipline : Bool
  window : Nat
  spacing : Nat
  deriving DecidableEq, Repr

/-- The state of the RSV. `cycles`, `gap` and `ageCycles` stand at 1 000, 16 and 10 000 000 while the event of that mark
is due and not yet taken (log 7). -/
structure Rsv where
  state : SupState
  good : Nat
  cycles : Nat
  edges : Nat
  gap : Nat
  last : Option (Nat × WindowClass)
  age : Nat
  ageCycles : Nat
  config : SupConfig
  pps : PpsConfig
  streak : Nat
  fault : Bool
  lastError : Option Int
  deriving DecidableEq, Repr

/-! ## Schedule Unit (chapters 3 and 4) -/

/-- The state of an entry (R44). -/
inductive EntryState where
  | free
  | armed
  | primed
  | held
  deriving DecidableEq, Repr

/-- A line operation (R43, R89). -/
inductive LineOp where
  | pulse
  | set
  | clear
  | toggle
  deriving DecidableEq, Repr

/-- The edge a prime spec names (R43). -/
inductive PrimeEdge where
  | rise
  | fall
  | any
  deriving DecidableEq, Repr

/-- The notify scope of an entry (R43). -/
inductive Scope where
  | nobody
  | owner
  | all
  deriving DecidableEq, Repr

/-- The late policy of an entry (R43). -/
inductive LatePolicy where
  | catchup
  | skip
  deriving DecidableEq, Repr

/-- A prime spec (R43). -/
structure PrimeSpec where
  input : Line
  edge : PrimeEdge
  delay : Nat
  rearm : Bool
  deriving DecidableEq, Repr

/-- An output action: a trigger line with an operation (R43). -/
structure Action where
  line : Line
  op : LineOp
  deriving DecidableEq, Repr

/-- An entry record (R43). The owner NONE of a detached entry is `none`. -/
structure Entry where
  state : EntryState
  generation : Nat
  owner : Option Port
  label : Nat
  due : Option Time
  period : Option Nat
  remaining : Option Nat
  initial : Option Nat
  action : Option Action
  scope : Scope
  policy : LatePolicy
  prime : Option PrimeSpec
  occurrence : Nat
  deriving DecidableEq, Repr

/-- A FREE entry holds no meaningful value but its generation (R43, log 21). -/
def Entry.free (generation : Nat) : Entry :=
  { state := .free, generation := generation, owner := none, label := 0, due := none, period := none,
    remaining := none, initial := none, action := none, scope := .nobody, policy := .catchup, prime := none,
    occurrence := 0 }

/-- The state of the SCU. `now` is the time value the TBU last handed it (R54). -/
structure Scu where
  entries : Vector Entry 64
  quota : Vector Nat 4
  now : Time
  deriving DecidableEq, Repr

/-! ## Trigger Output Unit (chapter 5) -/

/-- A line record (R88). The binding SHARED is `none`. `active` is the current level. `counted` is the model's mark of a
PULSE_END taken ahead of the TICK it belongs to (log 6). -/
structure TrigLine where
  binding : Option Port
  idle : Level
  width : Nat
  active : Bool
  remaining : Nat
  counted : Bool
  deriving DecidableEq, Repr

/-- The state of the TOU. -/
structure Tou where
  lines : Vector TrigLine 8
  deriving DecidableEq, Repr

/-! ## Event Capture Unit (chapter 6) -/

/-- The edge select of an input (R100). -/
inductive EdgeSelect where
  | off
  | rise
  | fall
  | both
  deriving DecidableEq, Repr

/-- The direction of an edge (R102). -/
inductive Direction where
  | rise
  | fall
  deriving DecidableEq, Repr

/-- An input record (R100). The stable level UNKNOWN is `none`. `shifts` is the model's list of the steps that have shifted the
run in progress, by their turns (log 11). -/
structure Input where
  select : EdgeSelect
  divider : Nat
  qualify : Nat
  dead : Nat
  phase : Nat
  stable : Option Level
  run : Nat
  candidate : Option Time
  adjusted : Bool
  clamped : Bool
  deadLeft : Nat
  suppressed : Nat
  shifts : List Nat := []
  deriving DecidableEq, Repr

/-- The state of the ECU. -/
structure Ecu where
  inputs : Vector Input 8
  deriving DecidableEq, Repr

/-! ## Event Log Unit (chapter 7) -/

/-- What made a firing or a miss: a time advance, a forward step, a RESUME, or arming. At most one of the flags STEPPED,
RESUMED and AT_ARM is set (R70, R77). -/
inductive Cause where
  | advance
  | stepped
  | resumed
  | atArm
  deriving DecidableEq, Repr

/-- The event of an AUTHORITY record (R147). -/
inductive AuthEvent where
  | granted
  | released
  | revoked
  | expired
  | detached
  deriving DecidableEq, Repr

/-- The cause of an AUTHORITY record (R147). -/
inductive AuthCause where
  | nothing
  | claim
  | queue
  | take
  deriving DecidableEq, Repr

/-- Why a session ended (R140). -/
inductive EndReason where
  | detached
  | expired
  deriving DecidableEq, Repr

/-- The body of a record, with its kind (R116; R7, R15, R30, R38, R70, R77, R106, R147, R149). -/
inductive Body where
  | edge (input : Line) (direction : Direction) (adjusted clamped : Bool) (suppressed span : Nat)
  | fire (index : Index) (generation label lateness occurrences : Nat) (cause : Cause) (last : Bool) (quality : Quality)
  | missed (index : Index) (generation label distance occurrences : Nat) (cause : Cause) (last : Bool)
  /-- `cancelled` is the origin and residual of a cancelled slew (flag SLEW_CANCELLED). -/
  | step (isStep : Bool) (offset : Int) (saturated : Bool) (cancelled : Option (Origin × Int))
  | slewDone (origin : Origin) (total : Int) (spacing : Nat)
  | refState (old new : SupState) (reason : RefReason) (count age : Nat)
  | pps (error : Int) (applied outlier fault notLocked adjusted : Bool) (streak suppressed : Nat)
  | authority (port : Port) (event : AuthEvent) (cause : AuthCause) (other : Option Port) (queueLength : Nat)
  /-- `ended` is `none` for the event ATTACHED and the reason for the event ENDED. -/
  | session (port : Port) (ended : Option EndReason) (limit freed : Nat)
  deriving DecidableEq, Repr

/-- A record as the ELU keeps it (R116, R117). -/
structure Record where
  seq : Nat
  quality : Quality
  time : Time
  body : Body
  deriving DecidableEq, Repr

/-- A retained record with its pending set (R120). -/
structure Retained where
  record : Record
  pending : Vector Bool 4
  deriving DecidableEq, Repr

/-- The addressing of a FIRE or MISSED record: the entry's owner and whether the address scope is ALL (R116). -/
structure Address where
  owner : Option Port
  all : Bool
  deriving DecidableEq, Repr

/-- What connects a waiting record to records of other blocks (R118, log 11): the turn of the tick or step it was posted on or
for, the capture it is posted for, and the turns of the steps that shifted its timestamp. -/
structure Links where
  turn : Option Nat := none
  capture : Option Nat := none
  shifts : List Nat := []
  deriving DecidableEq, Repr

/-- A record as its producer posts it (R116). `address` is present for FIRE and MISSED; `links` is the model's own. -/
structure Posted where
  producer : Block
  quality : Quality
  time : Time
  body : Body
  address : Option Address
  links : Links := {}
  deriving DecidableEq, Repr

/-- The full policy (R122). -/
inductive FullPolicy where
  | hold
  | overwrite
  deriving DecidableEq, Repr

/-- A present subscription: its kind mask and its line mask (R119). -/
structure Subscription where
  kinds : BitVec 5
  lines : BitVec 8
  deriving DecidableEq, Repr

/-- The state of the ELU. The retained records stand in log order, so a FREE slot needs no place (R120, log 25). -/
structure Elu where
  log : List Retained
  nextSeq : Nat
  policy : FullPolicy
  subs : Vector (Option Subscription) 4
  dropped : Vector Nat 4
  lost : Vector Nat 4
  deriving DecidableEq, Repr

/-! ## Session and Authority Unit (chapter 8) -/

/-- A port's session, idle timer, ATN mask and sticky reasons (R136, R138, R150). `overdue` is the model's own mark of an expiry
that a session end in progress keeps waiting: the SAU takes it before every later report and request of the port (R138, log 35). -/
structure Session where
  attached : Bool
  limit : Nat
  seconds : Nat
  cycles : Nat
  mask : BitVec 3
  auth : Bool
  sessionEnded : Bool
  overdue : Bool
  deriving DecidableEq, Repr

/-- Which block takes the session end in progress next (R140 steps 3 and 4). -/
inductive EndPhase where
  | atScu
  | atElu
  deriving DecidableEq, Repr

/-- A session end between its first and its last step (R140, log 10), with the AUTHORITY records held back to step 6. -/
structure Ending where
  port : Port
  reason : EndReason
  phase : EndPhase
  freed : Nat
  records : List Body
  deriving DecidableEq, Repr

/-- The state of the SAU. -/
structure Sau where
  sessions : Vector Session 4
  holder : Option Port
  queue : List Port
  senior : Port
  ending : Option Ending
  deriving DecidableEq, Repr

/-! ## Host Port Units (chapter 9) -/

/-- The requests of the request list (10, requests and responses), less NOP. -/
inductive Code where
  | attach | detach | getStatus | claim | release | take
  | readTime | readTimebase | setTime | stepTime | slewTime | setTrim
  | readRef | refConfig | ppsConfig
  | arm | prime | cancel | hold | resume | queryEntry | listEntries | setQuota
  | bindLine | lineConfig | driveLine | readLines
  | inputConfig | readInputs
  | subscribe | readLog | ackLog | logPolicy
  deriving DecidableEq, Repr

/-- The results of requests (10, result and refusal codes), less NONE. -/
inductive Result where
  | ok | granted | queued
  | unknownRequest | badLength | notAttached | alreadyAttached
  | notAuthority | needLimit | notSenior | range | tableFull | quota | badState
  | staleHandle | notOwner | lineDenied | lineInUse | past | disciplined | notSet | notFound
  deriving DecidableEq, Repr

/-- The refusal reasons of an HPU (R155, R157). -/
inductive FrameRefusal where
  | busy
  | undelivered
  | short
  | overlength
  | badCrc
  deriving DecidableEq, Repr

/-- A staged response (R160). Its LEN is the length of its payload. -/
structure Response where
  result : Result
  tag : Byte
  payload : List Byte
  deriving DecidableEq, Repr

/-- How far a request in the slot has come: passed on and not yet taken, taken with its answer to come, or answered
(R159, R160, R164). -/
inductive Progress where
  | waiting (code : Code) (payload : List Byte)
  | taken
  | answered (result : Result) (payload : List Byte)
  deriving DecidableEq, Repr

/-- The request slot (R158). -/
inductive Slot where
  | free
  | executing (tag : Byte) (discard : Bool) (progress : Progress)
  deriving DecidableEq, Repr

/-- The frame image latched at the start of a frame (R155). -/
structure Image where
  status : Byte
  refusal : Option FrameRefusal
  staged : Option Response
  deriving DecidableEq, Repr

/-- The link state, with the frame image while a frame is in progress (R153). -/
inductive Link where
  | idle
  | inFrame (image : Image)
  deriving DecidableEq, Repr

/-- The state of one HPU. -/
structure Hpu where
  link : Link
  edges : Nat
  slot : Slot
  staged : Option Response
  refusal : Option FrameRefusal
  deriving DecidableEq, Repr

/-! ## Hand-overs made and not yet taken (log 1) -/

/-- What the TBU hands the SCU: a time advance or a step (R67, R78), under its turn. -/
inductive TimeHandover where
  | advance (turn : Nat) (time : Time)
  | step (turn : Nat) (old new : Time)
  deriving DecidableEq, Repr

/-- What waits for the ECU, in the TBU's order: a sample that has come due on a tick, with the time of that tick, or a
step (R101, R108, R109), under the turn of the tick or step. -/
inductive EcuHandover where
  | sample (turn : Nat) (input : Line) (time : Time)
  | step (turn : Nat) (old new : Time)
  deriving DecidableEq, Repr

/-- A captured edge handed to the SCU (R58, R105), with the turn of the tick it was captured on and the number of the
capture. -/
structure Priming where
  input : Line
  direction : Direction
  stamp : Time
  turn : Nat
  capture : Nat
  deriving DecidableEq, Repr

/-- A captured EVT7 edge handed to the RSV (R34), with the number of the capture. -/
structure PpsEdge where
  stamp : Time
  adjusted : Bool
  suppressed : Nat
  capture : Nat
  deriving DecidableEq, Repr

/-- A discipline slew handed to the TBU (R37). -/
structure SlewStart where
  initial : Int
  spacing : Nat
  deriving DecidableEq, Repr

/-- A subscription handed to the ELU by an ATTACH (R136). -/
structure Install where
  port : Port
  sub : Subscription
  deriving DecidableEq, Repr

/-- The report of a valid frame on a port (R156). `request` says that the frame's request was passed on to its block, which takes
it after the report (R163, log 36). -/
structure Report where
  port : Port
  request : Bool
  deriving DecidableEq, Repr

/-- Every hand-over made and not yet taken, each list oldest first. `refTicks` counts the edges of REFCLK that came while it was
selected and whose ticks the TBU has not taken (R29, log 5). `turns` counts the ticks and steps the TBU has taken, and
`captures` the captures of the ECU: the numbers by which the model knows what causes what (R118, log 11). -/
structure Mail where
  refTicks : Nat
  turns : Nat
  captures : Nat
  toScu : List TimeHandover
  toEcu : List EcuHandover
  primings : List Priming
  ppsEdges : List PpsEdge
  slews : List SlewStart
  ops : List Action
  records : List Posted
  installs : List Install
  reports : List Report
  deriving DecidableEq, Repr

/-! ## The whole part -/

/-- The state of the ST412. `rst` is true while RST# is asserted, `pins` holds the level last sampled on each EVT pin
(log 14), `pending` is the queue of commands not yet taken. -/
structure State where
  rst : Bool
  pins : Vector Level 8
  tbu : Tbu
  rsv : Rsv
  scu : Scu
  tou : Tou
  ecu : Ecu
  elu : Elu
  sau : Sau
  hpu : Vector Hpu 4
  mail : Mail
  pending : List Instr
  deriving DecidableEq, Repr

/-- Why the machine could stop with a fault: nothing in the data book stops the part, so there is no reason (log 30).
Nobody raises one, which is safe. -/
inductive Fault where
  deriving DecidableEq, Repr

/-- Why a command could have no meaning. -/
inductive Refusal where
  /-- Raised by `exec` alone, for a command of the table that has no meaning yet. No arm of `exec` raises it now. Safe:
  the model stops where the part goes on. -/
  | notModelled (mnemonic : String)
  deriving DecidableEq, Repr

/-- The TBU at power-on (R22). -/
def Tbu.initial : Tbu :=
  { time := 0, isSet := false, refTrim := 0, intTrim := 0, refAcc := 0, intAcc := 0, slew := none,
    trimTaken := none, slewTaken := false }

/-- The RSV at power-on (R41). -/
def Rsv.initial : Rsv :=
  { state := .unlocked, good := 0, cycles := 0, edges := 0, gap := 0, last := none, age := 0, ageCycles := 0,
    config := { enabled := true, tolerance := 20, qualLength := 100, limit := 3600 },
    pps := { role := false, discipline := false, window := 1000, spacing := 1000 },
    streak := 0, fault := false, lastError := none }

/-- The SCU at power-on (R65). -/
def Scu.initial : Scu :=
  { entries := Vector.replicate 64 (Entry.free 0), quota := Vector.replicate 4 Config.defaultQuota, now := 0 }

/-- A line record at power-on and after RST# (R98, R99). -/
def TrigLine.initial : TrigLine :=
  { binding := none, idle := .low, width := 100, active := false, remaining := 0, counted := false }

/-- The TOU at power-on (R98). -/
def Tou.initial : Tou := { lines := Vector.replicate 8 TrigLine.initial }

/-- An input record at power-on and after RST# (R114, R115). -/
def Input.initial : Input :=
  { select := .off, divider := 1, qualify := 3, dead := 0, phase := 0, stable := none, run := 0, candidate := none,
    adjusted := false, clamped := false, deadLeft := 0, suppressed := 0 }

/-- The ECU at power-on (R114). -/
def Ecu.initial : Ecu := { inputs := Vector.replicate 8 Input.initial }

/-- The ELU at power-on (R134). -/
def Elu.initial : Elu :=
  { log := [], nextSeq := 1, policy := .hold, subs := Vector.replicate 4 none, dropped := Vector.replicate 4 0,
    lost := Vector.replicate 4 0 }

/-- A port's part of the SAU at power-on and after RST#: DETACHED, limit 0, the mask SESSION_ENDED, no reason (R152). The spec
gives a timer that does not run no value: it stands at 0 (DESIGN CHOICE, log 31). -/
def Session.initial : Session :=
  { attached := false, limit := 0, seconds := 0, cycles := 0, mask := 4, auth := false, sessionEnded := false,
    overdue := false }

/-- The SAU at power-on (R152). The senior port is that of the straps LOW, LOW (DESIGN CHOICE, log 15). -/
def Sau.initial : Sau :=
  { sessions := Vector.replicate 4 Session.initial, holder := none, queue := [], senior := 0, ending := none }

/-- An HPU at power-on and after RST# (R164). -/
def Hpu.initial : Hpu := { link := .idle, edges := 0, slot := .free, staged := none, refusal := none }

/-- No hand-over is waiting. -/
def Mail.empty : Mail :=
  { refTicks := 0, turns := 0, captures := 0, toScu := [], toEcu := [], primings := [], ppsEdges := [], slews := [], ops := [], records := [], installs := [],
    reports := [] }

/-- The machine right after reset: every block at its power-on values (R22, R41, R65, R98, R114, R134, R152, R164) and
RST# released (log 15), with no command waiting. -/
def State.reset : State :=
  { rst := false, pins := Vector.replicate 8 .low, tbu := Tbu.initial, rsv := Rsv.initial, scu := Scu.initial,
    tou := Tou.initial, ecu := Ecu.initial, elu := Elu.initial, sau := Sau.initial,
    hpu := Vector.replicate 4 Hpu.initial, mail := Mail.empty, pending := [] }

end Sys2Proof.Machine
end

