-- ==== Sys2Proof/Machine/Bytes.lean ====
section
/-! DEFINITION. Byte order, signed fields, the frame CRC and the bits of a frame (R153, R154, R165). -/

namespace Sys2Proof.Machine

/-- A number as `width` bytes, most significant byte first (R165). -/
def beBytes (n : Nat) : Nat → List Byte
  | 0 => []
  | width + 1 => BitVec.ofNat 8 (n / 256 ^ width) :: beBytes n width

/-- A signed number in two's complement of `width` bytes, most significant byte first (R165). -/
def beSigned (v : Int) (width : Nat) : List Byte :=
  beBytes (v % (256 ^ width : Nat)).toNat width

/-- The number that bytes spell, most significant byte first (R165). -/
def beNat (bytes : List Byte) : Nat :=
  bytes.foldl (fun acc b => acc * 256 + b.toNat) 0

/-- The signed number that bytes spell in two's complement of their width (R165). -/
def beInt (bytes : List Byte) : Int :=
  let n := beNat bytes
  if 2 * n < 256 ^ bytes.length then (n : Int) else (n : Int) - (256 ^ bytes.length : Nat)

/-- The bytes of a payload from an offset. -/
def field (payload : List Byte) (offset width : Nat) : List Byte :=
  (payload.drop offset).take width

/-- An unsigned field of a payload. -/
def fieldNat (payload : List Byte) (offset width : Nat) : Nat := beNat (field payload offset width)

/-- A signed field of a payload. -/
def fieldInt (payload : List Byte) (offset width : Nat) : Int := beInt (field payload offset width)

/-- The seconds part of a time value (R1). -/
def seconds (t : Time) : Nat := t / Config.countsPerSecond

/-- The fraction part of a time value (R1). -/
def fraction (t : Time) : Nat := t % Config.countsPerSecond

/-- A time value as 8 bytes: 5 of seconds, 3 of fraction (R165). -/
def timeBytes (t : Time) : List Byte := beBytes (seconds t) 5 ++ beBytes (fraction t) 3

/-- A time field of a payload, or none if its fraction is above 9 999 999 (R1, R166). -/
def fieldTime (payload : List Byte) (offset : Nat) : Option Time :=
  let frac := fieldNat payload (offset + 5) 3
  if frac < Config.countsPerSecond then some (fieldNat payload offset 5 * Config.countsPerSecond + frac) else none

/-- One bit of the CRC: the generator x^8 + x^2 + x + 1 (R154). -/
def crcShift (c : Byte) : Byte :=
  if c.msb then (c <<< 1) ^^^ 0x07#8 else c <<< 1

/-- One byte of the CRC, bits taken most significant first (R154). -/
def crcByte (c b : Byte) : Byte :=
  crcShift (crcShift (crcShift (crcShift (crcShift (crcShift (crcShift (crcShift (c ^^^ b))))))))

/-- The CRC of a frame's bytes, from the initial value 00H, with no final inversion (R154). -/
def crc (bytes : List Byte) : Byte := bytes.foldl crcByte 0

/-- The weight of a bit. -/
def bitNat (b : Bool) : Nat := if b then 1 else 0

/-- The bytes clocked in a frame: each eight bits, most significant first; the bits of a final incomplete byte are
discarded (R153). -/
def frameBytes : List Bool → List Byte
  | b7 :: b6 :: b5 :: b4 :: b3 :: b2 :: b1 :: b0 :: rest =>
    BitVec.ofNat 8 (128 * bitNat b7 + 64 * bitNat b6 + 32 * bitNat b5 + 16 * bitNat b4 + 8 * bitNat b3
      + 4 * bitNat b2 + 2 * bitNat b1 + bitNat b0) :: frameBytes rest
  | _ => []

/-- The bits of a byte as they are clocked, most significant first (R153). -/
def byteBits (b : Byte) : List Bool :=
  [b.getLsbD 7, b.getLsbD 6, b.getLsbD 5, b.getLsbD 4, b.getLsbD 3, b.getLsbD 2, b.getLsbD 1, b.getLsbD 0]

/-- The bits a host clocks for a list of bytes. -/
def bitsOfBytes (bytes : List Byte) : List Bool := bytes.flatMap byteBits

end Sys2Proof.Machine
end

