-- ==== Sys2Proof/Machine/Flags.lean ====
section
/-! DEFINITION. The codes of enumerated fields and the packed flag bytes (chapter 10, field values, packed bytes, STATUS byte). -/

namespace Sys2Proof.Machine

/-- A flag at a bit position. -/
def flagBit (b : Bool) (pos : Nat) : Nat := if b then 2 ^ pos else 0

/-- A byte of flags, bit 0 first. -/
def flagByte (flags : List Bool) : Byte :=
  BitVec.ofNat 8 (flags.zipIdx.foldl (fun acc f => acc + flagBit f.1 f.2) 0)

/-- One flag of a byte. -/
def flagOf (b : Byte) (pos : Nat) : Bool := b.getLsbD pos

/-- OFF, DISABLED, NO, CLEAR as 00H and ON, ENABLED, YES, SET as 01H. -/
def boolCode (b : Bool) : Byte := if b then 1 else 0

/-- Decoding of an ON, ENABLED or YES byte; any other value is out of range (R166). -/
def boolOf (n : Nat) : Option Bool :=
  match n with | 0 => some false | 1 => some true | _ => none

/-- A port number that may be absent: 00H to 03H, FFH for NONE (R165). -/
def portCode : Option Port → Byte
  | none => 0xFF
  | some p => BitVec.ofNat 8 p.val

/-- A binding: 00H to 03H, 80H for SHARED (R165). -/
def bindingCode : Option Port → Byte
  | none => 0x80
  | some p => BitVec.ofNat 8 p.val

def Quality.code : Quality → Byte
  | .unset => 0 | .freerun => 1 | .holdover => 2 | .locked => 3

def SupState.code : SupState → Byte
  | .unlocked => 0 | .locked => 1 | .holdover => 2

def Source.code : Source → Byte
  | .internal => 0 | .refclk => 1

def WindowClass.code : WindowClass → Byte
  | .good => 1 | .fast => 2 | .slow => 3 | .missing => 4

def RefReason.code : RefReason → Byte
  | .qualified => 1 | .fast => 2 | .slow => 3 | .missing => 4 | .expired => 5 | .disabled => 6

def Origin.code : Origin → Byte
  | .host => 1 | .pps => 2

/-- The slew origin with NONE as 00H. -/
def originCode : Option Origin → Byte
  | none => 0
  | some o => o.code

def EntryState.code : EntryState → Byte
  | .free => 0 | .armed => 1 | .primed => 2 | .held => 3

def LineOp.code : LineOp → Byte
  | .pulse => 0 | .set => 1 | .clear => 2 | .toggle => 3

def LineOp.ofCode : Nat → Option LineOp
  | 0 => some .pulse | 1 => some .set | 2 => some .clear | 3 => some .toggle | _ => none

def PrimeEdge.code : PrimeEdge → Byte
  | .rise => 0 | .fall => 1 | .any => 2

def PrimeEdge.ofCode : Nat → Option PrimeEdge
  | 0 => some .rise | 1 => some .fall | 2 => some .any | _ => none

def Scope.code : Scope → Byte
  | .nobody => 0 | .owner => 1 | .all => 2

def Scope.ofCode : Nat → Option Scope
  | 0 => some .nobody | 1 => some .owner | 2 => some .all | _ => none

def LatePolicy.code : LatePolicy → Byte
  | .catchup => 0 | .skip => 1

def LatePolicy.ofCode : Nat → Option LatePolicy
  | 0 => some .catchup | 1 => some .skip | _ => none

def EdgeSelect.code : EdgeSelect → Byte
  | .off => 0 | .rise => 1 | .fall => 2 | .both => 3

def EdgeSelect.ofCode : Nat → Option EdgeSelect
  | 0 => some .off | 1 => some .rise | 2 => some .fall | 3 => some .both | _ => none

/-- The divider field of INPUT_CONFIG holds the divider's value (10, requests and responses). -/
def dividerOf : Nat → Option Nat
  | 1 => some 1 | 4 => some 4 | 16 => some 16 | 64 => some 64 | _ => none

/-- The divider bits of READ_INPUTS (10, packed bytes). -/
def dividerCode (d : Nat) : Nat :=
  if d = 1 then 0 else if d = 4 then 1 else if d = 16 then 2 else 3

def levelCode : Level → Byte
  | .low => 0 | .high => 1

def levelOf : Nat → Option Level
  | 0 => some .low | 1 => some .high | _ => none

/-- The stable level: UNKNOWN, LOW, HIGH. -/
def stableCode : Option Level → Nat
  | none => 0 | some .low => 1 | some .high => 2

def Direction.code : Direction → Byte
  | .rise => 0 | .fall => 1

def FullPolicy.code : FullPolicy → Byte
  | .hold => 0 | .overwrite => 1

def FullPolicy.ofCode : Nat → Option FullPolicy
  | 0 => some .hold | 1 => some .overwrite | _ => none

def AuthEvent.code : AuthEvent → Byte
  | .granted => 1 | .released => 2 | .revoked => 3 | .expired => 4 | .detached => 5

def AuthCause.code : AuthCause → Byte
  | .nothing => 0 | .claim => 1 | .queue => 2 | .take => 3

def EndReason.code : EndReason → Byte
  | .detached => 1 | .expired => 2

/-- RESULT codes (10, result and refusal codes). NONE, 00H, is the absence of a staged response. -/
def Result.code : Result → Byte
  | .ok => 0x01 | .granted => 0x02 | .queued => 0x03
  | .unknownRequest => 0x10 | .badLength => 0x11 | .notAttached => 0x12 | .alreadyAttached => 0x13
  | .notAuthority => 0x16 | .needLimit => 0x17 | .notSenior => 0x18 | .range => 0x19 | .tableFull => 0x1A
  | .quota => 0x1B | .badState => 0x1C | .staleHandle => 0x1D | .notOwner => 0x1E | .lineDenied => 0x1F
  | .lineInUse => 0x20 | .past => 0x21 | .disciplined => 0x22 | .notSet => 0x23 | .notFound => 0x24

def FrameRefusal.code : FrameRefusal → Byte
  | .busy => 1 | .undelivered => 2 | .short => 3 | .overlength => 4 | .badCrc => 5

/-- The REFUSAL byte: the reason held, or 00H (R155). -/
def refusalCode : Option FrameRefusal → Byte
  | none => 0
  | some r => r.code

/-- CODE of a request (10, requests and responses). -/
def Code.byte : Code → Byte
  | .attach => 0x10 | .detach => 0x11 | .getStatus => 0x12 | .claim => 0x13 | .release => 0x14 | .take => 0x15
  | .readTime => 0x20 | .readTimebase => 0x21 | .setTime => 0x22 | .stepTime => 0x23 | .slewTime => 0x24
  | .setTrim => 0x25 | .readRef => 0x30 | .refConfig => 0x31 | .ppsConfig => 0x32
  | .arm => 0x40 | .prime => 0x41 | .cancel => 0x42 | .hold => 0x43 | .resume => 0x44 | .queryEntry => 0x45
  | .listEntries => 0x46 | .setQuota => 0x47 | .bindLine => 0x50 | .lineConfig => 0x51 | .driveLine => 0x52
  | .readLines => 0x53 | .inputConfig => 0x60 | .readInputs => 0x61 | .subscribe => 0x70 | .readLog => 0x71
  | .ackLog => 0x72 | .logPolicy => 0x73

/-- The request a CODE names, if any (R159). 00H is NOP and never comes here (R156). -/
def Code.ofByte (b : Byte) : Option Code :=
  match b.toNat with
  | 0x10 => some .attach | 0x11 => some .detach | 0x12 => some .getStatus | 0x13 => some .claim
  | 0x14 => some .release | 0x15 => some .take | 0x20 => some .readTime | 0x21 => some .readTimebase
  | 0x22 => some .setTime | 0x23 => some .stepTime | 0x24 => some .slewTime | 0x25 => some .setTrim
  | 0x30 => some .readRef | 0x31 => some .refConfig | 0x32 => some .ppsConfig | 0x40 => some .arm
  | 0x41 => some .prime | 0x42 => some .cancel | 0x43 => some .hold | 0x44 => some .resume
  | 0x45 => some .queryEntry | 0x46 => some .listEntries | 0x47 => some .setQuota | 0x50 => some .bindLine
  | 0x51 => some .lineConfig | 0x52 => some .driveLine | 0x53 => some .readLines | 0x60 => some .inputConfig
  | 0x61 => some .readInputs | 0x70 => some .subscribe | 0x71 => some .readLog | 0x72 => some .ackLog
  | 0x73 => some .logPolicy | _ => none

/-- The payload lengths a CODE allows (10, requests and responses; R159). -/
def Code.lengths : Code → List Nat
  | .attach => [4] | .detach => [0] | .getStatus => [0] | .claim => [0] | .release => [0] | .take => [0]
  | .readTime => [0] | .readTimebase => [0] | .setTime => [8] | .stepTime => [8] | .slewTime => [6]
  | .setTrim => [5] | .readRef => [0] | .refConfig => [5] | .ppsConfig => [8] | .arm => [25] | .prime => [24]
  | .cancel => [2] | .hold => [2] | .resume => [2, 10] | .queryEntry => [2] | .listEntries => [1]
  | .setQuota => [2] | .bindLine => [2] | .lineConfig => [4] | .driveLine => [2] | .readLines => [0]
  | .inputConfig => [6] | .readInputs => [0] | .subscribe => [3] | .readLog => [1] | .ackLog => [5]
  | .logPolicy => [1]

/-- The block that owns a request (R159; the chapter that specifies it). -/
def Code.owner : Code → Block
  | .attach | .detach | .getStatus | .claim | .release | .take => .sau
  | .readTime | .readTimebase | .setTime | .stepTime | .slewTime | .setTrim => .tbu
  | .readRef | .refConfig | .ppsConfig => .rsv
  | .arm | .prime | .cancel | .hold | .resume | .queryEntry | .listEntries | .setQuota => .scu
  | .bindLine | .lineConfig | .driveLine | .readLines => .tou
  | .inputConfig | .readInputs => .ecu
  | .subscribe | .readLog | .ackLog | .logPolicy => .elu

/-- The flags byte of FIRE and MISSED bodies: STEPPED, RESUMED, AT_ARM, LAST (10, record bodies). -/
def causeFlags (cause : Cause) (last : Bool) : Byte :=
  flagByte [cause == .stepped, cause == .resumed, cause == .atArm, last]

/-- A signed count as a sign flag and a 3-byte magnitude (10, record bodies). -/
def magnitude3 (v : Int) : List Byte := beBytes v.natAbs 3

end Sys2Proof.Machine
end

