-- ==== Sys2Proof/Machine/Operands.lean ====
section
/-! DEFINITION. The operands of requests, decoded from payload bytes by the layouts of chapter 10 (R166). `none` stands for a field out of range. -/

namespace Sys2Proof.Machine

/-- A line number (R166). -/
def lineOf (n : Nat) : Option Line := if h : n < 8 then some ⟨n, h⟩ else none

/-- A port number where a port is required (R166). -/
def portOf (n : Nat) : Option Port := if h : n < 4 then some ⟨n, h⟩ else none

/-- An entry index; an index above 63 is out of range (R46). -/
def indexOf (n : Nat) : Option Index := if h : n < 64 then some ⟨n, h⟩ else none

/-- A binding byte: 00H to 03H, or 80H for SHARED (10, packed bytes). -/
def bindingOf (n : Nat) : Option (Option Port) :=
  if n = 0x80 then some none else (portOf n).map some

/-- A number within inclusive bounds (R166). -/
def inRange (lo hi n : Nat) : Option Nat := if lo ≤ n ∧ n ≤ hi then some n else none

/-- A signed number of bounded magnitude. -/
def inMagnitude (bound : Nat) (v : Int) : Option Int := if v.natAbs ≤ bound then some v else none

/-- SLEW_TIME: offset and spacing (R17). -/
def slewOperands (p : List Byte) : Option (Int × Nat) := do
  let offset ← inMagnitude Config.maxSlew (fieldInt p 0 4)
  let spacing ← inRange 100 10000 (fieldNat p 4 2)
  return (offset, spacing)

/-- SET_TRIM: source and trim (R19). -/
def trimOperands (p : List Byte) : Option (Source × Int) := do
  let reference ← boolOf (fieldNat p 0 1)
  let trim ← inMagnitude Config.maxTrim (fieldInt p 1 4)
  return (if reference then .refclk else .internal, trim)

/-- REF_CONFIG: the four fields of the supervision configuration (R31). -/
def refOperands (p : List Byte) : Option SupConfig := do
  let enabled ← boolOf (fieldNat p 0 1)
  let tolerance ← inRange 5 50 (fieldNat p 1 1)
  let qualLength ← inRange 1 255 (fieldNat p 2 1)
  let limit ← inRange 1 65535 (fieldNat p 3 2)
  return { enabled, tolerance, qualLength, limit }

/-- PPS_CONFIG: the four fields; discipline ON with role OFF is out of range (R35). -/
def ppsOperands (p : List Byte) : Option PpsConfig := do
  let role ← boolOf (fieldNat p 0 1)
  let discipline ← boolOf (fieldNat p 1 1)
  let window ← inRange 1 5000000 (fieldNat p 2 4)
  let spacing ← inRange 100 10000 (fieldNat p 6 2)
  if discipline && !role then none else return { role, discipline, window, spacing }

/-- The fields ARM and PRIME have in common, less the detached flag (R51). -/
structure Creation where
  label : Nat
  period : Option Nat
  remaining : Option Nat
  action : Option Action
  scope : Scope
  policy : LatePolicy
  deriving DecidableEq, Repr

/-- The detached flag of ARM and PRIME (10, packed bytes). -/
def detachedFlag (p : List Byte) : Bool := flagOf (p.getD 0 0) 0

/-- The period field, at an offset, if its presence bit is set (R51 check 3). -/
def periodOperand (flags : Byte) (p : List Byte) (at_ : Nat) : Option (Option Nat) :=
  if flagOf flags 1 then ((fieldTime p at_).bind (inRange Config.minPeriod Config.maxPeriod)).map some else some none

/-- The remaining count, if its presence bit is set: it needs a period and is not 0 (R51 check 3). -/
def remainingOperand (flags : Byte) (p : List Byte) (at_ : Nat) : Option (Option Nat) :=
  if flagOf flags 2 then
    (if flagOf flags 1 then (inRange 1 65535 (fieldNat p at_ 2)).map some else none)
  else some none

/-- The output action, if its presence bit is set (R51 check 3). -/
def actionOperand (flags : Byte) (p : List Byte) (at_ : Nat) : Option (Option Action) :=
  if flagOf flags 3 then
    (lineOf (fieldNat p at_ 1)).bind fun line =>
      (LineOp.ofCode (fieldNat p (at_ + 1) 1)).map fun op => some { line, op }
  else some none

/-- The notify scope: OWNER is out of range with the detached flag set (R51 check 3). -/
def scopeOperand (flags : Byte) (n : Nat) : Option Scope :=
  (Scope.ofCode n).bind fun sc => if flagOf flags 0 && sc == .owner then none else some sc

/-- The common fields of ARM and PRIME; the period stands at the offset given and the others follow it. -/
def creationOperands (p : List Byte) (at_ : Nat) : Option Creation := do
  let flags := p.getD 0 0
  let period ← periodOperand flags p at_
  let remaining ← remainingOperand flags p (at_ + 8)
  let action ← actionOperand flags p (at_ + 10)
  let scope ← scopeOperand flags (fieldNat p (at_ + 12) 1)
  let policy ← LatePolicy.ofCode (fieldNat p (at_ + 13) 1)
  return { label := fieldNat p 1 2, period, remaining, action, scope, policy }

/-- ARM: the due and the common fields (R51). -/
def armOperands (p : List Byte) : Option (Time × Creation) := do
  let due ← fieldTime p 3
  let creation ← creationOperands p 11
  return (due, creation)

/-- PRIME: the prime spec and the common fields (R51). -/
def primeOperands (p : List Byte) : Option (PrimeSpec × Creation) := do
  let input ← lineOf (fieldNat p 3 1)
  let edge ← PrimeEdge.ofCode (fieldNat p 4 1)
  let delay ← inRange 0 Config.maxDelay (fieldNat p 5 4)
  let rearm ← boolOf (fieldNat p 9 1)
  let creation ← creationOperands p 10
  return ({ input, edge, delay, rearm }, creation)

/-- SET_QUOTA: port and quota (R50). -/
def quotaOperands (p : List Byte) : Option (Port × Nat) := do
  let port ← portOf (fieldNat p 0 1)
  let quota ← inRange 1 64 (fieldNat p 1 1)
  return (port, quota)

/-- BIND_LINE: line and binding (R93). -/
def bindOperands (p : List Byte) : Option (Line × Option Port) := do
  let line ← lineOf (fieldNat p 0 1)
  let binding ← bindingOf (fieldNat p 1 1)
  return (line, binding)

/-- LINE_CONFIG: line, idle level and width (R95). -/
def lineConfigOperands (p : List Byte) : Option (Line × Level × Nat) := do
  let line ← lineOf (fieldNat p 0 1)
  let idle ← levelOf (fieldNat p 1 1)
  let width ← inRange 1 65535 (fieldNat p 2 2)
  return (line, idle, width)

/-- DRIVE_LINE: line and operation (R92). -/
def driveOperands (p : List Byte) : Option Action := do
  let line ← lineOf (fieldNat p 0 1)
  let op ← LineOp.ofCode (fieldNat p 1 1)
  return { line, op }

/-- The configuration fields of INPUT_CONFIG (R111). -/
structure InputConfig where
  select : EdgeSelect
  divider : Nat
  qualify : Nat
  dead : Nat
  deriving DecidableEq, Repr

/-- INPUT_CONFIG: line and the four configuration fields (R111). -/
def inputOperands (p : List Byte) : Option (Line × InputConfig) := do
  let line ← lineOf (fieldNat p 0 1)
  let select ← EdgeSelect.ofCode (fieldNat p 1 1)
  let divider ← dividerOf (fieldNat p 2 1)
  let qualify ← inRange 1 15 (fieldNat p 3 1)
  return (line, { select, divider, qualify, dead := fieldNat p 4 2 })

/-- A kind mask; a bit above bit 4 is out of range (R166). -/
def kindMaskOf (n : Nat) : Option (BitVec 5) := if n < 32 then some (BitVec.ofNat 5 n) else none

/-- An ATN mask; a bit above bit 2 is out of range (R166). -/
def atnMaskOf (n : Nat) : Option (BitVec 3) := if n < 8 then some (BitVec.ofNat 3 n) else none

/-- A subscription and an ATN mask as ATTACH (at offset 1) and SUBSCRIBE (at offset 0) carry them (R130, R136). -/
def maskOperands (p : List Byte) (at_ : Nat) : Option (Subscription × BitVec 3) := do
  let kinds ← kindMaskOf (fieldNat p at_ 1)
  let mask ← atnMaskOf (fieldNat p (at_ + 2) 1)
  return ({ kinds, lines := p.getD (at_ + 1) 0 }, mask)

end Sys2Proof.Machine
end

