-- ==== Sys2Proof/Machine/Records.lean ====
section
/-! DEFINITION. The 24-byte layout of records (R168; chapter 10, record bodies). -/

namespace Sys2Proof.Machine

/-- The kinds of records (10, field values). -/
inductive Kind where
  | edge | fire | missed | step | slewDone | refState | pps | authority | session
  deriving DecidableEq, Repr

def Kind.code : Kind → Byte
  | .edge => 1 | .fire => 2 | .missed => 3 | .step => 4 | .slewDone => 5 | .refState => 6 | .pps => 7
  | .authority => 8 | .session => 9

/-- The kind of a record, which its body's layout follows (R116). -/
def Body.kind : Body → Kind
  | .edge .. => .edge
  | .fire .. => .fire
  | .missed .. => .missed
  | .step .. => .step
  | .slewDone .. => .slewDone
  | .refState .. => .refState
  | .pps .. => .pps
  | .authority .. => .authority
  | .session .. => .session

/-- The 10 bytes of a body (10, record bodies). -/
def Body.bytes : Body → List Byte
  | .edge input direction adjusted clamped suppressed span =>
    [BitVec.ofNat 8 input.val, direction.code, flagByte [adjusted, clamped], BitVec.ofNat 8 suppressed]
      ++ beBytes span 2 ++ [0, 0, 0, 0]
  | .fire index generation label lateness occurrences cause last quality =>
    [BitVec.ofNat 8 (index.val + 64 * quality.code.toNat), BitVec.ofNat 8 generation] ++ beBytes label 2
      ++ beBytes lateness 4 ++ [BitVec.ofNat 8 occurrences, causeFlags cause last]
  | .missed index generation label distance occurrences cause last =>
    [BitVec.ofNat 8 index.val, BitVec.ofNat 8 generation] ++ beBytes label 2
      ++ beBytes distance 4 ++ [BitVec.ofNat 8 occurrences, causeFlags cause last]
  | .step isStep offset saturated cancelled =>
    let origin := (cancelled.map (fun c => c.1 == Origin.pps)).getD false
    let residual := (cancelled.map (fun c => c.2)).getD 0
    [flagByte [isStep, saturated, cancelled.isSome, origin, decide (residual < 0)]] ++ beSigned offset 6
      ++ magnitude3 residual
  | .slewDone origin total spacing =>
    [flagByte [origin == .pps, false, false, false, decide (total < 0)]] ++ magnitude3 total ++ beBytes spacing 2
      ++ [0, 0, 0, 0]
  | .refState old new reason count age =>
    [old.code, new.code, reason.code] ++ beBytes count 2 ++ beBytes age 2 ++ [0, 0, 0]
  | .pps error applied outlier fault notLocked adjusted streak suppressed =>
    beSigned error 4 ++ [flagByte [applied, outlier, fault, notLocked, adjusted], BitVec.ofNat 8 streak,
      BitVec.ofNat 8 suppressed, 0, 0, 0]
  | .authority port event cause other queueLength =>
    [BitVec.ofNat 8 port.val, event.code, cause.code, portCode other, BitVec.ofNat 8 queueLength, 0, 0, 0, 0, 0]
  | .session port ended limit freed =>
    [BitVec.ofNat 8 port.val, if ended.isSome then 2 else 1, (ended.map EndReason.code).getD 0, BitVec.ofNat 8 limit,
      BitVec.ofNat 8 freed, 0, 0, 0, 0, 0]

/-- A record as 24 bytes: seq, kind, quality, time value, body (R168). -/
def Record.bytes (r : Record) : List Byte :=
  beBytes r.seq 4 ++ [r.body.kind.code, r.quality.code] ++ timeBytes r.time ++ r.body.bytes

end Sys2Proof.Machine
end

