-- ==== Sys2Proof/Machine/Ops.lean ====
section
/-! DEFINITION. The operations the blocks share: quality and clock source, posting records, the checks of attachment and authority, taking a request from its port's slot and handing back its answer. -/

namespace Sys2Proof.Machine

/-! ## Derived values (log 20) -/

/-- The source of the timebase clock: REFCLK while LOCKED, the internal oscillator otherwise (R29). -/
def State.source (s : State) : Source :=
  match s.rsv.state with
  | .locked => .refclk
  | .unlocked => .internal
  | .holdover => .internal

/-- The source of the tick now to be taken: REFCLK while an edge of it waits to be taken as a tick, and else the source
selected (R2, R29, log 5). -/
def State.tickSource (s : State) : Source := if 0 < s.mail.refTicks then .refclk else s.source

/-- The quality of the timescale, from the set flag and the supervision state (R9). -/
def State.quality (s : State) : Quality :=
  if s.tbu.isSet then
    match s.rsv.state with
    | .locked => .locked
    | .holdover => .holdover
    | .unlocked => .freerun
  else .unset

/-- The pending count of a port: the retained records whose pending set contains it (R120). -/
def Elu.pendingCount (e : Elu) (p : Port) : Nat := (e.log.filter fun r => r.pending[p]).length

/-- The LOG attention reason (R131). -/
def Elu.logReason (e : Elu) (p : Port) : Bool := decide (0 < e.pendingCount p)

/-- The three attention reasons of a port as a mask: LOG, AUTH, SESSION_ENDED from bit 0 (R150). -/
def State.reasons (s : State) (p : Port) : BitVec 3 :=
  let ses := s.sau.sessions[p]
  BitVec.ofNat 3 (bitNat (s.elu.logReason p) + 2 * bitNat ses.auth + 4 * bitNat ses.sessionEnded)

/-- ATN# is asserted while a reason named in the port's mask holds and RST# is not asserted (R150). -/
def State.atn (s : State) (p : Port) : Bool :=
  !s.rst && decide (s.reasons p &&& s.sau.sessions[p].mask ≠ 0)

/-- PnRDY# is asserted while the slot is FREE and RST# is not asserted (R162). -/
def State.ready (s : State) (p : Port) : Bool := !s.rst && decide (s.hpu[p].slot = .free)

/-- The pin level of a trigger line (R88). -/
def TrigLine.pin (l : TrigLine) : Level :=
  match l.idle, l.active with
  | .low, false => .low
  | .low, true => .high
  | .high, false => .high
  | .high, true => .low

/-! ## Posting records -/

/-- A block posts a record, with the quality at this moment (R9, R116) and what connects it to others (R118). -/
def State.post (s : State) (producer : Block) (time : Time) (body : Body) (address : Option Address := none)
    (links : Links := {}) : State :=
  { s with mail := { s.mail with
      records := s.mail.records ++ [{ producer, quality := s.quality, time, body, address, links }] } }

/-- A block posts several records at one time value, in order. -/
def State.postAll (s : State) (producer : Block) (time : Time) (bodies : List Body) : State :=
  bodies.foldl (fun s b => s.post producer time b) s

/-! ## Hand-overs of the TBU (log 1) -/

/-- The turn of a hand-over to the SCU. -/
def TimeHandover.turn : TimeHandover → Nat
  | .advance turn _ => turn
  | .step turn _ _ => turn

/-- Whether the SCU has taken every hand-over of the TBU up to a turn (R78, R79, R83). -/
def State.scuTook (s : State) (turn : Nat) : Bool := !s.mail.toScu.any fun h => decide (h.turn ≤ turn)

/-! ## Updates of one port, line, input or entry -/

def State.withSession (s : State) (p : Port) (f : Session → Session) : State :=
  { s with sau := { s.sau with sessions := s.sau.sessions.set p.val (f s.sau.sessions[p]) } }

def State.withHpu (s : State) (p : Port) (f : Hpu → Hpu) : State :=
  { s with hpu := s.hpu.set p.val (f s.hpu[p]) }

def State.withLine (s : State) (n : Line) (f : TrigLine → TrigLine) : State :=
  { s with tou := { s.tou with lines := s.tou.lines.set n.val (f s.tou.lines[n]) } }

def State.withInput (s : State) (n : Line) (i : Input) : State :=
  { s with ecu := { s.ecu with inputs := s.ecu.inputs.set n.val i } }

def State.withEntry (s : State) (i : Index) (e : Entry) : State :=
  { s with scu := { s.scu with entries := s.scu.entries.set i.val e } }

/-! ## Attachment and authority (R137, R148) -/

/-- The SAU's answer to an attachment check (R137). -/
def State.attached (s : State) (p : Port) : Bool := s.sau.sessions[p].attached

/-- Whether a port is attached and holds the time authority (R148). -/
def State.holds (s : State) (p : Port) : Bool := s.attached p && decide (s.sau.holder = some p)

/-- What a block answers a request with, and the state the request leaves. -/
structure Reply where
  state : State
  result : Result
  payload : List Byte
  deriving DecidableEq, Repr

/-- A refused request changes no state and carries no payload (R167). -/
def State.refuse (s : State) (r : Result) : Reply := { state := s, result := r, payload := [] }

/-- A request served without a change of state. -/
def State.report (s : State) (payload : List Byte) : Reply := { state := s, result := .ok, payload }

/-- The attachment check (R137), then the rest. -/
def State.ifAttached (s : State) (p : Port) (k : Reply) : Reply :=
  if s.attached p then k else s.refuse .notAttached

/-- The attachment and authority checks (R11), then the rest. -/
def State.ifHolder (s : State) (p : Port) (k : Reply) : Reply :=
  s.ifAttached p (if s.sau.holder = some p then k else s.refuse .notAuthority)

/-- The range check of decoded operands, then the rest (R166). -/
def State.ifInRange {α : Type} (s : State) (operands : Option α) (k : α → Reply) : Reply :=
  match operands with
  | none => s.refuse .range
  | some a => k a

/-! ## Requests in the slot (R159, R160) -/

/-- Whether the report of the frame that carried a port's request has still to be taken by the SAU (R156). -/
def State.reportWaits (s : State) (p : Port) : Bool := s.mail.reports.any fun r => r.port == p && r.request

/-- Whether a port's request has still to wait for the SAU: until it has taken the report of the frame, so that a frame reported
after an expiry has its request taken from a detached port (R138, R163, log 36), and until it has taken an expiry that waits under
its mark (log 35). -/
def State.requestHeld (s : State) (p : Port) : Bool := s.reportWaits p || s.sau.sessions[p].overdue

/-- The payload of the request of a given CODE that waits in a port's slot for its owning block. -/
def State.request? (s : State) (p : Port) (c : Code) : Option (List Byte) :=
  match s.hpu[p].slot with
  | .executing _ _ (.waiting c' payload) => if c' = c ∧ s.requestHeld p = false then some payload else none
  | _ => none

/-- The owning block hands its answer back to the HPU, which completes the request later (R160). -/
def Hpu.answer (h : Hpu) (r : Result) (payload : List Byte) : Hpu :=
  match h.slot with
  | .executing tag discard _ => { h with slot := .executing tag discard (.answered r payload) }
  | .free => h

/-- The owning block takes a request: nothing happens if no such request waits (log 2), else the request is carried out
and its answer handed back. -/
def State.serve (s : State) (p : Port) (c : Code) (f : List Byte → Reply) : State :=
  match s.request? p c with
  | none => s
  | some payload =>
    let r := f payload
    r.state.withHpu p (·.answer r.result r.payload)

end Sys2Proof.Machine
end

