-- ==== Sys2Proof/Machine/HostPort.lean ====
section
/-! DEFINITION. The Host Port Units: frames, acceptance and refusal, staging and delivery (chapter 9). -/

namespace Sys2Proof.Machine

/-! ## The response frame (R155) -/

/-- The STATUS byte of a port at this moment (R155; 10, STATUS byte). -/
def State.statusByte (s : State) (p : Port) : Byte :=
  let h := s.hpu[p]
  flagByte [h.refusal.isSome, s.atn p, h.staged.isSome, decide (h.slot ≠ .free), s.elu.logReason p,
    decide (p ∈ s.sau.queue), decide (s.sau.holder = some p), s.attached p]

/-- The bytes of the response part before its CRC: STATUS, REFUSAL, RESULT, TAG, LEN, payload (R155). -/
def Image.body (m : Image) : List Byte :=
  [m.status, refusalCode m.refusal] ++
    match m.staged with
    | none => [0, 0, 0]
    | some r => [r.result.code, r.tag, BitVec.ofNat 8 r.payload.length] ++ r.payload

/-- The bytes a frame presents on PnSDO, to the end of the CRC (R155). -/
def Image.bytes (m : Image) : List Byte := m.body ++ [crc m.body]

/-- The byte a frame presents on PnSDO at a place; after the CRC it is 00H (R153, R155). -/
def Image.byteAt (m : Image) (k : Nat) : Byte := m.bytes.getD k 0

/-- The bit on PnSDO at the k-th rising edge of PnSCK in a frame, most significant bit of each byte first; none while PnSDO
is released (R153, R164). -/
def State.sdo (s : State) (p : Port) (k : Nat) : Option Bool :=
  match s.hpu[p].link with
  | .idle => none
  | .inFrame m => if s.rst then none else some ((m.byteAt (k / 8)).getLsbD (7 - k % 8))

/-- FRAME_BEGIN: a falling edge of PnSEL# latches the frame image (R153, R155). It is ignored while RST# is asserted
(R164) and cannot come within a frame (log 2). -/
def State.frameBegin (s : State) (p : Port) : State :=
  let h := s.hpu[p]
  if s.rst ∨ h.link ≠ .idle then s
  else
    s.withHpu p fun h =>
      { h with edges := 0, link := .inFrame { status := s.statusByte p, refusal := h.refusal, staged := h.staged } }

/-- FRAME_BEGIN (R153). -/
def execFrameBegin (p : Port) (s : State) : Host.Outcome State Fault Refusal := .next (s.frameBegin p)

/-! ## The end of a frame (R156 to R159) -/

/-- The length of the response part of an image that carries a response (R155). -/
def Response.frameLength (r : Response) : Nat := r.payload.length + 6

/-- Delivery and the reported refusal (R157). -/
def Hpu.settle (h : Hpu) (m : Image) (clocked : Nat) : Hpu :=
  { h with
    staged := if m.staged.any (fun r => decide (r.frameLength ≤ clocked)) then none else h.staged
    refusal := if m.refusal.isSome ∧ 2 ≤ clocked then none else h.refusal }

/-- The classification of a frame (R156). -/
inductive FrameClass where
  | linkBreak
  | refused (r : FrameRefusal)
  | nop
  | request (code tag : Byte) (payload : List Byte)
  deriving DecidableEq, Repr

/-- The table of R156, on the edge count and the bytes clocked. -/
def classify (edges : Nat) (bytes : List Byte) : FrameClass :=
  let len := (bytes.getD 2 0).toNat
  if edges < 8 then .linkBreak
  else if 128 < bytes.length then .refused .overlength
  else if bytes.length < 3 then .refused .short
  else if 48 < len then .refused .overlength
  else if bytes.length < len + 4 then .refused .short
  else if bytes.getD (len + 3) 0 ≠ crc (bytes.take (len + 3)) then .refused .badCrc
  else if bytes.getD 0 0 = 0 then .nop
  else .request (bytes.getD 0 0) (bytes.getD 1 0) ((bytes.drop 3).take len)

/-- A link break discards the staged response, clears the refusal and marks an executing request (R161). -/
def Hpu.linkBreak (h : Hpu) : Hpu :=
  { h with
    staged := none
    refusal := none
    slot := match h.slot with
      | .free => .free
      | .executing tag _ progress => .executing tag true progress }

/-- A request that the HPU completes itself, with LEN 0 (R159, R160). -/
def Hpu.stage (h : Hpu) (result : Result) (tag : Byte) : Hpu :=
  { h with staged := some { result, tag, payload := [] } }

/-- An accepted request is passed on by its CODE, or completed by the HPU (R159). -/
def Hpu.accept (h : Hpu) (code tag : Byte) (payload : List Byte) : Hpu :=
  match Code.ofByte code with
  | none => h.stage .unknownRequest tag
  | some c =>
    if payload.length ∈ c.lengths then { h with slot := .executing tag false (.waiting c payload) }
    else h.stage .badLength tag

/-- The acceptance check of a valid request frame (R158). -/
def Hpu.judge (h : Hpu) (code tag : Byte) (payload : List Byte) : Hpu :=
  if h.slot ≠ .free then { h with refusal := some .busy }
  else if h.staged.isSome then { h with refusal := some .undelivered }
  else h.accept code tag payload

/-- What a frame's classification does to the HPU (R156, R158, R161). -/
def Hpu.conclude (h : Hpu) : FrameClass → Hpu
  | .linkBreak => h.linkBreak
  | .refused r => { h with refusal := some r }
  | .nop => h
  | .request code tag payload => h.judge code tag payload

/-- Whether a frame ended with a valid CRC and is reported to the SAU (R156). -/
def FrameClass.reported : FrameClass → Bool
  | .linkBreak => false
  | .refused _ => false
  | .nop => true
  | .request .. => true

/-- Whether a frame passed its request on to a block: the slot was FREE and is EXECUTING (R158, R159). -/
def Hpu.passedOn (before after : Hpu) : Bool := decide (before.slot = .free) && decide (after.slot ≠ .free)

/-- FRAME_END: a rising edge of PnSEL# settles and classifies the frame (R156, R157). Outside a frame it is ignored (R164). -/
def State.frameEnd (s : State) (p : Port) (bits : List Bool) : State :=
  match s.hpu[p].link with
  | .idle => s
  | .inFrame m =>
    let bytes := frameBytes bits
    let cls := classify bits.length bytes
    let h := s.hpu[p]
    let after := { ((h.settle m bytes.length).conclude cls) with link := .idle, edges := bits.length }
    let s1 := s.withHpu p fun _ => after
    if cls.reported then
      { s1 with mail := { s1.mail with reports := s1.mail.reports ++ [{ port := p, request := h.passedOn after }] } }
    else s1

/-- FRAME_END (R156). -/
def execFrameEnd (p : Port) (bits : List Bool) (s : State) : Host.Outcome State Fault Refusal := .next (s.frameEnd p bits)

/-! ## Completion (R160) -/

/-- A request with its answer handed back completes: the answer is staged, or discarded under the discard mark, and the
slot becomes FREE (R160, R161). -/
def Hpu.complete (h : Hpu) : Hpu :=
  match h.slot with
  | .executing tag discard (.answered result payload) =>
    { h with slot := .free, staged := if discard then h.staged else some { result, tag, payload } }
  | _ => h

/-- REQUEST_COMPLETION (R160). -/
def execRequestCompletion (p : Port) (s : State) : Host.Outcome State Fault Refusal := .next (s.withHpu p Hpu.complete)

end Sys2Proof.Machine
end

