-- ==== Sys2Proof/Machine/Log.lean ====
section
/-! DEFINITION. The Event Log Unit: taking records, the full policies, acknowledging, session ends at the log, and the four log requests (chapter 7). -/

namespace Sys2Proof.Machine

/-! ## Scope (R120) -/

/-- The five subscription kinds as bits of the kind mask (10, field values). -/
def Subscription.edge (b : Subscription) : Bool := b.kinds.getLsbD 0
def Subscription.schedule (b : Subscription) : Bool := b.kinds.getLsbD 1
def Subscription.timing (b : Subscription) : Bool := b.kinds.getLsbD 2
def Subscription.reference (b : Subscription) : Bool := b.kinds.getLsbD 3
def Subscription.session (b : Subscription) : Bool := b.kinds.getLsbD 4

/-- The scope of a FIRE or MISSED record (R120). -/
def inEntryScope (a : Option Address) (p : Port) (b : Subscription) : Bool :=
  match a with
  | none => false
  | some a =>
    match a.owner with
    | none => b.schedule
    | some q => p == q || (a.all && b.schedule)

/-- The table of R120: whether a port with a subscription lies in a record's scope. -/
def Posted.inScope (r : Posted) (p : Port) (b : Subscription) : Bool :=
  match r.body with
  | .edge input .. => b.edge && b.lines.getLsbD input.val
  | .fire .. => inEntryScope r.address p b
  | .missed .. => inEntryScope r.address p b
  | .step .. => b.timing
  | .slewDone .. => b.timing
  | .refState .. => b.reference
  | .pps .. => b.reference
  | .authority port .. => p == port || b.session
  | .session port .. => p != port && b.session

/-- A vector with one item for each port. -/
def perPort {α : Type} (f : Port → α) : Vector α 4 := #v[f 0, f 1, f 2, f 3]

/-- The pending set of a record: the ports the ELU counts as attached that lie in its scope (R120). -/
def Elu.pendingSet (e : Elu) (r : Posted) : Vector Bool 4 :=
  perPort fun p => e.subs[p].any (r.inScope p)

/-- A pending set with no port. -/
def emptySet : Vector Bool 4 := Vector.replicate 4 false

/-! ## Taking a record (R117, R120, R122 to R124) -/

/-- The seq after one is given: FFFFFFFFH is followed by 1 (R117). -/
def nextSeqAfter (n : Nat) : Nat := if Config.maxSeq ≤ n then 1 else n + 1

/-- Counters of the ports in a set rise by 1, saturating at 65 535 (R123, R124). -/
def bump (counters : Vector Nat 4) (set : Vector Bool 4) : Vector Nat 4 :=
  counters.zipWith (fun n b => if b then min (n + 1) 65535 else n) set

/-- The ELU stores, drops or evicts for a record with a pending set that is not empty (R120, R123, R124). -/
def Elu.store (e : Elu) (r : Retained) : Elu :=
  if e.log.length < Config.logSlots then { e with log := e.log ++ [r] }
  else
    match e.policy with
    | .hold => { e with dropped := bump e.dropped r.pending }
    | .overwrite =>
      match e.log with
      | [] => e
      | oldest :: rest => { e with log := rest ++ [r], lost := bump e.lost oldest.pending }

/-- The ELU takes a record: it gives it the next seq, computes its pending set, and stores it unless the set is empty
(R117, R120). -/
def Elu.takeRecord (e : Elu) (r : Posted) : Elu :=
  let set := e.pendingSet r
  let kept : Retained := { record := { seq := e.nextSeq, quality := r.quality, time := r.time, body := r.body }, pending := set }
  let e1 := { e with nextSeq := nextSeqAfter e.nextSeq }
  if set = emptySet then e1 else e1.store kept

/-- Whether one number is known and not above another. -/
def notAfter : Option Nat → Option Nat → Bool
  | some a, some b => decide (a ≤ b)
  | _, _ => false

/-- Whether an EDGE record is of the tick of a turn, or of a run that the step of that turn shifted. -/
def Links.follows (l : Links) (turn : Nat) : Bool := l.turn == some turn || l.shifts.contains turn

/-- Whether a waiting record is taken before a waiting record of another block (R118, log 11). A record of the TBU goes before
the SCU's and the ECU's made for a hand-over of the same turn or a later one, and a record of the ECU before the SCU's and the
RSV's made for the same capture or a later one: each was posted before its block handed that event on. The SCU's records for
an advance or a step go before the EDGE records of the same tick, or of runs that the same step shifted, and the RSV's record
of an edge before the SCU's for it: one event handed to two blocks in turn. -/
def Posted.precedes (a b : Posted) : Bool :=
  match a.producer, b.producer with
  | .tbu, .scu => notAfter a.links.turn b.links.turn
  | .tbu, .ecu => notAfter a.links.turn b.links.turn
  | .ecu, .scu => notAfter a.links.capture b.links.capture
  | .ecu, .rsv => notAfter a.links.capture b.links.capture
  | .scu, .ecu => a.links.turn.any b.links.follows
  | .rsv, .scu => a.links.capture.isSome && a.links.capture == b.links.capture
  | _, _ => false

/-- Whether a record that a waiting record must follow has still to be posted: the SCU has not taken the time advance of an
EDGE record's tick or a step that shifted its run, or the RSV the edge that a record of the SCU comes from (R118, log 11). -/
def Mail.awaits (m : Mail) (r : Posted) : Bool :=
  match r.producer with
  | .ecu => m.toScu.any fun h => r.links.follows h.turn
  | .scu => m.ppsEdges.any fun e => r.links.capture == some e.capture
  | _ => false

/-- Whether a waiting record must let another go first (R118). -/
def Mail.holdsBack (m : Mail) (r : Posted) : Bool := m.awaits r || m.records.any (·.precedes r)

/-- The oldest waiting record of a producer, and the rest (R118). -/
def takePosted (producer : Block) : List Posted → Option (Posted × List Posted)
  | [] => none
  | r :: rest =>
    if r.producer = producer then some (r, rest) else (takePosted producer rest).map fun x => (x.1, r :: x.2)

/-- RECORD_TAKE: the ELU takes the oldest waiting record of a producer, unless another must go before it (R116, R118,
R120). -/
def State.recordTake (s : State) (producer : Block) : State :=
  match takePosted producer s.mail.records with
  | none => s
  | some (r, rest) =>
    if s.mail.holdsBack r then s
    else { s with elu := s.elu.takeRecord r, mail := { s.mail with records := rest } }

/-- RECORD_TAKE (R120). -/
def execRecordTake (producer : Block) (s : State) : Host.Outcome State Fault Refusal := .next (s.recordTake producer)

/-! ## Attachment at the log (R119) -/

/-- The subscription waiting for a port, and the other installs. -/
def takeInstall (p : Port) : List Install → Option (Subscription × List Install)
  | [] => none
  | i :: rest => if i.port = p then some (i.sub, rest) else (takeInstall p rest).map fun r => (r.1, i :: r.2)

/-- Whether a record ends a session of a port: the last of the records of step 6 of R140. -/
def Body.ends (p : Port) : Body → Bool
  | .session q (some _) _ _ => q == p
  | _ => false

/-- Whether the records of a session end of a port still wait: the ELU takes them before it installs a later subscription of the
port, so that none of them is pending for it (R140, log 32). -/
def State.endRecordsWait (s : State) (p : Port) : Bool := s.mail.records.any fun r => r.body.ends p

/-- SUBSCRIPTION_INSTALL: the ELU counts the port as attached from here on, with its counters at 0 (R119, R125). -/
def State.subscriptionInstall (s : State) (p : Port) : State :=
  if s.endRecordsWait p then s
  else
    match takeInstall p s.mail.installs with
    | none => s
    | some (sub, rest) =>
      { s with
        elu := { s.elu with
          subs := s.elu.subs.set p.val (some sub), dropped := s.elu.dropped.set p.val 0, lost := s.elu.lost.set p.val 0 }
        mail := { s.mail with installs := rest } }

/-- SUBSCRIPTION_INSTALL (R119). -/
def execSubscriptionInstall (p : Port) (s : State) : Host.Outcome State Fault Refusal := .next (s.subscriptionInstall p)

/-- Whether a subscription handed over for a port has still to be installed (log 26). -/
def State.installWaits (s : State) (p : Port) : Bool := s.mail.installs.any fun i => i.port == p

/-! ## Session end at the log (R132) -/

/-- Whether a FIRE or MISSED record of a port's own entry waits: it was posted before the SCU took the port's session end, and
the ELU takes it before that session end (R64, R87, R133). -/
def State.ownRecordsWait (s : State) (p : Port) : Bool :=
  s.mail.records.any fun r => r.address.any fun a => a.owner == some p

/-- A record without a port in its pending set. -/
def Retained.without (r : Retained) (p : Port) : Retained := { r with pending := r.pending.set p.val false }

/-- Records whose pending set is empty are freed (R121). -/
def freeEmpty (log : List Retained) : List Retained := log.filter fun r => r.pending != emptySet

/-- The ELU removes a port: it leaves every pending set, its counters become 0 and its subscription absent (R132). -/
def Elu.remove (e : Elu) (p : Port) : Elu :=
  { e with
    log := freeEmpty (e.log.map (·.without p))
    subs := e.subs.set p.val none
    dropped := e.dropped.set p.val 0
    lost := e.lost.set p.val 0 }

/-! ## Requests (R126 to R130) -/

/-- SUBSCRIBE on its payload: the masks are replaced at the log, and the ATN mask at the SAU (R130). -/
def State.subscribe (s : State) (p : Port) (payload : List Byte) : Reply :=
  s.ifAttached p <| s.ifInRange (maskOperands payload 0) fun (sub, mask) =>
    let old := s.elu.subs[p]
    let s1 := { s with elu := { s.elu with subs := s.elu.subs.set p.val (some sub) } }
    { state := s1.withSession p fun ses => { ses with mask }
      result := .ok
      payload := [BitVec.ofNat 8 ((old.map fun b => b.kinds.toNat).getD 0), (old.map Subscription.lines).getD 0] }

/-- SUBSCRIBE, which the ELU takes after the install of the port's own subscription (R130, log 26). -/
def execSubscribe (p : Port) (s : State) : Host.Outcome State Fault Refusal :=
  .next (if s.installWaits p then s else s.serve p .subscribe (s.subscribe p))

/-- The payload of READ_LOG with a record limit n (R127). -/
def State.logReport (s : State) (p : Port) (n : Nat) : List Byte :=
  let shown := (s.elu.log.filter fun r => r.pending[p]).take n
  [BitVec.ofNat 8 (s.elu.pendingCount p)] ++ beBytes s.elu.dropped[p] 2 ++ beBytes s.elu.lost[p] 2
    ++ [BitVec.ofNat 8 shown.length] ++ shown.flatMap fun r => r.record.bytes

/-- READ_LOG (R127). -/
def execReadLog (p : Port) (s : State) : Host.Outcome State Fault Refusal :=
  .next (s.serve p .readLog fun payload =>
    s.ifAttached p <| s.ifInRange (inRange 1 4 (fieldNat payload 0 1)) fun n => s.report (s.logReport p n))

/-- Whether a retained record has a given seq and is pending for a port (R128). -/
def Retained.isFor (r : Retained) (p : Port) (seq : Nat) : Bool := r.record.seq == seq && r.pending[p]

/-- The port leaves the pending sets of the records up to and with the first one of a given seq that is pending for it
(R128). -/
def ackUpTo (p : Port) (seq : Nat) : List Retained → List Retained
  | [] => []
  | r :: rest => if r.isFor p seq then r.without p :: rest else r.without p :: ackUpTo p seq rest

/-- An accepted acknowledgement: records whose pending set it empties are freed, and the counters are cleared if asked
(R121, R128). -/
def Elu.acknowledge (e : Elu) (p : Port) (seq : Nat) (clear : Bool) : Elu :=
  let e1 := if seq = 0 then e else { e with log := freeEmpty (ackUpTo p seq e.log) }
  if clear then { e1 with dropped := e1.dropped.set p.val 0, lost := e1.lost.set p.val 0 } else e1

/-- ACK_LOG on its payload (R128). -/
def State.ackLog (s : State) (p : Port) (payload : List Byte) : Reply :=
  let seq := fieldNat payload 0 4
  let clear := flagOf (payload.getD 4 0) 0
  s.ifAttached p <|
    if seq = 0 ∨ s.elu.log.any (fun r => r.isFor p seq) then
      let e := s.elu.acknowledge p seq clear
      { state := { s with elu := e }
        result := .ok
        payload := [BitVec.ofNat 8 (s.elu.pendingCount p - e.pendingCount p), BitVec.ofNat 8 (e.pendingCount p)] }
    else s.refuse .notFound

/-- ACK_LOG (R128). -/
def execAckLog (p : Port) (s : State) : Host.Outcome State Fault Refusal := .next (s.serve p .ackLog (s.ackLog p))

/-- LOG_POLICY on its payload (R126). -/
def State.logPolicy (s : State) (p : Port) (payload : List Byte) : Reply :=
  s.ifHolder p <| s.ifInRange (FullPolicy.ofCode (fieldNat payload 0 1)) fun policy =>
    { state := { s with elu := { s.elu with policy } }
      result := .ok
      payload := [s.elu.policy.code, BitVec.ofNat 8 s.elu.log.length] }

/-- LOG_POLICY (R126). -/
def execLogPolicy (p : Port) (s : State) : Host.Outcome State Fault Refusal :=
  .next (s.serve p .logPolicy (s.logPolicy p))

end Sys2Proof.Machine
end

