-- ==== Sys2Proof/Machine/Sessions.lean ====
section
/-! DEFINITION. The Session and Authority Unit: sessions, the authority and its claim queue, session ends, status, and the six session requests (chapter 8). -/

namespace Sys2Proof.Machine

/-! ## The authority (R142 to R147) -/

/-- A port's AUTH reason becomes SET (R150). -/
def Sau.setAuth (u : Sau) (p : Port) : Sau :=
  { u with sessions := u.sessions.set p.val { u.sessions[p] with auth := true } }

/-- A holder gives up the authority: the head of the queue becomes holder with its AUTH reason SET, or nobody does. The
bodies of the AUTHORITY records come with it (R144, R147). -/
def Sau.passOn (u : Sau) (p : Port) (event : AuthEvent) : Sau × List Body :=
  match u.queue with
  | [] => ({ u with holder := none }, [.authority p event .nothing none 0])
  | h :: rest =>
    ({ u with holder := some h, queue := rest }.setAuth h,
      [.authority p event .nothing (some h) rest.length, .authority h .granted .queue (some p) rest.length])

/-- A port's position in the claim queue, 1 for the head, or 0 (R142). -/
def Sau.position (u : Sau) (p : Port) : Nat := if p ∈ u.queue then u.queue.idxOf p + 1 else 0

/-- A port leaves the claim queue, and those behind it move up (R140, R144, R146). -/
def Sau.unqueue (u : Sau) (p : Port) : Sau := { u with queue := u.queue.filter (· ≠ p) }

/-- The SAU takes a request, unless a session end is in progress: it takes its events one at a time (R140, log 10). -/
def State.serveSau (s : State) (p : Port) (c : Code) (f : List Byte → Reply) : State :=
  if s.sau.ending.isSome then s else s.serve p c f

/-- CLAIM (R143). -/
def State.claim (s : State) (p : Port) : Reply :=
  s.ifAttached p <|
    if s.sau.sessions[p].limit = 0 then s.refuse .needLimit
    else
      match s.sau.holder with
      | none =>
        let t := { s with sau := { s.sau with holder := some p } }
        { state := t.post .sau s.tbu.time (.authority p .granted .claim none s.sau.queue.length)
          result := .granted, payload := [0] }
      | some h =>
        if h = p then { state := s, result := .granted, payload := [0] }
        else if p ∈ s.sau.queue then { state := s, result := .queued, payload := [BitVec.ofNat 8 (s.sau.position p)] }
        else
          let t := { s with sau := { s.sau with queue := s.sau.queue ++ [p] } }
          { state := t, result := .queued, payload := [BitVec.ofNat 8 (t.sau.position p)] }

/-- CLAIM (R143). -/
def execClaim (p : Port) (s : State) : Host.Outcome State Fault Refusal := .next (s.serveSau p .claim fun _ => s.claim p)

/-- RELEASE (R144). -/
def State.release (s : State) (p : Port) : Reply :=
  s.ifAttached p <|
    if s.sau.holder = some p then
      let (u, bodies) := s.sau.passOn p .released
      { state := { s with sau := u }.postAll .sau s.tbu.time bodies, result := .ok, payload := [portCode u.holder] }
    else if p ∈ s.sau.queue then
      { state := { s with sau := s.sau.unqueue p }, result := .ok, payload := [portCode s.sau.holder] }
    else s.refuse .badState

/-- RELEASE (R144). -/
def execRelease (p : Port) (s : State) : Host.Outcome State Fault Refusal :=
  .next (s.serveSau p .release fun _ => s.release p)

/-- An accepted TAKE by the senior port, with the AUTHORITY records (R146, R147). -/
def Sau.takeOver (u : Sau) (p : Port) : Sau × List Body :=
  match u.holder with
  | none => ({ u with holder := some p }, [.authority p .granted .take none u.queue.length])
  | some q =>
    if q = p then (u, [])
    else
      let u1 := { u.unqueue p with holder := some p }
      (u1.setAuth q,
        [.authority q .revoked .nothing (some p) u1.queue.length, .authority p .granted .take (some q) u1.queue.length])

/-- TAKE (R146). -/
def State.take (s : State) (p : Port) : Reply :=
  s.ifAttached p <|
    if s.sau.senior ≠ p then s.refuse .notSenior
    else if s.sau.sessions[p].limit = 0 then s.refuse .needLimit
    else
      let (u, bodies) := s.sau.takeOver p
      { state := { s with sau := u }.postAll .sau s.tbu.time bodies
        result := .granted, payload := [portCode s.sau.holder] }

/-- TAKE (R146). -/
def execTake (p : Port) (s : State) : Host.Outcome State Fault Refusal := .next (s.serveSau p .take fun _ => s.take p)

/-! ## Attachment (R136) -/

/-- A session as ATTACH opens it: the sticky reasons keep their values (R136). -/
def Session.attach (ses : Session) (limit : Nat) (mask : BitVec 3) : Session :=
  { ses with attached := true, limit, seconds := 0, cycles := 0, mask, overdue := false }

/-- ATTACH on its payload (R136). -/
def State.attach (s : State) (p : Port) (payload : List Byte) : Reply :=
  if s.attached p then s.refuse .alreadyAttached
  else
    s.ifInRange (maskOperands payload 1) fun (sub, mask) =>
      let limit := fieldNat payload 0 1
      let s1 := s.withSession p (·.attach limit mask)
      let s2 : State := { s1 with mail := { s1.mail with installs := s1.mail.installs ++ [{ port := p, sub }] } }
      { state := s2.post .sau s.tbu.time (.session p none limit 0)
        result := .ok
        payload := [BitVec.ofNat 8 limit, portCode s.sau.holder, BitVec.ofNat 8 s.sau.queue.length,
          BitVec.ofNat 8 s.sau.senior.val] }

/-- ATTACH (R136). -/
def execAttach (p : Port) (s : State) : Host.Outcome State Fault Refusal := .next (s.serveSau p .attach (s.attach p))

/-! ## Session ends (R140) -/

/-- The event of the AUTHORITY record of a holder whose session ends (R144). -/
def EndReason.event : EndReason → AuthEvent
  | .detached => .detached
  | .expired => .expired

/-- The authority side of a session end: the holder's authority passes on, a queued port leaves the queue (R140 step 2). -/
def Sau.leave (u : Sau) (p : Port) (reason : EndReason) : Sau × List Body :=
  if u.holder = some p then u.passOn p reason.event else (u.unqueue p, [])

/-- Steps 1 and 2 of a session end; the SCU is handed the session end next (R140, log 10). -/
def State.beginEnd (s : State) (p : Port) (reason : EndReason) : State :=
  let (u, bodies) := s.sau.leave p reason
  let u1 := { u with
    sessions := u.sessions.set p.val { u.sessions[p] with attached := false, auth := false, overdue := false }
    ending := some { port := p, reason, phase := .atScu, freed := 0, records := bodies } }
  { s with sau := u1 }

/-- DETACH: from an attached port the session end begins, and the answer follows when it is complete (R139, R140). -/
def State.detach (s : State) (p : Port) : State :=
  if s.attached p then
    (s.beginEnd p .detached).withHpu p fun h =>
      match h.slot with
      | .executing tag discard _ => { h with slot := .executing tag discard .taken }
      | .free => h
  else s.withHpu p (·.answer .notAttached [])

/-- DETACH (R139). -/
def execDetach (p : Port) (s : State) : Host.Outcome State Fault Refusal :=
  .next (if s.sau.ending.isSome ∨ s.request? p .detach = none then s else s.detach p)

/-- Whether a port's idle timer has reached its idle limit (R138, log 7). -/
def Session.timedOut (ses : Session) : Bool :=
  ses.attached && decide (ses.limit ≠ 0) && decide (ses.limit ≤ ses.seconds)

/-- IDLE_EXPIRY: the session ends with reason EXPIRED (R138, R140). -/
def State.idleExpiry (s : State) (p : Port) : State :=
  if s.sau.ending.isNone ∧ s.sau.sessions[p].timedOut then s.beginEnd p .expired else s

/-- IDLE_EXPIRY (R138). -/
def execIdleExpiry (p : Port) (s : State) : Host.Outcome State Fault Refusal := .next (s.idleExpiry p)

/-- Step 5 of a session end, and step 7 for an expiry: limit 0, the timer stopped, the detached mask, SESSION_ENDED (R140). A
timer that does not run stands at 0 (DESIGN CHOICE, log 31). -/
def Session.close (ses : Session) (reason : EndReason) : Session :=
  { ses with
    limit := 0, seconds := 0, cycles := 0, mask := 4
    sessionEnded := ses.sessionEnded || decide (reason = .expired) }

/-- The records of step 6 of a session end, in order (R140, R149). -/
def Ending.bodies (e : Ending) (limit : Nat) : List Body := e.records ++ [.session e.port (some e.reason) limit e.freed]

/-- Steps 5 to 7 of a session end, with the answer of a DETACH (R139, R140). -/
def State.finishEnd (s : State) (e : Ending) : State :=
  let limit := s.sau.sessions[e.port].limit
  let s1 := s.withSession e.port (·.close e.reason)
  let s2 := { s1 with sau := { s1.sau with ending := none } }
  let s3 := s2.postAll .sau s.tbu.time (e.bodies limit)
  match e.reason with
  | .detached => s3.withHpu e.port (·.answer .ok [BitVec.ofNat 8 e.freed])
  | .expired => s3

/-- ELU_SESSION_END: the ELU takes the session end in progress and removes the port (R132, R140 step 4), and the SAU ends
its event with steps 5 to 7 (log 10). It waits for the install of the same port's subscription (R119, log 27), and for the
FIRE and MISSED records of the port's own entries, which are stored for the port and then freed (R87, R133). -/
def State.eluSessionEnd (s : State) (p : Port) : State :=
  match s.sau.ending with
  | none => s
  | some e =>
    if e.port = p ∧ e.phase = .atElu ∧ !s.installWaits p ∧ !s.ownRecordsWait p then
      { s with elu := s.elu.remove p }.finishEnd e
    else s

/-- ELU_SESSION_END (R132). -/
def execEluSessionEnd (p : Port) (s : State) : Host.Outcome State Fault Refusal := .next (s.eluSessionEnd p)

/-! ## The idle timer and status (R138, R151) -/

/-- A report of a valid frame sets the timer of an attached port to 0, unless the expiry of that timer reached the SAU before it
(R138, log 35). -/
def Session.restart (ses : Session) : Session :=
  if ses.attached && !ses.overdue then { ses with seconds := 0, cycles := 0 } else ses

/-- VALID_FRAME_REPORT: the SAU takes a port's oldest report (R138, R156). A session end in progress does not keep it waiting: it
acts on a timer alone, and finds the port whose session ends detached (log 10). -/
def State.validFrameReport (s : State) (p : Port) : State :=
  if s.mail.reports.any fun r => r.port == p then
    { s with mail := { s.mail with reports := s.mail.reports.eraseP fun r => r.port == p } }.withSession p Session.restart
  else s

/-- VALID_FRAME_REPORT (R156). -/
def execValidFrameReport (p : Port) (s : State) : Host.Outcome State Fault Refusal := .next (s.validFrameReport p)

/-- The time left on an idle timer, in whole internal seconds, rounded down (R151). -/
def Session.timeLeft (ses : Session) : Nat :=
  if ses.attached then
    (ses.limit * Config.secondCycles - (ses.seconds * Config.secondCycles + ses.cycles)) / Config.secondCycles
  else 0

/-- The payload of GET_STATUS (R151). -/
def State.statusReport (s : State) (p : Port) : List Byte :=
  let ses := s.sau.sessions[p]
  let q (k : Nat) : Byte := portCode s.sau.queue[k]?
  [boolCode ses.attached, BitVec.ofNat 8 ses.limit, BitVec.ofNat 8 ses.timeLeft, portCode s.sau.holder,
    BitVec.ofNat 8 s.sau.queue.length, q 0, q 1, q 2, BitVec.ofNat 8 (s.sau.position p), BitVec.ofNat 8 s.sau.senior.val,
    (s.reasons p).setWidth 8, ses.mask.setWidth 8]

/-- GET_STATUS (R151). -/
def State.getStatus (s : State) (p : Port) : Reply :=
  { state := s.withSession p fun ses => { ses with auth := false, sessionEnded := false }
    result := .ok
    payload := s.statusReport p }

/-- GET_STATUS (R151). -/
def execGetStatus (p : Port) (s : State) : Host.Outcome State Fault Refusal :=
  .next (s.serveSau p .getStatus fun _ => s.getStatus p)

end Sys2Proof.Machine
end

