-- ==== Sys2Proof/Machine/Inputs.lean ====
section
/-! DEFINITION. The Event Capture Unit: samples, the filter, capture, steps during a run and the two input requests (chapter 6). -/

namespace Sys2Proof.Machine

/-! ## The filter (R102) -/

/-- A qualified edge: direction, timestamp, adjusted mark and clamped mark (R102), with the steps that shifted it. -/
structure QualifiedEdge where
  direction : Direction
  stamp : Time
  adjusted : Bool
  clamped : Bool
  shifts : List Nat
  deriving DecidableEq, Repr

/-- No run is in progress (R102). -/
def Input.noRun (i : Input) : Input :=
  { i with run := 0, candidate := none, adjusted := false, clamped := false, shifts := [] }

/-- The direction of an edge to a new stable level (R102). -/
def levelDirection : Level → Direction
  | .high => .rise
  | .low => .fall

/-- The run after one more differing sample: the first one sets the candidate timestamp (R102). -/
def Input.lengthen (i : Input) (t : Time) : Input :=
  if i.run = 0 then { i with run := 1, candidate := some t, adjusted := false, clamped := false, shifts := [] }
  else { i with run := i.run + 1 }

/-- The filter's judgement of one sample (R102). -/
def Input.filter (i : Input) (level : Level) (t : Time) : Input × Option QualifiedEdge :=
  match i.stable with
  | none => ({ i with stable := some level }, none)
  | some stable =>
    if level = stable then (i.noRun, none)
    else
      let j := i.lengthen t
      if j.qualify ≤ j.run then
        ({ j.noRun with stable := some level },
          some {
            direction := levelDirection level, stamp := j.candidate.getD t, adjusted := j.adjusted, clamped := j.clamped
            shifts := j.shifts })
      else (j, none)

/-! ## Edge selection, dead time and capture (R103 to R106) -/

/-- Whether an edge select matches a direction (R103). -/
def EdgeSelect.matchesDir : EdgeSelect → Direction → Bool
  | .off, _ => false
  | .rise, .rise => true
  | .rise, .fall => false
  | .fall, .fall => true
  | .fall, .rise => false
  | .both, _ => true

/-- Whether an input is EVT7 in PPS role (R103, R110). -/
def State.inPpsRole (s : State) (n : Line) : Bool := decide (n = 7) && s.rsv.pps.role

/-- The effective edge select of an input (R103). -/
def State.effectiveSelect (s : State) (n : Line) : EdgeSelect :=
  if s.inPpsRole n then .rise else s.ecu.inputs[n].select

/-- A sample other than a capturing one counts down the dead time (R104). -/
def Input.tickDead (i : Input) : Input := { i with deadLeft := i.deadLeft - 1 }

/-- A matching edge inside the dead time is counted (R104). -/
def Input.suppress (i : Input) : Input := { i with suppressed := min (i.suppressed + 1) 255 }

/-- The body of the EDGE record of a capture made at time t (R106). -/
def edgeBody (n : Line) (q : QualifiedEdge) (suppressed : Nat) (t : Time) : Body :=
  .edge n q.direction q.adjusted q.clamped suppressed (min (t - q.stamp) 65535)

/-- A capture on an input whose filtered record is given, made on the tick of a turn: the edge goes to the RSV or the log, then
to the SCU; the dead time is loaded and the suppressed count cleared (R105). -/
def State.capture (s : State) (n : Line) (i : Input) (q : QualifiedEdge) (turn : Nat) (t : Time) : State :=
  let capture := s.mail.captures
  let s1 : State :=
    if s.inPpsRole n then
      { s with mail := { s.mail with
          ppsEdges := s.mail.ppsEdges ++ [{
            stamp := q.stamp, adjusted := q.adjusted, suppressed := i.suppressed, capture }] } }
    else s.post .ecu q.stamp (edgeBody n q i.suppressed t) none
      { turn := some turn, capture := some capture, shifts := q.shifts }
  let s2 : State := { s1 with mail := { s1.mail with
      captures := capture + 1
      primings := s1.mail.primings ++ [{ input := n, direction := q.direction, stamp := q.stamp, turn, capture }] } }
  s2.withInput n { i with deadLeft := i.dead, suppressed := 0 }

/-- One sample of an input on the tick of a turn, with the filter, the edge selection and the dead time (R102 to R105). -/
def State.judgeSample (s : State) (n : Line) (level : Level) (turn : Nat) (t : Time) : State :=
  let (i, edge) := s.ecu.inputs[n].filter level t
  match edge with
  | none => s.withInput n i.tickDead
  | some q =>
    if !(s.effectiveSelect n).matchesDir q.direction then s.withInput n i.tickDead
    else if i.deadLeft = 0 then s.capture n i q turn t
    else s.withInput n i.suppress.tickDead

/-- The oldest sample of an input that waits, with its turn and time, if no step stands before it, and the rest (R109, log
13). -/
def takeSample (n : Line) : List EcuHandover → Option (Nat × Time × List EcuHandover)
  | [] => none
  | .step .. :: _ => none
  | .sample turn m t :: rest =>
    if m = n then some (turn, t, rest)
    else (takeSample n rest).map fun r => (r.1, r.2.1, .sample turn m t :: r.2.2)

/-- INPUT_SAMPLE: the sample of an input that has come due, at the level its pin has (R101, log 13, log 14). -/
def State.inputSample (s : State) (n : Line) (level : Level) : State :=
  match takeSample n s.mail.toEcu with
  | none => s
  | some (turn, t, rest) =>
    { s with mail := { s.mail with toEcu := rest }, pins := s.pins.set n.val level }.judgeSample n level turn t

/-- INPUT_SAMPLE (R101). -/
def execInputSample (n : Line) (level : Level) (s : State) : Host.Outcome State Fault Refusal :=
  .next (s.inputSample n level)

/-! ## Steps during a run (R108) -/

/-- A candidate timestamp moved by a step (R108). -/
def shiftStamp (t old new : Time) : Int := (t : Int) + ((new : Int) - (old : Int))

/-- A step of a turn on one input: the candidate of a run in progress moves with the time, and is held at 0 (R108). -/
def Input.shift (i : Input) (turn : Nat) (old new : Time) : Input :=
  match i.candidate with
  | none => i
  | some t =>
    if i.run = 0 ∨ old = new then i
    else
      { i with
        candidate := some (shiftStamp t old new).toNat
        adjusted := true
        clamped := i.clamped || decide (shiftStamp t old new < 0)
        shifts := i.shifts ++ [turn] }

/-- The ECU takes the step that waits for it with no sample before it: every run in progress is shifted (R108, R109). -/
def State.ecuStep (s : State) : State :=
  match s.mail.toEcu with
  | .step turn old new :: rest =>
    { s with mail := { s.mail with toEcu := rest }, ecu := { inputs := s.ecu.inputs.map (·.shift turn old new) } }
  | _ => s

/-- ECU_STEP_HANDOVER: the ECU takes a step once every sample before it and the SCU's treatment of it are done (R14, R79,
R108, R109, log 12). -/
def State.ecuStepHandover (s : State) : State :=
  match s.mail.toEcu with
  | .step turn _ _ :: _ => if s.scuTook turn then s.ecuStep else s
  | _ => s

/-- ECU_STEP_HANDOVER (R108). -/
def execEcuStepHandover (s : State) : Host.Outcome State Fault Refusal := .next s.ecuStepHandover

/-! ## Requests (R111, R113) -/

/-- An input after an accepted INPUT_CONFIG, with its phase counter at a given count (R111, R112). -/
def Input.configure (i : Input) (c : InputConfig) (phase : Nat) : Input :=
  { i.noRun with
    select := c.select, divider := c.divider, qualify := c.qualify, dead := c.dead, deadLeft := 0, phase }

/-- Whether a hand-over is a sample of an input. -/
def EcuHandover.samples (n : Line) : EcuHandover → Bool
  | .sample _ m _ => m == n
  | .step .. => false

/-- INPUT_CONFIG on its payload (R111). A sample of the input that is due and not yet taken meets it, and the INPUT_CONFIG is
taken first (R112, log 13): the tick of that sample follows it. With a divider of 1 that tick samples, under the new
configuration; with any other it takes no sample and counts 1. -/
def State.inputConfig (s : State) (p : Port) (payload : List Byte) : Reply :=
  s.ifHolder p <| s.ifInRange (inputOperands payload) fun (n, c) =>
    let i := s.ecu.inputs[n]
    let withdrawn := c.divider != 1 && s.mail.toEcu.any (EcuHandover.samples n)
    let due := if withdrawn then s.mail.toEcu.filter fun h => !h.samples n else s.mail.toEcu
    let s1 := { s with mail := { s.mail with toEcu := due } }
    { state := s1.withInput n (i.configure c (if withdrawn then 1 else 0))
      result := .ok
      payload := [i.select.code, BitVec.ofNat 8 i.divider, BitVec.ofNat 8 i.qualify] ++ beBytes i.dead 2 }

/-- INPUT_CONFIG (R111). -/
def execInputConfig (p : Port) (s : State) : Host.Outcome State Fault Refusal :=
  .next (s.serve p .inputConfig (s.inputConfig p))

/-- The configuration byte of an input in READ_INPUTS (10, packed bytes). -/
def Input.configByte (i : Input) (pps : Bool) : Byte :=
  BitVec.ofNat 8 (i.select.code.toNat + 4 * dividerCode i.divider + 16 * stableCode i.stable + 64 * bitNat pps
    + 128 * bitNat i.adjusted)

/-- The 15 bytes of an input in READ_INPUTS (R113). -/
def Input.bytes (i : Input) (pps : Bool) : List Byte :=
  [i.configByte pps, BitVec.ofNat 8 (i.qualify + 16 * i.run)] ++ beBytes i.dead 2 ++ beBytes i.deadLeft 2
    ++ [BitVec.ofNat 8 i.suppressed] ++ timeBytes (if i.run = 0 then 0 else i.candidate.getD 0)

/-- The payload of READ_INPUTS (R113). -/
def State.inputReport (s : State) : List Byte :=
  (List.finRange 8).flatMap fun n => s.ecu.inputs[n].bytes (s.inPpsRole n)

/-- READ_INPUTS (R113). -/
def execReadInputs (p : Port) (s : State) : Host.Outcome State Fault Refusal :=
  .next (s.serve p .readInputs fun _ => s.ifAttached p (s.report s.inputReport))

end Sys2Proof.Machine
end

