-- ==== Sys2Proof/Machine/Reference.lean ====
section
/-! DEFINITION. The Reference Supervisor: windows, the supervision state, holdover, the PPS edges and the RSV's requests (chapter 2). -/

namespace Sys2Proof.Machine

/-! ## State changes (R26 to R30) -/

/-- The RSV enters a supervision state and posts the REFSTATE record of the change: the age is reported when the change
leaves HOLDOVER (R29, R30). -/
def State.enter (s : State) (new : SupState) (reason : RefReason) (count : Nat) : State :=
  let old := s.rsv.state
  let age := if old = .holdover then s.rsv.age else 0
  let s1 := { s with rsv := { s.rsv with state := new } }
  s1.post .rsv s.tbu.time (.refState old new reason count age)

/-- The reason of an entry to HOLDOVER, after the class of the bad window (R27). -/
def WindowClass.reason : WindowClass → RefReason
  | .good => .qualified
  | .fast => .fast
  | .slow => .slow
  | .missing => .missing

/-- A window classification in UNLOCKED or HOLDOVER acts on G (R26). -/
def State.qualify (s : State) (cls : WindowClass) (count : Nat) : State :=
  if cls = .good then
    if s.rsv.config.qualLength ≤ s.rsv.good + 1 then
      let s1 := s.enter .locked .qualified count
      { s1 with rsv := { s1.rsv with good := 0 } }
    else { s with rsv := { s.rsv with good := s.rsv.good + 1 } }
  else { s with rsv := { s.rsv with good := 0 } }

/-- A window classification in LOCKED: a bad window begins a holdover (R27). -/
def State.supervise (s : State) (cls : WindowClass) (count : Nat) : State :=
  if cls = .good then s
  else
    let s1 := s.enter .holdover cls.reason count
    { s1 with rsv := { s1.rsv with good := 0, age := 0, ageCycles := 0 } }

/-- The effect of a window classification on the supervision state (R26, R27). -/
def State.classified (s : State) (cls : WindowClass) (count : Nat) : State :=
  match s.rsv.state with
  | .locked => s.supervise cls count
  | .unlocked => s.qualify cls count
  | .holdover => s.qualify cls count

/-! ## Windows (R24, R25) -/

/-- The class of a window at close (R24). -/
def classOf (tolerance count : Nat) : WindowClass :=
  if 1000 + tolerance < count then .fast
  else if count + tolerance < 1000 then .slow
  else .good

/-- Whether the window in progress is due to close. A window with no edge is never closed by R24 (R24, log 7). -/
def Rsv.closeDue (r : Rsv) : Bool :=
  r.config.enabled && decide (Config.windowCycles ≤ r.cycles) && decide (1 ≤ r.edges)

/-- Whether 16 internal cycles have passed without a REFCLK edge (R25, log 7). -/
def Rsv.missingDue (r : Rsv) : Bool := r.config.enabled && decide (Config.gapCycles ≤ r.gap)

/-- WINDOW_CLOSE: the window is classified and a new one begins (R24). -/
def State.windowClose (s : State) : State :=
  if s.rsv.closeDue then
    let count := s.rsv.edges
    let cls := classOf s.rsv.config.tolerance count
    { s with rsv := { s.rsv with cycles := 0, edges := 0, last := some (count, cls) } }.classified cls count
  else s

/-- WINDOW_CLOSE (R24). -/
def execWindowClose (s : State) : Host.Outcome State Fault Refusal := .next s.windowClose

/-- MISSING_DECLARATION: the window in progress is MISSING and a new one begins, with all its counters at 0 (R25). -/
def State.missingDeclaration (s : State) : State :=
  if s.rsv.missingDue then
    let count := s.rsv.edges
    { s with rsv := { s.rsv with cycles := 0, edges := 0, gap := 0, last := some (count, .missing) } }.classified
      .missing count
  else s

/-- MISSING_DECLARATION (R25). -/
def execMissingDeclaration (s : State) : Host.Outcome State Fault Refusal := .next s.missingDeclaration

/-- The declaration or the close that is due is made (R24, R25, log 8); where both are, the declaration (DESIGN CHOICE,
log 24). -/
def State.settleWindow (s : State) : State := if s.rsv.missingDue then s.missingDeclaration else s.windowClose

/-- A rising edge of REFCLK counts in the window in progress (R24, R25). -/
def Rsv.countEdge (r : Rsv) : Rsv :=
  if r.config.enabled then { r with edges := min (r.edges + 1) 65535, gap := 0 } else r

/-- REFCLK_EDGE: a declaration or a close that is due comes first, the edge counts in the window then in progress, and while
REFCLK is selected the edge is a tick that waits for the TBU (R24, R25, R29, log 5, log 8). A holdover second that is due too
is not taken by it: the classification goes first, which R28 leaves open (DESIGN CHOICE, log 34). -/
def State.refclkEdge (s : State) : State :=
  let s1 := s.settleWindow
  let s2 := { s1 with rsv := s1.rsv.countEdge }
  match s2.source with
  | .refclk => { s2 with mail := { s2.mail with refTicks := s2.mail.refTicks + 1 } }
  | .internal => s2

/-- REFCLK_EDGE (R24). -/
def execRefclkEdge (s : State) : Host.Outcome State Fault Refusal := .next s.refclkEdge

/-! ## Holdover (R28) -/

/-- Whether the holdover cycle counter has reached an internal second (R28, log 7). -/
def Rsv.ageDue (r : Rsv) : Bool := decide (r.state = .holdover) && decide (Config.secondCycles ≤ r.ageCycles)

/-- The holdover age increments, and its cycle counter returns to 0 (R28). -/
def Rsv.incrementAge (r : Rsv) : Rsv := { r with age := r.age + 1, ageCycles := 0 }

/-- The RSV enters UNLOCKED with reason EXPIRED if it is in HOLDOVER with the age at the limit or above it; G keeps its
value (R28, R33). -/
def State.expireIfAtLimit (s : State) : State :=
  if s.rsv.state = .holdover ∧ s.rsv.config.limit ≤ s.rsv.age then s.enter .unlocked .expired 0 else s

/-- HOLDOVER_AGE_INCREMENT: an increment that brings the age to the limit expires the holdover at the same moment (R28,
R32, log 9). -/
def State.holdoverAgeIncrement (s : State) : State :=
  if s.rsv.ageDue then { s with rsv := s.rsv.incrementAge }.expireIfAtLimit else s

/-- HOLDOVER_AGE_INCREMENT (R28). -/
def execHoldoverAgeIncrement (s : State) : Host.Outcome State Fault Refusal := .next s.holdoverAgeIncrement

/-- HOLDOVER_EXPIRY: the increment that is due brings the age to the limit, or the age already stands there (R28, log 9). -/
def State.holdoverExpiry (s : State) : State :=
  if s.rsv.ageDue ∧ s.rsv.config.limit ≤ s.rsv.age + 1 then { s with rsv := s.rsv.incrementAge }.expireIfAtLimit
  else s.expireIfAtLimit

/-- HOLDOVER_EXPIRY (R28). -/
def execHoldoverExpiry (s : State) : Host.Outcome State Fault Refusal := .next s.holdoverExpiry

/-! ## Pulse-per-second edges (R36 to R38) -/

/-- The phase error of an edge from the fraction of its timestamp (R36). -/
def phaseError (stamp : Time) : Int :=
  if fraction stamp < 5000000 then (fraction stamp : Int) else (fraction stamp : Int) - 10000000

/-- The streak after an edge (R36). -/
def Rsv.streakAfter (r : Rsv) (outlier : Bool) : Nat := if outlier then min (r.streak + 1) 255 else 0

/-- The RSV after the judgement of an edge: the last error, the streak and the fault flag (R36). -/
def Rsv.judge (r : Rsv) (e : Int) (outlier : Bool) : Rsv :=
  { r with
    lastError := some e
    streak := r.streakAfter outlier
    fault := outlier && (r.fault || decide (3 ≤ r.streakAfter outlier)) }

/-- The RSV takes one edge: judgement, discipline slew, PPS record (R36 to R38). -/
def State.ppsEdge (s : State) (edge : PpsEdge) : State :=
  let e := phaseError edge.stamp
  let outlier := decide (s.rsv.pps.window < e.natAbs)
  let locked := decide (s.rsv.state = .locked)
  let applied := !outlier && s.rsv.pps.discipline && locked && decide (e ≠ 0)
  let r := s.rsv.judge e outlier
  let slews := if applied then s.mail.slews ++ [{ initial := -e, spacing := s.rsv.pps.spacing }] else s.mail.slews
  let s1 := { s with rsv := r, mail := { s.mail with slews } }
  s1.post .rsv edge.stamp (.pps e applied outlier r.fault (!locked) edge.adjusted r.streak edge.suppressed) none
    { capture := some edge.capture }

/-- PPS_EDGE_HANDOVER: the RSV takes the oldest edge the ECU has handed it (R34, R36). -/
def State.ppsEdgeHandover (s : State) : State :=
  match s.mail.ppsEdges with
  | [] => s
  | edge :: rest => { s with mail := { s.mail with ppsEdges := rest } }.ppsEdge edge

/-- PPS_EDGE_HANDOVER (R36). -/
def execPpsEdgeHandover (s : State) : Host.Outcome State Fault Refusal := .next s.ppsEdgeHandover

/-! ## Requests (R31, R33, R35, R40) -/

/-- No window runs and G is 0 (R33). -/
def Rsv.stopWindow (r : Rsv) : Rsv := { r with good := 0, cycles := 0, edges := 0, gap := 0 }

/-- The effects of an accepted REF_CONFIG (R33). -/
def State.applyRefConfig (s : State) (c : SupConfig) : State :=
  let s1 := { s with rsv := { s.rsv with config := c } }
  match s.rsv.config.enabled, c.enabled with
  | true, false =>
    let s2 := if s.rsv.state = .unlocked then s1 else s1.enter .unlocked .disabled 0
    { s2 with rsv := s2.rsv.stopWindow }
  | false, true => { s1 with rsv := s1.rsv.stopWindow }
  | false, false => s1
  | true, true => s1.expireIfAtLimit

/-- REF_CONFIG on its payload (R31). -/
def State.refConfig (s : State) (p : Port) (payload : List Byte) : Reply :=
  s.ifHolder p <| s.ifInRange (refOperands payload) fun c =>
    let t := s.applyRefConfig c
    { state := t
      result := .ok
      payload := [t.rsv.state.code, BitVec.ofNat 8 t.rsv.good] ++ beBytes t.rsv.age 2 }

/-- REF_CONFIG (R31). -/
def execRefConfig (p : Port) (s : State) : Host.Outcome State Fault Refusal :=
  .next (s.serve p .refConfig (s.refConfig p))

/-- The eight bytes of a PPS configuration (10, PPS_CONFIG). -/
def PpsConfig.bytes (c : PpsConfig) : List Byte :=
  [boolCode c.role, boolCode c.discipline] ++ beBytes c.window 4 ++ beBytes c.spacing 2

/-- PPS_CONFIG on its payload (R35). -/
def State.ppsConfig (s : State) (p : Port) (payload : List Byte) : Reply :=
  s.ifHolder p <| s.ifInRange (ppsOperands payload) fun c =>
    { state := { s with rsv := { s.rsv with pps := c, streak := 0, fault := false } }
      result := .ok
      payload := s.rsv.pps.bytes }

/-- PPS_CONFIG (R35). -/
def execPpsConfig (p : Port) (s : State) : Host.Outcome State Fault Refusal :=
  .next (s.serve p .ppsConfig (s.ppsConfig p))

/-- The payload of READ_REF (R40). -/
def State.refReport (s : State) : List Byte :=
  let r := s.rsv
  [r.state.code, s.source.code, BitVec.ofNat 8 r.good] ++ beBytes r.age 2
    ++ beBytes ((r.last.map Prod.fst).getD 0) 2 ++ [((r.last.map Prod.snd).map WindowClass.code).getD 0]
    ++ [boolCode r.config.enabled, BitVec.ofNat 8 r.config.tolerance, BitVec.ofNat 8 r.config.qualLength]
    ++ beBytes r.config.limit 2 ++ r.pps.bytes
    ++ [BitVec.ofNat 8 r.streak, boolCode r.fault, boolCode r.lastError.isSome] ++ beSigned (r.lastError.getD 0) 4

/-- READ_REF (R40). -/
def execReadRef (p : Port) (s : State) : Host.Outcome State Fault Refusal :=
  .next (s.serve p .readRef fun _ => s.ifAttached p (s.report s.refReport))

end Sys2Proof.Machine
end

