-- ==== Sys2Proof/Machine/Schedule.lean ====
section
/-! DEFINITION. The Schedule Unit: the due list, firing and missing, primings, and the eight schedule requests (chapters 3 and 4). -/

namespace Sys2Proof.Machine

/-! ## The due list (R47) -/

/-- The due of an entry that has one. -/
def Entry.dueTime (e : Entry) : Time := e.due.getD 0

/-- Due-list order: by due, ties by ascending index (R47). -/
def dueBefore (es : Vector Entry 64) (i j : Index) : Bool :=
  decide (es[i].dueTime < es[j].dueTime) || (decide (es[i].dueTime = es[j].dueTime) && decide (i < j))

/-- Insertion into the due list at the place an entry's due and index give it (R47). -/
def insertDue (es : Vector Entry 64) (i : Index) : List Index → List Index
  | [] => [i]
  | j :: rest => if dueBefore es i j then i :: j :: rest else j :: insertDue es i rest

/-- The indexes of the entries in a given condition, ascending. -/
def indexesWhere (es : Vector Entry 64) (f : Entry → Bool) : List Index :=
  (List.finRange 64).filter fun i => f es[i]

/-- The due list: every ARMED entry, in order (R47, log 20). -/
def dueList (es : Vector Entry 64) : List Index :=
  (indexesWhere es (·.state == .armed)).foldr (insertDue es) []

/-- The entries of the due list with a due equal to or earlier than a time value, in due-list order (R67, R79). -/
def dueBy (es : Vector Entry 64) (t : Time) : List Index :=
  (dueList es).filter fun i => decide (es[i].dueTime ≤ t)

/-! ## Continuation and end of an entry (R71, R72) -/

/-- The generation after an entry becomes FREE (R45). -/
def nextGeneration (g : Nat) : Nat := (g + 1) % 256

/-- An entry becomes FREE and its generation increments (R45). -/
def Entry.freed (e : Entry) : Entry := Entry.free (nextGeneration e.generation)

/-- Whether an entry ends when it consumes k occurrences: a one-shot entry, a remaining count that reaches 0, or a next due
past the maximum (R71, R84). -/
def Entry.endsAfter (e : Entry) (k : Nat) : Bool :=
  match e.period with
  | none => true
  | some period => e.remaining.any (fun r => decide (r ≤ k)) || decide (Config.maxTime < e.dueTime + k * period)

/-- Whether an entry returns to PRIMED when it ends (R72). -/
def Entry.rearms (e : Entry) : Bool := e.prime.any (·.rearm)

/-- The end of an entry: it becomes FREE, or PRIMED again under rearm YES (R72). -/
def Entry.ended (e : Entry) : Entry :=
  if e.rearms then { e with state := .primed, due := none, remaining := e.initial } else e.freed

/-- The occurrence number after k more occurrences (R69, R74). -/
def Entry.counted (e : Entry) (k : Nat) : Entry := { e with occurrence := min (e.occurrence + k) 65535 }

/-- A periodic entry that goes on: its due advances and its remaining count falls (R71). -/
def Entry.continued (e : Entry) (k : Nat) : Entry :=
  { e with due := some (e.dueTime + k * e.period.getD 0), remaining := e.remaining.map (· - k) }

/-- The entry after it has fired or missed k occurrences (R69 steps 3 to 5, R76). -/
def Entry.consume (e : Entry) (k : Nat) : Entry :=
  if e.endsAfter k then (e.counted k).ended else (e.counted k).continued k

/-! ## Firing and missing (R69, R70, R76, R77) -/

/-- A lateness or distance field (R70, R77). -/
def lateness (t due : Time) : Nat := min (t - due) 4294967295

/-- The body of the FIRE record of a firing (R70). -/
def fireBody (i : Index) (e : Entry) (k : Nat) (t : Time) (cause : Cause) (quality : Quality) : Body :=
  .fire i e.generation e.label (lateness t e.dueTime) (min k 255) cause (e.endsAfter k) quality

/-- The firing of one entry for k occurrences at time t: line operation, FIRE record, continuation or end (R69, R73). `links` is
the hand-over it is made for (R118). -/
def State.fire (s : State) (i : Index) (k : Nat) (t : Time) (cause : Cause) (links : Links := {}) : State :=
  let e := s.scu.entries[i]
  let s1 := { s with mail := { s.mail with ops := s.mail.ops ++ e.action.toList } }
  let s2 := if e.scope = .nobody then s1
    else s1.post .scu t (fireBody i e k t cause s.quality) (some { owner := e.owner, all := e.scope == .all }) links
  s2.withEntry i (e.consume k)

/-- The addressing of a MISSED record: the owner alone, or ALL for scope ALL and for a detached entry (R76, R83). -/
def Entry.missAddress (e : Entry) : Address := { owner := e.owner, all := e.scope == .all || e.owner.isNone }

/-- A miss of k occurrences at time t (R76, R77). -/
def State.miss (s : State) (i : Index) (k : Nat) (t : Time) (cause : Cause) (links : Links := {}) : State :=
  let e := s.scu.entries[i]
  let body := .missed i e.generation e.label (lateness t e.dueTime) (min k 255) cause (e.endsAfter k)
  (s.post .scu t body (some e.missAddress) links).withEntry i (e.consume k)

/-- The occurrences at or before t of an entry whose due is at or before t (R74). -/
def Entry.passed (e : Entry) (t : Time) : Nat :=
  match e.period with
  | none => 1
  | some period =>
    let n := (t - e.dueTime) / period + 1
    match e.remaining with
    | none => n
    | some r => min n r

/-- The treatment of an entry passed over by a step, a RESUME or a priming, under its late policy (R75, R76). -/
def State.treat (s : State) (i : Index) (t : Time) (cause : Cause) (links : Links := {}) : State :=
  let e := s.scu.entries[i]
  match e.policy with
  | .catchup => s.fire i (e.passed t) t cause links
  | .skip => s.miss i (e.passed t) t cause links

/-! ## Hand-overs from the TBU (R67, R78, R79) -/

/-- TIME_ADVANCE: the SCU takes a new time value and fires every ARMED entry now due, in due-list order (R67). -/
def State.timeAdvance (s : State) : State :=
  match s.mail.toScu with
  | .advance turn t :: rest =>
    let s1 := { s with mail := { s.mail with toScu := rest }, scu := { s.scu with now := t } }
    (dueBy s1.scu.entries t).foldl (fun s i => s.fire i 1 t .advance { turn := some turn }) s1
  | _ => s

/-- TIME_ADVANCE (R67). -/
def execTimeAdvance (s : State) : Host.Outcome State Fault Refusal := .next s.timeAdvance

/-- STEP_HANDOVER: at a forward step every entry passed over is treated once, in due-list order; a backward step or one of
offset 0 only gives the new current time (R78 to R80). -/
def State.stepHandover (s : State) : State :=
  match s.mail.toScu with
  | .step turn old new :: rest =>
    let s1 := { s with mail := { s.mail with toScu := rest }, scu := { s.scu with now := new } }
    if old < new then (dueBy s1.scu.entries new).foldl (fun s i => s.treat i new .stepped { turn := some turn }) s1
    else s1
  | _ => s

/-- STEP_HANDOVER (R78). -/
def execStepHandover (s : State) : Host.Outcome State Fault Refusal := .next s.stepHandover

/-! ## Priming (R58, R83) -/

/-- The first occurrence of a periodic entry later than t (R56). -/
def advancePast (due period t : Nat) : Nat := due + ((t - due) / period + 1) * period

/-- Whether a prime edge matches an edge's direction (R58). -/
def PrimeEdge.matchesDir : PrimeEdge → Direction → Bool
  | .rise, .rise => true
  | .fall, .fall => true
  | .any, _ => true
  | .rise, .fall => false
  | .fall, .rise => false

/-- Whether an edge arms an entry (R58). -/
def Entry.primedFor (e : Entry) (edge : Priming) : Bool :=
  e.state == .primed && e.prime.any (fun ps => ps.input == edge.input && ps.edge.matchesDir edge.direction)

/-- A due past the maximum ends the entry at the priming, with a MISSED record of 0 occurrences (R83). -/
def State.primeOverflow (s : State) (i : Index) (links : Links) : State :=
  let e := s.scu.entries[i]
  let body := .missed i e.generation e.label 0 0 .atArm true
  (s.post .scu s.scu.now body (some e.missAddress) links).withEntry i e.ended

/-- One entry takes its due from an edge's timestamp (R58, R83). -/
def State.primeEntry (s : State) (stamp : Time) (links : Links) (i : Index) : State :=
  let e := s.scu.entries[i]
  let due := stamp + (e.prime.map PrimeSpec.delay).getD 0
  let armed (d : Time) : Entry := { e with state := .armed, due := some d }
  if Config.maxTime < due then s.primeOverflow i links
  else if s.scu.now < due then s.withEntry i (armed due)
  else
    match e.period with
    | none => (s.withEntry i (armed due)).treat i s.scu.now .atArm links
    | some period =>
      let next := advancePast due period s.scu.now
      if Config.maxTime < next then s.primeOverflow i links else s.withEntry i (armed next)

/-- The oldest waiting edge of an input, and the rest (R107). -/
def takePriming (input : Line) : List Priming → Option (Priming × List Priming)
  | [] => none
  | e :: rest =>
    if e.input = input then some (e, rest) else (takePriming input rest).map fun r => (r.1, e :: r.2)

/-- What the records of a priming are posted for: the capture (R118). -/
def Priming.links (edge : Priming) : Links := { capture := some edge.capture }

/-- PRIMING_HANDOVER: the SCU takes a captured edge and arms every matching PRIMED entry, in ascending index order (R58). It
takes the time advance of the edge's own tick first, so that a delay of 0 gives a past due (R83, log 12). -/
def State.primingHandover (s : State) (input : Line) : State :=
  match takePriming input s.mail.primings with
  | none => s
  | some (edge, rest) =>
    if s.scuTook edge.turn then
      let s1 := { s with mail := { s.mail with primings := rest } }
      (indexesWhere s1.scu.entries (·.primedFor edge)).foldl (fun s i => s.primeEntry edge.stamp edge.links i) s1
    else s

/-- PRIMING_HANDOVER (R58). -/
def execPrimingHandover (input : Line) (s : State) : Host.Outcome State Fault Refusal := .next (s.primingHandover input)

/-! ## Creating entries (R51 to R57) -/

/-- A port's use: its entries that are not FREE (R49). -/
def Scu.use (c : Scu) (p : Port) : Nat :=
  (indexesWhere c.entries fun e => e.state != .free && e.owner == some p).length

/-- The FREE entry with the lowest index (R53). -/
def Scu.firstFree (c : Scu) : Option Index := (indexesWhere c.entries (·.state == .free)).head?

/-- Whether an owner may not drive a line: the line is bound to another port (R52). -/
def State.denies (s : State) (owner : Option Port) (line : Line) : Bool :=
  match s.tou.lines[line].binding with
  | none => false
  | some q => decide (owner ≠ some q)

/-- The checks of a creating request in order, then the creation at the index found (R51 to R53). -/
def State.creating {α : Type} (s : State) (p : Port) (payload : List Byte) (operands : Option (α × Creation))
    (k : Index → Option Port → α → Creation → Reply) : Reply :=
  let detached := detachedFlag payload
  let owner := if detached then none else some p
  s.ifAttached p <|
    if detached && decide (s.sau.holder ≠ some p) then s.refuse .notAuthority
    else
      s.ifInRange operands fun (a, c) =>
        if c.action.any (fun act => s.denies owner act.line) then s.refuse .lineDenied
        else if !detached && decide (s.scu.quota[p] ≤ s.scu.use p) then s.refuse .quota
        else
          match s.scu.firstFree with
          | none => s.refuse .tableFull
          | some i => k i owner a c

/-- A new entry with the fields of its request; it keeps the generation its index holds (R53). -/
def Creation.entry (c : Creation) (owner : Option Port) (generation : Nat) (due : Option Time) (prime : Option PrimeSpec) :
    Entry :=
  { state := if due.isSome then .armed else .primed
    generation, owner, label := c.label, due, period := c.period, remaining := c.remaining, initial := c.remaining
    action := c.action, scope := c.scope, policy := c.policy, prime, occurrence := 0 }

/-- A handle as two bytes (R165). -/
def handleBytes (i : Index) (generation : Nat) : List Byte := [BitVec.ofNat 8 i.val, BitVec.ofNat 8 generation]

/-- ARM at the index found: a future due arms the entry, a past due is treated by the entry's kind (R54 to R56). -/
def State.armAt (s : State) (i : Index) (owner : Option Port) (due : Time) (c : Creation) : Reply :=
  let g := s.scu.entries[i].generation
  let created (d : Time) : State := s.withEntry i (c.entry owner g (some d) none)
  let answer (t : State) (d : Time) (flags : List Bool) : Reply :=
    { state := t, result := .ok, payload := handleBytes i g ++ timeBytes d ++ [flagByte flags] }
  if s.scu.now < due then answer (created due) due [false, false]
  else
    match c.period with
    | none =>
      match c.policy with
      | .catchup => answer ((created due).fire i 1 s.scu.now .atArm) due [true, false]
      | .skip => s.refuse .past
    | some period =>
      let next := advancePast due period s.scu.now
      if Config.maxTime < next then s.refuse .range else answer (created next) next [false, true]

/-- ARM (R51). -/
def execArm (p : Port) (s : State) : Host.Outcome State Fault Refusal :=
  .next (s.serve p .arm fun payload => s.creating p payload (armOperands payload) s.armAt)

/-- PRIME at the index found (R57). -/
def State.primeAt (s : State) (i : Index) (owner : Option Port) (spec : PrimeSpec) (c : Creation) : Reply :=
  let g := s.scu.entries[i].generation
  { state := s.withEntry i (c.entry owner g none (some spec)), result := .ok, payload := handleBytes i g }

/-- PRIME (R57). -/
def execPrime (p : Port) (s : State) : Host.Outcome State Fault Refusal :=
  .next (s.serve p .prime fun payload => s.creating p payload (primeOperands payload) s.primeAt)

/-! ## Managing entries (R46, R48, R59 to R63) -/

/-- The checks of a request that names a handle, then the rest with the index (R46, R48). -/
def State.withHandle (s : State) (p : Port) (payload : List Byte) (k : Index → Reply) : Reply :=
  s.ifAttached p <| s.ifInRange (indexOf (fieldNat payload 0 1)) fun i =>
    let e := s.scu.entries[i]
    if e.state = .free ∨ e.generation ≠ fieldNat payload 1 1 then s.refuse .staleHandle
    else
      match e.owner with
      | some q => if q = p then k i else s.refuse .notOwner
      | none => if s.sau.holder = some p then k i else s.refuse .notAuthority

/-- CANCEL of a checked entry (R61). -/
def State.cancelAt (s : State) (i : Index) : Reply :=
  let e := s.scu.entries[i]
  { state := s.withEntry i e.freed, result := .ok, payload := [e.state.code] ++ beBytes e.occurrence 2 }

/-- CANCEL (R61). -/
def execCancel (p : Port) (s : State) : Host.Outcome State Fault Refusal :=
  .next (s.serve p .cancel fun payload => s.withHandle p payload s.cancelAt)

/-- HOLD of a checked entry (R59). -/
def State.holdAt (s : State) (i : Index) : Reply :=
  let e := s.scu.entries[i]
  if e.state = .armed then
    { state := s.withEntry i { e with state := .held }, result := .ok, payload := timeBytes e.dueTime }
  else s.refuse .badState

/-- HOLD (R59). -/
def execHold (p : Port) (s : State) : Host.Outcome State Fault Refusal :=
  .next (s.serve p .hold fun payload => s.withHandle p payload s.holdAt)

/-- The due field of RESUME: present when LEN is 10 (10, RESUME). -/
def resumeDue (payload : List Byte) (held : Time) : Option Time :=
  if payload.length = 10 then fieldTime payload 2 else some held

/-- RESUME of a checked entry, with the treatment of a past due (R60, R82). -/
def State.resumeAt (s : State) (payload : List Byte) (i : Index) : Reply :=
  let e := s.scu.entries[i]
  if e.state = .held then
    s.ifInRange (resumeDue payload e.dueTime) fun due =>
      let armed : Entry := { e with state := .armed, due := some due }
      let s1 := s.withEntry i armed
      let late := decide (due ≤ s.scu.now)
      let t := if late then s1.treat i s.scu.now .resumed else s1
      let covered := if late then armed.passed s.scu.now else 0
      let e' := t.scu.entries[i]
      { state := t
        result := .ok
        payload := [e'.state.code] ++ timeBytes (if e'.state = .armed then e'.dueTime else 0)
          ++ beBytes (min covered 4294967295) 4 }
  else s.refuse .badState

/-- RESUME (R60). -/
def execResume (p : Port) (s : State) : Host.Outcome State Fault Refusal :=
  .next (s.serve p .resume fun payload => s.withHandle p payload (s.resumeAt payload))

/-- The payload of QUERY_ENTRY; absent fields are 00H (R62, R165). -/
def Entry.bytes (e : Entry) : List Byte :=
  [flagByte [e.owner.isNone, e.due.isSome, e.period.isSome, e.remaining.isSome, e.initial.isSome, e.action.isSome,
      e.prime.isSome], e.state.code, BitVec.ofNat 8 e.generation, portCode e.owner]
    ++ beBytes e.label 2 ++ timeBytes (e.due.getD 0) ++ timeBytes (e.period.getD 0) ++ beBytes (e.remaining.getD 0) 2
    ++ beBytes (e.initial.getD 0) 2
    ++ [BitVec.ofNat 8 ((e.action.map fun a => a.line.val).getD 0), ((e.action.map fun a => a.op.code).getD 0),
      e.scope.code, e.policy.code, BitVec.ofNat 8 ((e.prime.map fun ps => ps.input.val).getD 0),
      ((e.prime.map fun ps => ps.edge.code).getD 0)]
    ++ beBytes ((e.prime.map PrimeSpec.delay).getD 0) 4 ++ [boolCode e.rearms] ++ beBytes e.occurrence 2

/-- QUERY_ENTRY (R62). -/
def execQueryEntry (p : Port) (s : State) : Host.Outcome State Fault Refusal :=
  .next (s.serve p .queryEntry fun payload => s.withHandle p payload fun i => s.report s.scu.entries[i].bytes)

/-- Whether an entry qualifies for a port's LIST_ENTRIES (R63). -/
def State.listable (s : State) (p : Port) (e : Entry) : Bool :=
  e.state != .free && (e.owner == some p || (e.owner.isNone && decide (s.sau.holder = some p)))

/-- The payload of LIST_ENTRIES from a start index (R63). -/
def State.listReport (s : State) (p : Port) (start : Index) : List Byte :=
  let found := (indexesWhere s.scu.entries (s.listable p)).filter fun i => decide (start ≤ i)
  let shown := found.take 32
  [BitVec.ofNat 8 shown.length, boolCode (decide (32 < found.length))]
    ++ shown.flatMap fun i => handleBytes i s.scu.entries[i].generation ++ [s.scu.entries[i].state.code]

/-- LIST_ENTRIES (R63). -/
def execListEntries (p : Port) (s : State) : Host.Outcome State Fault Refusal :=
  .next (s.serve p .listEntries fun payload =>
    s.ifAttached p <| s.ifInRange (indexOf (fieldNat payload 0 1)) fun start => s.report (s.listReport p start))

/-- SET_QUOTA on its payload (R50). -/
def State.setQuota (s : State) (p : Port) (payload : List Byte) : Reply :=
  s.ifHolder p <| s.ifInRange (quotaOperands payload) fun (q, quota) =>
    { state := { s with scu := { s.scu with quota := s.scu.quota.set q.val quota } }
      result := .ok
      payload := [BitVec.ofNat 8 s.scu.quota[q], BitVec.ofNat 8 (s.scu.use q)] }

/-- SET_QUOTA (R50). -/
def execSetQuota (p : Port) (s : State) : Host.Outcome State Fault Refusal :=
  .next (s.serve p .setQuota (s.setQuota p))

/-! ## Session end (R64) -/

/-- The entries after a port's session end: every entry it owns becomes FREE (R64). -/
def Scu.freeOwned (c : Scu) (p : Port) : Scu :=
  { c with entries := c.entries.map fun e => if e.state != .free && e.owner == some p then e.freed else e }

/-- SCU_SESSION_END: the SCU takes the session end in progress, frees the port's entries and reports their number
(R64, R140 step 3, log 10). -/
def State.scuSessionEnd (s : State) (p : Port) : State :=
  match s.sau.ending with
  | none => s
  | some e =>
    if e.port = p ∧ e.phase = .atScu then
      { s with
        scu := s.scu.freeOwned p
        sau := { s.sau with ending := some { e with phase := .atElu, freed := s.scu.use p } } }
    else s

/-- SCU_SESSION_END (R64). -/
def execScuSessionEnd (p : Port) (s : State) : Host.Outcome State Fault Refusal := .next (s.scuSessionEnd p)

end Sys2Proof.Machine
end

