-- ==== Sys2Proof/Machine/Timebase.lean ====
section
/-! DEFINITION. The Timebase Unit: a tick of a source with its trim and slew, steps, and the six timebase requests (chapter 1). -/

namespace Sys2Proof.Machine

/-! ## Trim (R4) -/

def Sign.toInt : Sign → Int
  | .plus => 1
  | .minus => -1

/-- The trim of a source (R4). -/
def Tbu.trim (t : Tbu) : Source → Int
  | .internal => t.intTrim
  | .refclk => t.refTrim

/-- The accumulator of a source (R4). -/
def Tbu.acc (t : Tbu) : Source → Nat
  | .internal => t.intAcc
  | .refclk => t.refAcc

def Tbu.withAcc (t : Tbu) (n : Nat) : Source → Tbu
  | .internal => { t with intAcc := n }
  | .refclk => { t with refAcc := n }

def Tbu.withTrim (t : Tbu) (v : Int) : Source → Tbu
  | .internal => { t with intTrim := v }
  | .refclk => { t with refTrim := v }

/-- Whether the next tick of a source makes a trim correction due, and its sign (R4). -/
def Tbu.trimDue (t : Tbu) (src : Source) : Option Sign :=
  if t.trim src ≠ 0 ∧ Config.trimFull ≤ t.acc src + (t.trim src).natAbs then
    some (if 0 < t.trim src then .plus else .minus)
  else none

/-- The accumulator after one tick of its source (R4). -/
def Tbu.accNext (t : Tbu) (src : Source) : Nat :=
  if (t.trimDue src).isSome then t.acc src + (t.trim src).natAbs - Config.trimFull
  else t.acc src + (t.trim src).natAbs

/-- The trim part of a tick: the source's accumulator moves and a correction may be due. If TRIM_CORRECTION_DUE has
already taken this part of the tick, its correction stands and no accumulator moves, whatever the source the TICK then has
(R4; DESIGN CHOICE, log 6). -/
def Tbu.trimPart (t : Tbu) (src : Source) : Tbu × Option Sign :=
  match t.trimTaken with
  | some sign => (t, some sign)
  | none => (t.withAcc (t.accNext src) src, t.trimDue src)

/-! ## Slew (R5, R6) -/

/-- The sign of a slew's corrections (R5). -/
def Slew.sign (w : Slew) : Sign := if 0 < w.residual then .plus else .minus

/-- Whether the spacing counter reaches P on the next tick (R5). -/
def Slew.reachesSpacing (w : Slew) : Bool := decide (w.spacing ≤ w.counter + 1)

/-- The spacing counter and the deferred field after one tick's counting: at P the counter returns to 0 and a correction
is due (R5). -/
def Slew.count (w : Slew) : Slew :=
  if w.reachesSpacing then { w with counter := 0, deferred := true } else { w with counter := w.counter + 1 }

/-- What becomes of the slew on a tick: its due correction is consumed (applied or cancelled), or the slew is kept as it
stands, with a due correction deferred (R6). -/
inductive SlewFate where
  | consumed
  | kept
  deriving DecidableEq, Repr

/-- The table of R6: the advance of a tick from its trim and slew corrections, and the fate of the slew correction. -/
def combine (trim slew : Option Sign) : Nat × SlewFate :=
  match trim, slew with
  | none, none => (1, .kept)
  | some .plus, none => (2, .kept)
  | some .minus, none => (0, .kept)
  | none, some .plus => (2, .consumed)
  | none, some .minus => (0, .consumed)
  | some .plus, some .minus => (1, .consumed)
  | some .minus, some .plus => (1, .consumed)
  | some .plus, some .plus => (2, .kept)
  | some .minus, some .minus => (0, .kept)

/-- One slew correction is applied, or consumed by cancellation: the residual's magnitude falls by 1 (R5, R6). -/
def Slew.consume (w : Slew) : Slew :=
  { w with residual := w.residual - w.sign.toInt, deferred := false }

/-- A slew as it starts (R5). -/
def Slew.start (origin : Origin) (offset : Int) (spacing : Nat) : Slew :=
  { origin, initial := offset, residual := offset, spacing, counter := 0, deferred := false }

/-! ## The tick (R3, R7, R8) -/

/-- The time after an advance: it never passes the maximum (R8). -/
def advanceTime (t : Time) (advance : Nat) : Time := min (t + advance) Config.maxTime

/-- The slew after a tick's counting, unless SLEW_CORRECTION_DUE has taken that part of the tick (log 6). -/
def Tbu.slewPart (t : Tbu) : Option Slew :=
  if t.slewTaken then t.slew else t.slew.map Slew.count

/-- The correction of a slew that is due on the tick: it becomes due on it or is still deferred (R6). -/
def Slew.correction (w : Slew) : Option Sign := if w.deferred then some w.sign else none

/-- The slew after the corrections of the tick have been combined (R6). -/
def Slew.settle (w : Slew) (trim : Option Sign) : Slew :=
  match (combine trim w.correction).2 with
  | .consumed => w.consume
  | .kept => w

/-- The TBU's part of a tick that is not held at the maximum: the new TBU, and the slew if it ended on the tick (R3 to
R8). -/
def Tbu.advance (t : Tbu) (src : Source) : Tbu × Option Slew :=
  let (t1, trim) := t.trimPart src
  let slew := t1.slewPart
  let time := advanceTime t.time (combine trim (slew.bind Slew.correction)).1
  let slew' := slew.map (·.settle trim)
  let ended := slew'.filter (·.residual == 0)
  ({ t1 with time, slew := slew'.filter (·.residual != 0), trimTaken := none, slewTaken := false }, ended)

/-- A tick held at the maximum changes no TBU state (R8). A part of it that a command took before a step to the maximum ends with
its mark: the correction is dropped, and the accumulator that moved keeps its value (DESIGN CHOICE, log 6). -/
def Tbu.held (t : Tbu) : Tbu := { t with trimTaken := none, slewTaken := false }

/-- The TBU takes a tick of a source under a turn: it posts a SLEW_DONE record if a slew ended, and hands the new time value to
the SCU (R3, R7). At the maximum time value nothing is handed on (R8). -/
def State.tbuTick (s : State) (src : Source) (turn : Nat) : State :=
  if s.tbu.time = Config.maxTime then { s with tbu := s.tbu.held }
  else
    let (t, ended) := s.tbu.advance src
    let s1 := { s with tbu := t }
    let s2 := match ended with
      | none => s1
      | some w => s1.post .tbu t.time (.slewDone w.origin w.initial w.spacing) none { turn := some turn }
    { s2 with mail := { s2.mail with toScu := s2.mail.toScu ++ [.advance turn t.time] } }

/-- A tick on one trigger line: the pulse remaining of a PULSING line falls by 1, and at 0 the line is IDLE (R90). A line
whose part of the tick PULSE_END has taken is not counted again (log 6). -/
def TrigLine.tick (l : TrigLine) : TrigLine :=
  if l.counted then { l with counted := false }
  else if l.remaining = 0 then l
  else if l.remaining = 1 then { l with active := false, remaining := 0 }
  else { l with remaining := l.remaining - 1 }

/-- Whether an input's sample phase counter reaches its divider on the next tick (R101). -/
def Input.sampleDue (i : Input) : Bool := decide (i.divider ≤ i.phase + 1)

/-- A tick on one input's sample phase counter (R101). -/
def Input.tick (i : Input) : Input := { i with phase := if i.sampleDue then 0 else i.phase + 1 }

/-- The ECU takes a tick under a turn: every phase counter counts, and each input whose counter reaches its divider has a
sample due with the time after the tick (R101, log 13). -/
def State.ecuTick (s : State) (turn : Nat) : State :=
  let due := (List.finRange 8).filter fun n => s.ecu.inputs[n].sampleDue
  { s with
    ecu := { inputs := s.ecu.inputs.map Input.tick }
    mail := { s.mail with toEcu := s.mail.toEcu ++ due.map fun n => .sample turn n s.tbu.time } }

/-- One tick of a source in the three blocks that take it, under the next turn: the TBU's advance, the TOU's pulse count and the
ECU's phase count (R3, R90, R101). -/
def State.tickOf (s : State) (src : Source) : State :=
  let s1 := s.tbuTick src s.mail.turns
  let s2 := { s1 with tou := { lines := s1.tou.lines.map TrigLine.tick } }
  let s3 := s2.ecuTick s.mail.turns
  { s3 with mail := { s3.mail with turns := s.mail.turns + 1 } }

/-- TRIM_CORRECTION_DUE: the trim part of the tick now beginning, which is due (R4, log 6). -/
def State.trimCorrectionDue (s : State) : State :=
  if s.tbu.time = Config.maxTime ∨ s.tbu.trimTaken ≠ none then s
  else
    match s.tbu.trimDue s.tickSource with
    | none => s
    | some sign =>
      { s with tbu := { s.tbu.withAcc (s.tbu.accNext s.tickSource) s.tickSource with trimTaken := some sign } }

/-- TRIM_CORRECTION_DUE (R4). -/
def execTrimCorrectionDue (s : State) : Host.Outcome State Fault Refusal := .next s.trimCorrectionDue

/-- SLEW_CORRECTION_DUE: the spacing count of the tick now beginning, when it reaches P (R5, log 6). -/
def State.slewCorrectionDue (s : State) : State :=
  match s.tbu.slew with
  | none => s
  | some w =>
    if s.tbu.time ≠ Config.maxTime ∧ !s.tbu.slewTaken ∧ w.reachesSpacing then
      { s with tbu := { s.tbu with slew := some w.count, slewTaken := true } }
    else s

/-- SLEW_CORRECTION_DUE (R5). -/
def execSlewCorrectionDue (s : State) : Host.Outcome State Fault Refusal := .next s.slewCorrectionDue

/-! ## Steps (R14, R15) -/

/-- The offset field of a STEP record, saturated at 2^47-1 in magnitude (R15). -/
def stepField (offset : Int) : Int :=
  if Config.maxStepField < offset then Config.maxStepField
  else if offset < -Config.maxStepField then -Config.maxStepField
  else offset

/-- The body of the STEP record of a step (R15). -/
def stepBody (isStep : Bool) (old new : Time) (slew : Option Slew) : Body :=
  let offset : Int := (new : Int) - (old : Int)
  .step isStep (stepField offset) (decide (stepField offset ≠ offset)) (slew.map fun w => (w.origin, w.residual))

/-- An accepted step, as one event: the new time, the slew cancelled, the flag SET, the STEP record, and the hand-over to
the SCU and then the ECU (R14). -/
def State.applyStep (s : State) (isStep : Bool) (new : Time) : State :=
  let old := s.tbu.time
  let turn := s.mail.turns
  let body := stepBody isStep old new s.tbu.slew
  let s1 := { s with tbu := { s.tbu with time := new, isSet := true, slew := none, slewTaken := false } }
  let s2 := s1.post .tbu new body none { turn := some turn }
  { s2 with mail := { s2.mail with
      turns := turn + 1
      toScu := s2.mail.toScu ++ [.step turn old new]
      toEcu := s2.mail.toEcu ++ [.step turn old new] } }

/-- SET_TIME on its payload (R12). -/
def State.setTime (s : State) (p : Port) (payload : List Byte) : Reply :=
  s.ifHolder p <| s.ifInRange (fieldTime payload 0) fun new =>
    { state := s.applyStep false new, result := .ok, payload := timeBytes s.tbu.time }

/-- SET_TIME (R12). -/
def execSetTime (p : Port) (s : State) : Host.Outcome State Fault Refusal := .next (s.serve p .setTime (s.setTime p))

/-- The sum of a time value and an offset, or none outside 0 to the maximum (R1, R13). -/
def addOffset (t : Time) (offset : Int) : Option Time :=
  let sum : Int := (t : Int) + offset
  if 0 ≤ sum ∧ sum ≤ (Config.maxTime : Int) then some sum.toNat else none

/-- STEP_TIME on its payload (R13). -/
def State.stepTime (s : State) (p : Port) (payload : List Byte) : Reply :=
  s.ifHolder p <|
    if s.tbu.isSet then
      s.ifInRange (addOffset s.tbu.time (fieldInt payload 0 8)) fun new =>
        { state := s.applyStep true new, result := .ok, payload := timeBytes s.tbu.time }
    else s.refuse .notSet

/-- STEP_TIME (R13). -/
def execStepTime (p : Port) (s : State) : Host.Outcome State Fault Refusal :=
  .next (s.serve p .stepTime (s.stepTime p))

/-! ## Slews (R17, R18) -/

/-- A new slew record, or none, in place of whatever was in flight (R17, R18). -/
def State.withSlew (s : State) (slew : Option Slew) : State :=
  { s with tbu := { s.tbu with slew, slewTaken := false } }

/-- SLEW_TIME on its payload (R17). -/
def State.slewTime (s : State) (p : Port) (payload : List Byte) : Reply :=
  s.ifHolder p <| s.ifInRange (slewOperands payload) fun (offset, spacing) =>
    if s.rsv.pps.discipline then s.refuse .disciplined
    else
      let old := s.tbu.slew
      { state := s.withSlew (if offset = 0 then none else some (Slew.start .host offset spacing))
        result := .ok
        payload := beSigned ((old.map Slew.residual).getD 0) 4 ++ [originCode (old.map Slew.origin)] }

/-- SLEW_TIME (R17). -/
def execSlewTime (p : Port) (s : State) : Host.Outcome State Fault Refusal :=
  .next (s.serve p .slewTime (s.slewTime p))

/-- DISCIPLINE_SLEW: the TBU takes the oldest slew the RSV has handed it (R18). -/
def State.disciplineSlew (s : State) : State :=
  match s.mail.slews with
  | [] => s
  | w :: rest =>
    { s with mail := { s.mail with slews := rest } }.withSlew (some (Slew.start .pps w.initial w.spacing))

/-- DISCIPLINE_SLEW (R18). -/
def execDisciplineSlew (s : State) : Host.Outcome State Fault Refusal := .next s.disciplineSlew

/-! ## The other timebase requests (R19 to R21) -/

/-- SET_TRIM on its payload (R19). -/
def State.setTrim (s : State) (p : Port) (payload : List Byte) : Reply :=
  s.ifHolder p <| s.ifInRange (trimOperands payload) fun (src, trim) =>
    { state := { s with tbu := (s.tbu.withTrim trim src).withAcc 0 src }
      result := .ok
      payload := beSigned (s.tbu.trim src) 4 }

/-- SET_TRIM (R19). -/
def execSetTrim (p : Port) (s : State) : Host.Outcome State Fault Refusal := .next (s.serve p .setTrim (s.setTrim p))

/-- The payload of READ_TIME (R20). -/
def State.timeReport (s : State) : List Byte := timeBytes s.tbu.time ++ [s.quality.code, s.rsv.state.code]

/-- READ_TIME (R20). -/
def execReadTime (p : Port) (s : State) : Host.Outcome State Fault Refusal :=
  .next (s.serve p .readTime fun _ => s.report s.timeReport)

/-- The slew fields of READ_TIMEBASE, all 00H when there is no slew (R21, R165). -/
def slewReport : Option Slew → List Byte
  | none => List.replicate 14 0
  | some w => [w.origin.code] ++ beSigned w.initial 4 ++ beSigned w.residual 4 ++ beBytes w.spacing 2
      ++ beBytes w.counter 2 ++ [boolCode w.deferred]

/-- The payload of READ_TIMEBASE (R21). -/
def State.timebaseReport (s : State) : List Byte :=
  beSigned s.tbu.refTrim 4 ++ beSigned s.tbu.intTrim 4 ++ beBytes s.tbu.refAcc 4 ++ beBytes s.tbu.intAcc 4
    ++ [s.source.code, boolCode s.tbu.isSet] ++ slewReport s.tbu.slew

/-- READ_TIMEBASE (R21). -/
def execReadTimebase (p : Port) (s : State) : Host.Outcome State Fault Refusal :=
  .next (s.serve p .readTimebase fun _ => s.ifAttached p (s.report s.timebaseReport))

end Sys2Proof.Machine
end

