-- ==== Sys2Proof/Machine/Triggers.lean ====
section
/-! DEFINITION. The Trigger Output Unit: line operations, pulse ends and the four trigger requests (chapter 5). -/

namespace Sys2Proof.Machine

/-- The table of R89: the effect of an operation on a line. -/
def TrigLine.apply (l : TrigLine) : LineOp → TrigLine
  | .pulse => { l with active := true, remaining := l.width }
  | .set => { l with active := true, remaining := 0 }
  | .clear => { l with active := false, remaining := 0 }
  | .toggle => { l with active := !l.active, remaining := 0 }

/-- The TOU takes an operation on a line (R89). -/
def State.operate (s : State) (a : Action) : State := s.withLine a.line (·.apply a.op)

/-- LINE_OPERATION: the TOU takes the oldest operation the SCU has handed it (R91). -/
def State.lineOperation (s : State) : State :=
  match s.mail.ops with
  | [] => s
  | a :: rest => { s with mail := { s.mail with ops := rest } }.operate a

/-- LINE_OPERATION (R89). -/
def execLineOperation (s : State) : Host.Outcome State Fault Refusal := .next s.lineOperation

/-- PULSE_END: the last tick of a pulse, now beginning, ends it on this line (R90, log 6). -/
def TrigLine.pulseEnd (l : TrigLine) : TrigLine :=
  if !l.counted ∧ l.remaining = 1 then { l with active := false, remaining := 0, counted := true } else l

/-- PULSE_END: a tick begins at the TOU when the operations of the tick before have been applied (R91, log 6). -/
def State.pulseEnd (s : State) (n : Line) : State :=
  if s.mail.toScu.isEmpty && s.mail.ops.isEmpty then s.withLine n TrigLine.pulseEnd else s

/-- PULSE_END (R90). -/
def execPulseEnd (n : Line) (s : State) : Host.Outcome State Fault Refusal := .next (s.pulseEnd n)

/-- DRIVE_LINE on its payload (R92). -/
def State.driveLine (s : State) (p : Port) (payload : List Byte) : Reply :=
  s.ifAttached p <| s.ifInRange (driveOperands payload) fun a =>
    let b := s.tou.lines[a.line].binding
    if b = none ∨ b = some p then
      let t := s.operate a
      let l := t.tou.lines[a.line]
      { state := t, result := .ok, payload := [boolCode l.active] ++ beBytes l.remaining 2 }
    else s.refuse .lineDenied

/-- DRIVE_LINE (R92). -/
def execDriveLine (p : Port) (s : State) : Host.Outcome State Fault Refusal :=
  .next (s.serve p .driveLine (s.driveLine p))

/-- Whether an entry blocks the binding of a line to port q: it is not FREE, its owner is not q, and it has an output
action on the line (R93). -/
def Entry.blocks (e : Entry) (line : Line) (q : Port) : Bool :=
  e.state != .free && e.owner != some q && e.action.any (fun a => a.line == line)

/-- The lowest index of an entry that blocks a binding; nothing blocks SHARED (R93). -/
def Scu.blocker (c : Scu) (line : Line) : Option Port → Option Index
  | none => none
  | some q => ((List.finRange 64).filter fun i => c.entries[i].blocks line q).head?

/-- BIND_LINE on its payload (R93, R94). -/
def State.bindLine (s : State) (p : Port) (payload : List Byte) : Reply :=
  s.ifHolder p <| s.ifInRange (bindOperands payload) fun (line, binding) =>
    match s.scu.blocker line binding with
    | some i => { state := s, result := .lineInUse, payload := [BitVec.ofNat 8 i.val] }
    | none =>
      { state := s.withLine line fun l => { l with binding }
        result := .ok
        payload := [bindingCode s.tou.lines[line].binding] }

/-- BIND_LINE (R93). -/
def execBindLine (p : Port) (s : State) : Host.Outcome State Fault Refusal :=
  .next (s.serve p .bindLine (s.bindLine p))

/-- LINE_CONFIG on its payload (R95). -/
def State.lineConfig (s : State) (p : Port) (payload : List Byte) : Reply :=
  s.ifHolder p <| s.ifInRange (lineConfigOperands payload) fun (line, idle, width) =>
    let l := s.tou.lines[line]
    { state := s.withLine line fun l => { l with idle, width }
      result := .ok
      payload := [levelCode l.idle] ++ beBytes l.width 2 }

/-- LINE_CONFIG (R95). -/
def execLineConfig (p : Port) (s : State) : Host.Outcome State Fault Refusal :=
  .next (s.serve p .lineConfig (s.lineConfig p))

/-- The six bytes of a line in READ_LINES (R97; 10, packed bytes). -/
def TrigLine.bytes (l : TrigLine) : List Byte :=
  [bindingCode l.binding, flagByte [l.idle == .high, l.active, l.pin == .high]] ++ beBytes l.width 2
    ++ beBytes l.remaining 2

/-- READ_LINES (R97). -/
def execReadLines (p : Port) (s : State) : Host.Outcome State Fault Refusal :=
  .next (s.serve p .readLines fun _ => s.ifAttached p (s.report (s.tou.lines.toList.flatMap TrigLine.bytes)))

end Sys2Proof.Machine
end

