-- ==== Sys2Proof/Machine/Tick.lean ====
section
/-! DEFINITION. The TICK command: the clock edge a tick is taken at, what must be done before the tick, the tick itself, and the internal cycle that a tick of the internal oscillator is. -/

namespace Sys2Proof.Machine

/-! ## One internal cycle (R24, R25, R28, R138) -/

/-- An internal cycle at the RSV: the window cycle counter and the gap counter count while supervision is enabled, the
holdover cycle counter in HOLDOVER. A counter that has reached its mark waits there for its event (log 7). -/
def Rsv.cycle (r : Rsv) : Rsv :=
  { r with
    cycles := if r.config.enabled then min (r.cycles + 1) Config.windowCycles else r.cycles
    gap := if r.config.enabled then min (r.gap + 1) Config.gapCycles else r.gap
    ageCycles := if r.state = .holdover then min (r.ageCycles + 1) Config.secondCycles else r.ageCycles }

/-- An internal cycle on a port's idle timer, which runs while the port is attached with a limit and has not reached it
(R138). -/
def Session.cycle (ses : Session) : Session :=
  if ses.attached ∧ ses.limit ≠ 0 ∧ ses.seconds < ses.limit then
    if Config.secondCycles ≤ ses.cycles + 1 then { ses with seconds := ses.seconds + 1, cycles := 0 }
    else { ses with cycles := ses.cycles + 1 }
  else ses

/-- One cycle of the internal oscillator on every counter of internal cycles. -/
def State.countCycle (s : State) : State :=
  { s with rsv := s.rsv.cycle, sau := { s.sau with sessions := s.sau.sessions.map Session.cycle } }

/-! ## What is done before a tick (R91, R101; log 33) -/

/-- The SCU takes the oldest hand-over of the TBU (R67, R78). -/
def State.scuTake (s : State) : TimeHandover → State
  | .advance .. => s.timeAdvance
  | .step .. => s.stepHandover

/-- The ECU takes its oldest hand-over; a sample finds the pin at the level last sampled (log 14). -/
def State.ecuTake (s : State) : EcuHandover → State
  | .sample _ n _ => s.inputSample n s.pins[n]
  | .step .. => s.ecuStepHandover

/-- The SCU takes every hand-over of the TBU that waits. -/
def State.scuCatchUp (s : State) : State := s.mail.toScu.foldl State.scuTake s

/-- The TOU takes every operation that waits (R91). -/
def State.touCatchUp (s : State) : State := s.mail.ops.foldl (fun s _ => s.lineOperation) s

/-- The ECU takes every sample and step that waits (R101, R109). -/
def State.ecuCatchUp (s : State) : State := s.mail.toEcu.foldl State.ecuTake s

/-- Before a tick, what the ticks and steps before it handed over is taken: the SCU fires and treats, the TOU applies the
operations of those firings before it takes its next tick (R91), and the ECU judges each sample before it takes its next
tick (R101, log 33). -/
def State.catchUp (s : State) : State := s.scuCatchUp.touCatchUp.ecuCatchUp

/-! ## What the SAU takes before a tick (R138; log 35) -/

/-- The SAU takes every report that waits (R138). -/
def State.takeReports (s : State) : State := s.mail.reports.foldl (fun s r => s.validFrameReport r.port) s

/-- The SCU and the ELU take the session end in progress, as far as it can go (R140 steps 3 to 7). -/
def State.advanceEnd (s : State) : State :=
  match s.sau.ending with
  | none => s
  | some e => (s.scuSessionEnd e.port).eluSessionEnd e.port

/-- An idle timer that stands at its limit: the session ends (R138). A session end in progress is one event of the SAU and goes
first (R140). Where the ELU cannot take that one yet, the expiry waits under its mark (log 10, log 35). -/
def State.expireDue (s : State) (p : Port) : State :=
  if s.sau.sessions[p].timedOut then
    let s1 := s.advanceEnd
    if s1.sau.ending.isNone then s1.idleExpiry p else s1.withSession p fun ses => { ses with overdue := true }
  else s

/-- The reports that wait, and then the expiries that are due, by ascending port. R138 lets a report and an expiry be taken in
either order: DESIGN CHOICE, log 35. IDLE_EXPIRY before the TICK gives the other order. -/
def State.settleSessions (s : State) : State := (List.finRange 4).foldl State.expireDue s.takeReports

/-! ## The clock edge of a tick (R2, R29; log 5) -/

/-- The supervision events that counters at their mark call for, which come before the next clock edge (log 8). R28 lets an
expiry and a window classification be taken in either order. Here the classification goes first, and one that qualifies
leaves no holdover to expire: DESIGN CHOICE, log 34. HOLDOVER_AGE_INCREMENT before the TICK gives the other order. -/
def State.settleDue (s : State) : State := s.settleWindow.holdoverAgeIncrement

/-- The clock edge a tick is taken at: an edge of REFCLK that already came and waits, or else the next edge of the source
selected, which for REFCLK is counted as one (R29, log 5). -/
def State.tickEdge (s : State) : State :=
  if 0 < s.mail.refTicks then s
  else
    let s1 := s.settleDue
    match s1.source with
    | .refclk => s1.refclkEdge
    | .internal => s1

/-- The tick at its edge: one of REFCLK that waits, or one of the internal oscillator, which is an internal cycle too (R2,
R29). -/
def State.takeTick (s : State) : State :=
  if 0 < s.mail.refTicks then
    { s with mail := { s.mail with refTicks := s.mail.refTicks - 1 } }.tickOf .refclk
  else (s.tickOf .internal).countCycle

/-- One tick of the timebase clock. -/
def State.tick (s : State) : State := s.catchUp.settleSessions.tickEdge.takeTick

/-- TICK (R3). -/
def execTick (s : State) : Host.Outcome State Fault Refusal := .next s.tick

end Sys2Proof.Machine
end

