-- ==== Sys2Proof/Machine/System.lean ====
section
/-! DEFINITION. Power-on and device reset over all blocks (R22, R23, R41, R42, R65, R87, R98, R99, R114, R115, R134, R135, R145, R152, R164). -/

namespace Sys2Proof.Machine

/-- POWER_ON: every block takes its power-on values, with RST# asserted until its release (log 16). The pins and the
command queue are outside the part. -/
def State.powerOn (s : State) : State := { State.reset with rst := true, pins := s.pins, pending := s.pending }

/-- POWER_ON (R22). -/
def execPowerOn (s : State) : Host.Outcome State Fault Refusal := .next s.powerOn

/-- A session end taken before the assertion has its full effect: its records are posted, with the entries that the SCU
has freed or would free (R164, log 17). -/
def State.closeEnding (s : State) : State :=
  match s.sau.ending with
  | none => s
  | some e =>
    let freed := match e.phase with
      | .atScu => s.scu.use e.port
      | .atElu => e.freed
    s.postAll .sau s.tbu.time ({ e with freed }.bodies s.sau.sessions[e.port].limit)

/-- The schedule table after RST#: every entry that is not FREE is freed, every quota is 16 (R65). -/
def Scu.resetTable (c : Scu) : Scu :=
  { c with
    entries := c.entries.map fun e => if e.state == .free then e else e.freed
    quota := Vector.replicate 4 Config.defaultQuota }

/-- Whether a hand-over to the ECU is a step. -/
def EcuHandover.isStep : EcuHandover → Bool
  | .sample .. => false
  | .step .. => true

/-- The ECU takes its oldest hand-over at the assertion of RST#, a step whether or not the SCU has treated it; a sample finds
the pin at the level last sampled (R115, log 14, log 17). -/
def State.ecuTakeAtReset (s : State) : EcuHandover → State
  | .sample _ n _ => s.inputSample n s.pins[n]
  | .step .. => s.ecuStep

/-- A step that the TBU took before RST# was asserted reaches the ECU before the reset (R115), and so do the samples before it
(R109, log 17). The SCU is not made to take what waits for it: a step that it has not taken finds an empty table (R87). -/
def State.stepsBeforeReset (s : State) : State :=
  s.mail.toEcu.foldl (fun s h => if s.mail.toEcu.any EcuHandover.isStep then s.ecuTakeAtReset h else s) s

/-- The hand-overs that survive RST#: what the TBU, ECU and RSV handed on stands, and posted records are still taken.
Operations, subscriptions and frame reports end with the reset (R23, R42, R99, R115, R135, R152, log 17). -/
def Mail.afterReset (m : Mail) : Mail := { m with ops := [], installs := [], reports := [] }

/-- RESET_ASSERT: what each block does when RST# is asserted. The timebase goes on with its slew cancelled (R23), the RSV
goes on unchanged (R42), every other block takes its reset values (R65, R99, R115, R135, R152, R164). A step or a time advance
that waits for the SCU stands, and the SCU takes it with an empty table; one that it took before is done (R65, R87). -/
def State.resetAssert (s : State) : State :=
  if s.rst then s
  else
    let s := s.stepsBeforeReset.closeEnding
    { s with
      rst := true
      tbu := { s.tbu with slew := none, slewTaken := false }
      scu := s.scu.resetTable
      tou := { lines := s.tou.lines.map fun l => { TrigLine.initial with counted := l.counted } }
      ecu := Ecu.initial
      elu := { Elu.initial with nextSeq := s.elu.nextSeq }
      sau := { Sau.initial with senior := s.sau.senior }
      hpu := Vector.replicate 4 Hpu.initial
      mail := s.mail.afterReset }

/-- RESET_ASSERT (R164). -/
def execResetAssert (s : State) : Host.Outcome State Fault Refusal := .next s.resetAssert

/-- The port the straps name, SEN1 the more significant (R145). -/
def seniorOf : Level → Level → Port
  | .low, .low => 0
  | .low, .high => 1
  | .high, .low => 2
  | .high, .high => 3

/-- RESET_RELEASE: the straps are sampled and every PnRDY# is asserted (R145, R164). -/
def State.resetRelease (s : State) (sen1 sen0 : Level) : State :=
  if s.rst then { s with rst := false, sau := { s.sau with senior := seniorOf sen1 sen0 } } else s

/-- RESET_RELEASE (R145). -/
def execResetRelease (sen1 sen0 : Level) (s : State) : Host.Outcome State Fault Refusal :=
  .next (s.resetRelease sen1 sen0)

end Sys2Proof.Machine
end

