-- ==== Sys2Proof/Machine/Oscillator.lean ====
section
/-! DEFINITION. What the part does by itself while no command waits: the steps that hand-overs, due counters and waiting requests call for, and else one cycle of the internal oscillator (log 4). -/

namespace Sys2Proof.Machine

/-- One cycle of the internal oscillator: a tick while the oscillator drives the timebase, and else a cycle of the counters of
the RSV and the SAU alone (R29, log 5). -/
def State.internalCycle (s : State) : State :=
  match s.source with
  | .internal => s.tick
  | .refclk => s.countCycle

/-! ## The steps that wait (log 4) -/

/-- The command that takes a waiting request. -/
def Code.command (p : Port) : Code → Instr
  | .attach => .attach p | .detach => .detach p | .getStatus => .getStatus p | .claim => .claim p
  | .release => .release p | .take => .take p | .readTime => .readTime p | .readTimebase => .readTimebase p
  | .setTime => .setTime p | .stepTime => .stepTime p | .slewTime => .slewTime p | .setTrim => .setTrim p
  | .readRef => .readRef p | .refConfig => .refConfig p | .ppsConfig => .ppsConfig p | .arm => .arm p
  | .prime => .prime p | .cancel => .cancel p | .hold => .hold p | .resume => .resume p
  | .queryEntry => .queryEntry p | .listEntries => .listEntries p | .setQuota => .setQuota p
  | .bindLine => .bindLine p | .lineConfig => .lineConfig p | .driveLine => .driveLine p
  | .readLines => .readLines p | .inputConfig => .inputConfig p | .readInputs => .readInputs p
  | .subscribe => .subscribe p | .readLog => .readLog p | .ackLog => .ackLog p | .logPolicy => .logPolicy p

/-- The step that a port's request slot waits for. -/
def Slot.next (p : Port) : Slot → Option Instr
  | .executing _ _ (.waiting c _) => some (c.command p)
  | .executing _ _ (.answered _ _) => some (.requestCompletion p)
  | .executing _ _ .taken => none
  | .free => none

/-- The step a hand-over to the SCU waits for. -/
def TimeHandover.next : TimeHandover → Instr
  | .advance .. => .timeAdvance
  | .step .. => .stepHandover

/-- The step a hand-over to the ECU waits for; a sample finds the pin at the level it was last sampled at (log 14). -/
def EcuHandover.next (pins : Vector Level 8) : EcuHandover → Instr
  | .sample _ n _ => .inputSample n pins[n]
  | .step .. => .ecuStepHandover

/-- The step a session end in progress waits for. -/
def Ending.next (e : Ending) : Instr :=
  match e.phase with
  | .atScu => .scuSessionEnd e.port
  | .atElu => .eluSessionEnd e.port

/-- The producer of the oldest waiting record that the ELU can take (R118). -/
def Mail.nextRecord (m : Mail) : Option Block :=
  (m.records.map Posted.producer).find? fun b =>
    match takePosted b m.records with
    | none => false
    | some (r, _) => !m.holdsBack r

/-- The steps that hand-overs wait for, in the model's default order (log 4). -/
def State.handoverSteps (s : State) : List Instr :=
  (s.mail.nextRecord.map Instr.recordTake).toList
    ++ (s.mail.ops.map fun _ => Instr.lineOperation).head?.toList
    ++ (s.mail.installs.map fun i => Instr.subscriptionInstall i.port).head?.toList
    ++ (s.mail.slews.map fun _ => Instr.disciplineSlew).head?.toList
    ++ (s.mail.ppsEdges.map fun _ => Instr.ppsEdgeHandover).head?.toList
    ++ (s.mail.toScu.map TimeHandover.next).head?.toList
    ++ (s.mail.primings.map fun e => Instr.primingHandover e.input).head?.toList
    ++ (s.mail.toEcu.map (EcuHandover.next s.pins)).head?.toList
    ++ (s.sau.ending.map Ending.next).toList
    ++ (if 0 < s.mail.refTicks then [Instr.tick] else [])

/-- The steps that counters at their mark call for: MISSING before a close (DESIGN CHOICE, log 24), a window classification
before a holdover second, where R28 lets either go first (DESIGN CHOICE, log 34), then the reports of valid frames before
idle expiries, and these by ascending port, where R138 lets either go first (DESIGN CHOICE, log 35). -/
def State.dueSteps (s : State) : List Instr :=
  (if s.rsv.missingDue then [Instr.missingDeclaration] else [])
    ++ (if s.rsv.closeDue then [Instr.windowClose] else [])
    ++ (if s.rsv.ageDue then [Instr.holdoverAgeIncrement] else [])
    ++ (s.mail.reports.map fun r => Instr.validFrameReport r.port)
    ++ (((List.finRange 4).filter fun p => s.sau.sessions[p].timedOut).map Instr.idleExpiry)

/-- The steps that the request slots wait for, by ascending port. -/
def State.requestSteps (s : State) : List Instr :=
  (List.finRange 4).filterMap fun p => s.hpu[p].slot.next p

/-- The step the part takes by itself while no command waits, if any waits (log 4). -/
def State.nextOwnStep (s : State) : Option Instr := (s.handoverSteps ++ s.dueSteps ++ s.requestSteps).head?

end Sys2Proof.Machine
end

