-- ==== Sys2Proof/Machine/Dispatch.lean ====
section
/-! DEFINITION. The meaning of every command: one arm per constructor, in the order of spec/opcode_table.json. -/

namespace Sys2Proof.Machine

def exec (i : Instr) (s : State) : Host.Outcome State Fault Refusal :=
  match i with
  | .powerOn => Sys2Proof.Machine.execPowerOn s
  | .resetAssert => Sys2Proof.Machine.execResetAssert s
  | .resetRelease sen1 sen0 => Sys2Proof.Machine.execResetRelease sen1 sen0 s
  | .tick => Sys2Proof.Machine.execTick s
  | .trimCorrectionDue => Sys2Proof.Machine.execTrimCorrectionDue s
  | .slewCorrectionDue => Sys2Proof.Machine.execSlewCorrectionDue s
  | .timeAdvance => Sys2Proof.Machine.execTimeAdvance s
  | .stepHandover => Sys2Proof.Machine.execStepHandover s
  | .primingHandover input => Sys2Proof.Machine.execPrimingHandover input s
  | .lineOperation => Sys2Proof.Machine.execLineOperation s
  | .pulseEnd line => Sys2Proof.Machine.execPulseEnd line s
  | .inputSample input level => Sys2Proof.Machine.execInputSample input level s
  | .ecuStepHandover => Sys2Proof.Machine.execEcuStepHandover s
  | .windowClose => Sys2Proof.Machine.execWindowClose s
  | .missingDeclaration => Sys2Proof.Machine.execMissingDeclaration s
  | .holdoverAgeIncrement => Sys2Proof.Machine.execHoldoverAgeIncrement s
  | .holdoverExpiry => Sys2Proof.Machine.execHoldoverExpiry s
  | .ppsEdgeHandover => Sys2Proof.Machine.execPpsEdgeHandover s
  | .disciplineSlew => Sys2Proof.Machine.execDisciplineSlew s
  | .recordTake producer => Sys2Proof.Machine.execRecordTake producer s
  | .subscriptionInstall port => Sys2Proof.Machine.execSubscriptionInstall port s
  | .scuSessionEnd port => Sys2Proof.Machine.execScuSessionEnd port s
  | .eluSessionEnd port => Sys2Proof.Machine.execEluSessionEnd port s
  | .idleExpiry port => Sys2Proof.Machine.execIdleExpiry port s
  | .validFrameReport port => Sys2Proof.Machine.execValidFrameReport port s
  | .frameBegin port => Sys2Proof.Machine.execFrameBegin port s
  | .frameEnd port bits => Sys2Proof.Machine.execFrameEnd port bits s
  | .requestCompletion port => Sys2Proof.Machine.execRequestCompletion port s
  | .attach port => Sys2Proof.Machine.execAttach port s
  | .detach port => Sys2Proof.Machine.execDetach port s
  | .getStatus port => Sys2Proof.Machine.execGetStatus port s
  | .claim port => Sys2Proof.Machine.execClaim port s
  | .release port => Sys2Proof.Machine.execRelease port s
  | .take port => Sys2Proof.Machine.execTake port s
  | .readTime port => Sys2Proof.Machine.execReadTime port s
  | .readTimebase port => Sys2Proof.Machine.execReadTimebase port s
  | .setTime port => Sys2Proof.Machine.execSetTime port s
  | .stepTime port => Sys2Proof.Machine.execStepTime port s
  | .slewTime port => Sys2Proof.Machine.execSlewTime port s
  | .setTrim port => Sys2Proof.Machine.execSetTrim port s
  | .readRef port => Sys2Proof.Machine.execReadRef port s
  | .refConfig port => Sys2Proof.Machine.execRefConfig port s
  | .ppsConfig port => Sys2Proof.Machine.execPpsConfig port s
  | .arm port => Sys2Proof.Machine.execArm port s
  | .prime port => Sys2Proof.Machine.execPrime port s
  | .cancel port => Sys2Proof.Machine.execCancel port s
  | .hold port => Sys2Proof.Machine.execHold port s
  | .resume port => Sys2Proof.Machine.execResume port s
  | .queryEntry port => Sys2Proof.Machine.execQueryEntry port s
  | .listEntries port => Sys2Proof.Machine.execListEntries port s
  | .setQuota port => Sys2Proof.Machine.execSetQuota port s
  | .bindLine port => Sys2Proof.Machine.execBindLine port s
  | .lineConfig port => Sys2Proof.Machine.execLineConfig port s
  | .driveLine port => Sys2Proof.Machine.execDriveLine port s
  | .readLines port => Sys2Proof.Machine.execReadLines port s
  | .inputConfig port => Sys2Proof.Machine.execInputConfig port s
  | .readInputs port => Sys2Proof.Machine.execReadInputs port s
  | .subscribe port => Sys2Proof.Machine.execSubscribe port s
  | .readLog port => Sys2Proof.Machine.execReadLog port s
  | .ackLog port => Sys2Proof.Machine.execAckLog port s
  | .logPolicy port => Sys2Proof.Machine.execLogPolicy port s
  | .refclkEdge => Sys2Proof.Machine.execRefclkEdge s

end Sys2Proof.Machine
end

