-- ==== Sys2Proof/Machine/Step.lean ====
section
/-! DEFINITION. One step of the part: the command at the front of the queue, or with no command waiting what the part does by itself (log 4). -/

namespace Sys2Proof.Machine

/-- One step: the command at the front of the queue is taken. On an empty queue the part takes the step that waits within
it, or lets one internal cycle pass (log 4). -/
def step (s : State) : Host.Outcome State Fault Refusal :=
  match s.pending with
  | c :: rest => exec c { s with pending := rest }
  | [] =>
    match s.nextOwnStep with
    | some c => exec c s
    | none => .next s.internalCycle

/-- The command a table word spells, put at the front of the queue. No word spells one (Decode.lean). -/
def State.withFetchWord (s : State) (nbits w : Nat) : State :=
  match decodeTableWord nbits w with
  | some c => { s with pending := c :: s.pending }
  | none => s

end Sys2Proof.Machine
end

