-- ==== Sys2Proof/Safety.lean ====
section
/-! DEFINITION. What a safe run keeps: the ranges and laws the data book gives for the state between two commands, and the words in which statements speak of a request in its slot and of its answer. -/

namespace Sys2Proof.Machine

/-! ## A request in its slot and its answer (R158 to R160) -/

/-- The request of CODE `c`, with its payload, waits in a port's slot under a TAG and a discard mark, the SAU has taken the
report of its frame (R163, log 36), and no expiry of the port waits under its mark (log 35). -/
def State.asks (s : State) (p : Port) (tag : Byte) (discard : Bool) (c : Code) (payload : List Byte) : Prop :=
  s.hpu[p].slot = .executing tag discard (.waiting c payload) ∧ { port := p, request := true } ∉ s.mail.reports
    ∧ s.sau.sessions[p].overdue = false

/-- The same state with a request of that TAG and discard mark answered and not yet completed. -/
def State.answered (s : State) (p : Port) (tag : Byte) (discard : Bool) (r : Result) (payload : List Byte) : State :=
  { s with hpu := s.hpu.set p.val { s.hpu[p] with slot := .executing tag discard (.answered r payload) } }

/-- One more record waits to be taken, with the quality given. -/
def State.posted (s : State) (producer : Block) (quality : Quality) (time : Time) (body : Body)
    (address : Option Address) (links : Links := {}) : State :=
  { s with mail := { s.mail with
      records := s.mail.records ++ [{ producer, quality, time, body, address, links }] } }

/-! ## The bytes of frames and records, spelled out (R154, R168; chapter 10) -/

/-- The CRC of a string of bits: the remainder register takes one bit at a time under x^8 + x^2 + x + 1, from 00H (R154). -/
def crcOfBits (bits : List Bool) : Byte :=
  bits.foldl (fun c b => BitVec.ofNat 8 (2 * c.toNat) ^^^ if c.toNat / 128 = (if b = true then 0 else 1) then 7 else 0) 0

/-- The CRC of bytes, bits taken most significant first (R154). -/
def crcOfBytes (bytes : List Byte) : Byte :=
  crcOfBits (bytes.flatMap fun b => [7, 6, 5, 4, 3, 2, 1, 0].map fun k => decide (b.toNat / 2 ^ k % 2 = 1))

/-- The REFUSAL byte (10, result and refusal codes). -/
def refusalByte : Option FrameRefusal → Byte
  | none => 0x00 | some .busy => 0x01 | some .undelivered => 0x02 | some .short => 0x03 | some .overlength => 0x04
  | some .badCrc => 0x05

/-- The RESULT byte (10, result and refusal codes). -/
def resultByte : Result → Byte
  | .ok => 0x01 | .granted => 0x02 | .queued => 0x03 | .unknownRequest => 0x10 | .badLength => 0x11 | .notAttached => 0x12
  | .alreadyAttached => 0x13 | .notAuthority => 0x16 | .needLimit => 0x17 | .notSenior => 0x18 | .range => 0x19
  | .tableFull => 0x1A | .quota => 0x1B | .badState => 0x1C | .staleHandle => 0x1D | .notOwner => 0x1E | .lineDenied => 0x1F
  | .lineInUse => 0x20 | .past => 0x21 | .disciplined => 0x22 | .notSet => 0x23 | .notFound => 0x24

/-- The request table: each CODE with its request and the values LEN may have (10, requests and responses). -/
def requestTable : List (Byte × Code × List Nat) :=
  [(0x10, .attach, [4]), (0x11, .detach, [0]), (0x12, .getStatus, [0]), (0x13, .claim, [0]), (0x14, .release, [0]),
    (0x15, .take, [0]), (0x20, .readTime, [0]), (0x21, .readTimebase, [0]), (0x22, .setTime, [8]), (0x23, .stepTime, [8]),
    (0x24, .slewTime, [6]), (0x25, .setTrim, [5]), (0x30, .readRef, [0]), (0x31, .refConfig, [5]), (0x32, .ppsConfig, [8])]
  ++ [(0x40, .arm, [25]), (0x41, .prime, [24]), (0x42, .cancel, [2]), (0x43, .hold, [2]), (0x44, .resume, [2, 10]),
    (0x45, .queryEntry, [2]), (0x46, .listEntries, [1]), (0x47, .setQuota, [2]), (0x50, .bindLine, [2]),
    (0x51, .lineConfig, [4]), (0x52, .driveLine, [2]), (0x53, .readLines, [0]), (0x60, .inputConfig, [6]),
    (0x61, .readInputs, [0]), (0x70, .subscribe, [3]), (0x71, .readLog, [1]), (0x72, .ackLog, [5]), (0x73, .logPolicy, [1])]

/-- The record kind byte (10, field values). -/
def Body.kindByte : Body → Byte
  | .edge .. => 0x01 | .fire .. => 0x02 | .missed .. => 0x03 | .step .. => 0x04 | .slewDone .. => 0x05 | .refState .. => 0x06
  | .pps .. => 0x07 | .authority .. => 0x08 | .session .. => 0x09

/-- The quality byte (10, field values). -/
def Quality.byte : Quality → Byte
  | .unset => 0x00 | .freerun => 0x01 | .holdover => 0x02 | .locked => 0x03

/-- The supervision state byte (10, field values). -/
def SupState.byte : SupState → Byte
  | .unlocked => 0x00 | .locked => 0x01 | .holdover => 0x02

/-- The flags byte of FIRE and MISSED (10, record bodies). -/
def entryFlags (cause : Cause) (last : Bool) : Byte :=
  (match cause with | .advance => 0x00 | .stepped => 0x01 | .resumed => 0x02 | .atArm => 0x04)
    + (if last = true then 0x08 else 0x00)

/-- The 10 bytes of a body (10, record bodies). -/
def Body.layout : Body → List Byte
  | .edge input direction adjusted clamped suppressed span =>
    [BitVec.ofNat 8 input.val, match direction with | .rise => 0x00 | .fall => 0x01,
      (if adjusted = true then 0x01 else 0x00) + (if clamped = true then 0x02 else 0x00), BitVec.ofNat 8 suppressed]
      ++ beBytes span 2 ++ [0x00, 0x00, 0x00, 0x00]
  | .fire index generation label lateness occurrences cause last quality =>
    [BitVec.ofNat 8 index.val + 0x40 * quality.byte, BitVec.ofNat 8 generation] ++ beBytes label 2 ++ beBytes lateness 4
      ++ [BitVec.ofNat 8 occurrences, entryFlags cause last]
  | .missed index generation label distance occurrences cause last =>
    [BitVec.ofNat 8 index.val, BitVec.ofNat 8 generation] ++ beBytes label 2 ++ beBytes distance 4
      ++ [BitVec.ofNat 8 occurrences, entryFlags cause last]
  | .step isStep offset saturated none =>
    [(if isStep = true then 0x01 else 0x00) + (if saturated = true then 0x02 else 0x00)] ++ beSigned offset 6
      ++ [0x00, 0x00, 0x00]
  | .step isStep offset saturated (some (origin, residual)) =>
    [(if isStep = true then 0x01 else 0x00) + (if saturated = true then 0x02 else 0x00) + 0x04
        + (match origin with | .host => 0x00 | .pps => 0x08) + (if residual < 0 then 0x10 else 0x00)]
      ++ beSigned offset 6 ++ beBytes residual.natAbs 3
  | .slewDone origin total spacing =>
    [(match origin with | .host => 0x00 | .pps => 0x01) + (if total < 0 then 0x10 else 0x00)] ++ beBytes total.natAbs 3
      ++ beBytes spacing 2 ++ [0x00, 0x00, 0x00, 0x00]
  | .refState old new reason count age =>
    [old.byte, new.byte, match reason with
      | .qualified => 0x01 | .fast => 0x02 | .slow => 0x03 | .missing => 0x04 | .expired => 0x05 | .disabled => 0x06]
      ++ beBytes count 2 ++ beBytes age 2 ++ [0x00, 0x00, 0x00]
  | .pps error applied outlier fault notLocked adjusted streak suppressed =>
    beSigned error 4
      ++ [(if applied = true then 0x01 else 0x00) + (if outlier = true then 0x02 else 0x00)
          + (if fault = true then 0x04 else 0x00) + (if notLocked = true then 0x08 else 0x00)
          + (if adjusted = true then 0x10 else 0x00),
        BitVec.ofNat 8 streak, BitVec.ofNat 8 suppressed, 0x00, 0x00, 0x00]
  | .authority port event cause other queueLength =>
    [BitVec.ofNat 8 port.val,
      match event with | .granted => 0x01 | .released => 0x02 | .revoked => 0x03 | .expired => 0x04 | .detached => 0x05,
      match cause with | .nothing => 0x00 | .claim => 0x01 | .queue => 0x02 | .take => 0x03,
      match other with | none => 0xFF | some q => BitVec.ofNat 8 q.val,
      BitVec.ofNat 8 queueLength, 0x00, 0x00, 0x00, 0x00, 0x00]
  | .session port ended limit freed =>
    [BitVec.ofNat 8 port.val] ++ (match ended with
      | none => [0x01, 0x00] | some .detached => [0x02, 0x01] | some .expired => [0x02, 0x02])
      ++ [BitVec.ofNat 8 limit, BitVec.ofNat 8 freed, 0x00, 0x00, 0x00, 0x00, 0x00]

/-- A record as 24 bytes: seq, kind, quality, seconds and fraction of the time value, body (R165, R168). -/
def Record.layout (r : Record) : List Byte :=
  beBytes r.seq 4 ++ [r.body.kindByte, r.quality.byte] ++ beBytes (r.time / 10000000) 5 ++ beBytes (r.time % 10000000) 3
    ++ r.body.layout

/-! ## The timebase (R1, R4, R5, R18) -/

/-- The ranges of a slew in flight: the residual is not yet 0 and has the sign of the initial offset (R5, R7). -/
def Slew.Ok (w : Slew) : Prop :=
  w.initial ≠ 0 ∧ w.initial.natAbs ≤ Config.maxSlew ∧ w.residual ≠ 0 ∧ w.residual.natAbs ≤ w.initial.natAbs
    ∧ (0 < w.residual ↔ 0 < w.initial) ∧ 100 ≤ w.spacing ∧ w.spacing ≤ 10000 ∧ w.counter < w.spacing

/-- The ranges of a discipline slew on its way to the TBU (R18, R37). -/
def SlewStart.Ok (w : SlewStart) : Prop :=
  w.initial ≠ 0 ∧ w.initial.natAbs ≤ 5000000 ∧ 100 ≤ w.spacing ∧ w.spacing ≤ 10000

/-- The ranges of the TBU's own state (R1, R4, R5). -/
def Tbu.Ok (t : Tbu) : Prop :=
  t.time ≤ Config.maxTime ∧ t.refTrim.natAbs ≤ Config.maxTrim ∧ t.intTrim.natAbs ≤ Config.maxTrim
    ∧ t.refAcc < Config.trimFull ∧ t.intAcc < Config.trimFull ∧ ∀ w ∈ t.slew, w.Ok

/-- The ranges of the PPS configuration (R35). -/
def PpsConfig.Ok (c : PpsConfig) : Prop :=
  1 ≤ c.window ∧ c.window ≤ 5000000 ∧ 100 ≤ c.spacing ∧ c.spacing ≤ 10000 ∧ (c.discipline = true → c.role = true)

/-- The timebase stays in its ranges, with every slew it may be handed. -/
def State.TimebaseOk (s : State) : Prop := s.tbu.Ok ∧ s.rsv.pps.Ok ∧ ∀ w ∈ s.mail.slews, w.Ok

/-! ## One tick in numbers (R3, R4, R6) -/

/-- No part of the tick now beginning has been taken ahead of it (log 6). -/
def State.tickWhole (s : State) : Prop :=
  s.tbu.trimTaken = none ∧ s.tbu.slewTaken = false ∧ ∀ n : Line, s.tou.lines[n].counted = false

/-- No window is due to be declared MISSING or to close, and no internal second of a holdover is full (R24, R25, R28). -/
def Rsv.nothingDue (r : Rsv) : Prop :=
  (r.config.enabled = true → r.gap < 16 ∧ (r.cycles < 1000 ∨ r.edges = 0))
    ∧ (r.state = .holdover → r.ageCycles < 10000000)

/-- The SCU, the TOU and the ECU have taken all that earlier ticks and steps handed them (R91, R101). -/
def State.handoversTaken (s : State) : Prop := s.mail.toScu = [] ∧ s.mail.ops = [] ∧ s.mail.toEcu = []

/-- An idle timer of an attached port stands at its limit (R138). -/
def Session.atLimit (ses : Session) : Prop := ses.attached = true ∧ ses.limit ≠ 0 ∧ ses.limit ≤ ses.seconds

/-- A session end in progress waits at the ELU for the install of its port's subscription or for a FIRE or MISSED record of an
entry the port owned (R119, R133, log 27). -/
def State.endWaits (s : State) : Bool :=
  s.sau.ending.any fun e => e.phase == .atElu
    && ((s.mail.installs.any fun i => i.port == e.port)
      || s.mail.records.any fun r => r.address.any fun a => a.owner == some e.port)

/-- The SAU has taken every report, and every expiry that it can take: one that is due waits, marked, for a session end in progress
that cannot go on (R138, log 10, log 35). -/
def State.sessionsSettled (s : State) : Prop :=
  s.mail.reports = [] ∧ ∀ p : Port, s.sau.sessions[p].atLimit → s.endWaits = true ∧ s.sau.sessions[p].overdue = true

/-- Nothing stands before the next tick but an edge of its clock: a REFCLK edge that came while REFCLK was selected waits, or no
event of the supervision is due (R2, R29). -/
def State.tickSettled (s : State) : Prop :=
  s.handoversTaken ∧ s.sessionsSettled ∧ (s.mail.refTicks = 0 → s.rsv.nothingDue)

/-- The next tick can be taken as it stands: a REFCLK edge waits for it, or it is one of the internal oscillator (R2, R29). -/
def State.tickReady (s : State) : Prop := s.tickSettled ∧ (s.mail.refTicks = 0 → s.rsv.state ≠ .locked)

/-- The RSV after one internal cycle: the counters of cycles count, each up to its mark (R24, R25, R28). -/
def Rsv.cycled (r : Rsv) : Rsv :=
  { r with
    cycles := if r.config.enabled = true then min (r.cycles + 1) 1000 else r.cycles
    gap := if r.config.enabled = true then min (r.gap + 1) 16 else r.gap
    ageCycles := if r.state = .holdover then min (r.ageCycles + 1) 10000000 else r.ageCycles }

/-- A session after one internal cycle: the timer runs while the port is attached with a limit that it has not reached
(R138). -/
def Session.cycled (ses : Session) : Session :=
  if ses.attached = true ∧ ses.limit ≠ 0 ∧ ses.seconds < ses.limit then
    { ses with
      seconds := if ses.cycles + 1 < 10000000 then ses.seconds else ses.seconds + 1
      cycles := if ses.cycles + 1 < 10000000 then ses.cycles + 1 else 0 }
  else ses

/-- The state after one internal cycle of the RSV's and the SAU's counters. -/
def State.cycled (s : State) : State :=
  { s with rsv := s.rsv.cycled, sau := { s.sau with sessions := s.sau.sessions.map Session.cycled } }

/-- The trim of the source of the next tick (R4, R29). -/
def State.selectedTrim (s : State) : Int :=
  if 0 < s.mail.refTicks ∨ s.rsv.state = .locked then s.tbu.refTrim else s.tbu.intTrim

/-- The accumulator of the source of the next tick (R4, R29). -/
def State.selectedAcc (s : State) : Nat :=
  if 0 < s.mail.refTicks ∨ s.rsv.state = .locked then s.tbu.refAcc else s.tbu.intAcc

/-- The trim correction of the next tick: +1, −1, or 0 if none is due (R4). -/
def State.trimCorrection (s : State) : Int :=
  if Config.trimFull ≤ s.selectedAcc + s.selectedTrim.natAbs then s.selectedTrim.sign else 0

/-- The slew correction due on the next tick of a slew in flight: newly due or still deferred (R5, R6). -/
def Slew.correctionDue (w : Slew) : Int :=
  if w.deferred = true ∨ w.spacing ≤ w.counter + 1 then w.residual.sign else 0

/-- The slew correction due on the next tick, 0 if none is (R5, R6). -/
def State.slewCorrection (s : State) : Int := (s.tbu.slew.map Slew.correctionDue).getD 0

/-! ## Reference supervision (R24 to R28, R31, R33, R36) -/

/-- The ranges of the supervision configuration (R31). -/
def SupConfig.Ok (c : SupConfig) : Prop :=
  5 ≤ c.tolerance ∧ c.tolerance ≤ 50 ∧ 1 ≤ c.qualLength ∧ c.qualLength ≤ 255 ∧ 1 ≤ c.limit ∧ c.limit ≤ 65535

/-- The RSV's laws: its counters lie in their ranges, G is 0 while LOCKED, the age stays below the limit in HOLDOVER, a
disabled supervision is UNLOCKED with no window running, and the PPS fault flag is SET exactly from a streak of 3 on. -/
def Rsv.Ok (r : Rsv) : Prop :=
  r.config.Ok ∧ r.pps.Ok ∧ r.good ≤ 255 ∧ (r.state = .locked → r.good = 0) ∧ r.cycles ≤ Config.windowCycles
    ∧ r.edges ≤ 65535 ∧ r.gap ≤ Config.gapCycles ∧ (∀ l ∈ r.last, l.1 ≤ 65535) ∧ r.age ≤ 65535
    ∧ r.ageCycles ≤ Config.secondCycles ∧ (r.state = .holdover → r.age < r.config.limit)
    ∧ (r.config.enabled = false → r.state = .unlocked ∧ r.good = 0 ∧ r.cycles = 0 ∧ r.edges = 0 ∧ r.gap = 0)
    ∧ r.streak ≤ 255 ∧ r.fault = decide (3 ≤ r.streak) ∧ ∀ e ∈ r.lastError, -5000000 ≤ e ∧ e ≤ 4999999

/-! ## The schedule table (R43, R44, R49, R67) -/

/-- The laws of an entry record: a FREE entry holds nothing but its generation, a due is present in ARMED and HELD alone,
and every field lies in its range (R43, R44). -/
def Entry.Ok (e : Entry) : Prop :=
  e.generation < 256 ∧ (e.state = .free → e = Entry.free e.generation) ∧ e.label < 65536 ∧ e.occurrence ≤ 65535
    ∧ ((e.state = .armed ∨ e.state = .held) ↔ e.due.isSome = true) ∧ (∀ d ∈ e.due, d ≤ Config.maxTime)
    ∧ (∀ d ∈ e.period, Config.minPeriod ≤ d ∧ d ≤ Config.maxPeriod) ∧ (∀ r ∈ e.remaining, 1 ≤ r ∧ r ≤ 65535)
    ∧ (∀ r ∈ e.initial, 1 ≤ r ∧ r ≤ 65535) ∧ e.remaining.isSome = e.initial.isSome
    ∧ (e.initial.isSome = true → e.period.isSome = true) ∧ (e.state = .primed → e.prime.isSome = true)
    ∧ (∀ q ∈ e.prime, q.delay ≤ Config.maxDelay) ∧ (e.owner = none → e.scope ≠ .owner)

/-- The hand-overs waiting for the SCU lead from the time it holds to the time the TBU holds: an advance moves by 0, 1 or 2
counts, and a step starts where the time before it stands (R3, R78). -/
def handoversLead : Time → List TimeHandover → Time → Prop
  | now, [], time => now = time
  | now, .advance _ t :: rest, time => now ≤ t ∧ t ≤ now + 2 ∧ handoversLead t rest time
  | now, .step _ old new :: rest, time => now = old ∧ handoversLead new rest time

/-- Every entry in use is detached, or owned by a port that is attached or whose session end the SCU has still to take
(R44). -/
def State.EntriesOwned (s : State) : Prop :=
  ∀ (i : Index) (p : Port), s.scu.entries[i].state ≠ .free → s.scu.entries[i].owner = some p →
    s.sau.sessions[p].attached = true ∨ ∃ e, s.sau.ending = some e ∧ e.port = p ∧ e.phase = .atScu

/-- No entry in use acts on a line that its owner may not drive: a line bound to a port is driven by that port's entries alone
(R52, R93). -/
def State.LinesPermitted (s : State) : Prop :=
  ∀ (i : Index) (a : Action) (q : Port), s.scu.entries[i].state ≠ .free → s.scu.entries[i].action = some a →
    s.tou.lines[a.line].binding = some q → s.scu.entries[i].owner = some q

/-- The schedule's laws: every entry's, every quota's, that between the SCU's events every ARMED entry has a due later than
the time the SCU holds, and the laws of ownership and of line permission (R43, R44, R49, R52, R67, R93). -/
def State.ScheduleOk (s : State) : Prop :=
  s.tbu.time ≤ Config.maxTime ∧ handoversLead s.scu.now s.mail.toScu s.tbu.time
    ∧ (∀ i : Index, s.scu.entries[i].Ok) ∧ (∀ p : Port, 1 ≤ s.scu.quota[p] ∧ s.scu.quota[p] ≤ 64)
    ∧ (∀ i : Index, s.scu.entries[i].state = .armed → s.scu.now < s.scu.entries[i].dueTime)
    ∧ s.EntriesOwned ∧ s.LinesPermitted

/-! ## Schedule requests and treatments in words (R43, R47, R51) -/

/-- The ranges of the fields ARM and PRIME have in common (R43, R51). -/
def Creation.Ok (c : Creation) (detached : Bool) : Prop :=
  c.label < 65536 ∧ (∀ d ∈ c.period, Config.minPeriod ≤ d ∧ d ≤ Config.maxPeriod)
    ∧ (∀ r ∈ c.remaining, 1 ≤ r ∧ r ≤ 65535) ∧ (c.remaining.isSome = true → c.period.isSome = true)
    ∧ (detached = true → c.scope ≠ .owner)

/-- The flags byte of ARM and PRIME (10, packed bytes). -/
def Creation.flags (c : Creation) (detached : Bool) : Byte :=
  flagByte [detached, c.period.isSome, c.remaining.isSome, c.action.isSome]

/-- The common fields of ARM and PRIME from the period on; absent ones are 00H (10, requests and responses). -/
def Creation.bytes (c : Creation) : List Byte :=
  timeBytes (c.period.getD 0) ++ beBytes (c.remaining.getD 0) 2
    ++ [BitVec.ofNat 8 ((c.action.map fun a => a.line.val).getD 0), ((c.action.map fun a => a.op.code).getD 0),
      c.scope.code, c.policy.code]

/-- The payload of ARM (10, requests and responses). -/
def armPayload (detached : Bool) (due : Time) (c : Creation) : List Byte :=
  [c.flags detached] ++ beBytes c.label 2 ++ timeBytes due ++ c.bytes

/-- The payload of PRIME (10, requests and responses). -/
def primePayload (detached : Bool) (q : PrimeSpec) (c : Creation) : List Byte :=
  [c.flags detached] ++ beBytes c.label 2 ++ [BitVec.ofNat 8 q.input.val, q.edge.code] ++ beBytes q.delay 4
    ++ [boolCode q.rearm] ++ c.bytes

/-- The checks of a creating request that follow its ranges are passed, and `i` is the index it receives (R51 to R53). -/
def State.creates (s : State) (p : Port) (detached : Bool) (c : Creation) (i : Index) : Prop :=
  s.sau.sessions[p].attached = true ∧ (detached = true → s.sau.holder = some p)
    ∧ (∀ a ∈ c.action, s.tou.lines[a.line].binding = none
        ∨ detached = false ∧ s.tou.lines[a.line].binding = some p)
    ∧ (detached = false → s.scu.use p < s.scu.quota[p])
    ∧ s.scu.entries[i].state = .free ∧ ∀ j : Index, j < i → s.scu.entries[j].state ≠ .free

/-- A list names the ARMED entries with a due at or before a time value, each once, in due-list order (R47). -/
def State.dueInOrder (s : State) (t : Time) (l : List Index) : Prop :=
  (∀ i : Index, i ∈ l ↔ s.scu.entries[i].state = .armed ∧ s.scu.entries[i].dueTime ≤ t)
    ∧ l.Pairwise fun i j => s.scu.entries[i].dueTime < s.scu.entries[j].dueTime
        ∨ s.scu.entries[i].dueTime = s.scu.entries[j].dueTime ∧ i < j

/-- The FIRE record of an entry's firing for k occurrences at a time value, with its addressing and what it is made for (R70). -/
def firePosted (i : Index) (e : Entry) (k : Nat) (t : Time) (cause : Cause) (quality : Quality) (links : Links) : Posted :=
  { producer := .scu, quality, time := t, links
    body := .fire i e.generation e.label (min (t - e.dueTime) 4294967295) (min k 255) cause (e.endsAfter k) quality
    address := some { owner := e.owner, all := decide (e.scope = .all) } }

/-- The MISSED record of a miss of k occurrences at a time value, with its addressing and what it is made for (R76,
R77). -/
def missPosted (i : Index) (e : Entry) (k : Nat) (t : Time) (cause : Cause) (quality : Quality) (links : Links) : Posted :=
  { producer := .scu, quality, time := t, links
    body := .missed i e.generation e.label (min (t - e.dueTime) 4294967295) (min k 255) cause (e.endsAfter k)
    address := some { owner := e.owner, all := decide (e.scope = .all ∨ e.owner = none) } }

/-- What a treatment of an entry for k occurrences hands the TOU: its action once under CATCHUP, nothing under SKIP (R75,
R76). -/
def Entry.treatOps (e : Entry) : List Action :=
  match e.policy with
  | .catchup => e.action.toList
  | .skip => []

/-- What a treatment of an entry for k occurrences posts: a FIRE record under CATCHUP unless its scope is NONE, a MISSED
record under SKIP whatever its scope (R75, R76). -/
def Entry.treatRecords (i : Index) (e : Entry) (k : Nat) (t : Time) (cause : Cause) (quality : Quality) (links : Links) :
    List Posted :=
  match e.policy with
  | .catchup => if e.scope = .nobody then [] else [firePosted i e k t cause quality links]
  | .skip => [missPosted i e k t cause quality links]

/-! ## Lines and inputs (R88, R100) -/

/-- The laws of a line record: pulse remaining is nonzero only while the line is ACTIVE (R88). -/
def TrigLine.Ok (l : TrigLine) : Prop :=
  1 ≤ l.width ∧ l.width ≤ 65535 ∧ l.remaining ≤ 65535 ∧ (l.remaining ≠ 0 → l.active = true)

/-- The laws of an input record (R100, R102, R104). -/
def Input.Ok (i : Input) : Prop :=
  (i.divider = 1 ∨ i.divider = 4 ∨ i.divider = 16 ∨ i.divider = 64) ∧ 1 ≤ i.qualify ∧ i.qualify ≤ 15 ∧ i.dead ≤ 65535
    ∧ i.phase < i.divider ∧ i.run < i.qualify ∧ (i.run = 0 ↔ i.candidate = none)
    ∧ (i.run = 0 → i.adjusted = false ∧ i.clamped = false ∧ i.shifts = []) ∧ (i.clamped = true → i.adjusted = true)
    ∧ (i.stable = none → i.run = 0) ∧ i.deadLeft ≤ i.dead ∧ i.suppressed ≤ 255

/-- The line and input records keep their laws. -/
def State.PinsOk (s : State) : Prop :=
  (∀ n : Line, s.tou.lines[n].Ok) ∧ ∀ n : Line, s.ecu.inputs[n].Ok

/-! ## The order of records (R118) -/

/-- A waiting record `a` is connected to a waiting record `b` of another block, and comes before it (R118, log 11). Bullet 2: the
TBU posted `a` before it handed on the tick or step that `b` comes from, or the ECU posted `a` before it handed on the
capture. Bullet 3: `a` and `b` are the SCU's and the ECU's for one tick or step, or the RSV's and the SCU's for one
capture. The TBU hands the RSV no event, so their records are not connected. -/
def Posted.connectedBefore (a b : Posted) : Prop :=
  (a.producer = .tbu ∧ (b.producer = .scu ∨ b.producer = .ecu)
      ∧ ∃ i j, a.links.turn = some i ∧ b.links.turn = some j ∧ i ≤ j)
    ∨ (a.producer = .ecu ∧ (b.producer = .scu ∨ b.producer = .rsv)
      ∧ ∃ i j, a.links.capture = some i ∧ b.links.capture = some j ∧ i ≤ j)
    ∨ (a.producer = .scu ∧ b.producer = .ecu
      ∧ ∃ i, a.links.turn = some i ∧ (b.links.turn = some i ∨ i ∈ b.links.shifts))
    ∨ (a.producer = .rsv ∧ b.producer = .scu ∧ ∃ i, a.links.capture = some i ∧ b.links.capture = some i)

/-- A waiting record must wait: a record connected before it waits too or is still to be posted, by the SCU for the tick of
an edge or a step that shifted it, or by the RSV for a capture (R118, log 11). -/
def State.mustWait (s : State) (r : Posted) : Prop :=
  (∃ a ∈ s.mail.records, a.connectedBefore r)
    ∨ (r.producer = .ecu ∧ ∃ h ∈ s.mail.toScu, r.links.turn = some h.turn ∨ h.turn ∈ r.links.shifts)
    ∨ (r.producer = .scu ∧ ∃ e ∈ s.mail.ppsEdges, r.links.capture = some e.capture)

/-! ## The log, the sessions and the authority (R120, R121, R138, R140, R142) -/

/-- The port whose session end is in progress. -/
def State.endingPort (s : State) : Option Port := s.sau.ending.map Ending.port

/-- The log's laws: at most 128 records, each pending for at least one port, and only for ports with a subscription; seqs
and counters in their ranges (R117, R119 to R121, R125). -/
def Elu.Ok (e : Elu) : Prop :=
  e.log.length ≤ Config.logSlots ∧ 1 ≤ e.nextSeq ∧ e.nextSeq ≤ Config.maxSeq
    ∧ (∀ r ∈ e.log, r.pending ≠ emptySet ∧ (∀ p : Port, r.pending[p] = true → e.subs[p].isSome = true)
        ∧ 1 ≤ r.record.seq ∧ r.record.seq ≤ Config.maxSeq)
    ∧ ∀ p : Port, e.dropped[p] ≤ 65535 ∧ e.lost[p] ≤ 65535
        ∧ (e.subs[p].isSome = false → e.dropped[p] = 0 ∧ e.lost[p] = 0)

/-- The laws of the authority: one holder or none, attached and with an idle limit; a queue of at most 3 distinct ports of
the same kind, never the holder, and empty while nobody holds it (R142). -/
def Sau.AuthorityOk (u : Sau) : Prop :=
  (∀ h ∈ u.holder, u.sessions[h].attached = true ∧ u.sessions[h].limit ≠ 0)
    ∧ (∀ q ∈ u.queue, u.sessions[q].attached = true ∧ u.sessions[q].limit ≠ 0 ∧ u.holder ≠ some q)
    ∧ u.queue.Nodup ∧ u.queue.length ≤ 3 ∧ (u.holder = none → u.queue = [])

/-- The laws of one port's session: the timer lies within the limit, an expiry waits only at the limit, and a DETACHED port has no
limit, no timer, the fixed ATN mask and no AUTH reason (R138, R140, R150). -/
def State.sessionOk (s : State) (p : Port) : Prop :=
  s.sau.sessions[p].limit ≤ 255 ∧ s.sau.sessions[p].seconds ≤ s.sau.sessions[p].limit
    ∧ s.sau.sessions[p].cycles < Config.secondCycles
    ∧ (s.sau.sessions[p].attached = false → s.sau.sessions[p].auth = false)
    ∧ (s.sau.sessions[p].attached = false → s.endingPort ≠ some p →
        s.sau.sessions[p].limit = 0 ∧ s.sau.sessions[p].cycles = 0 ∧ s.sau.sessions[p].mask = 4)
    ∧ (s.endingPort = some p → s.sau.sessions[p].attached = false)
    ∧ (s.sau.sessions[p].overdue = true → s.sau.sessions[p].atLimit)

/-- The ELU counts a port as attached from the install of its subscription to its session end, and the SAU's session state
leads it by the hand-over in between (R119, R136, R140). -/
def State.subscriptionOk (s : State) (p : Port) : Prop :=
  (s.mail.installs.filter fun i => i.port == p).length ≤ 1
    ∧ (s.installWaits p = true → s.elu.subs[p] = none
        ∧ (s.sau.sessions[p].attached = true ∨ s.endingPort = some p))
    ∧ (s.elu.subs[p].isSome = true → s.sau.sessions[p].attached = true ∨ s.endingPort = some p)
    ∧ (s.sau.sessions[p].attached = true → s.elu.subs[p].isSome = true ∨ s.installWaits p = true)

/-- The log, the sessions and the authority agree. -/
def State.SessionsOk (s : State) : Prop :=
  s.elu.Ok ∧ s.sau.AuthorityOk ∧ (∀ p : Port, s.sessionOk p) ∧ ∀ p : Port, s.subscriptionOk p

/-! ## The host ports (R155, R157 to R160) -/

/-- Whether a slot holds a request that its block has taken and not yet answered. -/
def Slot.isTaken : Slot → Bool
  | .executing _ _ .taken => true
  | .executing _ _ (.waiting _ _) => false
  | .executing _ _ (.answered _ _) => false
  | .free => false

/-- A payload handed between an HPU and a block has a length its CODE allows, and an answer fits a response (R159, R167). -/
def Slot.payloadOk : Slot → Prop
  | .executing _ _ (.waiting c payload) => payload.length ∈ c.lengths
  | .executing _ _ (.answered _ payload) => payload.length ≤ 120
  | .executing _ _ .taken => True
  | .free => True

/-- While a frame is in progress, the staged response it carries and the refusal it reports are still held (R157). -/
def Hpu.imageOk (h : Hpu) : Prop :=
  match h.link with
  | .idle => True
  | .inFrame m => (∀ r ∈ m.staged, h.staged = some r) ∧ m.refusal = h.refusal

/-- The laws of one HPU: a response is staged only while the slot is FREE, and payloads have lengths that fit (R158, R167). -/
def Hpu.Ok (h : Hpu) : Prop :=
  (h.staged.isSome = true → h.slot = .free) ∧ h.slot.payloadOk ∧ (∀ r ∈ h.staged, r.payload.length ≤ 120) ∧ h.imageOk

/-- Whether a slot holds a request that its block has still to take. -/
def Slot.isWaiting : Slot → Bool
  | .executing _ _ (.waiting _ _) => true
  | .executing _ _ .taken => false
  | .executing _ _ (.answered _ _) => false
  | .free => false

/-- The ports keep their laws, the one request that stays taken is a DETACH whose session end is in progress (R139), and a request
whose frame's report waits has not been taken (R163). -/
def State.PortsOk (s : State) : Prop :=
  (∀ p : Port, s.hpu[p].Ok) ∧ (∀ r ∈ s.mail.reports, r.request = true → s.hpu[r.port].slot.isWaiting = true)
    ∧ ∀ p : Port, s.hpu[p].slot.isTaken = s.sau.ending.any fun e => e.port == p && decide (e.reason = .detached)

/-! ## RST# (R65, R99, R115, R135, R152, R164) -/

/-- While RST# is asserted no port is attached, no request is in a slot, no entry is in use, no line is driven, no input
has an edge select, and the log is empty. -/
def State.QuietInReset (s : State) : Prop :=
  s.rst = true →
    (∀ p : Port, s.hpu[p].slot = .free ∧ s.hpu[p].link = .idle ∧ s.hpu[p].staged = none ∧ s.hpu[p].refusal = none)
      ∧ (∀ p : Port, s.sau.sessions[p].attached = false ∧ s.elu.subs[p] = none)
      ∧ s.sau.holder = none ∧ s.sau.queue = [] ∧ s.sau.ending = none ∧ s.elu.log = []
      ∧ (∀ i : Index, s.scu.entries[i].state = .free)
      ∧ (∀ n : Line, s.tou.lines[n].active = false ∧ s.tou.lines[n].remaining = 0 ∧ s.tou.lines[n].binding = none
          ∧ s.tou.lines[n].idle = .low)
      ∧ (∀ n : Line, s.ecu.inputs[n].select = .off)
      ∧ s.mail.ops = [] ∧ s.mail.installs = [] ∧ s.mail.reports = []

end Sys2Proof.Machine
end

