-- ==== Sys2Proof/Certificates/Slice0/Obligations.lean ====
section
/-! DEFINITION. The statements for the provers: what each command does, by the data book's rules, and the laws every step keeps. -/

open Sys2Proof Sys2Proof.Machine

/-! ## The machine -/

/-- A step with a command waiting is the meaning of that command on the state with the rest of the queue. -/
def Obligations.StepRunsFrontCommand : Prop :=
  ∀ (c : Instr) (rest : List Instr) (s : State),
    s.pending = c :: rest → step s = exec c { s with pending := rest }

/-- With nothing waiting at all, nothing stands before a tick, and a step lets one internal cycle pass: a tick unless REFCLK
drives the timebase, and else one count of every counter of internal cycles, each of which waits at its mark (R24, R25, R28,
R29, R138). That the cycle passes on an empty queue is the model's choice (log 4), as is the tie of ticks and cycles (log 5). -/
def Obligations.IdleStepPassesOneCycle : Prop :=
  ∀ s : State, s.pending = [] → s.nextOwnStep = none →
    s.tickSettled ∧ s.mail.refTicks = 0 ∧ (s.rsv.state ≠ .locked → step s = exec .tick s)
    ∧ (s.rsv.state = .locked → step s = .next s.cycled)

/-- Power-on gives every block its power-on values with RST# asserted (R22, R41, R65, R98, R114, R134, R152, R164), and the
release of RST# samples the straps, SEN1 the more significant (R145). That power-on leaves RST# asserted is log 16. -/
def Obligations.PowerOnAndReleaseValues : Prop :=
  (∀ s : State, ∃ t : State, exec .powerOn s = .next t ∧ t.rst = true ∧ t.pins = s.pins ∧ t.pending = s.pending
    ∧ t.tbu.time = 0 ∧ t.tbu.isSet = false ∧ t.tbu.refTrim = 0 ∧ t.tbu.intTrim = 0 ∧ t.tbu.refAcc = 0
    ∧ t.tbu.intAcc = 0 ∧ t.tbu.slew = none
    ∧ t.rsv.state = .unlocked ∧ t.rsv.good = 0 ∧ t.rsv.cycles = 0 ∧ t.rsv.edges = 0 ∧ t.rsv.gap = 0
    ∧ t.rsv.age = 0 ∧ t.rsv.ageCycles = 0 ∧ t.rsv.last = none
    ∧ t.rsv.config = { enabled := true, tolerance := 20, qualLength := 100, limit := 3600 }
    ∧ t.rsv.pps = { role := false, discipline := false, window := 1000, spacing := 1000 }
    ∧ t.rsv.streak = 0 ∧ t.rsv.fault = false ∧ t.rsv.lastError = none
    ∧ (∀ i : Index, t.scu.entries[i].state = .free ∧ t.scu.entries[i].generation = 0)
    ∧ (∀ p : Port, t.scu.quota[p] = 16)
    ∧ (∀ n : Line, t.tou.lines[n].binding = none ∧ t.tou.lines[n].idle = .low ∧ t.tou.lines[n].width = 100
        ∧ t.tou.lines[n].active = false ∧ t.tou.lines[n].remaining = 0)
    ∧ (∀ n : Line, t.ecu.inputs[n].select = .off ∧ t.ecu.inputs[n].divider = 1 ∧ t.ecu.inputs[n].qualify = 3
        ∧ t.ecu.inputs[n].dead = 0 ∧ t.ecu.inputs[n].phase = 0 ∧ t.ecu.inputs[n].stable = none
        ∧ t.ecu.inputs[n].run = 0 ∧ t.ecu.inputs[n].candidate = none ∧ t.ecu.inputs[n].adjusted = false
        ∧ t.ecu.inputs[n].clamped = false ∧ t.ecu.inputs[n].deadLeft = 0 ∧ t.ecu.inputs[n].suppressed = 0)
    ∧ t.elu.log = [] ∧ t.elu.nextSeq = 1 ∧ t.elu.policy = .hold
    ∧ (∀ p : Port, t.elu.subs[p] = none ∧ t.elu.dropped[p] = 0 ∧ t.elu.lost[p] = 0)
    ∧ t.sau.holder = none ∧ t.sau.queue = []
    ∧ (∀ p : Port, t.sau.sessions[p].attached = false ∧ t.sau.sessions[p].limit = 0 ∧ t.sau.sessions[p].mask = 4
        ∧ t.sau.sessions[p].auth = false ∧ t.sau.sessions[p].sessionEnded = false)
    ∧ (∀ p : Port, t.hpu[p].link = .idle ∧ t.hpu[p].edges = 0 ∧ t.hpu[p].slot = .free ∧ t.hpu[p].staged = none
        ∧ t.hpu[p].refusal = none ∧ t.ready p = false ∧ t.atn p = false))
  ∧ ∀ (s : State) (sen1 sen0 : Level) (senior : Port), s.rst = true →
      senior.val = (if sen1 = .high then 2 else 0) + (if sen0 = .high then 1 else 0) →
      exec (.resetRelease sen1 sen0) s = .next { s with rst := false, sau := { s.sau with senior := senior } }

/-- What the assertion of RST# does to each block: the timebase goes on with its slew cancelled (R23), the RSV is untouched
(R42), and every other block takes its reset values with the seq kept (R65, R99, R115, R135, R152, R162, R164). A step on its way
reaches the ECU before the reset (R115), with what stands before it; at the SCU it stands, and one taken after the reset finds an
empty table and treats nothing (R87). The model's choices: that the samples before a step are taken with it is log 17, and that
they find the pins at the levels last sampled is log 14; that a session end in progress posts its records, and what becomes of
the other hand-overs, is log 17; that the idle timers stand at 0 is log 31. -/
def Obligations.ResetAssertionValues : Prop :=
  (∀ s : State, s.rst = false → (∀ k x y, EcuHandover.step k x y ∉ s.mail.toEcu) →
    ∃ t : State, exec .resetAssert s = .next t ∧ t.rst = true
    ∧ t.pins = s.pins ∧ t.pending = s.pending
    ∧ t.tbu = { s.tbu with slew := none, slewTaken := false } ∧ t.rsv = s.rsv ∧ t.scu.now = s.scu.now
    ∧ (∀ i : Index, s.scu.entries[i].state = .free → t.scu.entries[i] = s.scu.entries[i])
    ∧ (∀ i : Index, s.scu.entries[i].state ≠ .free →
        t.scu.entries[i] = Entry.free ((s.scu.entries[i].generation + 1) % 256))
    ∧ (∀ p : Port, t.scu.quota[p] = 16)
    ∧ (∀ n : Line, t.tou.lines[n] = {
        binding := none, idle := .low, width := 100, active := false, remaining := 0
        counted := s.tou.lines[n].counted })
    ∧ (∀ n : Line, t.ecu.inputs[n] = {
        select := .off, divider := 1, qualify := 3, dead := 0, phase := 0, stable := none
        run := 0, candidate := none, adjusted := false, clamped := false, deadLeft := 0, suppressed := 0
        shifts := [] })
    ∧ t.elu.log = [] ∧ t.elu.nextSeq = s.elu.nextSeq ∧ t.elu.policy = .hold
    ∧ (∀ p : Port, t.elu.subs[p] = none ∧ t.elu.dropped[p] = 0 ∧ t.elu.lost[p] = 0)
    ∧ t.sau.holder = none ∧ t.sau.queue = [] ∧ t.sau.senior = s.sau.senior ∧ t.sau.ending = none
    ∧ (∀ p : Port, t.sau.sessions[p] = {
        attached := false, limit := 0, seconds := 0, cycles := 0, mask := 4
        auth := false, sessionEnded := false, overdue := false })
    ∧ (∀ p : Port, t.hpu[p] = { link := .idle, edges := 0, slot := .free, staged := none, refusal := none })
    ∧ t.mail = { s.mail with ops := [], installs := [], reports := [], records := t.mail.records }
    ∧ (∀ p : Port, t.ready p = false ∧ t.atn p = false)
    ∧ (s.sau.ending = none → t.mail.records = s.mail.records)
    ∧ ∀ (e : Ending) (freed : Nat), s.sau.ending = some e →
        freed = (if e.phase = .atScu then s.scu.use e.port else e.freed) →
        t.mail.records = s.mail.records ++ (e.records ++ [Body.session e.port (some e.reason)
            s.sau.sessions[e.port].limit freed]).map fun body => {
          producer := .sau, quality := s.quality, time := s.tbu.time, body := body, address := none })
  ∧ (∀ (s u : State) (k : Nat) (x y : Time), s.rst = false → EcuHandover.step k x y ∈ s.mail.toEcu →
    ((∃ j n T rest, s.mail.toEcu = .sample j n T :: rest ∧ exec (.inputSample n s.pins[n]) s = .next u)
      ∨ ∃ (j : Nat) (T T' : Time) (rest : List EcuHandover) (v : State), s.mail.toEcu = .step j T T' :: rest
        ∧ exec .ecuStepHandover { s with mail := { s.mail with toScu := [] } } = .next v
        ∧ u = { v with mail := { v.mail with toScu := s.mail.toScu } }) →
    exec .resetAssert s = exec .resetAssert u)
  ∧ ∀ (t : State) (j : Nat) (T T' : Time) (rest : List TimeHandover), (∀ i : Index, t.scu.entries[i].state = .free) →
    t.mail.toScu = .step j T T' :: rest →
    exec .stepHandover t = .next { t with scu := { t.scu with now := T' }, mail := { t.mail with toScu := rest } }

/-! ## The Timebase Unit (chapter 1) -/

/-- On each tick the time advances by one count plus the corrections that apply, never past the maximum; the accumulator of
the tick's source moves and the other's does not; the new time is handed to the SCU (R3, R4, R6, R8). At the maximum a
tick changes no TBU state and hands nothing on (R8). The tick is one of REFCLK when an edge of it waits, and else one of the
internal oscillator (R29, log 5). The turn under which it is handed on is the model's own (log 11). -/
def Obligations.TickAdvancesTime : Prop :=
  ∀ s : State, s.TimebaseOk → s.tickWhole → s.tickReady → ∃ t : State, exec .tick s = .next t
    ∧ t.tbu.isSet = s.tbu.isSet ∧ t.tbu.refTrim = s.tbu.refTrim ∧ t.tbu.intTrim = s.tbu.intTrim
    ∧ t.tbu.trimTaken = none ∧ t.tbu.slewTaken = false
    ∧ (s.tbu.time ≠ Config.maxTime →
        (t.tbu.time : Int) = min ((s.tbu.time : Int) + max 0 (min 2 (1 + s.trimCorrection + s.slewCorrection)))
          (Config.maxTime : Int)
        ∧ (0 < s.mail.refTicks → t.tbu.intAcc = s.tbu.intAcc
          ∧ t.tbu.refAcc = s.tbu.refAcc + s.tbu.refTrim.natAbs - (if s.trimCorrection = 0 then 0 else 1000000000))
        ∧ (s.mail.refTicks = 0 → t.tbu.refAcc = s.tbu.refAcc
          ∧ t.tbu.intAcc = s.tbu.intAcc + s.tbu.intTrim.natAbs - (if s.trimCorrection = 0 then 0 else 1000000000))
        ∧ t.mail.toScu = [.advance s.mail.turns t.tbu.time])
    ∧ (s.tbu.time = Config.maxTime → t.tbu = s.tbu ∧ t.mail.toScu = [] ∧ t.mail.records = s.mail.records)

/-- On a tick the spacing counter of a slew counts, a correction that is due is applied or cancelled against a trim
correction of the other sign and deferred by one of the same sign, and a residual that reaches 0 ends the slew with a
SLEW_DONE record (R5, R6, R7). Without a slew a tick posts no record. The turn on the record is the model's own (log 11). -/
def Obligations.TickMovesSlew : Prop :=
  ∀ s : State, s.TimebaseOk → s.tickWhole → s.tickReady → s.tbu.time ≠ Config.maxTime → ∃ t : State, exec .tick s = .next t
    ∧ (s.tbu.slew = none → t.tbu.slew = none ∧ t.mail.records = s.mail.records)
    ∧ ∀ w : Slew, s.tbu.slew = some w → ∀ (applied : Bool) (residual : Int),
        (applied = true ↔ w.correctionDue ≠ 0 ∧ s.trimCorrection ≠ w.correctionDue) →
        residual = (if applied = true then w.residual - w.residual.sign else w.residual) →
        (residual ≠ 0 → t.mail.records = s.mail.records ∧ t.tbu.slew = some { w with
            residual := residual,
            counter := if w.spacing ≤ w.counter + 1 then 0 else w.counter + 1,
            deferred := decide (w.correctionDue ≠ 0) && !applied })
        ∧ (residual = 0 → t.tbu.slew = none ∧ t.mail.records = s.mail.records ++ [{
            producer := .tbu, quality := s.quality, time := t.tbu.time,
            body := .slewDone w.origin w.initial w.spacing, address := none, links := { turn := some s.mail.turns } }])

/-- On each tick, at the maximum time too, every pulse in flight counts down and ends its line at 0 (R90), every input's
phase counter counts, and an input whose counter reaches its divider is sampled with the time after the tick (R101). A tick of
REFCLK takes the edge that waits for it, and one of the internal oscillator is an internal cycle of the RSV and the SAU too
(R29, log 5). A tick touches nothing else. That a sample stands due, in input order, until INPUT_SAMPLE judges it is the
model's choice (log 13). -/
def Obligations.TickCountsPulsesAndSamples : Prop :=
  ∀ s : State, s.tickWhole → s.tickReady → ∃ t : State, exec .tick s = .next t
    ∧ (∀ n : Line, t.tou.lines[n] =
        if s.tou.lines[n].remaining = 0 then s.tou.lines[n]
        else if s.tou.lines[n].remaining = 1 then { s.tou.lines[n] with active := false, remaining := 0 }
        else { s.tou.lines[n] with remaining := s.tou.lines[n].remaining - 1 })
    ∧ (∀ n : Line, t.ecu.inputs[n] = { s.ecu.inputs[n] with
        phase := if s.ecu.inputs[n].divider ≤ s.ecu.inputs[n].phase + 1 then 0 else s.ecu.inputs[n].phase + 1 })
    ∧ (∃ due : List Line, due.Pairwise (· < ·)
        ∧ (∀ n, n ∈ due ↔ s.ecu.inputs[n].divider ≤ s.ecu.inputs[n].phase + 1)
        ∧ t.mail.toEcu = due.map fun n => .sample s.mail.turns n t.tbu.time)
    ∧ (0 < s.mail.refTicks → t.rsv = s.rsv ∧ t.sau = s.sau)
    ∧ (s.mail.refTicks = 0 → t.rsv = s.rsv.cycled ∧ t.sau = s.cycled.sau)
    ∧ t = { s with tbu := t.tbu, rsv := t.rsv, tou := t.tou, ecu := t.ecu, sau := t.sau, mail := { s.mail with
        refTicks := s.mail.refTicks - 1, turns := s.mail.turns + 1
        toScu := t.mail.toScu, toEcu := t.mail.toEcu, records := t.mail.records } }

/-- What stands before a tick is taken first, one by one: the hand-overs of the ticks and steps before it by the SCU, the
operations of its firings by the TOU (R91), the samples and steps by the ECU (R101, R109); then the reports that wait and the
expiries that are due by the SAU (R138), before which a session end in progress goes on, and where the ELU cannot take that one
yet the expiry waits under a mark (R140); then the events of the supervision that are due (R24, R25, R28), and while REFCLK is
selected the edge of it at which the tick is taken (R29). The model's choices:
that a TICK takes all this with it, the samples at the levels last sampled, is log 33; that it brings its edge is log 5; that a
declaration due with a close goes first, and no close follows, is log 24; that a window event due with a holdover second goes
first, where R28 lets either go first, is log 34; that reports go before expiries, where R138 lets either go first, and these by
ascending port, is log 35. -/
def Obligations.TickTakesWhatStandsBeforeIt : Prop :=
  ∀ s u : State,
    ((∃ k T rest, s.mail.toScu = .advance k T :: rest ∧ exec .timeAdvance s = .next u)
      ∨ (∃ k T T' rest, s.mail.toScu = .step k T T' :: rest ∧ exec .stepHandover s = .next u)
      ∨ (s.mail.toScu = [] ∧ s.mail.ops ≠ [] ∧ exec .lineOperation s = .next u)
      ∨ (s.mail.toScu = [] ∧ s.mail.ops = [] ∧ ∃ k n T rest, s.mail.toEcu = .sample k n T :: rest
        ∧ exec (.inputSample n s.pins[n]) s = .next u)
      ∨ (s.mail.toScu = [] ∧ s.mail.ops = [] ∧ ∃ k T T' rest, s.mail.toEcu = .step k T T' :: rest
        ∧ exec .ecuStepHandover s = .next u)
      ∨ (s.handoversTaken ∧ ∃ r rest, s.mail.reports = r :: rest ∧ exec (.validFrameReport r.port) s = .next u)
      ∨ (s.handoversTaken ∧ s.mail.reports = [] ∧ s.sau.ending = none ∧ ∃ p : Port, s.sau.sessions[p].atLimit
        ∧ (∀ q : Port, q < p → ¬ s.sau.sessions[q].atLimit) ∧ exec (.idleExpiry p) s = .next u)
      ∨ (s.handoversTaken ∧ s.mail.reports = [] ∧ (∃ p : Port, s.sau.sessions[p].atLimit)
        ∧ ∃ e, s.sau.ending = some e ∧ (e.phase = .atScu ∧ exec (.scuSessionEnd e.port) s = .next u
          ∨ e.phase = .atElu ∧ exec (.eluSessionEnd e.port) s = .next u))
      ∨ (s.handoversTaken ∧ s.mail.reports = [] ∧ s.endWaits = true ∧ ∃ p : Port, s.sau.sessions[p].atLimit
        ∧ (∀ q : Port, q < p → s.sau.sessions[q].atLimit → s.sau.sessions[q].overdue = true)
        ∧ u = s.withSession p fun ses => { ses with overdue := true })
      ∨ (s.handoversTaken ∧ s.sessionsSettled ∧ s.mail.refTicks = 0 ∧ s.rsv.config.enabled = true ∧ 16 ≤ s.rsv.gap
        ∧ exec .missingDeclaration s = .next u)
      ∨ (s.handoversTaken ∧ s.sessionsSettled ∧ s.mail.refTicks = 0 ∧ s.rsv.config.enabled = true ∧ s.rsv.gap < 16
        ∧ 1000 ≤ s.rsv.cycles ∧ 1 ≤ s.rsv.edges ∧ exec .windowClose s = .next u)
      ∨ (s.handoversTaken ∧ s.sessionsSettled ∧ s.mail.refTicks = 0 ∧ s.rsv.state = .holdover
        ∧ 10000000 ≤ s.rsv.ageCycles ∧ (s.rsv.config.enabled = true → s.rsv.gap < 16 ∧ (s.rsv.cycles < 1000 ∨ s.rsv.edges = 0))
        ∧ exec .holdoverAgeIncrement s = .next u)
      ∨ (s.tickSettled ∧ s.mail.refTicks = 0 ∧ s.rsv.state = .locked ∧ exec .refclkEdge s = .next u)) →
    ∃ t : State, exec .tick s = .next t ∧ exec .tick u = .next t

/-- TRIM_CORRECTION_DUE, SLEW_CORRECTION_DUE and PULSE_END take their part of the tick now beginning, when it is due, and
the TICK that follows ends where the whole tick would have (R4, R5, R90). That the parts come ahead of the tick, under
marks, is the model's choice (log 6); the TOU's tick begins when the operations of the tick before are applied (R91). -/
def Obligations.TickPartsMakeOneTick : Prop :=
  (∀ s : State, s.TimebaseOk → s.tbu.trimTaken = none → s.tbu.time ≠ Config.maxTime → s.trimCorrection ≠ 0 →
    ∃ t : State, exec .trimCorrectionDue s = .next t
      ∧ t = { s with tbu := { s.tbu with
          refAcc := if 0 < s.mail.refTicks ∨ s.rsv.state = .locked then s.tbu.refAcc + s.tbu.refTrim.natAbs - 1000000000
            else s.tbu.refAcc,
          intAcc := if 0 < s.mail.refTicks ∨ s.rsv.state = .locked then s.tbu.intAcc
            else s.tbu.intAcc + s.tbu.intTrim.natAbs - 1000000000,
          trimTaken := some (if 0 < s.selectedTrim then .plus else .minus) } }
      ∧ (s.tickSettled → exec .tick t = exec .tick s))
  ∧ (∀ (s : State) (w : Slew), s.tbu.slew = some w → s.tbu.slewTaken = false → s.tbu.time ≠ Config.maxTime →
      w.spacing ≤ w.counter + 1 →
    ∃ t : State, exec .slewCorrectionDue s = .next t
      ∧ t = { s with tbu := { s.tbu with slew := some { w with counter := 0, deferred := true }, slewTaken := true } }
      ∧ (s.tickSettled → exec .tick t = exec .tick s))
  ∧ ∀ (s : State) (n : Line), s.mail.toScu = [] → s.mail.ops = [] → s.tou.lines[n].counted = false →
    s.tou.lines[n].remaining = 1 →
    ∃ t : State, exec (.pulseEnd n) s = .next t
      ∧ t = s.withLine n (fun l => { l with active := false, remaining := 0, counted := true })
      ∧ (s.tickSettled → exec .tick t = exec .tick s)

/-- An accepted SET_TIME or STEP_TIME: the new time, the flag SET, the slew cancelled, the STEP record and the hand-over to
the SCU and the ECU, with the time before the step answered (R12 to R15). Both trims and accumulators stand. The turn of the
step is the model's own (log 11). -/
def Obligations.AcceptedStepAppliesAtOnce : Prop :=
  ∀ (s : State) (p : Port) (tag : Byte) (d isStep : Bool) (new : Time) (offset field : Int) (quality : Quality),
    s.sau.sessions[p].attached = true → s.sau.holder = some p → s.tbu.time ≤ Config.maxTime → new ≤ Config.maxTime →
    offset = (new : Int) - (s.tbu.time : Int) →
    field = max (-140737488355327) (min 140737488355327 offset) →
    (quality = .locked ↔ s.rsv.state = .locked) → (quality = .holdover ↔ s.rsv.state = .holdover) → quality ≠ .unset →
    (isStep = false → s.asks p tag d .setTime (timeBytes new)) →
    (isStep = true → s.asks p tag d .stepTime (beSigned offset 8) ∧ s.tbu.isSet = true
      ∧ -9223372036854775808 ≤ offset ∧ offset ≤ 9223372036854775807) →
    exec (if isStep = true then .stepTime p else .setTime p) s = .next (({ s with
      tbu := { s.tbu with time := new, isSet := true, slew := none, slewTaken := false },
      mail := { s.mail with
        turns := s.mail.turns + 1
        records := s.mail.records ++ [{
          producer := .tbu, quality := quality, time := new, address := none, links := { turn := some s.mail.turns }
          body := .step isStep field (decide (field ≠ offset)) (s.tbu.slew.map fun w => (w.origin, w.residual)) }],
        toScu := s.mail.toScu ++ [.step s.mail.turns s.tbu.time new],
        toEcu := s.mail.toEcu ++ [.step s.mail.turns s.tbu.time new] } } : State).answered p tag d .ok (timeBytes s.tbu.time))

/-- SLEW_TIME replaces the slew in flight and starts one of origin HOST, or none for an offset of 0; while PPS discipline is
on it is answered DISCIPLINED and changes nothing (R17). A discipline slew is never refused and starts with origin PPS
(R18). -/
def Obligations.SlewsStartAndReplace : Prop :=
  (∀ (s : State) (p : Port) (tag : Byte) (d : Bool) (offset : Int) (spacing : Nat),
    s.asks p tag d .slewTime (beSigned offset 4 ++ beBytes spacing 2) →
    s.sau.sessions[p].attached = true → s.sau.holder = some p →
    -10000000 ≤ offset → offset ≤ 10000000 → 100 ≤ spacing → spacing ≤ 10000 →
    (s.rsv.pps.discipline = true → exec (.slewTime p) s = .next (s.answered p tag d .disciplined []))
    ∧ (s.rsv.pps.discipline = false →
        exec (.slewTime p) s = .next (({ s with tbu := { s.tbu with
            slewTaken := false,
            slew := if offset = 0 then none else some {
              origin := .host, initial := offset, residual := offset
              spacing := spacing, counter := 0, deferred := false } } } : State).answered p tag d .ok
          (match s.tbu.slew with
            | none => [0, 0, 0, 0, 0]
            | some w => beSigned w.residual 4 ++ [match w.origin with | .host => 1 | .pps => 2]))))
  ∧ ∀ (s : State) (w : SlewStart) (rest : List SlewStart), s.mail.slews = w :: rest →
      exec .disciplineSlew s = .next { s with
        mail := { s.mail with slews := rest },
        tbu := { s.tbu with
          slewTaken := false,
          slew := some {
            origin := .pps, initial := w.initial, residual := w.initial, spacing := w.spacing, counter := 0
            deferred := false } } }

/-- READ_TIME from any port, READ_TIMEBASE and READ_REF from an attached one answer what the blocks hold, in the layout of
the request table, and change nothing but the slot (R9, R20, R21, R40). -/
def Obligations.TimebaseAndReferenceReports : Prop :=
  ∀ (s : State) (p : Port) (tag : Byte) (d : Bool) (quality state source : Byte),
    (s.tbu.isSet = false → quality = 0) →
    (s.tbu.isSet = true → quality = (match s.rsv.state with | .unlocked => 1 | .holdover => 2 | .locked => 3)) →
    state = (match s.rsv.state with | .unlocked => 0 | .locked => 1 | .holdover => 2) →
    source = (if s.rsv.state = .locked then 1 else 0) →
    (s.asks p tag d .readTime [] →
      exec (.readTime p) s = .next (s.answered p tag d .ok (timeBytes s.tbu.time ++ [quality, state])))
    ∧ (s.asks p tag d .readTimebase [] → s.sau.sessions[p].attached = true →
      exec (.readTimebase p) s = .next (s.answered p tag d .ok
        (beSigned s.tbu.refTrim 4 ++ beSigned s.tbu.intTrim 4 ++ beBytes s.tbu.refAcc 4 ++ beBytes s.tbu.intAcc 4
          ++ [source, if s.tbu.isSet = true then 1 else 0]
          ++ (match s.tbu.slew with
            | none => [0] ++ [0, 0, 0, 0] ++ [0, 0, 0, 0] ++ [0, 0] ++ [0, 0] ++ [0]
            | some w => [match w.origin with | .host => 1 | .pps => 2] ++ beSigned w.initial 4 ++ beSigned w.residual 4
                ++ beBytes w.spacing 2 ++ beBytes w.counter 2 ++ [if w.deferred = true then 1 else 0]))))
    ∧ (s.asks p tag d .readRef [] → s.sau.sessions[p].attached = true →
      exec (.readRef p) s = .next (s.answered p tag d .ok
        ([state, source, BitVec.ofNat 8 s.rsv.good] ++ beBytes s.rsv.age 2
          ++ (match s.rsv.last with
            | none => [0, 0, 0]
            | some l => beBytes l.1 2 ++ [match l.2 with | .good => 1 | .fast => 2 | .slow => 3 | .missing => 4])
          ++ [if s.rsv.config.enabled = true then 1 else 0, BitVec.ofNat 8 s.rsv.config.tolerance,
            BitVec.ofNat 8 s.rsv.config.qualLength] ++ beBytes s.rsv.config.limit 2
          ++ [if s.rsv.pps.role = true then 1 else 0, if s.rsv.pps.discipline = true then 1 else 0]
          ++ beBytes s.rsv.pps.window 4 ++ beBytes s.rsv.pps.spacing 2
          ++ [BitVec.ofNat 8 s.rsv.streak, if s.rsv.fault = true then 1 else 0]
          ++ (match s.rsv.lastError with
            | none => [0, 0, 0, 0, 0]
            | some e => [1] ++ beSigned e 4))))

/-! ## The Reference Supervisor (chapter 2) -/

/-- WINDOW_CLOSE and MISSING_DECLARATION: the class of the window, the last window, and the effect of the class on G and the
supervision state with the REFSTATE record of a change (R24 to R27, R30). `cls` and `after` describe the window and the RSV
with its new window begun; the five clauses are the cases of R26 and R27. That a command waits until its window is due is
the model's choice (log 7). -/
def Obligations.WindowClassificationActs : Prop :=
  ∀ (s : State) (c : Instr) (cls : WindowClass) (after : Rsv) (quality : Quality),
    s.rsv.config.enabled = true →
    (c = .windowClose ∧ 1000 ≤ s.rsv.cycles ∧ 1 ≤ s.rsv.edges
        ∧ (cls = .good ↔ 1000 ≤ s.rsv.edges + s.rsv.config.tolerance ∧ s.rsv.edges ≤ 1000 + s.rsv.config.tolerance)
        ∧ (cls = .fast ↔ 1000 + s.rsv.config.tolerance < s.rsv.edges)
        ∧ (cls = .slow ↔ s.rsv.edges + s.rsv.config.tolerance < 1000)
        ∧ after = { s.rsv with cycles := 0, edges := 0, last := some (s.rsv.edges, cls) }
      ∨ c = .missingDeclaration ∧ 16 ≤ s.rsv.gap ∧ cls = .missing
        ∧ after = { s.rsv with cycles := 0, edges := 0, gap := 0, last := some (s.rsv.edges, .missing) }) →
    (s.rsv.state ≠ .locked → cls = .good → s.rsv.good + 1 < s.rsv.config.qualLength →
      exec c s = .next { s with rsv := { after with good := s.rsv.good + 1 } })
    ∧ (s.rsv.state ≠ .locked → cls = .good → s.rsv.config.qualLength ≤ s.rsv.good + 1 →
      quality = (if s.tbu.isSet = true then .locked else .unset) →
      exec c s = .next (({ s with rsv := { after with state := .locked, good := 0 } } : State).posted .rsv quality s.tbu.time
        (.refState s.rsv.state .locked .qualified s.rsv.edges (if s.rsv.state = .holdover then s.rsv.age else 0)) none))
    ∧ (s.rsv.state ≠ .locked → cls ≠ .good → exec c s = .next { s with rsv := { after with good := 0 } })
    ∧ (s.rsv.state = .locked → cls = .good → exec c s = .next { s with rsv := after })
    ∧ (s.rsv.state = .locked → cls ≠ .good → quality = (if s.tbu.isSet = true then .holdover else .unset) →
      exec c s = .next (({ s with rsv := { after with state := .holdover, good := 0, age := 0, ageCycles := 0 } } :
          State).posted .rsv quality s.tbu.time
        (.refState .locked .holdover
          (match cls with | .fast => .fast | .slow => .slow | .missing => .missing | .good => .qualified) s.rsv.edges 0)
        none))

/-- A rising edge of REFCLK counts in the window in progress and sets the gap counter to 0, while supervision is enabled (R24,
R25), and while REFCLK is selected a tick is taken at it (R29): one more tick waits for the TBU, which is log 5. An edge that
finds a declaration or a close due comes after it (log 8). The model's choices: where both are due, the declaration is made and
the close falls away (log 24), and a holdover second that is due too stays due, so the window event goes first (log 34). -/
def Obligations.ReferenceEdgeCounts : Prop :=
  ∀ s : State,
    (s.rsv.config.enabled = true → s.rsv.gap < 16 → (s.rsv.cycles < 1000 ∨ s.rsv.edges = 0) →
      exec .refclkEdge s = .next { s with
        rsv := { s.rsv with edges := min (s.rsv.edges + 1) 65535, gap := 0 }
        mail := { s.mail with refTicks := s.mail.refTicks + if s.rsv.state = .locked then 1 else 0 } })
    ∧ (s.rsv.config.enabled = false → exec .refclkEdge s = .next { s with
        mail := { s.mail with refTicks := s.mail.refTicks + if s.rsv.state = .locked then 1 else 0 } })
    ∧ ∀ t : State, s.rsv.config.enabled = true →
      (16 ≤ s.rsv.gap ∧ exec .missingDeclaration s = .next t
        ∨ s.rsv.gap < 16 ∧ 1000 ≤ s.rsv.cycles ∧ 1 ≤ s.rsv.edges ∧ exec .windowClose s = .next t) →
      exec .refclkEdge s = .next { t with
        rsv := { t.rsv with edges := min (t.rsv.edges + 1) 65535, gap := 0 }
        mail := { t.mail with refTicks := t.mail.refTicks + if t.rsv.state = .locked then 1 else 0 } }

/-- In HOLDOVER, an internal second increments the age; an increment that brings the age to the limit enters UNLOCKED with
reason EXPIRED, and G keeps its value (R28, R30). The increment and its expiry are one event of the model (log 9). -/
def Obligations.HoldoverAgesAndExpires : Prop :=
  ∀ (s : State) (quality : Quality), s.rsv.state = .holdover → 10000000 ≤ s.rsv.ageCycles →
    quality = (if s.tbu.isSet = true then .freerun else .unset) →
    (s.rsv.age + 1 < s.rsv.config.limit →
      exec .holdoverAgeIncrement s = .next { s with rsv := { s.rsv with age := s.rsv.age + 1, ageCycles := 0 } })
    ∧ (s.rsv.config.limit ≤ s.rsv.age + 1 → ∀ c : Instr, c = .holdoverAgeIncrement ∨ c = .holdoverExpiry →
      exec c s = .next (({ s with
          rsv := { s.rsv with state := .unlocked, age := s.rsv.age + 1, ageCycles := 0 } } : State).posted .rsv quality
        s.tbu.time (.refState .holdover .unlocked .expired 0 (s.rsv.age + 1)) none))

/-- The RSV takes an EVT7 edge: the phase error from the fraction of its timestamp, the streak and the fault flag, the
discipline slew of an in-window edge while LOCKED (R37), and the PPS record (R36, R38). The links of the record are the model's
own (log 11). -/
def Obligations.PpsEdgeJudged : Prop :=
  ∀ (s : State) (edge : PpsEdge) (rest : List PpsEdge) (f : Nat) (e : Int) (outlier applied fault : Bool) (streak : Nat),
    s.mail.ppsEdges = edge :: rest →
    f = edge.stamp % 10000000 →
    e = (if f < 5000000 then (f : Int) else (f : Int) - 10000000) →
    (outlier = true ↔ s.rsv.pps.window < e.natAbs) →
    streak = (if outlier = true then min (s.rsv.streak + 1) 255 else 0) →
    (fault = true ↔ outlier = true ∧ (s.rsv.fault = true ∨ 3 ≤ streak)) →
    (applied = true ↔ outlier = false ∧ s.rsv.pps.discipline = true ∧ s.rsv.state = .locked ∧ e ≠ 0) →
    exec .ppsEdgeHandover s = .next { s with
      rsv := { s.rsv with lastError := some e, streak := streak, fault := fault },
      mail := { s.mail with
        ppsEdges := rest,
        slews := s.mail.slews ++ (if applied = true then [{ initial := -e, spacing := s.rsv.pps.spacing }] else []),
        records := s.mail.records ++ [{
          producer := .rsv, quality := s.quality, time := edge.stamp, address := none
          links := { capture := some edge.capture }
          body := .pps e applied outlier fault (decide (s.rsv.state ≠ .locked)) edge.adjusted streak
            edge.suppressed }] } }

/-- An accepted REF_CONFIG replaces the four fields with the effects that the enable before and now give, and answers the
state, G and the age after them (R31, R33). -/
def Obligations.ReferenceConfigured : Prop :=
  ∀ (s : State) (p : Port) (tag : Byte) (d : Bool) (c : SupConfig) (quality : Quality),
    c.Ok → s.asks p tag d .refConfig
      ([if c.enabled = true then 1 else 0, BitVec.ofNat 8 c.tolerance, BitVec.ofNat 8 c.qualLength] ++ beBytes c.limit 2) →
    s.sau.sessions[p].attached = true → s.sau.holder = some p →
    quality = (if s.tbu.isSet = true then .freerun else .unset) →
    (s.rsv.config.enabled = true → c.enabled = false → s.rsv.state = .unlocked →
      exec (.refConfig p) s = .next (({ s with
        rsv := { s.rsv with config := c, good := 0, cycles := 0, edges := 0, gap := 0 } } : State).answered p tag d .ok
        ([0, 0] ++ beBytes s.rsv.age 2)))
    ∧ (s.rsv.config.enabled = true → c.enabled = false → s.rsv.state ≠ .unlocked →
      exec (.refConfig p) s = .next ((({ s with
        rsv := { s.rsv with config := c, state := .unlocked, good := 0, cycles := 0, edges := 0, gap := 0 } } :
          State).posted .rsv quality s.tbu.time (.refState s.rsv.state .unlocked .disabled 0
            (if s.rsv.state = .holdover then s.rsv.age else 0)) none).answered p tag d .ok ([0, 0] ++ beBytes s.rsv.age 2)))
    ∧ (s.rsv.config.enabled = false → c.enabled = true → s.rsv.state = .unlocked →
      exec (.refConfig p) s = .next (({ s with
        rsv := { s.rsv with config := c, good := 0, cycles := 0, edges := 0, gap := 0 } } : State).answered p tag d .ok
        ([0, 0] ++ beBytes s.rsv.age 2)))
    ∧ (s.rsv.config.enabled = true → c.enabled = true → s.rsv.state = .holdover → c.limit ≤ s.rsv.age →
      exec (.refConfig p) s = .next ((({ s with rsv := { s.rsv with config := c, state := .unlocked } } : State).posted .rsv
          quality s.tbu.time (.refState .holdover .unlocked .expired 0 s.rsv.age) none).answered p tag d .ok
        ([0, BitVec.ofNat 8 s.rsv.good] ++ beBytes s.rsv.age 2)))
    ∧ (s.rsv.config.enabled = c.enabled → (c.enabled = true → s.rsv.state = .holdover → s.rsv.age < c.limit) →
      exec (.refConfig p) s = .next (({ s with rsv := { s.rsv with config := c } } : State).answered p tag d .ok
        ([match s.rsv.state with | .unlocked => 0 | .locked => 1 | .holdover => 2, BitVec.ofNat 8 s.rsv.good]
          ++ beBytes s.rsv.age 2)))

/-! ## The Schedule Unit (chapters 3 and 4) -/

/-- What an entry becomes when it consumes k occurrences, and how many occurrences lie at or before a time value: the
arithmetic of R71, R72 and R74. -/
def Obligations.OccurrencesConsumed : Prop :=
  ∀ (e : Entry) (D : Time), e.due = some D →
    (∀ k : Nat, (e.endsAfter k = true ↔ e.period = none ∨ (∃ r, e.period.isSome = true ∧ e.remaining = some r ∧ r ≤ k)
        ∨ ∃ P, e.period = some P ∧ Config.maxTime < D + k * P)
      ∧ (e.endsAfter k = true → (∀ q, e.prime = some q → q.rearm = false) →
        e.consume k = Entry.free ((e.generation + 1) % 256))
      ∧ (∀ q, e.endsAfter k = true → e.prime = some q → q.rearm = true →
        e.consume k = { e with
          state := .primed, due := none, remaining := e.initial, occurrence := min (e.occurrence + k) 65535 })
      ∧ (∀ P, e.endsAfter k = false → e.period = some P →
        e.consume k = { e with
          due := some (D + k * P), remaining := e.remaining.map fun r => r - k
          occurrence := min (e.occurrence + k) 65535 }))
    ∧ (∀ T : Time, D ≤ T → (e.period = none → e.passed T = 1)
      ∧ ∀ P, e.period = some P → 0 < P → ∃ n : Nat, 1 ≤ n ∧ D + (n - 1) * P ≤ T ∧ T < D + n * P
        ∧ e.passed T = (match e.remaining with | none => n | some r => min n r))

/-- A time advance fires every ARMED entry whose due it reaches, once each and in due-list order: operations, FIRE records
and continuations or ends. Every other entry and all other state stand (R67, R69, R70, R73). The links of the records are the
model's own (log 11). -/
def Obligations.TimeAdvanceFires : Prop :=
  ∀ (s : State) (k : Nat) (T : Time) (rest : List TimeHandover) (l : List Index),
    s.mail.toScu = .advance k T :: rest → s.dueInOrder T l → ∃ t : State, exec .timeAdvance s = .next t
      ∧ (∀ i ∈ l, t.scu.entries[i] = s.scu.entries[i].consume 1)
      ∧ (∀ i : Index, i ∉ l → t.scu.entries[i] = s.scu.entries[i])
      ∧ t = { s with
        scu := { entries := t.scu.entries, quota := s.scu.quota, now := T }
        mail := { s.mail with
          toScu := rest
          ops := s.mail.ops ++ l.flatMap fun i => s.scu.entries[i].action.toList
          records := s.mail.records ++ l.flatMap fun i =>
            if s.scu.entries[i].scope = .nobody then []
            else [firePosted i s.scu.entries[i] 1 T .advance s.quality { turn := some k }] } }

/-- A forward step treats every entry it passes over, once each and in due-list order, under its late policy with the flag
STEPPED; a backward step, or one of offset 0, only gives the SCU its new time (R78 to R81). The links of the records are the
model's own (log 11). -/
def Obligations.StepTreatsPassedEntries : Prop :=
  ∀ (s : State) (k : Nat) (old new : Time) (rest : List TimeHandover), s.mail.toScu = .step k old new :: rest →
    (new ≤ old → exec .stepHandover s = .next { s with
      scu := { s.scu with now := new }, mail := { s.mail with toScu := rest } })
    ∧ ∀ l : List Index, old < new → s.dueInOrder new l → ∃ t : State, exec .stepHandover s = .next t
      ∧ (∀ i ∈ l, t.scu.entries[i] = s.scu.entries[i].consume (s.scu.entries[i].passed new))
      ∧ (∀ i : Index, i ∉ l → t.scu.entries[i] = s.scu.entries[i])
      ∧ t = { s with
        scu := { entries := t.scu.entries, quota := s.scu.quota, now := new }
        mail := { s.mail with
          toScu := rest
          ops := s.mail.ops ++ l.flatMap fun i => s.scu.entries[i].treatOps
          records := s.mail.records ++ l.flatMap fun i =>
            s.scu.entries[i].treatRecords i (s.scu.entries[i].passed new) new .stepped s.quality
              { turn := some k } } }

/-- A captured edge arms every PRIMED entry that its line and direction match, in index order. A due later than the SCU's
time stands; a past due of a one-shot entry is treated at once with the flag AT_ARM, one of a periodic entry moves to the
first occurrence later than the time, and a due past the maximum ends the entry with a MISSED record of 0 occurrences (R58,
R83). The edge is the oldest of its input; edges of other inputs may stand before it (R107). `armed`, `ops` and `posted` give the
four cases for each entry. An edge whose tick the SCU has not yet taken waits for it (log 12). The links of the records are the
model's own (log 11). -/
def Obligations.PrimingArmsMatchingEntries : Prop :=
  ∀ (s : State) (edge : Priming) (before rest : List Priming), s.mail.primings = before ++ edge :: rest →
    (∀ e ∈ before, e.input ≠ edge.input) →
    ((∃ h ∈ s.mail.toScu, h.turn ≤ edge.turn) → exec (.primingHandover edge.input) s = .next s)
    ∧ ∀ (l : List Index) (D : Index → Time) (armed : Index → Entry) (ops : Index → List Action)
      (posted : Index → List Posted) (links : Links),
    (∀ h ∈ s.mail.toScu, edge.turn < h.turn) → links = { capture := some edge.capture } →
    l.Pairwise (· < ·) →
    (∀ i, i ∈ l ↔ s.scu.entries[i].state = .primed ∧ ∃ q, s.scu.entries[i].prime = some q ∧ q.input = edge.input
      ∧ (q.edge = .any ∨ q.edge = .rise ∧ edge.direction = .rise ∨ q.edge = .fall ∧ edge.direction = .fall)) →
    (∀ i q, s.scu.entries[i].prime = some q → D i = edge.stamp + q.delay) →
    (∀ i ∈ l, ∀ e : Entry, e = { s.scu.entries[i] with state := .armed, due := some (D i) } →
      (D i ≤ Config.maxTime → s.scu.now < D i → armed i = e ∧ ops i = [] ∧ posted i = [])
      ∧ (D i ≤ Config.maxTime → D i ≤ s.scu.now → e.period = none →
          armed i = e.consume 1 ∧ ops i = e.treatOps ∧ posted i = e.treatRecords i 1 s.scu.now .atArm s.quality links)
      ∧ (∀ P n, D i ≤ Config.maxTime → D i ≤ s.scu.now → e.period = some P → 1 ≤ n → D i + (n - 1) * P ≤ s.scu.now →
          s.scu.now < D i + n * P → D i + n * P ≤ Config.maxTime →
          armed i = { e with due := some (D i + n * P) } ∧ ops i = [] ∧ posted i = [])
      ∧ ((Config.maxTime < D i ∨ D i ≤ s.scu.now ∧ ∃ P n, e.period = some P ∧ 1 ≤ n ∧ D i + (n - 1) * P ≤ s.scu.now
            ∧ s.scu.now < D i + n * P ∧ Config.maxTime < D i + n * P) →
          armed i = (if e.rearms = true then
              { s.scu.entries[i] with due := none, remaining := e.initial }
            else Entry.free ((e.generation + 1) % 256))
          ∧ ops i = []
          ∧ posted i = [{
            producer := .scu, quality := s.quality, time := s.scu.now, links := links
            body := .missed i e.generation e.label 0 0 .atArm true
            address := some { owner := e.owner, all := decide (e.scope = .all ∨ e.owner = none) } }])) →
    (∀ i ∈ l, ∀ P, s.scu.entries[i].period = some P → 0 < P) →
    ∃ t : State, exec (.primingHandover edge.input) s = .next t
      ∧ (∀ i ∈ l, t.scu.entries[i] = armed i) ∧ (∀ i : Index, i ∉ l → t.scu.entries[i] = s.scu.entries[i])
      ∧ t = { s with
        scu := { s.scu with entries := t.scu.entries }
        mail := { s.mail with
          primings := before ++ rest
          ops := s.mail.ops ++ l.flatMap ops
          records := s.mail.records ++ l.flatMap posted } }

/-- An ARM that passes its checks: a due later than the SCU's time makes an ARMED entry; of a due already past, a one-shot
CATCHUP entry fires at once and its index is FREE again, a one-shot SKIP entry is answered PAST, and a periodic entry moves
to its first occurrence later than the time, or is answered RANGE past the maximum (R54, R55, R56). -/
def Obligations.ArmCreatesEntry : Prop :=
  ∀ (s : State) (p : Port) (tag : Byte) (d detached : Bool) (i : Index) (due : Time) (c : Creation) (owner : Option Port)
    (e : Entry) (handle : List Byte),
    s.asks p tag d .arm (armPayload detached due c) → c.Ok detached → due ≤ Config.maxTime → s.creates p detached c i →
    owner = (if detached = true then none else some p) →
    handle = [BitVec.ofNat 8 i.val, BitVec.ofNat 8 s.scu.entries[i].generation] →
    e = {
      state := .armed, generation := s.scu.entries[i].generation, owner := owner, label := c.label
      due := some due, period := c.period, remaining := c.remaining, initial := c.remaining, action := c.action
      scope := c.scope, policy := c.policy, prime := none, occurrence := 0 } →
    (s.scu.now < due →
      exec (.arm p) s = .next ((s.withEntry i e).answered p tag d .ok (handle ++ timeBytes due ++ [0])))
    ∧ (due ≤ s.scu.now → c.period = none → c.policy = .catchup →
      exec (.arm p) s = .next (({ s.withEntry i (Entry.free ((e.generation + 1) % 256)) with
        mail := { s.mail with
          ops := s.mail.ops ++ c.action.toList
          records := s.mail.records ++ (if c.scope = .nobody then [] else [{
            producer := .scu, quality := s.quality, time := s.scu.now
            body := .fire i e.generation c.label (min (s.scu.now - due) 4294967295) 1 .atArm true s.quality
            address := some { owner := owner, all := decide (c.scope = .all) } }]) } } : State).answered p tag d .ok
        (handle ++ timeBytes due ++ [1])))
    ∧ (due ≤ s.scu.now → c.period = none → c.policy = .skip →
      exec (.arm p) s = .next (s.answered p tag d .past []))
    ∧ ∀ P n, due ≤ s.scu.now → c.period = some P → 1 ≤ n → due + (n - 1) * P ≤ s.scu.now → s.scu.now < due + n * P →
      (due + n * P ≤ Config.maxTime →
        exec (.arm p) s = .next ((s.withEntry i { e with due := some (due + n * P) }).answered p tag d .ok
          (handle ++ timeBytes (due + n * P) ++ [2])))
      ∧ (Config.maxTime < due + n * P → exec (.arm p) s = .next (s.answered p tag d .range []))

/-- A PRIME that passes its checks makes a PRIMED entry with no due and answers its handle (R57). -/
def Obligations.PrimeCreatesEntry : Prop :=
  ∀ (s : State) (p : Port) (tag : Byte) (d detached : Bool) (i : Index) (q : PrimeSpec) (c : Creation),
    s.asks p tag d .prime (primePayload detached q c) → c.Ok detached → q.delay ≤ 100000000 → s.creates p detached c i →
    exec (.prime p) s = .next ((s.withEntry i {
      state := .primed, generation := s.scu.entries[i].generation, owner := if detached = true then none else some p
      label := c.label, due := none, period := c.period, remaining := c.remaining, initial := c.remaining
      action := c.action, scope := c.scope, policy := c.policy, prime := some q, occurrence := 0 }).answered p tag d .ok
      [BitVec.ofNat 8 i.val, BitVec.ofNat 8 s.scu.entries[i].generation])

/-- The refusals of a creating request, in their order: a detached entry asked for by another port than the holder, a field
out of its range, a line its owner may not drive, a full quota, a full table. Each changes nothing but the slot (R51, R52, R53,
R49). The first part is the authority check, whatever the fields are; the second the range check, which comes before the line,
the quota and the table; the third the others. -/
def Obligations.CreationRefused : Prop :=
  (∀ (s : State) (p : Port) (tag : Byte) (d : Bool) (payload : List Byte), s.sau.sessions[p].attached = true →
    (payload.getD 0 0).toNat % 2 = 1 → s.sau.holder ≠ some p →
    (s.asks p tag d .arm payload → exec (.arm p) s = .next (s.answered p tag d .notAuthority []))
    ∧ (s.asks p tag d .prime payload → exec (.prime p) s = .next (s.answered p tag d .notAuthority [])))
  ∧ (∀ (s : State) (p : Port) (tag : Byte) (d : Bool) (payload : List Byte) (flag : Nat → Bool) (common : Nat → Prop),
    s.sau.sessions[p].attached = true →
    (∀ b, flag b = (payload.getD 0 0).getLsbD b) → (flag 0 = true → s.sau.holder = some p) →
    (∀ at_, common at_ ↔
      (flag 1 = true ∧ (9999999 < fieldNat payload (at_ + 5) 3
        ∨ fieldNat payload at_ 5 * 10000000 + fieldNat payload (at_ + 5) 3 < 1000
        ∨ 10000000000000 < fieldNat payload at_ 5 * 10000000 + fieldNat payload (at_ + 5) 3))
      ∨ (flag 2 = true ∧ (flag 1 = false ∨ fieldNat payload (at_ + 8) 2 = 0))
      ∨ (flag 3 = true ∧ (7 < fieldNat payload (at_ + 10) 1 ∨ 3 < fieldNat payload (at_ + 11) 1))
      ∨ 2 < fieldNat payload (at_ + 12) 1 ∨ (flag 0 = true ∧ fieldNat payload (at_ + 12) 1 = 1)
      ∨ 1 < fieldNat payload (at_ + 13) 1) →
    (s.asks p tag d .arm payload → 9999999 < fieldNat payload 8 3 ∨ common 11 →
      exec (.arm p) s = .next (s.answered p tag d .range []))
    ∧ (s.asks p tag d .prime payload →
      7 < fieldNat payload 3 1 ∨ 2 < fieldNat payload 4 1 ∨ 100000000 < fieldNat payload 5 4 ∨ 1 < fieldNat payload 9 1
        ∨ common 10 →
      exec (.prime p) s = .next (s.answered p tag d .range [])))
  ∧ ∀ (s : State) (p : Port) (tag : Byte) (d detached : Bool) (due : Time) (q : PrimeSpec) (c : Creation) (command : Instr),
    (command = .arm p ∧ s.asks p tag d .arm (armPayload detached due c) ∧ due ≤ Config.maxTime
      ∨ command = .prime p ∧ s.asks p tag d .prime (primePayload detached q c) ∧ q.delay ≤ 100000000) →
    c.Ok detached → s.sau.sessions[p].attached = true → (detached = true → s.sau.holder = some p) →
    (∀ a, c.action = some a → s.tou.lines[a.line].binding ≠ none →
      (detached = true ∨ s.tou.lines[a.line].binding ≠ some p) →
      exec command s = .next (s.answered p tag d .lineDenied []))
    ∧ ((∀ a ∈ c.action, s.tou.lines[a.line].binding = none
          ∨ detached = false ∧ s.tou.lines[a.line].binding = some p) →
      (detached = false → s.scu.quota[p] ≤ s.scu.use p → exec command s = .next (s.answered p tag d .quota []))
      ∧ ((detached = false → s.scu.use p < s.scu.quota[p]) → (∀ i : Index, s.scu.entries[i].state ≠ .free) →
        exec command s = .next (s.answered p tag d .tableFull [])))

/-- The checks of the four requests that name a handle, in their order: an index above 63, a FREE entry or another
generation, another owner, a detached entry without the authority. Each refusal changes nothing but the slot (R46, R48). -/
def Obligations.HandleChecks : Prop :=
  ∀ (s : State) (p : Port) (tag : Byte) (d : Bool) (index generation : Byte) (tail : List Byte) (command : Instr)
    (code : Code),
    (command = .cancel p ∧ code = .cancel ∨ command = .hold p ∧ code = .hold ∨ command = .resume p ∧ code = .resume
      ∨ command = .queryEntry p ∧ code = .queryEntry) →
    s.asks p tag d code ([index, generation] ++ tail) →
    (s.sau.sessions[p].attached = false → exec command s = .next (s.answered p tag d .notAttached []))
    ∧ (s.sau.sessions[p].attached = true →
      (63 < index.toNat → exec command s = .next (s.answered p tag d .range []))
      ∧ ∀ i : Index, i.val = index.toNat →
        (s.scu.entries[i].state = .free ∨ s.scu.entries[i].generation ≠ generation.toNat →
          exec command s = .next (s.answered p tag d .staleHandle []))
        ∧ (s.scu.entries[i].state ≠ .free → s.scu.entries[i].generation = generation.toNat →
          (∀ q, s.scu.entries[i].owner = some q → q ≠ p → exec command s = .next (s.answered p tag d .notOwner []))
          ∧ (s.scu.entries[i].owner = none → s.sau.holder ≠ some p →
            exec command s = .next (s.answered p tag d .notAuthority []))))

/-- CANCEL frees an entry in any state; HOLD withdraws an ARMED one, and any other state is answered BAD_STATE. Neither
sends the TOU an operation or posts a record (R59, R61). -/
def Obligations.CancelAndHold : Prop :=
  ∀ (s : State) (p : Port) (tag : Byte) (d : Bool) (i : Index) (e : Entry) (handle : List Byte),
    s.sau.sessions[p].attached = true → e = s.scu.entries[i] → e.state ≠ .free → e.generation < 256 →
    (e.owner = some p ∨ e.owner = none ∧ s.sau.holder = some p) →
    handle = [BitVec.ofNat 8 i.val, BitVec.ofNat 8 e.generation] →
    (s.asks p tag d .cancel handle →
      exec (.cancel p) s = .next ((s.withEntry i (Entry.free ((e.generation + 1) % 256))).answered p tag d .ok
        (([match e.state with | .free => 0 | .armed => 1 | .primed => 2 | .held => 3] : List Byte) ++ beBytes e.occurrence 2)))
    ∧ (∀ D, s.asks p tag d .hold handle → e.state = .armed → e.due = some D →
      exec (.hold p) s = .next ((s.withEntry i { e with state := .held }).answered p tag d .ok (timeBytes D)))
    ∧ (s.asks p tag d .hold handle → e.state ≠ .armed → exec (.hold p) s = .next (s.answered p tag d .badState []))

/-- RESUME arms a HELD entry at its held due or a new one. A due that has passed is treated at once under the late policy
with the flag RESUMED, and the answer gives the state that is left, the due of an ARMED entry and the occurrences covered
(R60, R82). -/
def Obligations.ResumeArmsOrTreats : Prop :=
  ∀ (s : State) (p : Port) (tag : Byte) (d : Bool) (i : Index) (e : Entry) (due : Time) (fresh : Bool) (handle : List Byte),
    s.sau.sessions[p].attached = true → e = s.scu.entries[i] → e.generation < 256 →
    (e.owner = some p ∨ e.owner = none ∧ s.sau.holder = some p) →
    handle = [BitVec.ofNat 8 i.val, BitVec.ofNat 8 e.generation] →
    (∀ payload, e.state = .armed ∨ e.state = .primed → s.asks p tag d .resume (handle ++ payload) →
      exec (.resume p) s = .next (s.answered p tag d .badState []))
    ∧ (∀ payload : List Byte, e.state = .held → payload.length = 8 → 9999999 < fieldNat payload 5 3 →
      s.asks p tag d .resume (handle ++ payload) → exec (.resume p) s = .next (s.answered p tag d .range []))
    ∧ (∀ a : Entry, e.state = .held → due ≤ Config.maxTime → (fresh = false → e.due = some due) →
      s.asks p tag d .resume (handle ++ if fresh = true then timeBytes due else []) →
      a = { e with state := .armed, due := some due } →
      (s.scu.now < due →
        exec (.resume p) s = .next ((s.withEntry i a).answered p tag d .ok ([1] ++ timeBytes due ++ [0, 0, 0, 0])))
      ∧ ∀ (k : Nat) (b : Entry), due ≤ s.scu.now → k = a.passed s.scu.now → b = a.consume k →
        exec (.resume p) s = .next (({ s.withEntry i b with
          mail := { s.mail with
            ops := s.mail.ops ++ a.treatOps
            records := s.mail.records ++ a.treatRecords i k s.scu.now .resumed s.quality {} } } : State).answered p tag d .ok
          (([match b.state with | .free => 0 | .armed => 1 | .primed => 2 | .held => 3] : List Byte)
            ++ timeBytes (match b.state with | .armed => b.due.getD 0 | _ => 0)
            ++ beBytes (min k 4294967295) 4)))

/-- QUERY_ENTRY answers every field of the entry a valid handle names (R62). LIST_ENTRIES answers up to 32 of the entries that
qualify for the port, in index order from the start index, with MORE when a further one qualifies: its own entries, and the
detached ones while it holds the authority (R63). Neither changes any state. -/
def Obligations.EntriesReported : Prop :=
  (∀ (s : State) (p : Port) (tag : Byte) (d : Bool) (i : Index) (e : Entry),
    s.asks p tag d .queryEntry [BitVec.ofNat 8 i.val, BitVec.ofNat 8 e.generation] →
    s.sau.sessions[p].attached = true → e = s.scu.entries[i] → e.state ≠ .free → e.generation < 256 →
    (e.owner = some p ∨ e.owner = none ∧ s.sau.holder = some p) →
    exec (.queryEntry p) s = .next (s.answered p tag d .ok
      ([BitVec.ofNat 8 ((if e.owner = none then 1 else 0) + (if e.due ≠ none then 2 else 0)
          + (if e.period ≠ none then 4 else 0) + (if e.remaining ≠ none then 8 else 0)
          + (if e.initial ≠ none then 16 else 0) + (if e.action ≠ none then 32 else 0)
          + (if e.prime ≠ none then 64 else 0)),
        match e.state with | .free => 0 | .armed => 1 | .primed => 2 | .held => 3,
        BitVec.ofNat 8 e.generation, match e.owner with | none => 255 | some q => BitVec.ofNat 8 q.val]
      ++ beBytes e.label 2 ++ timeBytes (e.due.getD 0) ++ timeBytes (e.period.getD 0)
      ++ beBytes (e.remaining.getD 0) 2 ++ beBytes (e.initial.getD 0) 2
      ++ (match e.action with
        | none => ([0, 0] : List Byte)
        | some a => [BitVec.ofNat 8 a.line.val,
            match a.op with | .pulse => 0 | .set => 1 | .clear => 2 | .toggle => 3])
      ++ ([match e.scope with | .nobody => 0 | .owner => 1 | .all => 2,
        match e.policy with | .catchup => 0 | .skip => 1] : List Byte)
      ++ (match e.prime with
        | none => ([0, 0, 0, 0, 0, 0, 0] : List Byte)
        | some q => [BitVec.ofNat 8 q.input.val, match q.edge with | .rise => 0 | .fall => 1 | .any => 2]
            ++ beBytes q.delay 4 ++ [if q.rearm = true then 1 else 0])
      ++ beBytes e.occurrence 2)))
  ∧ ∀ (s : State) (p : Port) (tag : Byte) (d : Bool) (start : Byte),
    s.asks p tag d .listEntries [start] →
    (s.sau.sessions[p].attached = false → exec (.listEntries p) s = .next (s.answered p tag d .notAttached []))
    ∧ (s.sau.sessions[p].attached = true → 63 < start.toNat →
      exec (.listEntries p) s = .next (s.answered p tag d .range []))
    ∧ ∀ shown more : List Index, s.sau.sessions[p].attached = true → start.toNat ≤ 63 →
      (shown ++ more).Pairwise (· < ·) →
      (∀ i : Index, i ∈ shown ++ more ↔ start.toNat ≤ i.val ∧ s.scu.entries[i].state ≠ .free
        ∧ (s.scu.entries[i].owner = some p ∨ s.scu.entries[i].owner = none ∧ s.sau.holder = some p)) →
      (shown.length = 32 ∨ shown.length < 32 ∧ more = []) →
      exec (.listEntries p) s = .next (s.answered p tag d .ok
        ([BitVec.ofNat 8 shown.length, if more = [] then 0 else 1] ++ shown.flatMap fun i =>
          [BitVec.ofNat 8 i.val, BitVec.ofNat 8 s.scu.entries[i].generation,
            match s.scu.entries[i].state with | .free => 0 | .armed => 1 | .primed => 2 | .held => 3]))

/-- The SCU takes a session end: every entry the port owns becomes FREE with the next generation, whatever its state; all
others, the port's quota and every line stand, and no record is posted (R64). The number freed goes on with the session end
(R140 step 3). -/
def Obligations.SessionEndFreesEntries : Prop :=
  ∀ (s : State) (e : Ending), s.sau.ending = some e → e.phase = .atScu →
    ∃ t : State, exec (.scuSessionEnd e.port) s = .next t
      ∧ (∀ i : Index, s.scu.entries[i].state ≠ .free → s.scu.entries[i].owner = some e.port →
          t.scu.entries[i] = Entry.free ((s.scu.entries[i].generation + 1) % 256))
      ∧ (∀ i : Index, (s.scu.entries[i].state = .free ∨ s.scu.entries[i].owner ≠ some e.port) →
          t.scu.entries[i] = s.scu.entries[i])
      ∧ t.scu.use e.port = 0
      ∧ t = { s with
        scu := { s.scu with entries := t.scu.entries }
        sau := { s.sau with ending := some { e with phase := .atElu, freed := s.scu.use e.port } } }

/-! ## The Trigger Output Unit (chapter 5) -/

/-- The effect of each operation on a line, for an operation the SCU handed over and for a DRIVE_LINE on a line that is SHARED
or bound to the port; a line bound to another port is answered LINE_DENIED, and before that check a line above 7 or an operation
above 3 is answered RANGE. No other line is touched (R89, R91, R92). -/
def Obligations.LineOperationsApply : Prop :=
  (∀ (s : State) (p : Port) (tag line code : Byte) (d : Bool), s.asks p tag d .driveLine [line, code] →
    s.sau.sessions[p].attached = true → 7 < line.toNat ∨ 3 < code.toNat →
    exec (.driveLine p) s = .next (s.answered p tag d .range []))
  ∧ ∀ (s : State) (n : Line) (op : LineOp) (l : TrigLine),
    (op = .pulse → l = { s.tou.lines[n] with active := true, remaining := s.tou.lines[n].width }) →
    (op = .set → l = { s.tou.lines[n] with active := true, remaining := 0 }) →
    (op = .clear → l = { s.tou.lines[n] with active := false, remaining := 0 }) →
    (op = .toggle → l = { s.tou.lines[n] with active := !s.tou.lines[n].active, remaining := 0 }) →
    (∀ rest : List Action, s.mail.ops = { line := n, op := op } :: rest →
      exec .lineOperation s = .next { s with
        tou := { lines := s.tou.lines.set n.val l }, mail := { s.mail with ops := rest } })
    ∧ ∀ (p : Port) (tag code : Byte) (d : Bool),
      code = (match op with | .pulse => 0 | .set => 1 | .clear => 2 | .toggle => 3) →
      s.asks p tag d .driveLine [BitVec.ofNat 8 n.val, code] → s.sau.sessions[p].attached = true →
      (s.tou.lines[n].binding = none ∨ s.tou.lines[n].binding = some p →
        exec (.driveLine p) s = .next (({ s with tou := { lines := s.tou.lines.set n.val l } } : State).answered p tag d .ok
          ([if l.active = true then 1 else 0] ++ beBytes l.remaining 2)))
      ∧ (∀ q, s.tou.lines[n].binding = some q → q ≠ p →
        exec (.driveLine p) s = .next (s.answered p tag d .lineDenied []))

/-- BIND_LINE asks whether an entry of another owner, or a detached one, acts on the line: the lowest such index blocks a
binding to a port, and nothing blocks SHARED. An accepted one replaces the binding alone (R93, R94). -/
def Obligations.BindLineChecksTable : Prop :=
  ∀ (s : State) (p : Port) (tag : Byte) (d : Bool) (n : Line) (binding : Option Port) (blocks : Index → Prop),
    s.asks p tag d .bindLine
      [BitVec.ofNat 8 n.val, match binding with | none => 0x80 | some q => BitVec.ofNat 8 q.val] →
    s.sau.sessions[p].attached = true → s.sau.holder = some p →
    (∀ i, blocks i ↔ binding ≠ none ∧ s.scu.entries[i].state ≠ .free ∧ s.scu.entries[i].owner ≠ binding
      ∧ ∃ a, s.scu.entries[i].action = some a ∧ a.line = n) →
    (∀ i : Index, blocks i → (∀ j : Index, j < i → ¬ blocks j) →
      exec (.bindLine p) s = .next (s.answered p tag d .lineInUse [BitVec.ofNat 8 i.val]))
    ∧ ((∀ i : Index, ¬ blocks i) →
      exec (.bindLine p) s = .next ((s.withLine n fun l => { l with binding := binding }).answered p tag d .ok
        [match s.tou.lines[n].binding with | none => 0x80 | some q => BitVec.ofNat 8 q.val]))

/-- The requests that replace a configuration on the holder's word and answer what they replaced: SET_TRIM with its
accumulator at 0, PPS_CONFIG with the streak at 0 and the fault CLEAR, SET_QUOTA, LINE_CONFIG, INPUT_CONFIG with the filter
run and the dead time ended, and LOG_POLICY (R19, R35, R50, R95, R111, R126). An INPUT_CONFIG that meets a sample of its input is
taken first (R112): the tick of the sample follows it, samples only with a divider of 1, and counts 1 otherwise; that a sample
which stands due meets it so is log 13. -/
def Obligations.ConfigurationReplaced : Prop :=
  ∀ (s : State) (p : Port) (tag : Byte) (d : Bool), s.sau.sessions[p].attached = true → s.sau.holder = some p →
    (∀ (trim : Int), -200000 ≤ trim → trim ≤ 200000 →
      (s.asks p tag d .setTrim ([1] ++ beSigned trim 4) →
        exec (.setTrim p) s = .next (({ s with tbu := { s.tbu with refTrim := trim, refAcc := 0 } } : State).answered p tag d
          .ok (beSigned s.tbu.refTrim 4)))
      ∧ (s.asks p tag d .setTrim ([0] ++ beSigned trim 4) →
        exec (.setTrim p) s = .next (({ s with tbu := { s.tbu with intTrim := trim, intAcc := 0 } } : State).answered p tag d
          .ok (beSigned s.tbu.intTrim 4))))
    ∧ (∀ c : PpsConfig, c.Ok →
      s.asks p tag d .ppsConfig ([if c.role = true then 1 else 0, if c.discipline = true then 1 else 0]
        ++ beBytes c.window 4 ++ beBytes c.spacing 2) →
      exec (.ppsConfig p) s = .next (({ s with rsv := { s.rsv with pps := c, streak := 0, fault := false } } :
          State).answered p tag d .ok
        ([if s.rsv.pps.role = true then 1 else 0, if s.rsv.pps.discipline = true then 1 else 0]
          ++ beBytes s.rsv.pps.window 4 ++ beBytes s.rsv.pps.spacing 2)))
    ∧ (∀ (q : Port) (quota : Nat), 1 ≤ quota → quota ≤ 64 →
      s.asks p tag d .setQuota [BitVec.ofNat 8 q.val, BitVec.ofNat 8 quota] →
      exec (.setQuota p) s = .next (({ s with scu := { s.scu with quota := s.scu.quota.set q.val quota } } :
          State).answered p tag d .ok [BitVec.ofNat 8 s.scu.quota[q], BitVec.ofNat 8 (s.scu.use q)]))
    ∧ (∀ (n : Line) (idle : Level) (width : Nat), 1 ≤ width → width ≤ 65535 →
      s.asks p tag d .lineConfig ([BitVec.ofNat 8 n.val, match idle with | .low => 0 | .high => 1] ++ beBytes width 2) →
      exec (.lineConfig p) s = .next ((s.withLine n fun l => { l with idle := idle, width := width }).answered p tag d .ok
        (([match s.tou.lines[n].idle with | .low => 0 | .high => 1] : List Byte) ++ beBytes s.tou.lines[n].width 2)))
    ∧ (∀ (n : Line) (select : EdgeSelect) (divider qualify dead : Nat),
      (divider = 1 ∨ divider = 4 ∨ divider = 16 ∨ divider = 64) → 1 ≤ qualify → qualify ≤ 15 → dead ≤ 65535 →
      s.asks p tag d .inputConfig ([BitVec.ofNat 8 n.val,
        match select with | .off => 0 | .rise => 1 | .fall => 2 | .both => 3, BitVec.ofNat 8 divider,
        BitVec.ofNat 8 qualify] ++ beBytes dead 2) →
      ∃ (due : List EcuHandover) (phase : Nat),
        (divider = 1 ∨ (∀ k t, .sample k n t ∉ s.mail.toEcu) → due = s.mail.toEcu ∧ phase = 0)
        ∧ (divider ≠ 1 → (∃ k t, .sample k n t ∈ s.mail.toEcu) → phase = 1
          ∧ due = s.mail.toEcu.filter fun h => match h with | .sample _ m _ => m != n | .step _ _ _ => true)
        ∧ exec (.inputConfig p) s = .next (({ s with
          mail := { s.mail with toEcu := due }
          ecu := { inputs := s.ecu.inputs.set n.val {
            select := select, divider := divider, qualify := qualify, dead := dead, phase := phase
            stable := s.ecu.inputs[n].stable, run := 0, candidate := none, adjusted := false, clamped := false
            shifts := [], deadLeft := 0, suppressed := s.ecu.inputs[n].suppressed } } } : State).answered p tag d .ok
          (([match s.ecu.inputs[n].select with | .off => 0 | .rise => 1 | .fall => 2 | .both => 3,
            BitVec.ofNat 8 s.ecu.inputs[n].divider, BitVec.ofNat 8 s.ecu.inputs[n].qualify] : List Byte)
            ++ beBytes s.ecu.inputs[n].dead 2)))
    ∧ (∀ policy : FullPolicy, s.asks p tag d .logPolicy [match policy with | .hold => 0 | .overwrite => 1] →
      exec (.logPolicy p) s = .next (({ s with elu := { s.elu with policy := policy } } : State).answered p tag d .ok
        [match s.elu.policy with | .hold => 0 | .overwrite => 1, BitVec.ofNat 8 s.elu.log.length]))

/-! ## The Event Capture Unit (chapter 6) -/

/-- A sample that captures no edge: the filter's judgement, and the count of an edge suppressed in the dead time, which
every such sample counts down. It posts nothing and primes nothing (R101 to R104). That the sample stands in a list, behind
samples of other inputs, is log 13, and that the pin keeps the level sampled is log 14. -/
def Obligations.SampleWithoutCapture : Prop :=
  ∀ (s : State) (n : Line) (level stable : Level) (k : Nat) (t : Time) (before rest : List EcuHandover) (i : Input)
    (next : State),
    s.mail.toEcu = before ++ .sample k n t :: rest → (∀ h ∈ before, ∃ j m u, h = .sample j m u ∧ m ≠ n) →
    i = s.ecu.inputs[n] →
    (∀ (j : Input), next = { s with
      pins := s.pins.set n.val level, mail := { s.mail with toEcu := before ++ rest }
      ecu := { inputs := s.ecu.inputs.set n.val { j with deadLeft := i.deadLeft - 1 } } } →
      (i.stable = none → j = { i with stable := some level } → exec (.inputSample n level) s = .next next)
      ∧ (i.stable = some level → j = { i with
          run := 0, candidate := none, adjusted := false, clamped := false, shifts := [] } →
        exec (.inputSample n level) s = .next next)
      ∧ (i.stable = some stable → stable ≠ level → i.run + 1 < i.qualify →
        j = (if i.run = 0 then { i with run := 1, candidate := some t, adjusted := false, clamped := false, shifts := [] }
          else { i with run := i.run + 1 }) →
        exec (.inputSample n level) s = .next next)
      ∧ (∀ select, i.stable = some stable → stable ≠ level → i.qualify ≤ i.run + 1 →
        select = (if n = 7 ∧ s.rsv.pps.role = true then .rise else i.select) →
        (select = .off ∨ select = .rise ∧ level = .low ∨ select = .fall ∧ level = .high) →
        j = { i with
          stable := some level, run := 0, candidate := none, adjusted := false, clamped := false, shifts := [] } →
        exec (.inputSample n level) s = .next next)
      ∧ (∀ select, i.stable = some stable → stable ≠ level → i.qualify ≤ i.run + 1 →
        select = (if n = 7 ∧ s.rsv.pps.role = true then .rise else i.select) →
        (select = .both ∨ select = .rise ∧ level = .high ∨ select = .fall ∧ level = .low) → 1 ≤ i.deadLeft →
        j = { i with
          stable := some level, run := 0, candidate := none, adjusted := false, clamped := false, shifts := []
          suppressed := min (i.suppressed + 1) 255 } →
        exec (.inputSample n level) s = .next next))

/-- A sample that captures an edge: the edge goes to the RSV from EVT7 in PPS role and to the log as an EDGE record
otherwise, then to the SCU; the dead time is loaded and the suppressed count cleared (R103, R105, R106). The timestamp is
that of the first sample of the run, with the marks of the steps within it (R102, R108). That the sample stands in a list,
behind samples of other inputs, is log 13, and that the pin keeps the level sampled is log 14; the links are the model's own
(log 11). -/
def Obligations.SampleCaptures : Prop :=
  ∀ (s : State) (n : Line) (level stable : Level) (k : Nat) (t stamp : Time) (before rest : List EcuHandover) (i : Input)
    (adjusted clamped pps : Bool) (shifts : List Nat) (direction : Direction) (select : EdgeSelect),
    s.mail.toEcu = before ++ .sample k n t :: rest → (∀ h ∈ before, ∃ j m u, h = .sample j m u ∧ m ≠ n) →
    i = s.ecu.inputs[n] → i.stable = some stable → stable ≠ level → i.qualify ≤ i.run + 1 → i.deadLeft = 0 →
    (pps = true ↔ n = 7 ∧ s.rsv.pps.role = true) → select = (if pps = true then .rise else i.select) →
    (select = .both ∨ select = .rise ∧ level = .high ∨ select = .fall ∧ level = .low) →
    direction = (match level with | .high => .rise | .low => .fall) →
    (i.run = 0 → stamp = t ∧ adjusted = false ∧ clamped = false ∧ shifts = []) →
    (i.run ≠ 0 → i.candidate = some stamp ∧ adjusted = i.adjusted ∧ clamped = i.clamped ∧ shifts = i.shifts) →
    exec (.inputSample n level) s = .next { s with
      pins := s.pins.set n.val level
      ecu := { inputs := s.ecu.inputs.set n.val { i with
        stable := some level, run := 0, candidate := none, adjusted := false, clamped := false, shifts := []
        deadLeft := i.dead, suppressed := 0 } }
      mail := { s.mail with
        toEcu := before ++ rest
        captures := s.mail.captures + 1
        primings := s.mail.primings ++ [{
          input := n, direction := direction, stamp := stamp, turn := k, capture := s.mail.captures }]
        ppsEdges := s.mail.ppsEdges ++ (if pps = true then [{
          stamp := stamp, adjusted := adjusted, suppressed := i.suppressed, capture := s.mail.captures }] else [])
        records := s.mail.records ++ (if pps = true then [] else [{
          producer := .ecu, quality := s.quality, time := stamp, address := none
          links := { turn := some k, capture := some s.mail.captures, shifts := shifts }
          body := .edge n direction adjusted clamped i.suppressed (min (t - stamp) 65535) }]) } }

/-- The ECU takes a step: the candidate of every run in progress moves with the time and is held at 0, under the adjusted
and clamped flags; an offset of 0 and an input with no run change nothing (R108). The step waits until the SCU has taken it (R14,
R79), which is log 12. -/
def Obligations.StepShiftsRuns : Prop :=
  ∀ (s : State) (k : Nat) (old new : Time) (rest : List EcuHandover), s.mail.toEcu = .step k old new :: rest →
    ((∃ h ∈ s.mail.toScu, h.turn ≤ k) → exec .ecuStepHandover s = .next s)
    ∧ ((∀ h ∈ s.mail.toScu, k < h.turn) → ∃ t : State, exec .ecuStepHandover s = .next t
      ∧ t = { s with ecu := t.ecu, mail := { s.mail with toEcu := rest } }
      ∧ (∀ n : Line, (s.ecu.inputs[n].run = 0 ∨ s.ecu.inputs[n].candidate = none ∨ old = new) →
          t.ecu.inputs[n] = s.ecu.inputs[n])
      ∧ ∀ (n : Line) (c : Time) (moved : Int), s.ecu.inputs[n].run ≠ 0 → s.ecu.inputs[n].candidate = some c → old ≠ new →
          moved = (c : Int) + (new : Int) - (old : Int) →
          (0 ≤ moved → t.ecu.inputs[n] = { s.ecu.inputs[n] with
              candidate := some moved.toNat, adjusted := true, shifts := s.ecu.inputs[n].shifts ++ [k] })
          ∧ (moved < 0 → t.ecu.inputs[n] = { s.ecu.inputs[n] with
              candidate := some 0, adjusted := true, clamped := true, shifts := s.ecu.inputs[n].shifts ++ [k] }))

/-- READ_LINES answers the record and the pin of every line in order, and READ_INPUTS the record of every input with the PPS
role and the run in progress. Each changes nothing and is refused to a detached port alone (R97, R113). -/
def Obligations.LinesAndInputsReported : Prop :=
  ∀ (s : State) (p : Port) (tag : Byte) (d : Bool),
    (s.sau.sessions[p].attached = false →
      (s.asks p tag d .readLines [] → exec (.readLines p) s = .next (s.answered p tag d .notAttached []))
      ∧ (s.asks p tag d .readInputs [] → exec (.readInputs p) s = .next (s.answered p tag d .notAttached [])))
    ∧ (s.sau.sessions[p].attached = true → s.asks p tag d .readLines [] →
      exec (.readLines p) s = .next (s.answered p tag d .ok (s.tou.lines.toList.flatMap fun l =>
        [match l.binding with | none => 0x80 | some q => BitVec.ofNat 8 q.val,
          BitVec.ofNat 8 ((if l.idle = .high then 1 else 0) + (if l.active = true then 2 else 0)
            + (if (l.idle = .high ↔ l.active = true) then 0 else 4))]
        ++ beBytes l.width 2 ++ beBytes l.remaining 2)))
    ∧ (s.sau.sessions[p].attached = true → s.asks p tag d .readInputs [] →
      exec (.readInputs p) s = .next (s.answered p tag d .ok ((List.finRange 8).flatMap fun n =>
        let i := s.ecu.inputs[n]
        [BitVec.ofNat 8 ((match i.select with | .off => 0 | .rise => 1 | .fall => 2 | .both => 3)
            + 4 * (if i.divider = 1 then 0 else if i.divider = 4 then 1 else if i.divider = 16 then 2 else 3)
            + 16 * (match i.stable with | none => 0 | some .low => 1 | some .high => 2)
            + (if n = 7 ∧ s.rsv.pps.role = true then 64 else 0) + (if i.adjusted = true then 128 else 0)),
          BitVec.ofNat 8 (i.qualify + 16 * i.run)]
        ++ beBytes i.dead 2 ++ beBytes i.deadLeft 2 ++ [BitVec.ofNat 8 i.suppressed]
        ++ timeBytes (if i.run = 0 then 0 else i.candidate.getD 0))))

/-! ## The Event Log Unit (chapter 7) -/

/-- The pending set of a record holds the ports with a subscription that lie in the scope of its kind (R120). -/
def Obligations.ScopesByKind : Prop :=
  ∀ (e : Elu) (r : Posted) (p : Port),
    (e.subs[p] = none → (e.pendingSet r)[p] = false)
    ∧ ∀ b : Subscription, e.subs[p] = some b →
      (∀ n x a c u w, r.body = .edge n x a c u w →
        ((e.pendingSet r)[p] = true ↔ b.kinds[0] = true ∧ b.lines[n] = true))
      ∧ (∀ address : Address,
        ((∃ i g l x k c w q, r.body = .fire i g l x k c w q) ∨ ∃ i g l x k c w, r.body = .missed i g l x k c w) →
        r.address = some address →
        ((e.pendingSet r)[p] = true ↔ address.owner = some p ∨ address.owner = none ∧ b.kinds[1] = true
          ∨ address.all = true ∧ b.kinds[1] = true))
      ∧ (((∃ x y z w, r.body = .step x y z w) ∨ ∃ x y z, r.body = .slewDone x y z) →
        ((e.pendingSet r)[p] = true ↔ b.kinds[2] = true))
      ∧ (((∃ x y z u v, r.body = .refState x y z u v) ∨ ∃ a c f g h i j k, r.body = .pps a c f g h i j k) →
        ((e.pendingSet r)[p] = true ↔ b.kinds[3] = true))
      ∧ (∀ q x y z w, r.body = .authority q x y z w →
        ((e.pendingSet r)[p] = true ↔ p = q ∨ b.kinds[4] = true))
      ∧ (∀ q x y z, r.body = .session q x y z →
        ((e.pendingSet r)[p] = true ↔ p ≠ q ∧ b.kinds[4] = true))

/-- The ELU takes the oldest waiting record of a producer: every record takes the next seq, one with an empty pending set
leaves no other trace, and a full log drops the record under HOLD or evicts its oldest under OVERWRITE, with the counters of
the ports concerned (R117, R120, R122, R123, R124). A record that one connected with it by its cause must precede waits for it,
and every other may be taken at once (R118); which records those are is the model's reading (log 11). -/
def Obligations.RecordTakenIntoLog : Prop :=
  ∀ (s : State) (r : Posted) (before rest : List Posted) (seq : Nat) (set : Vector Bool 4) (kept : Retained),
    s.mail.records = before ++ r :: rest → (∀ b ∈ before, b.producer ≠ r.producer) →
    seq = (if s.elu.nextSeq < 4294967295 then s.elu.nextSeq + 1 else 1) → set = s.elu.pendingSet r →
    kept = { record := { seq := s.elu.nextSeq, quality := r.quality, time := r.time, body := r.body }, pending := set } →
    (s.mustWait r → exec (.recordTake r.producer) s = .next s)
    ∧ (¬ s.mustWait r → ∃ t : State, exec (.recordTake r.producer) s = .next t
      ∧ t = { s with elu := t.elu, mail := { s.mail with records := before ++ rest } }
      ∧ t.elu.nextSeq = seq ∧ t.elu.policy = s.elu.policy ∧ t.elu.subs = s.elu.subs
      ∧ ((∀ p : Port, set[p] = false) →
          t.elu.log = s.elu.log ∧ t.elu.dropped = s.elu.dropped ∧ t.elu.lost = s.elu.lost)
      ∧ ∀ p : Port, set[p] = true →
        (s.elu.log.length < 128 →
          t.elu.log = s.elu.log ++ [kept] ∧ t.elu.dropped = s.elu.dropped ∧ t.elu.lost = s.elu.lost)
        ∧ (128 ≤ s.elu.log.length → s.elu.policy = .hold → t.elu.log = s.elu.log ∧ t.elu.lost = s.elu.lost
          ∧ ∀ q : Port, t.elu.dropped[q] = if set[q] = true then min (s.elu.dropped[q] + 1) 65535 else s.elu.dropped[q])
        ∧ ∀ (oldest : Retained) (others : List Retained), 128 ≤ s.elu.log.length → s.elu.policy = .overwrite →
          s.elu.log = oldest :: others → t.elu.log = others ++ [kept] ∧ t.elu.dropped = s.elu.dropped
          ∧ ∀ q : Port, t.elu.lost[q] =
              if oldest.pending[q] = true then min (s.elu.lost[q] + 1) 65535 else s.elu.lost[q])

/-- The install of a subscription counts the port as attached at the log with its counters at 0 (R119, R125), and SUBSCRIBE
replaces a port's masks and its ATN mask, and answers the kind and line masks replaced (R130). Stored records stand. The install
waits for the records of an earlier session end of the port, which are not pending for it (R140, log 32). That a SUBSCRIBE is
taken after the install of the same attachment is log 26. -/
def Obligations.SubscriptionsReplaced : Prop :=
  (∀ (s : State) (p : Port) (sub : Subscription) (before rest : List Install),
    s.mail.installs = before ++ { port := p, sub := sub } :: rest → (∀ i ∈ before, i.port ≠ p) →
    ((∃ r ∈ s.mail.records, ∃ reason limit freed, r.body = .session p (some reason) limit freed) →
      exec (.subscriptionInstall p) s = .next s)
    ∧ ((∀ r ∈ s.mail.records, ∀ reason limit freed, r.body ≠ .session p (some reason) limit freed) →
      exec (.subscriptionInstall p) s = .next { s with
        mail := { s.mail with installs := before ++ rest }
        elu := { s.elu with
          subs := s.elu.subs.set p.val (some sub), dropped := s.elu.dropped.set p.val 0
          lost := s.elu.lost.set p.val 0 } }))
  ∧ ∀ (s : State) (p : Port) (tag : Byte) (d : Bool) (kinds lines mask : Byte),
    s.asks p tag d .subscribe [kinds, lines, mask] → s.sau.sessions[p].attached = true →
    (∀ i ∈ s.mail.installs, i.port ≠ p) →
    (kinds.toNat < 32 → mask.toNat < 8 → ∃ t : State,
      t.elu = { s.elu with subs := s.elu.subs.set p.val (some { kinds := kinds.setWidth 5, lines := lines }) }
      ∧ t.sau = { s.sau with
        sessions := s.sau.sessions.set p.val { s.sau.sessions[p] with mask := mask.setWidth 3 } }
      ∧ t = { s with elu := t.elu, sau := t.sau }
      ∧ exec (.subscribe p) s = .next (t.answered p tag d .ok
        (match s.elu.subs[p] with | none => [0, 0] | some b => [b.kinds.setWidth 8, b.lines])))
    ∧ (32 ≤ kinds.toNat ∨ 8 ≤ mask.toNat → exec (.subscribe p) s = .next (s.answered p tag d .range []))

/-- READ_LOG answers the port's pending count, its two counters and its oldest pending records in log order, up to the limit
of 1 to 4, each as its 24 bytes (R165, R168; the layout of each body is that of chapter 10). It changes no state (R127). -/
def Obligations.LogRead : Prop :=
  ∀ (s : State) (p : Port) (tag : Byte) (d : Bool) (limit : Byte), s.asks p tag d .readLog [limit] →
    (s.sau.sessions[p].attached = false → exec (.readLog p) s = .next (s.answered p tag d .notAttached []))
    ∧ (s.sau.sessions[p].attached = true → limit.toNat = 0 ∨ 4 < limit.toNat →
      exec (.readLog p) s = .next (s.answered p tag d .range []))
    ∧ ∀ mine shown later : List Retained, s.sau.sessions[p].attached = true → 1 ≤ limit.toNat → limit.toNat ≤ 4 →
      mine = s.elu.log.filter (fun r => r.pending[p]) → mine = shown ++ later →
      (shown.length = limit.toNat ∨ shown.length < limit.toNat ∧ later = []) →
      exec (.readLog p) s = .next (s.answered p tag d .ok
        ([BitVec.ofNat 8 mine.length] ++ beBytes s.elu.dropped[p] 2 ++ beBytes s.elu.lost[p] 2
          ++ [BitVec.ofNat 8 shown.length] ++ shown.flatMap fun r => r.record.layout))

/-- ACK_LOG: a seq of 0 acknowledges nothing; a retained record of that seq pending for the port and every older one lose
the port from their pending sets, and those left with no port are freed; any other seq is answered NOT_FOUND. The flag
clears both counters of an accepted request (R121, R128). -/
def Obligations.LogAcknowledged : Prop :=
  ∀ (s : State) (p : Port) (tag flags : Byte) (d : Bool) (seq : Nat), seq < 4294967296 →
    s.asks p tag d .ackLog (beBytes seq 4 ++ [flags]) →
    (s.sau.sessions[p].attached = false → exec (.ackLog p) s = .next (s.answered p tag d .notAttached []))
    ∧ (s.sau.sessions[p].attached = true → seq ≠ 0 → (∀ r ∈ s.elu.log, r.record.seq = seq → r.pending[p] = false) →
      exec (.ackLog p) s = .next (s.answered p tag d .notFound []))
    ∧ ∀ (old new left : List Retained) (acknowledged : Nat), s.sau.sessions[p].attached = true →
      s.elu.log = old ++ new →
      (seq = 0 ∧ old = [] ∨ seq ≠ 0 ∧ (∃ older r, old = older ++ [r] ∧ r.record.seq = seq ∧ r.pending[p] = true
        ∧ ∀ x ∈ older, x.record.seq = seq → x.pending[p] = false)) →
      (∀ r ∈ new, ∃ q : Port, r.pending[q] = true) →
      left = (old.map fun r => { r with pending := r.pending.set p.val false }).filter
        (fun r => r.pending[0] || r.pending[1] || r.pending[2] || r.pending[3]) →
      acknowledged = (old.filter fun r => r.pending[p]).length →
      exec (.ackLog p) s = .next (({ s with elu := { s.elu with
          log := left ++ new
          dropped := if flags[0] = true then s.elu.dropped.set p.val 0 else s.elu.dropped
          lost := if flags[0] = true then s.elu.lost.set p.val 0 else s.elu.lost } } : State).answered p tag d .ok
        [BitVec.ofNat 8 acknowledged, BitVec.ofNat 8 (new.filter fun r => r.pending[p]).length])

/-- The ELU takes a session end: the port leaves every pending set, records left with no port are freed, and its counters and
subscription end (R132); and the SAU closes the session with its records, the answer of a DETACH, or SESSION_ENDED (R139,
R140 steps 5 to 7). It waits for the FIRE and MISSED records of the port's own entries, which are stored before it (R64, R87,
R133, R141), and for the install of the port's subscription (log 27). `left` is the log without the port. That the timer stands at
0 is log 31. -/
def Obligations.SessionEndCompletes : Prop :=
  ∀ (s : State) (e : Ending) (left : List Retained) (t : State),
    s.sau.ending = some e → e.phase = .atElu →
    ((∃ r ∈ s.mail.records, ∃ a, r.address = some a ∧ a.owner = some e.port) →
      exec (.eluSessionEnd e.port) s = .next s)
    ∧ ((∀ r ∈ s.mail.records, ∀ a, r.address = some a → a.owner ≠ some e.port) →
    (∀ i ∈ s.mail.installs, i.port ≠ e.port) →
    left = (s.elu.log.map fun r => { r with pending := r.pending.set e.port.val false }).filter
      (fun r => r.pending[0] || r.pending[1] || r.pending[2] || r.pending[3]) →
    t = { s with
      elu := { s.elu with
        log := left, subs := s.elu.subs.set e.port.val none, dropped := s.elu.dropped.set e.port.val 0
        lost := s.elu.lost.set e.port.val 0 }
      sau := { s.sau with
        ending := none
        sessions := s.sau.sessions.set e.port.val { s.sau.sessions[e.port] with
          limit := 0, seconds := 0, cycles := 0, mask := 4
          sessionEnded := s.sau.sessions[e.port].sessionEnded || decide (e.reason = .expired) } }
      mail := { s.mail with records := s.mail.records ++ (e.records ++ [Body.session e.port (some e.reason)
          s.sau.sessions[e.port].limit e.freed]).map fun body => {
        producer := .sau, quality := s.quality, time := s.tbu.time, body := body, address := none } } } →
    (e.reason = .expired → exec (.eluSessionEnd e.port) s = .next t)
    ∧ (∀ tag d, e.reason = .detached → s.hpu[e.port].slot = .executing tag d .taken →
      exec (.eluSessionEnd e.port) s = .next (t.answered e.port tag d .ok [BitVec.ofNat 8 e.freed])))

/-! ## The Session and Authority Unit (chapter 8) -/

/-- ATTACH opens a session of a DETACHED port: the limit, a timer at 0, the ATN mask, the subscription handed to the ELU and
the SESSION record, while the sticky reasons stand; an attached port is answered ALREADY_ATTACHED and a mask with a bit that
names nothing RANGE (R136, R149). The SAU takes no request while a session end is in progress: log 10. -/
def Obligations.AttachOpensSession : Prop :=
  ∀ (s : State) (p : Port) (tag : Byte) (d : Bool) (limit kinds lines mask : Byte),
    s.asks p tag d .attach [limit, kinds, lines, mask] → s.sau.ending = none →
    (s.sau.sessions[p].attached = true → exec (.attach p) s = .next (s.answered p tag d .alreadyAttached []))
    ∧ (s.sau.sessions[p].attached = false → 32 ≤ kinds.toNat ∨ 8 ≤ mask.toNat →
      exec (.attach p) s = .next (s.answered p tag d .range []))
    ∧ (s.sau.sessions[p].attached = false → kinds.toNat < 32 → mask.toNat < 8 →
      exec (.attach p) s = .next (({ s with
        sau := { s.sau with sessions := s.sau.sessions.set p.val { s.sau.sessions[p] with
          attached := true, limit := limit.toNat, seconds := 0, cycles := 0, mask := mask.setWidth 3, overdue := false } }
        mail := { s.mail with
          installs := s.mail.installs ++ [{ port := p, sub := { kinds := kinds.setWidth 5, lines := lines } }]
          records := s.mail.records ++ [{
            producer := .sau, quality := s.quality, time := s.tbu.time, address := none
            body := .session p none limit.toNat 0 }] } } : State).answered p tag d .ok
        [limit, match s.sau.holder with | none => 255 | some h => BitVec.ofNat 8 h.val,
          BitVec.ofNat 8 s.sau.queue.length, BitVec.ofNat 8 s.sau.senior.val]))

/-- A session end begins with a DETACH or with an idle timer at its limit: the port is DETACHED with its AUTH reason CLEAR,
a holder's authority passes to the head of the queue with its AUTH reason SET or to nobody, a queued port leaves the queue,
and the SCU is handed the session end (R138, R139, R140 steps 1 to 3, R144). A DETACH from a detached port is answered
NOT_ATTACHED. `after` is the SAU when the end has begun; that it goes on in later steps is log 10. -/
def Obligations.SessionEndBegins : Prop :=
  ∀ (s : State) (p : Port) (ses : Session) (reason : EndReason) (event : AuthEvent) (begun : State),
    s.sau.ending = none → s.sau.sessions[p].attached = true →
    ses = { s.sau.sessions[p] with attached := false, auth := false, overdue := false } →
    event = (match reason with | .detached => .detached | .expired => .expired) →
    (s.sau.holder ≠ some p → begun = { s with sau := { s.sau with
      queue := s.sau.queue.filter (· ≠ p), sessions := s.sau.sessions.set p.val ses
      ending := some { port := p, reason := reason, phase := .atScu, freed := 0, records := [] } } }) →
    (s.sau.holder = some p → s.sau.queue = [] → begun = { s with sau := { s.sau with
      holder := none, sessions := s.sau.sessions.set p.val ses
      ending := some {
        port := p, reason := reason, phase := .atScu, freed := 0
        records := [.authority p event .nothing none 0] } } }) →
    (∀ head others, s.sau.holder = some p → s.sau.queue = head :: others → head ≠ p → begun = { s with sau := { s.sau with
      holder := some head, queue := others
      sessions := (s.sau.sessions.set head.val { s.sau.sessions[head] with auth := true }).set p.val ses
      ending := some {
        port := p, reason := reason, phase := .atScu, freed := 0
        records := [.authority p event .nothing (some head) others.length,
          .authority head .granted .queue (some p) others.length] } } }) →
    (s.sau.holder = some p → p ∉ s.sau.queue) →
    (∀ tag d, reason = .detached → s.asks p tag d .detach [] → exec (.detach p) s = .next { begun with
      hpu := s.hpu.set p.val { s.hpu[p] with slot := .executing tag d .taken } })
    ∧ (reason = .expired → s.sau.sessions[p].limit ≠ 0 → s.sau.sessions[p].limit ≤ s.sau.sessions[p].seconds →
      exec (.idleExpiry p) s = .next begun)
    ∧ ∀ (q : Port) (tag : Byte) (d : Bool), s.asks q tag d .detach [] → s.sau.sessions[q].attached = false →
      exec (.detach q) s = .next (s.answered q tag d .notAttached [])

/-- CLAIM: refused to a detached port and to one with idle limit 0, GRANTED with an AUTHORITY record when nobody holds the
authority and without one to the holder, and otherwise QUEUED with the port's position (R143, R147). That the SAU takes no
request while a session end is in progress is log 10. -/
def Obligations.ClaimGrantsOrQueues : Prop :=
  ∀ (s : State) (p : Port) (tag : Byte) (d : Bool), s.asks p tag d .claim [] → s.sau.ending = none →
    (s.sau.sessions[p].attached = false → exec (.claim p) s = .next (s.answered p tag d .notAttached []))
    ∧ (s.sau.sessions[p].attached = true → s.sau.sessions[p].limit = 0 →
      exec (.claim p) s = .next (s.answered p tag d .needLimit []))
    ∧ (s.sau.sessions[p].attached = true → s.sau.sessions[p].limit ≠ 0 →
      (s.sau.holder = none →
        exec (.claim p) s = .next ((({ s with sau := { s.sau with holder := some p } } : State).posted .sau s.quality
          s.tbu.time (.authority p .granted .claim none s.sau.queue.length) none).answered p tag d .granted [0]))
      ∧ (s.sau.holder = some p → exec (.claim p) s = .next (s.answered p tag d .granted [0]))
      ∧ (∀ h, s.sau.holder = some h → h ≠ p →
        (∀ ahead behind, s.sau.queue = ahead ++ p :: behind → p ∉ ahead →
          exec (.claim p) s = .next (s.answered p tag d .queued [BitVec.ofNat 8 (ahead.length + 1)]))
        ∧ (p ∉ s.sau.queue →
          exec (.claim p) s = .next (({ s with sau := { s.sau with queue := s.sau.queue ++ [p] } } : State).answered p tag d
            .queued [BitVec.ofNat 8 (s.sau.queue.length + 1)]))))

/-- RELEASE: the holder gives the authority to the head of the queue with its AUTH reason SET, or to nobody, with the
AUTHORITY records; a queued port leaves the queue; any other attached port is answered BAD_STATE (R144, R147). -/
def Obligations.ReleasePassesAuthority : Prop :=
  ∀ (s : State) (p : Port) (tag : Byte) (d : Bool), s.asks p tag d .release [] → s.sau.ending = none →
    (s.sau.sessions[p].attached = false → exec (.release p) s = .next (s.answered p tag d .notAttached []))
    ∧ (s.sau.sessions[p].attached = true →
      (∀ head others, s.sau.holder = some p → s.sau.queue = head :: others →
        exec (.release p) s = .next (((({ s with sau := { s.sau with
            holder := some head, queue := others
            sessions := s.sau.sessions.set head.val { s.sau.sessions[head] with auth := true } } } : State).posted .sau
          s.quality s.tbu.time (.authority p .released .nothing (some head) others.length) none).posted .sau s.quality
          s.tbu.time (.authority head .granted .queue (some p) others.length) none).answered p tag d .ok
          [BitVec.ofNat 8 head.val]))
      ∧ (s.sau.holder = some p → s.sau.queue = [] →
        exec (.release p) s = .next ((({ s with sau := { s.sau with holder := none } } : State).posted .sau s.quality
          s.tbu.time (.authority p .released .nothing none 0) none).answered p tag d .ok [255]))
      ∧ (s.sau.holder ≠ some p → p ∈ s.sau.queue →
        exec (.release p) s = .next (({ s with sau := { s.sau with queue := s.sau.queue.filter (· ≠ p) } } :
          State).answered p tag d .ok [match s.sau.holder with | none => 255 | some h => BitVec.ofNat 8 h.val]))
      ∧ (s.sau.holder ≠ some p → p ∉ s.sau.queue →
        exec (.release p) s = .next (s.answered p tag d .badState [])))

/-- TAKE: refused to a detached port, to one that is not senior and to one with idle limit 0; otherwise GRANTED, from nobody
or from another holder, whose AUTH reason becomes SET, with the AUTHORITY records and the previous holder in the answer
(R146, R147). That a senior port which already holds the authority is named as the previous holder is log 22. -/
def Obligations.TakeBySenior : Prop :=
  ∀ (s : State) (p : Port) (tag : Byte) (d : Bool), s.asks p tag d .take [] → s.sau.ending = none →
    (s.sau.sessions[p].attached = false → exec (.take p) s = .next (s.answered p tag d .notAttached []))
    ∧ (s.sau.sessions[p].attached = true → s.sau.senior ≠ p →
      exec (.take p) s = .next (s.answered p tag d .notSenior []))
    ∧ (s.sau.sessions[p].attached = true → s.sau.senior = p → s.sau.sessions[p].limit = 0 →
      exec (.take p) s = .next (s.answered p tag d .needLimit []))
    ∧ (s.sau.sessions[p].attached = true → s.sau.senior = p → s.sau.sessions[p].limit ≠ 0 →
      (s.sau.holder = some p → exec (.take p) s = .next (s.answered p tag d .granted [BitVec.ofNat 8 p.val]))
      ∧ (s.sau.holder = none →
        exec (.take p) s = .next ((({ s with sau := { s.sau with holder := some p } } : State).posted .sau s.quality
          s.tbu.time (.authority p .granted .take none s.sau.queue.length) none).answered p tag d .granted [255]))
      ∧ ∀ (q : Port) (queue : List Port), s.sau.holder = some q → q ≠ p → queue = s.sau.queue.filter (· ≠ p) →
        exec (.take p) s = .next (((({ s with sau := { s.sau with
            holder := some p, queue := queue
            sessions := s.sau.sessions.set q.val { s.sau.sessions[q] with auth := true } } } : State).posted .sau
          s.quality s.tbu.time (.authority q .revoked .nothing (some p) queue.length) none).posted .sau s.quality
          s.tbu.time (.authority p .granted .take (some q) queue.length) none).answered p tag d .granted
          [BitVec.ofNat 8 q.val]))

/-- GET_STATUS from any port: the session, the time left, the authority and its queue, the senior port, the three attention
reasons as they stood and the ATN mask; then AUTH and SESSION_ENDED are CLEAR (R150, R151). -/
def Obligations.StatusReportedAndCleared : Prop :=
  ∀ (s : State) (p : Port) (tag : Byte) (d : Bool) (ses : Session) (left : Nat) (log auth ended : Byte) (place : Nat),
    s.asks p tag d .getStatus [] → s.sau.ending = none → ses = s.sau.sessions[p] →
    (ses.attached = true → left * 10000000 + ses.seconds * 10000000 + ses.cycles ≤ ses.limit * 10000000
      ∧ ses.limit * 10000000 < (left + 1) * 10000000 + ses.seconds * 10000000 + ses.cycles) →
    (ses.attached = false → left = 0) →
    log = (if ∃ r ∈ s.elu.log, r.pending[p] = true then 1 else 0) →
    auth = (if ses.auth = true then 2 else 0) → ended = (if ses.sessionEnded = true then 4 else 0) →
    (p ∉ s.sau.queue → place = 0) →
    (∀ ahead behind, s.sau.queue = ahead ++ p :: behind → p ∉ ahead → place = ahead.length + 1) →
    exec (.getStatus p) s = .next (({ s with sau := { s.sau with
        sessions := s.sau.sessions.set p.val { ses with auth := false, sessionEnded := false } } } : State).answered p tag d
      .ok [if ses.attached = true then 1 else 0, BitVec.ofNat 8 ses.limit, BitVec.ofNat 8 left,
        match s.sau.holder with | none => 255 | some h => BitVec.ofNat 8 h.val, BitVec.ofNat 8 s.sau.queue.length,
        match s.sau.queue[0]? with | none => 255 | some q => BitVec.ofNat 8 q.val,
        match s.sau.queue[1]? with | none => 255 | some q => BitVec.ofNat 8 q.val,
        match s.sau.queue[2]? with | none => 255 | some q => BitVec.ofNat 8 q.val,
        BitVec.ofNat 8 place, BitVec.ofNat 8 s.sau.senior.val, log + auth + ended, ses.mask.setWidth 8])

/-! ## The Host Port Units (chapter 9) -/

/-- A falling edge of PnSEL# latches the frame image: the STATUS byte of the block states at that moment, the refusal held
and the staged response; its bytes stand in their order with their codes and their CRC (R154, R155; the codes are those of
chapter 10); and PnSDO presents them bit by bit, most significant bit first, and 0 after the CRC (R153, R155). PnSDO is released
outside a frame and while RST# is asserted (R153, R164). -/
def Obligations.FrameBeginLatchesImage : Prop :=
  (∀ (s : State) (p : Port) (k : Nat), s.hpu[p].link = .idle ∨ s.rst = true → s.sdo p k = none)
  ∧ ∀ (s : State) (p : Port) (status : Byte),
    s.rst = false → s.hpu[p].link = .idle →
    (∀ b : Fin 8, status[b] = match b.val with
      | 0 => s.hpu[p].refusal.isSome
      | 1 => decide ((∃ r ∈ s.elu.log, r.pending[p] = true) ∧ s.sau.sessions[p].mask[0] = true
          ∨ s.sau.sessions[p].auth = true ∧ s.sau.sessions[p].mask[1] = true
          ∨ s.sau.sessions[p].sessionEnded = true ∧ s.sau.sessions[p].mask[2] = true)
      | 2 => s.hpu[p].staged.isSome
      | 3 => decide (s.hpu[p].slot ≠ .free)
      | 4 => decide (∃ r ∈ s.elu.log, r.pending[p] = true)
      | 5 => decide (p ∈ s.sau.queue)
      | 6 => decide (s.sau.holder = some p)
      | _ => s.sau.sessions[p].attached) →
    ∃ (image : Image) (t : State), image = { status := status, refusal := s.hpu[p].refusal, staged := s.hpu[p].staged }
      ∧ exec (.frameBegin p) s = .next t
      ∧ t = { s with hpu := s.hpu.set p.val { s.hpu[p] with edges := 0, link := .inFrame image } }
      ∧ (∀ (j k : Nat) (b : Byte), image.bytes[j]? = some b → k < 8 →
          t.sdo p (8 * j + k) = some (decide (b.toNat / 2 ^ (7 - k) % 2 = 1)))
      ∧ (∀ k : Nat, 8 * image.bytes.length ≤ k → t.sdo p k = some false)
      ∧ (s.hpu[p].staged = none → image.bytes =
          [status, refusalByte s.hpu[p].refusal, 0, 0, 0] ++ [crcOfBytes [status, refusalByte s.hpu[p].refusal, 0, 0, 0]])
      ∧ ∀ (r : Response) (body : List Byte), s.hpu[p].staged = some r →
          body = [status, refusalByte s.hpu[p].refusal, resultByte r.result, r.tag, BitVec.ofNat 8 r.payload.length]
            ++ r.payload → image.bytes = body ++ [crcOfBytes body]

/-- A rising edge of PnSEL# first settles the frame: a response carried out whole is delivered, and a refusal reported whole
is cleared. A frame of fewer than 8 edges is then a link break; one that is too long, too short or fails its CRC is refused
with its reason; a NOP is reported to the SAU and nothing else (R153, R156, R157, R161). -/
def Obligations.FrameEndsWithoutRequest : Prop :=
  ∀ (s : State) (p : Port) (m : Image) (bits : List Bool) (bytes : List Byte) (settled : Hpu) (len : Nat),
    s.hpu[p].link = .inFrame m → bytes = frameBytes bits →
    (∀ r, m.staged = some r → r.payload.length + 6 ≤ bytes.length → settled.staged = none) →
    (m.staged = none ∨ (∃ r, m.staged = some r ∧ bytes.length < r.payload.length + 6) → settled.staged = s.hpu[p].staged) →
    (m.refusal.isSome = true ∧ 2 ≤ bytes.length → settled.refusal = none) →
    (m.refusal = none ∨ bytes.length < 2 → settled.refusal = s.hpu[p].refusal) →
    settled.link = .idle → settled.edges = bits.length → settled.slot = s.hpu[p].slot →
    len = (bytes.getD 2 0).toNat →
    (bits.length < 8 → exec (.frameEnd p bits) s = .next { s with hpu := s.hpu.set p.val { settled with
      staged := none, refusal := none
      slot := match s.hpu[p].slot with
        | .free => .free
        | .executing tag _ progress => .executing tag true progress } })
    ∧ (∀ reason : FrameRefusal, 8 ≤ bits.length →
      (128 < bytes.length ∧ reason = .overlength
        ∨ bytes.length < 3 ∧ reason = .short
        ∨ 3 ≤ bytes.length ∧ bytes.length ≤ 128 ∧ 48 < len ∧ reason = .overlength
        ∨ 3 ≤ bytes.length ∧ bytes.length ≤ 128 ∧ len ≤ 48 ∧ bytes.length < len + 4 ∧ reason = .short
        ∨ len + 4 ≤ bytes.length ∧ bytes.length ≤ 128 ∧ len ≤ 48 ∧ bytes.getD (len + 3) 0 ≠ crcOfBytes (bytes.take (len + 3))
          ∧ reason = .badCrc) →
      exec (.frameEnd p bits) s = .next { s with hpu := s.hpu.set p.val { settled with refusal := some reason } })
    ∧ (∀ (tag : Byte) (payload filler : List Byte), payload.length ≤ 48 →
      bytes = [0, tag, BitVec.ofNat 8 payload.length] ++ payload
        ++ [crcOfBytes ([0, tag, BitVec.ofNat 8 payload.length] ++ payload)] ++ filler → bytes.length ≤ 128 →
      exec (.frameEnd p bits) s = .next { s with
        hpu := s.hpu.set p.val settled
        mail := { s.mail with reports := s.mail.reports ++ [{ port := p, request := false }] } })

/-- A valid request frame first settles the frame: a response it carried out whole is delivered, and a refusal it reported is
cleared (R157). The request is then refused BUSY while another executes and UNDELIVERED while a response waits; otherwise a
CODE of the request list with a LEN it allows goes to its block with its TAG, and any other is answered by the port itself with
BAD_LENGTH or UNKNOWN_REQUEST. Each is reported to the SAU (R154, R156, R158, R159, R160), and the report of a request that goes
to its block is marked as such (log 36). -/
def Obligations.FrameRequestJudged : Prop :=
  ∀ (s : State) (p : Port) (m : Image) (bits : List Bool) (code tag : Byte) (payload filler : List Byte)
    (staged : Option Response) (refusal : Option FrameRefusal) (h : Bool → Hpu → State),
    s.hpu[p].link = .inFrame m →
    (∀ r, m.staged = some r → r.payload.length + 6 ≤ (frameBytes bits).length → staged = none) →
    (m.staged = none ∨ (∃ r, m.staged = some r ∧ (frameBytes bits).length < r.payload.length + 6) →
      staged = s.hpu[p].staged) →
    (m.refusal ≠ none → refusal = none) → (m.refusal = none → refusal = s.hpu[p].refusal) →
    code ≠ 0 → payload.length ≤ 48 → bits.length < 1032 →
    frameBytes bits = [code, tag, BitVec.ofNat 8 payload.length] ++ payload
      ++ [crcOfBytes ([code, tag, BitVec.ofNat 8 payload.length] ++ payload)] ++ filler →
    (∀ passed x, h passed x = { s with
      hpu := s.hpu.set p.val { x with link := .idle, edges := bits.length }
      mail := { s.mail with reports := s.mail.reports ++ [{ port := p, request := passed }] } }) →
    (s.hpu[p].slot ≠ .free →
      exec (.frameEnd p bits) s = .next (h false { s.hpu[p] with staged := staged, refusal := some .busy }))
    ∧ (s.hpu[p].slot = .free → staged ≠ none →
      exec (.frameEnd p bits) s = .next (h false { s.hpu[p] with staged := staged, refusal := some .undelivered }))
    ∧ (s.hpu[p].slot = .free → staged = none →
      (∀ c lens, (code, c, lens) ∈ requestTable → payload.length ∈ lens →
        exec (.frameEnd p bits) s = .next (h true { s.hpu[p] with
          staged := none, refusal := refusal, slot := .executing tag false (.waiting c payload) }))
      ∧ (∀ c lens, (code, c, lens) ∈ requestTable → payload.length ∉ lens →
        exec (.frameEnd p bits) s = .next (h false { s.hpu[p] with
          refusal := refusal, staged := some { result := .badLength, tag := tag, payload := [] } }))
      ∧ ((∀ row ∈ requestTable, row.1 ≠ code) →
        exec (.frameEnd p bits) s = .next (h false { s.hpu[p] with
          refusal := refusal, staged := some { result := .unknownRequest, tag := tag, payload := [] } })))

/-- What a port hands on besides its requests: the report of a valid frame sets the idle timer of an attached port to 0, and
finds nothing to do at a detached one (R138, R156), nor at one with an expiry waiting under its mark (log 35); and a request whose
block has answered completes, with the answer staged under its TAG or discarded under the discard mark, and the slot FREE (R160,
R161). PnRDY# is asserted exactly while the slot is FREE and RST# is not asserted (R162), so from that completion on; PnATN#
exactly while a reason that the port's mask names stands and RST# is not asserted (R150). -/
def Obligations.ReportsAndCompletions : Prop :=
  (∀ (s : State) (p : Port) (r : Report) (before rest : List Report) (t : State),
    s.mail.reports = before ++ r :: rest → r.port = p → (∀ b ∈ before, b.port ≠ p) →
    t = { s with mail := { s.mail with reports := before ++ rest } } →
    (s.sau.sessions[p].attached = true → s.sau.sessions[p].overdue = false → exec (.validFrameReport p) s = .next { t with
      sau := { s.sau with sessions := s.sau.sessions.set p.val { s.sau.sessions[p] with seconds := 0, cycles := 0 } } })
    ∧ (s.sau.sessions[p].attached = false ∨ s.sau.sessions[p].overdue = true → exec (.validFrameReport p) s = .next t))
  ∧ (∀ (s : State) (p : Port) (tag : Byte) (d : Bool) (r : Result) (payload : List Byte),
    s.hpu[p].slot = .executing tag d (.answered r payload) →
    exec (.requestCompletion p) s = .next { s with hpu := s.hpu.set p.val { s.hpu[p] with
      slot := .free
      staged := if d = true then s.hpu[p].staged else some { result := r, tag := tag, payload := payload } } })
  ∧ ∀ (s : State) (p : Port),
    (s.ready p = true ↔ s.hpu[p].slot = .free ∧ s.rst = false)
    ∧ (s.atn p = true ↔ s.rst = false
      ∧ ((∃ r ∈ s.elu.log, r.pending[p] = true) ∧ s.sau.sessions[p].mask[0] = true
        ∨ s.sau.sessions[p].auth = true ∧ s.sau.sessions[p].mask[1] = true
        ∨ s.sau.sessions[p].sessionEnded = true ∧ s.sau.sessions[p].mask[2] = true))

/-! ## Checks that many requests share (R11, R137, R148, R159) -/

/-- A request from a detached port is answered NOT_ATTACHED and changes nothing else, whatever its payload, but for
READ_TIME, GET_STATUS and ATTACH (R137). A request gated by the authority is answered NOT_AUTHORITY to an attached port that
is not the holder, before its fields are looked at (R148). Every request waits for the report of the frame that brought it, so
that a frame reported after the expiry of its port's timer has its request taken from a detached port (R138, R163); that the
block waits for the report is log 36, and that it waits for an expiry under its mark log 35. -/
def Obligations.AttachmentAndAuthorityChecked : Prop :=
  (∀ (s : State) (p : Port) (tag : Byte) (d : Bool) (c : Code) (payload : List Byte),
    s.hpu[p].slot = .executing tag d (.waiting c payload) →
    { port := p, request := true } ∈ s.mail.reports ∨ s.sau.sessions[p].overdue = true →
    exec (c.command p) s = .next s)
  ∧ ∀ (s : State) (p : Port) (tag : Byte) (d : Bool) (c : Code) (payload : List Byte),
    s.asks p tag d c payload → s.sau.ending = none → (∀ i ∈ s.mail.installs, i.port ≠ p) →
    (s.sau.sessions[p].attached = false → c ≠ .readTime → c ≠ .getStatus → c ≠ .attach →
      exec (c.command p) s = .next (s.answered p tag d .notAttached []))
    ∧ (s.sau.sessions[p].attached = true → s.sau.holder ≠ some p →
      (c = .setTime ∨ c = .stepTime ∨ c = .slewTime ∨ c = .setTrim ∨ c = .refConfig ∨ c = .ppsConfig ∨ c = .setQuota
        ∨ c = .bindLine ∨ c = .lineConfig ∨ c = .inputConfig ∨ c = .logPolicy) →
      exec (c.command p) s = .next (s.answered p tag d .notAuthority []))

/-- A gated request of the holder with a field out of its range is answered RANGE, a STEP_TIME of an unset timescale
NOT_SET, and neither changes anything else (R12, R13, R17, R19, R31, R35, R50, R93, R95, R111, R126). -/
def Obligations.HolderRangesChecked : Prop :=
  ∀ (s : State) (p : Port) (tag : Byte) (d : Bool) (c : Code) (payload : List Byte) (byte : Nat → Nat)
    (word : Nat → Nat) (long : Nat → Nat),
    s.asks p tag d c payload → payload.length ∈ c.lengths →
    s.sau.sessions[p].attached = true → s.sau.holder = some p →
    (∀ k, byte k = fieldNat payload k 1) → (∀ k, word k = fieldNat payload k 2) → (∀ k, long k = fieldNat payload k 4) →
    (c = .setTime ∧ 9999999 < fieldNat payload 5 3
      ∨ c = .stepTime ∧ s.tbu.isSet = true ∧ ((s.tbu.time : Int) + fieldInt payload 0 8 < 0
        ∨ (Config.maxTime : Int) < (s.tbu.time : Int) + fieldInt payload 0 8)
      ∨ c = .slewTime ∧ (10000000 < (fieldInt payload 0 4).natAbs ∨ word 4 < 100 ∨ 10000 < word 4)
      ∨ c = .setTrim ∧ (1 < byte 0 ∨ 200000 < (fieldInt payload 1 4).natAbs)
      ∨ c = .refConfig ∧ (1 < byte 0 ∨ byte 1 < 5 ∨ 50 < byte 1 ∨ byte 2 = 0 ∨ word 3 = 0)
      ∨ c = .ppsConfig ∧ (1 < byte 0 ∨ 1 < byte 1 ∨ byte 0 = 0 ∧ byte 1 = 1 ∨ long 2 = 0 ∨ 5000000 < long 2
        ∨ word 6 < 100 ∨ 10000 < word 6)
      ∨ c = .setQuota ∧ (3 < byte 0 ∨ byte 1 = 0 ∨ 64 < byte 1)
      ∨ c = .bindLine ∧ (7 < byte 0 ∨ 3 < byte 1 ∧ byte 1 ≠ 128)
      ∨ c = .lineConfig ∧ (7 < byte 0 ∨ 1 < byte 1 ∨ word 2 = 0)
      ∨ c = .inputConfig ∧ (7 < byte 0 ∨ 3 < byte 1 ∨ byte 2 ≠ 1 ∧ byte 2 ≠ 4 ∧ byte 2 ≠ 16 ∧ byte 2 ≠ 64
        ∨ byte 3 = 0 ∨ 15 < byte 3)
      ∨ c = .logPolicy ∧ 1 < byte 0 →
      exec (c.command p) s = .next (s.answered p tag d .range []))
    ∧ (c = .stepTime ∧ s.tbu.isSet = false → exec (c.command p) s = .next (s.answered p tag d .notSet []))

/-! ## Laws that every step keeps -/

/-- Every step keeps the timebase in its ranges: the time never passes the maximum, an accumulator stays below 10^9, and a
slew's residual never overshoots (R1, R4, R5, R7, R8, R18). Every step keeps the RSV's laws: G is 0 while LOCKED, the age
stays below the limit in HOLDOVER, a disabled supervision is UNLOCKED with no window, and the PPS fault flag is SET exactly
from a streak of 3 on (R26 to R28, R31, R33, R36). -/
def Obligations.TimebaseAndSupervisionLawsKept : Prop :=
  (∀ s t : State, s.TimebaseOk → step s = .next t → t.TimebaseOk)
  ∧ ∀ s t : State, s.rsv.Ok → step s = .next t → t.rsv.Ok

/-- Every step keeps the schedule's laws: between the SCU's events every ARMED entry has a due later than the time the SCU holds
(R43, R44, R49, R67), every entry in use is detached or owned by a port that is attached or whose session end the SCU has still
to take (R44), and no entry in use acts on a line that its owner may not drive (R52, R93). -/
def Obligations.ScheduleLawKept : Prop :=
  ∀ s t : State, s.ScheduleOk → step s = .next t → t.ScheduleOk

/-- Every step keeps the laws of the log, the sessions and the authority: at most one holder, attached and with an idle
limit; a claim queue of distinct waiting ports, empty while nobody holds the authority; every retained record pending for a
port with a subscription (R119 to R121, R125, R138, R140, R142). -/
def Obligations.SessionLawsKept : Prop :=
  ∀ s t : State, s.SessionsOk → step s = .next t → t.SessionsOk

/-- Every step keeps the laws of the line and input records (R88, R100, R102, R104), and those of the host ports: at most one
request and one response, never both, no response lost within a frame that carries it, and no request taken while the report of its frame waits (R157 to
R160, R163, R167). -/
def Obligations.PinAndPortLawsKept : Prop :=
  (∀ s t : State, s.PinsOk → step s = .next t → t.PinsOk)
  ∧ ∀ s t : State, s.PortsOk → step s = .next t → t.PortsOk

/-- Every step keeps the part quiet while RST# is asserted: no session, no request, no entry, no driven line, an empty log
(R65, R99, R115, R135, R152, R164). -/
def Obligations.ResetQuietKept : Prop :=
  ∀ s t : State, s.QuietInReset → step s = .next t → t.QuietInReset

/-- The machine right after reset meets every law. -/
def Obligations.ResetMeetsEveryLaw : Prop :=
  State.reset.TimebaseOk ∧ State.reset.rsv.Ok ∧ State.reset.ScheduleOk ∧ State.reset.PinsOk ∧ State.reset.SessionsOk
    ∧ State.reset.PortsOk ∧ State.reset.QuietInReset
end

