-- ==== Sys2Proof/Laws/State.lean ====
section
/-! SUPPORT. One lemma per field and update of State, each true by rfl, so that no proof unfolds a record update. -/

namespace Sys2Proof.Machine

@[simp] theorem State.post_rst (s : State) (b : Block) (t : Time) (y : Body) (a : Option Address) (k : Links) :
    (s.post b t y a k).rst = s.rst := rfl
@[simp] theorem State.post_pins (s : State) (b : Block) (t : Time) (y : Body) (a : Option Address) (k : Links) :
    (s.post b t y a k).pins = s.pins := rfl
@[simp] theorem State.post_tbu (s : State) (b : Block) (t : Time) (y : Body) (a : Option Address) (k : Links) :
    (s.post b t y a k).tbu = s.tbu := rfl
@[simp] theorem State.post_rsv (s : State) (b : Block) (t : Time) (y : Body) (a : Option Address) (k : Links) :
    (s.post b t y a k).rsv = s.rsv := rfl
@[simp] theorem State.post_scu (s : State) (b : Block) (t : Time) (y : Body) (a : Option Address) (k : Links) :
    (s.post b t y a k).scu = s.scu := rfl
@[simp] theorem State.post_tou (s : State) (b : Block) (t : Time) (y : Body) (a : Option Address) (k : Links) :
    (s.post b t y a k).tou = s.tou := rfl
@[simp] theorem State.post_ecu (s : State) (b : Block) (t : Time) (y : Body) (a : Option Address) (k : Links) :
    (s.post b t y a k).ecu = s.ecu := rfl
@[simp] theorem State.post_elu (s : State) (b : Block) (t : Time) (y : Body) (a : Option Address) (k : Links) :
    (s.post b t y a k).elu = s.elu := rfl
@[simp] theorem State.post_sau (s : State) (b : Block) (t : Time) (y : Body) (a : Option Address) (k : Links) :
    (s.post b t y a k).sau = s.sau := rfl
@[simp] theorem State.post_hpu (s : State) (b : Block) (t : Time) (y : Body) (a : Option Address) (k : Links) :
    (s.post b t y a k).hpu = s.hpu := rfl
@[simp] theorem State.post_mail (s : State) (b : Block) (t : Time) (y : Body) (a : Option Address) (k : Links) :
    (s.post b t y a k).mail = { s.mail with records := s.mail.records ++ [{ producer := b, quality := s.quality, time := t, body := y, address := a, links := k }] } := rfl
@[simp] theorem State.post_pending (s : State) (b : Block) (t : Time) (y : Body) (a : Option Address) (k : Links) :
    (s.post b t y a k).pending = s.pending := rfl

@[simp] theorem State.posted_rst (s : State) (b : Block) (q : Quality) (t : Time) (y : Body) (a : Option Address) (k : Links) :
    (s.posted b q t y a k).rst = s.rst := rfl
@[simp] theorem State.posted_pins (s : State) (b : Block) (q : Quality) (t : Time) (y : Body) (a : Option Address) (k : Links) :
    (s.posted b q t y a k).pins = s.pins := rfl
@[simp] theorem State.posted_tbu (s : State) (b : Block) (q : Quality) (t : Time) (y : Body) (a : Option Address) (k : Links) :
    (s.posted b q t y a k).tbu = s.tbu := rfl
@[simp] theorem State.posted_rsv (s : State) (b : Block) (q : Quality) (t : Time) (y : Body) (a : Option Address) (k : Links) :
    (s.posted b q t y a k).rsv = s.rsv := rfl
@[simp] theorem State.posted_scu (s : State) (b : Block) (q : Quality) (t : Time) (y : Body) (a : Option Address) (k : Links) :
    (s.posted b q t y a k).scu = s.scu := rfl
@[simp] theorem State.posted_tou (s : State) (b : Block) (q : Quality) (t : Time) (y : Body) (a : Option Address) (k : Links) :
    (s.posted b q t y a k).tou = s.tou := rfl
@[simp] theorem State.posted_ecu (s : State) (b : Block) (q : Quality) (t : Time) (y : Body) (a : Option Address) (k : Links) :
    (s.posted b q t y a k).ecu = s.ecu := rfl
@[simp] theorem State.posted_elu (s : State) (b : Block) (q : Quality) (t : Time) (y : Body) (a : Option Address) (k : Links) :
    (s.posted b q t y a k).elu = s.elu := rfl
@[simp] theorem State.posted_sau (s : State) (b : Block) (q : Quality) (t : Time) (y : Body) (a : Option Address) (k : Links) :
    (s.posted b q t y a k).sau = s.sau := rfl
@[simp] theorem State.posted_hpu (s : State) (b : Block) (q : Quality) (t : Time) (y : Body) (a : Option Address) (k : Links) :
    (s.posted b q t y a k).hpu = s.hpu := rfl
@[simp] theorem State.posted_mail (s : State) (b : Block) (q : Quality) (t : Time) (y : Body) (a : Option Address) (k : Links) :
    (s.posted b q t y a k).mail = { s.mail with records := s.mail.records ++ [{ producer := b, quality := q, time := t, body := y, address := a, links := k }] } := rfl
@[simp] theorem State.posted_pending (s : State) (b : Block) (q : Quality) (t : Time) (y : Body) (a : Option Address) (k : Links) :
    (s.posted b q t y a k).pending = s.pending := rfl

@[simp] theorem State.answered_rst (s : State) (p : Port) (g : Byte) (d : Bool) (r : Result) (l : List Byte) :
    (s.answered p g d r l).rst = s.rst := rfl
@[simp] theorem State.answered_pins (s : State) (p : Port) (g : Byte) (d : Bool) (r : Result) (l : List Byte) :
    (s.answered p g d r l).pins = s.pins := rfl
@[simp] theorem State.answered_tbu (s : State) (p : Port) (g : Byte) (d : Bool) (r : Result) (l : List Byte) :
    (s.answered p g d r l).tbu = s.tbu := rfl
@[simp] theorem State.answered_rsv (s : State) (p : Port) (g : Byte) (d : Bool) (r : Result) (l : List Byte) :
    (s.answered p g d r l).rsv = s.rsv := rfl
@[simp] theorem State.answered_scu (s : State) (p : Port) (g : Byte) (d : Bool) (r : Result) (l : List Byte) :
    (s.answered p g d r l).scu = s.scu := rfl
@[simp] theorem State.answered_tou (s : State) (p : Port) (g : Byte) (d : Bool) (r : Result) (l : List Byte) :
    (s.answered p g d r l).tou = s.tou := rfl
@[simp] theorem State.answered_ecu (s : State) (p : Port) (g : Byte) (d : Bool) (r : Result) (l : List Byte) :
    (s.answered p g d r l).ecu = s.ecu := rfl
@[simp] theorem State.answered_elu (s : State) (p : Port) (g : Byte) (d : Bool) (r : Result) (l : List Byte) :
    (s.answered p g d r l).elu = s.elu := rfl
@[simp] theorem State.answered_sau (s : State) (p : Port) (g : Byte) (d : Bool) (r : Result) (l : List Byte) :
    (s.answered p g d r l).sau = s.sau := rfl
@[simp] theorem State.answered_hpu (s : State) (p : Port) (g : Byte) (d : Bool) (r : Result) (l : List Byte) :
    (s.answered p g d r l).hpu = s.hpu.set p.val { s.hpu[p] with slot := .executing g d (.answered r l) } := rfl
@[simp] theorem State.answered_mail (s : State) (p : Port) (g : Byte) (d : Bool) (r : Result) (l : List Byte) :
    (s.answered p g d r l).mail = s.mail := rfl
@[simp] theorem State.answered_pending (s : State) (p : Port) (g : Byte) (d : Bool) (r : Result) (l : List Byte) :
    (s.answered p g d r l).pending = s.pending := rfl

@[simp] theorem State.withSession_rst (s : State) (p : Port) (f : Session → Session) :
    (s.withSession p f).rst = s.rst := rfl
@[simp] theorem State.withSession_pins (s : State) (p : Port) (f : Session → Session) :
    (s.withSession p f).pins = s.pins := rfl
@[simp] theorem State.withSession_tbu (s : State) (p : Port) (f : Session → Session) :
    (s.withSession p f).tbu = s.tbu := rfl
@[simp] theorem State.withSession_rsv (s : State) (p : Port) (f : Session → Session) :
    (s.withSession p f).rsv = s.rsv := rfl
@[simp] theorem State.withSession_scu (s : State) (p : Port) (f : Session → Session) :
    (s.withSession p f).scu = s.scu := rfl
@[simp] theorem State.withSession_tou (s : State) (p : Port) (f : Session → Session) :
    (s.withSession p f).tou = s.tou := rfl
@[simp] theorem State.withSession_ecu (s : State) (p : Port) (f : Session → Session) :
    (s.withSession p f).ecu = s.ecu := rfl
@[simp] theorem State.withSession_elu (s : State) (p : Port) (f : Session → Session) :
    (s.withSession p f).elu = s.elu := rfl
@[simp] theorem State.withSession_sau (s : State) (p : Port) (f : Session → Session) :
    (s.withSession p f).sau = { s.sau with sessions := s.sau.sessions.set p.val (f s.sau.sessions[p]) } := rfl
@[simp] theorem State.withSession_hpu (s : State) (p : Port) (f : Session → Session) :
    (s.withSession p f).hpu = s.hpu := rfl
@[simp] theorem State.withSession_mail (s : State) (p : Port) (f : Session → Session) :
    (s.withSession p f).mail = s.mail := rfl
@[simp] theorem State.withSession_pending (s : State) (p : Port) (f : Session → Session) :
    (s.withSession p f).pending = s.pending := rfl

@[simp] theorem State.withHpu_rst (s : State) (p : Port) (f : Hpu → Hpu) :
    (s.withHpu p f).rst = s.rst := rfl
@[simp] theorem State.withHpu_pins (s : State) (p : Port) (f : Hpu → Hpu) :
    (s.withHpu p f).pins = s.pins := rfl
@[simp] theorem State.withHpu_tbu (s : State) (p : Port) (f : Hpu → Hpu) :
    (s.withHpu p f).tbu = s.tbu := rfl
@[simp] theorem State.withHpu_rsv (s : State) (p : Port) (f : Hpu → Hpu) :
    (s.withHpu p f).rsv = s.rsv := rfl
@[simp] theorem State.withHpu_scu (s : State) (p : Port) (f : Hpu → Hpu) :
    (s.withHpu p f).scu = s.scu := rfl
@[simp] theorem State.withHpu_tou (s : State) (p : Port) (f : Hpu → Hpu) :
    (s.withHpu p f).tou = s.tou := rfl
@[simp] theorem State.withHpu_ecu (s : State) (p : Port) (f : Hpu → Hpu) :
    (s.withHpu p f).ecu = s.ecu := rfl
@[simp] theorem State.withHpu_elu (s : State) (p : Port) (f : Hpu → Hpu) :
    (s.withHpu p f).elu = s.elu := rfl
@[simp] theorem State.withHpu_sau (s : State) (p : Port) (f : Hpu → Hpu) :
    (s.withHpu p f).sau = s.sau := rfl
@[simp] theorem State.withHpu_hpu (s : State) (p : Port) (f : Hpu → Hpu) :
    (s.withHpu p f).hpu = s.hpu.set p.val (f s.hpu[p]) := rfl
@[simp] theorem State.withHpu_mail (s : State) (p : Port) (f : Hpu → Hpu) :
    (s.withHpu p f).mail = s.mail := rfl
@[simp] theorem State.withHpu_pending (s : State) (p : Port) (f : Hpu → Hpu) :
    (s.withHpu p f).pending = s.pending := rfl

@[simp] theorem State.withLine_rst (s : State) (n : Line) (f : TrigLine → TrigLine) :
    (s.withLine n f).rst = s.rst := rfl
@[simp] theorem State.withLine_pins (s : State) (n : Line) (f : TrigLine → TrigLine) :
    (s.withLine n f).pins = s.pins := rfl
@[simp] theorem State.withLine_tbu (s : State) (n : Line) (f : TrigLine → TrigLine) :
    (s.withLine n f).tbu = s.tbu := rfl
@[simp] theorem State.withLine_rsv (s : State) (n : Line) (f : TrigLine → TrigLine) :
    (s.withLine n f).rsv = s.rsv := rfl
@[simp] theorem State.withLine_scu (s : State) (n : Line) (f : TrigLine → TrigLine) :
    (s.withLine n f).scu = s.scu := rfl
@[simp] theorem State.withLine_tou (s : State) (n : Line) (f : TrigLine → TrigLine) :
    (s.withLine n f).tou = { s.tou with lines := s.tou.lines.set n.val (f s.tou.lines[n]) } := rfl
@[simp] theorem State.withLine_ecu (s : State) (n : Line) (f : TrigLine → TrigLine) :
    (s.withLine n f).ecu = s.ecu := rfl
@[simp] theorem State.withLine_elu (s : State) (n : Line) (f : TrigLine → TrigLine) :
    (s.withLine n f).elu = s.elu := rfl
@[simp] theorem State.withLine_sau (s : State) (n : Line) (f : TrigLine → TrigLine) :
    (s.withLine n f).sau = s.sau := rfl
@[simp] theorem State.withLine_hpu (s : State) (n : Line) (f : TrigLine → TrigLine) :
    (s.withLine n f).hpu = s.hpu := rfl
@[simp] theorem State.withLine_mail (s : State) (n : Line) (f : TrigLine → TrigLine) :
    (s.withLine n f).mail = s.mail := rfl
@[simp] theorem State.withLine_pending (s : State) (n : Line) (f : TrigLine → TrigLine) :
    (s.withLine n f).pending = s.pending := rfl

@[simp] theorem State.withInput_rst (s : State) (n : Line) (i : Input) :
    (s.withInput n i).rst = s.rst := rfl
@[simp] theorem State.withInput_pins (s : State) (n : Line) (i : Input) :
    (s.withInput n i).pins = s.pins := rfl
@[simp] theorem State.withInput_tbu (s : State) (n : Line) (i : Input) :
    (s.withInput n i).tbu = s.tbu := rfl
@[simp] theorem State.withInput_rsv (s : State) (n : Line) (i : Input) :
    (s.withInput n i).rsv = s.rsv := rfl
@[simp] theorem State.withInput_scu (s : State) (n : Line) (i : Input) :
    (s.withInput n i).scu = s.scu := rfl
@[simp] theorem State.withInput_tou (s : State) (n : Line) (i : Input) :
    (s.withInput n i).tou = s.tou := rfl
@[simp] theorem State.withInput_ecu (s : State) (n : Line) (i : Input) :
    (s.withInput n i).ecu = { s.ecu with inputs := s.ecu.inputs.set n.val i } := rfl
@[simp] theorem State.withInput_elu (s : State) (n : Line) (i : Input) :
    (s.withInput n i).elu = s.elu := rfl
@[simp] theorem State.withInput_sau (s : State) (n : Line) (i : Input) :
    (s.withInput n i).sau = s.sau := rfl
@[simp] theorem State.withInput_hpu (s : State) (n : Line) (i : Input) :
    (s.withInput n i).hpu = s.hpu := rfl
@[simp] theorem State.withInput_mail (s : State) (n : Line) (i : Input) :
    (s.withInput n i).mail = s.mail := rfl
@[simp] theorem State.withInput_pending (s : State) (n : Line) (i : Input) :
    (s.withInput n i).pending = s.pending := rfl

@[simp] theorem State.withEntry_rst (s : State) (i : Index) (e : Entry) :
    (s.withEntry i e).rst = s.rst := rfl
@[simp] theorem State.withEntry_pins (s : State) (i : Index) (e : Entry) :
    (s.withEntry i e).pins = s.pins := rfl
@[simp] theorem State.withEntry_tbu (s : State) (i : Index) (e : Entry) :
    (s.withEntry i e).tbu = s.tbu := rfl
@[simp] theorem State.withEntry_rsv (s : State) (i : Index) (e : Entry) :
    (s.withEntry i e).rsv = s.rsv := rfl
@[simp] theorem State.withEntry_scu (s : State) (i : Index) (e : Entry) :
    (s.withEntry i e).scu = { s.scu with entries := s.scu.entries.set i.val e } := rfl
@[simp] theorem State.withEntry_tou (s : State) (i : Index) (e : Entry) :
    (s.withEntry i e).tou = s.tou := rfl
@[simp] theorem State.withEntry_ecu (s : State) (i : Index) (e : Entry) :
    (s.withEntry i e).ecu = s.ecu := rfl
@[simp] theorem State.withEntry_elu (s : State) (i : Index) (e : Entry) :
    (s.withEntry i e).elu = s.elu := rfl
@[simp] theorem State.withEntry_sau (s : State) (i : Index) (e : Entry) :
    (s.withEntry i e).sau = s.sau := rfl
@[simp] theorem State.withEntry_hpu (s : State) (i : Index) (e : Entry) :
    (s.withEntry i e).hpu = s.hpu := rfl
@[simp] theorem State.withEntry_mail (s : State) (i : Index) (e : Entry) :
    (s.withEntry i e).mail = s.mail := rfl
@[simp] theorem State.withEntry_pending (s : State) (i : Index) (e : Entry) :
    (s.withEntry i e).pending = s.pending := rfl

@[simp] theorem State.withSlew_rst (s : State) (w : Option Slew) :
    (s.withSlew w).rst = s.rst := rfl
@[simp] theorem State.withSlew_pins (s : State) (w : Option Slew) :
    (s.withSlew w).pins = s.pins := rfl
@[simp] theorem State.withSlew_tbu (s : State) (w : Option Slew) :
    (s.withSlew w).tbu = { s.tbu with slew := w, slewTaken := false } := rfl
@[simp] theorem State.withSlew_rsv (s : State) (w : Option Slew) :
    (s.withSlew w).rsv = s.rsv := rfl
@[simp] theorem State.withSlew_scu (s : State) (w : Option Slew) :
    (s.withSlew w).scu = s.scu := rfl
@[simp] theorem State.withSlew_tou (s : State) (w : Option Slew) :
    (s.withSlew w).tou = s.tou := rfl
@[simp] theorem State.withSlew_ecu (s : State) (w : Option Slew) :
    (s.withSlew w).ecu = s.ecu := rfl
@[simp] theorem State.withSlew_elu (s : State) (w : Option Slew) :
    (s.withSlew w).elu = s.elu := rfl
@[simp] theorem State.withSlew_sau (s : State) (w : Option Slew) :
    (s.withSlew w).sau = s.sau := rfl
@[simp] theorem State.withSlew_hpu (s : State) (w : Option Slew) :
    (s.withSlew w).hpu = s.hpu := rfl
@[simp] theorem State.withSlew_mail (s : State) (w : Option Slew) :
    (s.withSlew w).mail = s.mail := rfl
@[simp] theorem State.withSlew_pending (s : State) (w : Option Slew) :
    (s.withSlew w).pending = s.pending := rfl

@[simp] theorem State.refuse_state (s : State) (r : Result) : (s.refuse r).state = s := rfl
@[simp] theorem State.refuse_result (s : State) (r : Result) : (s.refuse r).result = r := rfl
@[simp] theorem State.refuse_payload (s : State) (r : Result) : (s.refuse r).payload = [] := rfl
@[simp] theorem State.report_state (s : State) (l : List Byte) : (s.report l).state = s := rfl
@[simp] theorem State.report_result (s : State) (l : List Byte) : (s.report l).result = .ok := rfl
@[simp] theorem State.report_payload (s : State) (l : List Byte) : (s.report l).payload = l := rfl

end Sys2Proof.Machine
end

