-- ==== Sys2Proof/Laws/Ops.lean ====
section
/-! SUPPORT. What each shared operation can do, said once: posting, the checks, taking a request and answering it, updates of one place. -/

namespace Sys2Proof.Machine

/-! ## Posting -/

theorem State.post_eq_posted (s : State) (b : Block) (t : Time) (y : Body) (a : Option Address) :
    s.post b t y a = s.posted b s.quality t y a := rfl

@[simp] theorem State.postAll_nil (s : State) (b : Block) (t : Time) : s.postAll b t [] = s := rfl

@[simp] theorem State.postAll_cons (s : State) (b : Block) (t : Time) (y : Body) (ys : List Body) :
    s.postAll b t (y :: ys) = (s.post b t y).postAll b t ys := rfl

/-- The quality depends on the set flag and the supervision state alone (R9). -/
theorem State.quality_congr {s t : State} (h1 : t.tbu.isSet = s.tbu.isSet) (h2 : t.rsv.state = s.rsv.state) :
    t.quality = s.quality := by
  unfold State.quality; rw [h1, h2]

@[simp] theorem State.post_quality (s : State) (b : Block) (t : Time) (y : Body) (a : Option Address) :
    (s.post b t y a).quality = s.quality := rfl

/-- Posting touches the records alone. -/
theorem State.postAll_eq (s : State) (b : Block) (t : Time) (ys : List Body) :
    s.postAll b t ys = { s with mail := { s.mail with records := s.mail.records ++ ys.map fun y =>
      { producer := b, quality := s.quality, time := t, body := y, address := none } } } := by
  induction ys generalizing s with
  | nil => simp [State.postAll]
  | cons y ys ih =>
    rw [State.postAll_cons, ih, State.post_quality]
    simp only [State.post, List.map_cons, List.append_assoc, List.singleton_append]

/-! ## Checks (R11, R137) -/

theorem State.ifAttached_of_attached {s : State} {p : Port} {k : Reply} (h : s.sau.sessions[p].attached = true) :
    s.ifAttached p k = k := by
  unfold State.ifAttached State.attached; rw [h]; rfl

theorem State.ifAttached_of_detached {s : State} {p : Port} {k : Reply} (h : s.sau.sessions[p].attached = false) :
    s.ifAttached p k = s.refuse .notAttached := by
  unfold State.ifAttached State.attached; rw [h]; rfl

theorem State.ifHolder_of_holder {s : State} {p : Port} {k : Reply} (h : s.sau.sessions[p].attached = true)
    (hh : s.sau.holder = some p) : s.ifHolder p k = k := by
  unfold State.ifHolder; rw [State.ifAttached_of_attached h, if_pos hh]

theorem State.ifHolder_of_not_holder {s : State} {p : Port} {k : Reply} (h : s.sau.sessions[p].attached = true)
    (hh : s.sau.holder ≠ some p) : s.ifHolder p k = s.refuse .notAuthority := by
  unfold State.ifHolder; rw [State.ifAttached_of_attached h, if_neg hh]

theorem State.ifHolder_of_detached {s : State} {p : Port} {k : Reply} (h : s.sau.sessions[p].attached = false) :
    s.ifHolder p k = s.refuse .notAttached := State.ifAttached_of_detached h

@[simp] theorem State.ifInRange_some {α : Type} (s : State) (a : α) (k : α → Reply) : s.ifInRange (some a) k = k a := rfl

@[simp] theorem State.ifInRange_none {α : Type} (s : State) (k : α → Reply) :
    s.ifInRange none k = s.refuse .range := rfl

/-! ## Requests (R159, R160) -/

/-- The report of a port's request waits exactly when it is in the list. -/
theorem State.reportWaits_iff (s : State) (p : Port) :
    s.reportWaits p = true ↔ { port := p, request := true } ∈ s.mail.reports := by
  unfold State.reportWaits
  rw [List.any_eq_true]
  constructor
  · rintro ⟨⟨q, b⟩, hm, h⟩
    simp only [Bool.and_eq_true, beq_iff_eq] at h
    obtain ⟨rfl, rfl⟩ := h
    exact hm
  · exact fun hm => ⟨_, hm, by simp⟩

/-- A request is held while its frame's report waits or an expiry of its port does (R163). -/
theorem State.requestHeld_iff (s : State) (p : Port) :
    s.requestHeld p = true ↔ { port := p, request := true } ∈ s.mail.reports ∨ s.sau.sessions[p].overdue = true := by
  rw [State.requestHeld, Bool.or_eq_true, s.reportWaits_iff p]

/-- A request that is held is not there for its block. -/
theorem State.request?_of_held {s : State} {p : Port} (c : Code)
    (h : { port := p, request := true } ∈ s.mail.reports ∨ s.sau.sessions[p].overdue = true) : s.request? p c = none := by
  unfold State.request?
  rw [(s.requestHeld_iff p).2 h]
  split <;> simp

theorem State.request?_of_asks {s : State} {p : Port} {g : Byte} {d : Bool} {c : Code} {l : List Byte}
    (h : s.asks p g d c l) : s.request? p c = some l := by
  obtain ⟨h, hr, ho⟩ := h
  have hw : s.requestHeld p = false := Bool.eq_false_iff.2 fun hw => by
    rcases (s.requestHeld_iff p).1 hw with h | h
    · exact hr h
    · exact Bool.false_ne_true (ho.symm.trans h)
  unfold State.request?; rw [h]; simp [hw]

/-- A waiting request is answered in its slot, on the state its service leaves. -/
theorem State.serve_of_asks {s : State} {p : Port} {g : Byte} {d : Bool} {c : Code} {l : List Byte}
    {f : List Byte → Reply} (h : s.asks p g d c l) (hs : (f l).state.hpu = s.hpu) :
    s.serve p c f = (f l).state.answered p g d (f l).result (f l).payload := by
  unfold State.serve
  rw [State.request?_of_asks h]
  obtain ⟨h, -⟩ := h
  rw [← hs] at h
  simp only [State.withHpu, State.answered, Hpu.answer, h]

theorem State.serve_of_no_request {s : State} {p : Port} {c : Code} {f : List Byte → Reply}
    (h : s.request? p c = none) : s.serve p c f = s := by
  unfold State.serve; rw [h]

/-- Everything `serve` can do: nothing, or an answer on the state the service leaves. -/
theorem State.serve_cases (s : State) (p : Port) (c : Code) (f : List Byte → Reply) :
    (s.request? p c = none ∧ s.serve p c f = s) ∨
      ∃ l, s.request? p c = some l
        ∧ s.serve p c f = (f l).state.withHpu p (·.answer (f l).result (f l).payload) := by
  unfold State.serve
  cases h : s.request? p c with
  | none => exact .inl ⟨rfl, rfl⟩
  | some l => exact .inr ⟨l, rfl, rfl⟩

/-- An asked request waits with its tag, discard mark and payload. -/
theorem State.asks_of_request? {s : State} {p : Port} {c : Code} {l : List Byte} (h : s.request? p c = some l) :
    ∃ g d, s.asks p g d c l := by
  unfold State.request? at h
  split at h
  · rename_i g d c' l' hs
    split at h
    · rename_i hc
      obtain ⟨rfl, hw⟩ := hc
      cases h
      have hn (hm) : False := Bool.false_ne_true (hw.symm.trans ((s.requestHeld_iff p).2 hm))
      exact ⟨g, d, hs, fun hm => hn (.inl hm), Bool.eq_false_iff.2 fun ho => hn (.inr ho)⟩
    · cases h
  · cases h

theorem State.serveSau_of_idle {s : State} {p : Port} {c : Code} {f : List Byte → Reply} (h : s.sau.ending = none) :
    s.serveSau p c f = s.serve p c f := by
  unfold State.serveSau; rw [h]; rfl

theorem State.serveSau_of_ending {s : State} {p : Port} {c : Code} {f : List Byte → Reply} {e : Ending}
    (h : s.sau.ending = some e) : s.serveSau p c f = s := by
  unfold State.serveSau; rw [h]; rfl

/-! ## The schedule's shared operations (R69, R76) -/

/-- A firing touches the operations, the records and its own entry alone. -/
theorem State.fire_eq (s : State) (i : Index) (k : Nat) (t : Time) (cause : Cause) (links : Links) :
    let u : State := { s with
      scu := { s.scu with entries := s.scu.entries.set i.val (s.scu.entries[i].consume k) },
      mail := { s.mail with ops := s.mail.ops ++ s.scu.entries[i].action.toList } }
    s.fire i k t cause links =
      if s.scu.entries[i].scope = .nobody then u
      else u.posted .scu s.quality t (fireBody i s.scu.entries[i] k t cause s.quality)
            (some { owner := s.scu.entries[i].owner, all := s.scu.entries[i].scope == .all }) links := by
  intro u
  unfold State.fire
  by_cases h : s.scu.entries[i].scope = .nobody
  · simp only [h, if_true]; rfl
  · simp only [h, if_false]; rfl

/-- A miss touches the records and its own entry alone. -/
theorem State.miss_eq (s : State) (i : Index) (k : Nat) (t : Time) (cause : Cause) (links : Links) :
    s.miss i k t cause links = (s.withEntry i (s.scu.entries[i].consume k)).posted .scu s.quality t
      (.missed i s.scu.entries[i].generation s.scu.entries[i].label (lateness t s.scu.entries[i].dueTime) (min k 255)
        cause (s.scu.entries[i].endsAfter k))
      (some s.scu.entries[i].missAddress) links := rfl

/-- A treatment is a firing or a miss, after the late policy. -/
theorem State.treat_cases (s : State) (i : Index) (t : Time) (cause : Cause) (links : Links) :
    (s.scu.entries[i].policy = .catchup
        ∧ s.treat i t cause links = s.fire i (s.scu.entries[i].passed t) t cause links) ∨
      (s.scu.entries[i].policy = .skip
        ∧ s.treat i t cause links = s.miss i (s.scu.entries[i].passed t) t cause links) := by
  unfold State.treat
  cases h : s.scu.entries[i].policy with
  | catchup => exact .inl ⟨rfl, by simp only [h]⟩
  | skip => exact .inr ⟨rfl, by simp only [h]⟩

/-- The SCU has taken every hand-over up to a turn exactly when each that waits is of a later one. -/
theorem State.scuTook_iff (s : State) (turn : Nat) : s.scuTook turn = true ↔ ∀ h ∈ s.mail.toScu, turn < h.turn := by
  simp [State.scuTook]

/-! ## Steps at the ECU and the assertion of RST# (R87, R108, R115) -/

/-- A step at the front shifts every run in progress and leaves the list for the ECU, and nothing else. -/
theorem State.ecuStep_of_step {s : State} {turn : Nat} {old new : Time} {rest : List EcuHandover}
    (h : s.mail.toEcu = .step turn old new :: rest) :
    s.ecuStep = { s with
      mail := { s.mail with toEcu := rest }, ecu := { inputs := s.ecu.inputs.map (·.shift turn old new) } } := by
  unfold State.ecuStep; rw [h]

/-- Everything ECU_STEP_HANDOVER can do: nothing, or the step of a turn that the SCU has taken. -/
theorem State.ecuStepHandover_cases (s : State) :
    s.ecuStepHandover = s ∨ ∃ turn old new rest, s.mail.toEcu = .step turn old new :: rest ∧ s.scuTook turn = true
      ∧ s.ecuStepHandover = s.ecuStep := by
  unfold State.ecuStepHandover
  split
  · rename_i turn old new rest h
    by_cases ht : s.scuTook turn = true
    · exact .inr ⟨turn, old, new, rest, h, ht, by rw [if_pos ht]⟩
    · exact .inl (by rw [if_neg ht])
  · exact .inl rfl

/-- With no step on its way the ECU takes nothing before the reset. -/
theorem State.stepsBeforeReset_of_no_step {s : State} (h : s.mail.toEcu.any EcuHandover.isStep = false) :
    s.stepsBeforeReset = s := by
  have stop : ∀ l : List EcuHandover,
      l.foldl (fun s h => if s.mail.toEcu.any EcuHandover.isStep then s.ecuTakeAtReset h else s) s = s := by
    intro l
    induction l with
    | nil => rfl
    | cons x l ih => rw [List.foldl_cons, h]; exact ih
  exact stop _

/-- A session end in progress posts its records, with the entries that the SCU has freed or would free. -/
theorem State.closeEnding_of_ending {s : State} {e : Ending} (h : s.sau.ending = some e) :
    s.closeEnding = s.postAll .sau s.tbu.time
      ({ e with freed := if e.phase = EndPhase.atScu then s.scu.use e.port else e.freed }.bodies s.sau.sessions[e.port].limit) := by
  unfold State.closeEnding; rw [h]; cases hp : e.phase <;> simp [hp]

/-! ## The reference and the log -/

/-- A state change of the RSV sets the state and posts its record (R30). -/
theorem State.enter_eq (s : State) (new : SupState) (reason : RefReason) (count : Nat) :
    s.enter new reason count = ({ s with rsv := { s.rsv with state := new } } : State).posted .rsv
      ({ s with rsv := { s.rsv with state := new } } : State).quality s.tbu.time
      (.refState s.rsv.state new reason count (if s.rsv.state = .holdover then s.rsv.age else 0)) none := rfl

/-- A capture touches the input, the count of captures, the priming hand-overs, and the records or the PPS hand-overs
(R105). -/
theorem State.capture_eq (s : State) (n : Line) (i : Input) (q : QualifiedEdge) (turn : Nat) (t : Time) :
    let u : State := { s with
      ecu := { inputs := s.ecu.inputs.set n.val { i with deadLeft := i.dead, suppressed := 0 } },
      mail := { s.mail with
        captures := s.mail.captures + 1
        primings := s.mail.primings ++ [{
          input := n, direction := q.direction, stamp := q.stamp, turn, capture := s.mail.captures }] } }
    let handed : PpsEdge := {
      stamp := q.stamp, adjusted := q.adjusted, suppressed := i.suppressed, capture := s.mail.captures }
    s.capture n i q turn t =
      if s.inPpsRole n = true then { u with mail := { u.mail with ppsEdges := u.mail.ppsEdges ++ [handed] } }
      else u.posted .ecu s.quality q.stamp (edgeBody n q i.suppressed t) none
        { turn := some turn, capture := some s.mail.captures, shifts := q.shifts } := by
  intro u handed
  unfold State.capture
  by_cases h : s.inPpsRole n = true
  · simp only [h, if_true]; rfl
  · simp only [h]; rfl

/-- Everything taking a record can do to the log: the seq is consumed, and the record is left out, stored, dropped or
stored over the oldest (R117, R120, R123, R124). -/
theorem Elu.takeRecord_cases (e : Elu) (r : Posted) :
    let kept : Retained :=
      { record := { seq := e.nextSeq, quality := r.quality, time := r.time, body := r.body }, pending := e.pendingSet r }
    let e1 : Elu := { e with nextSeq := nextSeqAfter e.nextSeq }
    (e.pendingSet r = emptySet ∧ e.takeRecord r = e1) ∨
    (e.pendingSet r ≠ emptySet ∧ e.log.length < Config.logSlots
      ∧ e.takeRecord r = { e1 with log := e.log ++ [kept] }) ∨
    (e.pendingSet r ≠ emptySet ∧ Config.logSlots ≤ e.log.length ∧ e.policy = .hold
      ∧ e.takeRecord r = { e1 with dropped := bump e.dropped (e.pendingSet r) }) ∨
    (e.pendingSet r ≠ emptySet ∧ Config.logSlots ≤ e.log.length ∧ e.policy = .overwrite
      ∧ ∃ oldest rest, e.log = oldest :: rest
        ∧ e.takeRecord r = { e1 with log := rest ++ [kept], lost := bump e.lost oldest.pending }) := by
  intro kept e1
  unfold Elu.takeRecord
  by_cases h : e.pendingSet r = emptySet
  · exact .inl ⟨h, by simp [h, e1]⟩
  · right
    by_cases hl : e.log.length < Config.logSlots
    · exact .inl ⟨h, hl, by simp [h, Elu.store, hl, e1, kept]⟩
    · right
      have hg : Config.logSlots ≤ e.log.length := Nat.le_of_not_lt hl
      cases hp : e.policy with
      | hold => exact .inl ⟨h, hg, rfl, by simp only [h, if_false, Elu.store, hl, e1]⟩
      | overwrite =>
        cases hx : e.log with
        | nil => rw [hx] at hg; simp [Config.logSlots] at hg
        | cons oldest rest =>
          rw [hx] at hg hl
          refine .inr ⟨h, hg, rfl, oldest, rest, rfl, ?_⟩
          simp only [h, if_false, Elu.store, hl, e1, kept]

/-! ## The order of records (R118) -/

theorem notAfter_iff (a b : Option Nat) : notAfter a b = true ↔ ∃ i j, a = some i ∧ b = some j ∧ i ≤ j := by
  cases a <;> cases b <;> simp [notAfter]

/-- An EDGE record follows the hand-over of its tick, and of a step that shifted its run. -/
theorem Links.follows_iff (l : Links) (turn : Nat) : l.follows turn = true ↔ l.turn = some turn ∨ turn ∈ l.shifts := by
  simp [Links.follows]

/-- The order of two records, in the words of R118. -/
theorem Posted.precedes_iff (a b : Posted) : a.precedes b = true ↔ a.connectedBefore b := by
  obtain ⟨pa, _, _, _, _, la⟩ := a
  obtain ⟨pb, _, _, _, _, lb⟩ := b
  have hbeq : ∀ x y : Option Nat, (x == y) = true ↔ x = y := fun _ _ => beq_iff_eq
  cases pa <;> cases pb <;>
    simp only [Posted.precedes, Posted.connectedBefore, notAfter_iff, Links.follows_iff, Bool.and_eq_true, hbeq,
      Option.any_eq_true, Option.isSome_iff_exists, reduceCtorEq, false_and, true_and, false_or, or_false, or_true,
      Bool.false_eq_true]
  case rsv.scu =>
    constructor
    · rintro ⟨⟨i, hi⟩, h⟩; exact ⟨i, hi, h ▸ hi⟩
    · rintro ⟨i, hi, h⟩; exact ⟨⟨i, hi⟩, hi.trans h.symm⟩

/-- A waiting record is held back exactly when it must wait (R118). -/
theorem State.holdsBack_iff (s : State) (r : Posted) : s.mail.holdsBack r = true ↔ s.mustWait r := by
  obtain ⟨p, _, _, _, _, l⟩ := r
  unfold Mail.holdsBack State.mustWait Mail.awaits
  rw [Bool.or_eq_true, List.any_eq_true, or_comm]
  refine or_congr ?_ ?_
  · simp only [Posted.precedes_iff]
  · cases p <;> simp [Links.follows_iff]

/-- Everything RECORD_TAKE can do: nothing, or the oldest record of the producer is taken (R118, R120). -/
theorem State.recordTake_cases (s : State) (producer : Block) :
    s.recordTake producer = s ∨ ∃ r rest, takePosted producer s.mail.records = some (r, rest) ∧ ¬ s.mustWait r
      ∧ s.recordTake producer = { s with elu := s.elu.takeRecord r, mail := { s.mail with records := rest } } := by
  unfold State.recordTake
  cases h : takePosted producer s.mail.records with
  | none => exact .inl rfl
  | some x =>
    obtain ⟨r, rest⟩ := x
    by_cases hb : s.mail.holdsBack r = true
    · exact .inl (by simp only [hb, if_true])
    · exact .inr ⟨r, rest, rfl, fun hw => hb ((s.holdsBack_iff r).2 hw), by simp only [hb]; rfl⟩

end Sys2Proof.Machine
end

