-- ==== Sys2Proof/Laws/Bytes.lean ====
section
/-! SUPPORT. Numbers, signed numbers and time values read back from their bytes as they were written, and frames from their bits (R1, R153, R165). -/

namespace Sys2Proof.Machine

@[simp] theorem length_beBytes (n width : Nat) : (beBytes n width).length = width := by
  induction width with
  | zero => rfl
  | succ w ih => simp [beBytes, ih]

@[simp] theorem length_beSigned (v : Int) (width : Nat) : (beSigned v width).length = width := by simp [beSigned]

@[simp] theorem length_timeBytes (t : Time) : (timeBytes t).length = 8 := by simp [timeBytes]

theorem foldl_beBytes (n width acc : Nat) :
    (beBytes n width).foldl (fun a b => a * 256 + b.toNat) acc = acc * 256 ^ width + n % 256 ^ width := by
  induction width generalizing acc with
  | zero => simp [beBytes, Nat.mod_one]
  | succ w ih =>
    simp only [beBytes, List.foldl_cons, BitVec.toNat_ofNat, ih]
    have h : n % 256 ^ (w + 1) = n / 256 ^ w % 256 * 256 ^ w + n % 256 ^ w := by
      rw [Nat.pow_succ, Nat.mod_mul]; ring
    rw [h]; simp; ring

/-- A number read from its bytes, modulo what they can hold. -/
theorem beNat_beBytes_mod (n width : Nat) : beNat (beBytes n width) = n % 256 ^ width := by
  unfold beNat; rw [foldl_beBytes]; simp

theorem beNat_beBytes {n width : Nat} (h : n < 256 ^ width) : beNat (beBytes n width) = n := by
  rw [beNat_beBytes_mod, Nat.mod_eq_of_lt h]

/-- A signed number read from its bytes, if it fits them in two's complement. -/
theorem beInt_beSigned {v : Int} {width : Nat} (h1 : -(256 ^ width : Nat) ≤ 2 * v) (h2 : 2 * v < (256 ^ width : Nat)) :
    beInt (beSigned v width) = v := by
  have hp : (0 : Int) < (256 ^ width : Nat) := by positivity
  have hn : beNat (beSigned v width) = (v % (256 ^ width : Nat)).toNat := by
    unfold beSigned
    apply beNat_beBytes
    have := Int.emod_lt_of_pos v hp
    have h0 := Int.emod_nonneg v (by omega : ((256 ^ width : Nat) : Int) ≠ 0)
    omega
  unfold beInt
  rw [hn, length_beSigned]
  have h0 := Int.emod_nonneg v (by omega : ((256 ^ width : Nat) : Int) ≠ 0)
  rcases lt_or_ge v 0 with hv | hv
  · have hm : v % (256 ^ width : Nat) = v + (256 ^ width : Nat) := by
      rw [← Int.add_emod_right]
      exact Int.emod_eq_of_lt (by omega) (by omega)
    rw [hm]
    simp only
    split <;> omega
  · have hm : v % (256 ^ width : Nat) = v := Int.emod_eq_of_lt hv (by omega)
    rw [hm]
    simp only
    split <;> omega

/-- The fields of a payload that stands as a list of pieces. -/
theorem field_append_left {a b : List Byte} {width : Nat} (h : a.length = width) : field (a ++ b) 0 width = a := by
  unfold field; simp [← h]

theorem field_append_right {a b : List Byte} {offset width : Nat} (h : a.length = offset) :
    field (a ++ b) offset width = b.take width := by
  unfold field; simp [← h]

/-- A time value read from its bytes (R1, R165). -/
theorem fieldTime_timeBytes {t : Time} (h : t ≤ Config.maxTime) : fieldTime (timeBytes t) 0 = some t := by
  have h5 : fieldNat (timeBytes t) 0 5 = seconds t := by
    unfold fieldNat timeBytes
    rw [field_append_left (by simp)]
    apply beNat_beBytes
    exact (Nat.div_lt_iff_lt_mul (by decide)).mpr (Nat.lt_of_le_of_lt h (by decide))
  have h3 : fieldNat (timeBytes t) 5 3 = fraction t := by
    unfold fieldNat timeBytes
    rw [field_append_right (by simp), List.take_of_length_le (by simp)]
    apply beNat_beBytes
    simp only [fraction, Config.countsPerSecond]
    omega
  unfold fieldTime
  simp only [Nat.zero_add, h5, h3]
  have hf : fraction t < Config.countsPerSecond := Nat.mod_lt _ (by decide)
  rw [if_pos hf]
  rw [Option.some_inj]
  exact Nat.div_add_mod' t Config.countsPerSecond

theorem ofNat_bits (b : Byte) :
    BitVec.ofNat 8 (128 * bitNat (b.getLsbD 7) + 64 * bitNat (b.getLsbD 6) + 32 * bitNat (b.getLsbD 5)
      + 16 * bitNat (b.getLsbD 4) + 8 * bitNat (b.getLsbD 3) + 4 * bitNat (b.getLsbD 2) + 2 * bitNat (b.getLsbD 1)
      + bitNat (b.getLsbD 0)) = b := by
  revert b; decide

/-- The bytes of a frame read back from the bits the host clocks (R153). -/
theorem frameBytes_bitsOfBytes (l : List Byte) : frameBytes (bitsOfBytes l) = l := by
  induction l with
  | nil => rfl
  | cons b rest ih =>
    have : bitsOfBytes (b :: rest) = b.getLsbD 7 :: b.getLsbD 6 :: b.getLsbD 5 :: b.getLsbD 4 :: b.getLsbD 3 ::
        b.getLsbD 2 :: b.getLsbD 1 :: b.getLsbD 0 :: bitsOfBytes rest := rfl
    rw [this, frameBytes, ih, ofNat_bits]

@[simp] theorem length_bitsOfBytes (l : List Byte) : (bitsOfBytes l).length = 8 * l.length := by
  induction l with
  | nil => rfl
  | cons b rest ih =>
    have : (bitsOfBytes (b :: rest)).length = 8 + (bitsOfBytes rest).length := by
      simp [bitsOfBytes, byteBits]; omega
    rw [this, ih]; simp; ring

/-! ## Fields of a payload in parts (R166) -/

theorem field_append_at {a b : List Byte} {k offset width : Nat} (h : a.length = k) :
    field (a ++ b) (k + offset) width = field b offset width := by
  unfold field; rw [← h, List.drop_append, List.drop_eq_nil_of_le (by omega)]; simp

theorem fieldNat_append_at {a b : List Byte} {k offset width : Nat} (h : a.length = k) :
    fieldNat (a ++ b) (k + offset) width = fieldNat b offset width := by
  unfold fieldNat; rw [field_append_at h]

theorem fieldTime_append_at {a b : List Byte} {k offset : Nat} (h : a.length = k) :
    fieldTime (a ++ b) (k + offset) = fieldTime b offset := by
  unfold fieldTime; rw [show k + offset + 5 = k + (offset + 5) by omega]; simp only [fieldNat_append_at h]

theorem field_append_within {a b : List Byte} {offset width : Nat} (h : offset + width ≤ a.length) :
    field (a ++ b) offset width = field a offset width := by
  unfold field; rw [List.drop_append_of_le_length (by omega), List.take_append_of_le_length (by rw [List.length_drop]; omega)]

theorem fieldNat_append_within {a b : List Byte} {offset width : Nat} (h : offset + width ≤ a.length) :
    fieldNat (a ++ b) offset width = fieldNat a offset width := by unfold fieldNat; rw [field_append_within h]

theorem fieldTime_append_within {a b : List Byte} {offset : Nat} (h : offset + 8 ≤ a.length) :
    fieldTime (a ++ b) offset = fieldTime a offset := by
  unfold fieldTime; rw [fieldNat_append_within (by omega), fieldNat_append_within (by omega)]

theorem fieldNat_beBytes {n width : Nat} (h : n < 256 ^ width) : fieldNat (beBytes n width) 0 width = n := by
  unfold fieldNat field; simp [List.take_of_length_le, beNat_beBytes h]

end Sys2Proof.Machine
end

