-- ==== Sys2Proof/Laws/Layouts.lean ====
section
/-! SUPPORT. The model's codes, layouts and CRC against those of chapter 10 as the statements spell them (R154, R159, R165, R168). -/

namespace Sys2Proof.Machine

/-! ## The CRC (R154) -/

/-- The shift of the CRC register is linear. -/
theorem crcShift_xor (x y : Byte) : crcShift (x ^^^ y) = crcShift x ^^^ crcShift y := by
  unfold crcShift
  rw [BitVec.msb_xor, BitVec.shiftLeft_xor_distrib]
  cases x.msb <;> cases y.msb <;> simp only [Bool.xor_true, Bool.xor_false, Bool.not_true, Bool.not_false, if_true, Bool.false_eq_true, if_false]
  · rw [BitVec.xor_assoc]
  · rw [BitVec.xor_assoc, BitVec.xor_comm (y <<< 1), ← BitVec.xor_assoc]
  · rw [BitVec.xor_assoc, BitVec.xor_comm 7#8, BitVec.xor_assoc, BitVec.xor_self, BitVec.xor_zero]

/-- One bit into the CRC register, as crcOfBits takes it. -/
theorem crcBit_eq : ∀ (c : Byte) (b : Bool),
    (BitVec.ofNat 8 (2 * c.toNat) ^^^ if c.toNat / 128 = (if b = true then 0 else 1) then 7 else 0)
      = crcShift c ^^^ if b = true then 7#8 else 0#8 := by decide +kernel

/-- A byte into the empty CRC register, bit by bit and at once. -/
theorem crcFold_zero : ∀ b : Byte,
    ([7, 6, 5, 4, 3, 2, 1, 0].map fun k => decide (b.toNat / 2 ^ k % 2 = 1)).foldl
      (fun c b => BitVec.ofNat 8 (2 * c.toNat) ^^^ if c.toNat / 128 = (if b = true then 0 else 1) then 7 else 0) 0 = crcByte 0 b := by
  decide +kernel

/-- The CRC register is linear: what it holds and the bits that follow go through it apart. -/
theorem crcFold (bits : List Bool) (c d : Byte) :
    bits.foldl (fun c b => BitVec.ofNat 8 (2 * c.toNat) ^^^ if c.toNat / 128 = (if b = true then 0 else 1) then 7 else 0) (c ^^^ d)
      = (bits.foldl (fun c _ => crcShift c) c) ^^^
        bits.foldl (fun c b => BitVec.ofNat 8 (2 * c.toNat) ^^^ if c.toNat / 128 = (if b = true then 0 else 1) then 7 else 0) d := by
  induction bits generalizing c d with
  | nil => rfl
  | cons b l ih => rw [List.foldl_cons, List.foldl_cons, List.foldl_cons, ← ih, crcBit_eq, crcBit_eq, crcShift_xor, BitVec.xor_assoc]

/-- The CRC of bytes is that of their bits (R154). -/
theorem crc_eq_crcOfBytes (bytes : List Byte) : crc bytes = crcOfBytes bytes := by
  have h : ∀ c : Byte, bytes.foldl crcByte c = (bytes.flatMap fun b => [7, 6, 5, 4, 3, 2, 1, 0].map fun k =>
      decide (b.toNat / 2 ^ k % 2 = 1)).foldl
        (fun c b => BitVec.ofNat 8 (2 * c.toNat) ^^^ if c.toNat / 128 = (if b = true then 0 else 1) then 7 else 0) c := by
    induction bytes with
    | nil => intro c; rfl
    | cons b l ih =>
      intro c
      have e : crcByte c b = crcByte c 0 ^^^ crcByte 0 b := by
        have z : crcByte 0 0 = 0#8 := by decide
        have u : ∀ x y : Byte, crcByte x y = crcByte x 0 ^^^ crcByte y 0 := fun x y => by
          simp only [crcByte, crcShift_xor]
          have : crcShift (crcShift (crcShift (crcShift (crcShift (crcShift (crcShift (crcShift 0))))))) = (0#8 : Byte) := by decide
          rw [this, BitVec.xor_zero, BitVec.xor_zero]
        rw [u c b, u 0 b, z, BitVec.zero_xor]
      rw [List.foldl_cons, List.flatMap_cons, List.foldl_append, ih]
      congr 1
      have := crcFold ([7, 6, 5, 4, 3, 2, 1, 0].map fun k => decide (b.toNat / 2 ^ k % 2 = 1)) c 0
      have hz : c ^^^ 0 = c := BitVec.xor_zero
      rw [hz, crcFold_zero] at this
      rw [this, e]
      congr 1
      show crcByte c 0 = _
      unfold crcByte; rw [show c ^^^ 0 = c from BitVec.xor_zero]; rfl
  exact h 0

/-! ## Codes and layouts (chapter 10) -/

/-- The bytes of a record are its layout as chapter 10 spells it (R165, R168). -/
theorem Record.layout_eq (r : Record) : r.layout = r.bytes := by
  obtain ⟨seq, q, t, b⟩ := r
  have hq : q.byte = q.code := by cases q <;> rfl
  unfold Record.layout Record.bytes
  simp only [hq]
  have hk : b.kindByte = b.kind.code := by cases b <;> rfl
  have hb : b.layout = b.bytes := by
    cases b with
    | edge i d a c s w => cases d <;> cases a <;> cases c <;> rfl
    | fire i g l x k c w q => 
      have : BitVec.ofNat 8 i.val + 0x40 * q.byte = BitVec.ofNat 8 (i.val + 64 * q.code.toNat) := by
        clear * -; revert i; cases q <;> decide
      have h2 : entryFlags c w = causeFlags c w := by cases c <;> cases w <;> rfl
      simp [Body.layout, Body.bytes, h2]; exact this
    | missed i g l x k c w =>
      have h2 : entryFlags c w = causeFlags c w := by cases c <;> cases w <;> rfl
      simp [Body.layout, Body.bytes, h2]
    | step a o s c =>
      cases c with
      | none => cases a <;> cases s <;> rfl
      | some c =>
        obtain ⟨g, r⟩ := c
        by_cases h : r < 0
        · cases a <;> cases s <;> cases g <;> simp [Body.layout, Body.bytes, h, magnitude3] <;> decide
        · cases a <;> cases s <;> cases g <;> simp [Body.layout, Body.bytes, h, magnitude3] <;> decide
    | slewDone g r s =>
        by_cases h : r < 0
        · cases g <;> simp [Body.layout, Body.bytes, h, magnitude3] <;> decide
        · cases g <;> simp [Body.layout, Body.bytes, h, magnitude3] <;> decide
    | refState a b c d e => cases a <;> cases b <;> cases c <;> rfl
    | pps e a b c d f g h => cases a <;> cases b <;> cases c <;> cases d <;> cases f <;> rfl
    | authority p e c o q => cases e <;> cases c <;> cases o <;> rfl
    | session p e l f => 
      cases e with
      | none => rfl
      | some e => cases e <;> rfl
  rw [hk, hb]; rfl

/-- The RESULT byte is the code of the result. -/
theorem resultByte_eq (r : Result) : resultByte r = r.code := by cases r <;> rfl

/-- The REFUSAL byte is the code of the refusal. -/
theorem refusalByte_eq (r : Option FrameRefusal) : refusalByte r = refusalCode r := by
  cases r with
  | none => rfl
  | some r => cases r <;> rfl

/-- The request table holds each request once, under its CODE and with its lengths (R159). -/
theorem mem_requestTable (b : Byte) (c : Code) (l : List Nat) : (b, c, l) ∈ requestTable ↔ b = c.byte ∧ l = c.lengths := by
  cases c <;> simp [requestTable, Code.byte, Code.lengths]

end Sys2Proof.Machine
end

