-- ==== Sys2Proof/Laws/Lists.lean ====
section
/-! SUPPORT. Taking the oldest hand-over of a kind from a list, and acknowledging records up to a seq. -/

namespace Sys2Proof.Machine

/-- A sample is taken from behind samples of other inputs (R109). -/
theorem takeSample_at {n : Line} {k : Nat} {t : Time} {before rest : List EcuHandover}
    (h : ∀ x ∈ before, ∃ j m u, x = .sample j m u ∧ m ≠ n) :
    takeSample n (before ++ .sample k n t :: rest) = some (k, t, before ++ rest) := by
  induction before with
  | nil => simp [takeSample]
  | cons x l ih =>
    obtain ⟨j, m, u, rfl, hm⟩ := h x (List.mem_cons_self ..)
    simp only [List.cons_append, takeSample]
    rw [if_neg hm, ih (fun y hy => h y (List.mem_cons_of_mem _ hy))]; rfl

/-- The oldest record of a producer is taken from behind those of others (R118). -/
theorem takePosted_at {b : Block} {r : Posted} {before rest : List Posted} (hb : r.producer = b)
    (h : ∀ x ∈ before, x.producer ≠ b) : takePosted b (before ++ r :: rest) = some (r, before ++ rest) := by
  induction before with
  | nil => simp [takePosted, hb]
  | cons x l ih =>
    simp only [List.cons_append, takePosted]
    rw [if_neg (h x (List.mem_cons_self ..)), ih (fun y hy => h y (List.mem_cons_of_mem _ hy))]; rfl

/-- The oldest edge of an input is taken from behind those of others (R107). -/
theorem takePriming_at {e : Priming} {before rest : List Priming} (h : ∀ x ∈ before, x.input ≠ e.input) :
    takePriming e.input (before ++ e :: rest) = some (e, before ++ rest) := by
  induction before with
  | nil => simp [takePriming]
  | cons x l ih =>
    simp only [List.cons_append, takePriming]
    rw [if_neg (h x (List.mem_cons_self ..)), ih (fun y hy => h y (List.mem_cons_of_mem _ hy))]; rfl

/-- A subscription is taken from behind those of other ports (R119). -/
theorem takeInstall_at {p : Port} {sub : Subscription} {before rest : List Install} (h : ∀ i ∈ before, i.port ≠ p) :
    takeInstall p (before ++ { port := p, sub } :: rest) = some (sub, before ++ rest) := by
  induction before with
  | nil => simp [takeInstall]
  | cons x l ih =>
    simp only [List.cons_append, takeInstall]
    rw [if_neg (h x (List.mem_cons_self ..)), ih (fun y hy => h y (List.mem_cons_of_mem _ hy))]; rfl

/-- A pending set holds a port or is empty. -/
theorem ne_emptySet (v : Vector Bool 4) : (v != emptySet) = (v[0] || v[1] || v[2] || v[3]) := by
  obtain ⟨⟨l⟩, h⟩ := v
  match l, h with
  | [a, b, c, d], _ => revert a b c d; decide

/-- An acknowledgement reaches the named record and every older one (R128). -/
theorem ackUpTo_at {p : Port} {seq : Nat} {older new : List Retained} {r : Retained} (h1 : r.record.seq = seq)
    (h2 : r.pending[p] = true) (h3 : ∀ x ∈ older, x.record.seq = seq → x.pending[p] = false) :
    ackUpTo p seq (older ++ [r] ++ new) = (older ++ [r]).map (fun x => x.without p) ++ new := by
  induction older with
  | nil =>
    have : r.isFor p seq = true := by unfold Retained.isFor; rw [h1, h2]; simp
    simp [ackUpTo, this]
  | cons x l ih =>
    simp only [List.cons_append, ackUpTo]
    have : x.isFor p seq = false := by
      unfold Retained.isFor
      by_cases hx : x.record.seq = seq
      · rw [h3 x (List.mem_cons_self ..) hx]; simp
      · simp [hx]
    rw [this]; simp only [Bool.false_eq_true, if_false, List.map_cons]
    rw [ih (fun y hy => h3 y (List.mem_cons_of_mem _ hy))]; simp

end Sys2Proof.Machine
end

