-- ==== Sys2Proof/Laws/Operands.lean ====
section
/-! SUPPORT. When the decoding of an operand fails: each field's range in numbers (R166). -/

namespace Sys2Proof.Machine

theorem boolOf_eq_none {n : Nat} : boolOf n = none ↔ 1 < n := by
  unfold boolOf; split <;> simp_all; omega

theorem inRange_eq_none {lo hi n : Nat} : inRange lo hi n = none ↔ n < lo ∨ hi < n := by
  unfold inRange; split <;> simp <;> omega

theorem inRange_of {lo hi n : Nat} (h1 : lo ≤ n) (h2 : n ≤ hi) : inRange lo hi n = some n := by
  unfold inRange; rw [if_pos ⟨h1, h2⟩]

theorem inMagnitude_eq_none {b : Nat} {v : Int} : inMagnitude b v = none ↔ b < v.natAbs := by
  unfold inMagnitude; split <;> simp <;> omega

theorem lineOf_eq_none {n : Nat} : lineOf n = none ↔ 7 < n := by unfold lineOf; split <;> simp <;> omega

theorem portOf_eq_none {n : Nat} : portOf n = none ↔ 3 < n := by unfold portOf; split <;> simp <;> omega

theorem indexOf_eq_none {n : Nat} : indexOf n = none ↔ 63 < n := by unfold indexOf; split <;> simp <;> omega

theorem bindingOf_eq_none {n : Nat} : bindingOf n = none ↔ 3 < n ∧ n ≠ 128 := by
  unfold bindingOf; split
  · simp; omega
  · rw [Option.map_eq_none_iff, portOf_eq_none]; omega

theorem LatePolicy.ofCode_eq_none {n : Nat} : LatePolicy.ofCode n = none ↔ 1 < n := by
  unfold LatePolicy.ofCode; split <;> simp_all; omega

theorem FullPolicy.ofCode_eq_none {n : Nat} : FullPolicy.ofCode n = none ↔ 1 < n := by
  unfold FullPolicy.ofCode; split <;> simp_all; omega

theorem levelOf_eq_none {n : Nat} : levelOf n = none ↔ 1 < n := by
  unfold levelOf; split <;> simp_all; omega

theorem EdgeSelect.ofCode_eq_none {n : Nat} : EdgeSelect.ofCode n = none ↔ 3 < n := by
  unfold EdgeSelect.ofCode; split <;> simp_all; omega

theorem dividerOf_eq_none {n : Nat} : dividerOf n = none ↔ n ≠ 1 ∧ n ≠ 4 ∧ n ≠ 16 ∧ n ≠ 64 := by
  unfold dividerOf; split <;> simp_all

theorem LineOp.ofCode_eq_none {n : Nat} : LineOp.ofCode n = none ↔ 3 < n := by
  unfold LineOp.ofCode; split <;> simp_all; omega

theorem Scope.ofCode_eq_none {n : Nat} : Scope.ofCode n = none ↔ 2 < n := by
  unfold Scope.ofCode; split <;> simp_all; omega

theorem PrimeEdge.ofCode_eq_none {n : Nat} : PrimeEdge.ofCode n = none ↔ 2 < n := by
  unfold PrimeEdge.ofCode; split <;> simp_all; omega

/-- A time field is out of range exactly by its fraction (R1, R166). -/
theorem fieldTime_eq_none {p : List Byte} {offset : Nat} :
    fieldTime p offset = none ↔ 9999999 < fieldNat p (offset + 5) 3 := by
  unfold fieldTime Config.countsPerSecond; simp only; split <;> simp <;> omega

theorem fieldTime_of {p : List Byte} {offset : Nat} (h : fieldNat p (offset + 5) 3 ≤ 9999999) :
    fieldTime p offset = some (fieldNat p offset 5 * 10000000 + fieldNat p (offset + 5) 3) := by
  unfold fieldTime Config.countsPerSecond; simp only; rw [if_pos (by omega)]

/-- A decoding in steps fails at its first step or at a later one. -/
theorem bind_eq_none' {α β : Type} {o : Option α} {f : α → Option β} :
    (o >>= f) = none ↔ o = none ∨ ∀ a, o = some a → f a = none := by cases o <;> simp

theorem foldl_bytes_lt (l : List Byte) (acc : Nat) :
    l.foldl (fun a b => a * 256 + b.toNat) acc < (acc + 1) * 256 ^ l.length := by
  induction l generalizing acc with
  | nil => simp
  | cons b l ih =>
    refine lt_of_lt_of_le (ih _) ?_
    rw [List.length_cons, Nat.pow_succ, Nat.mul_comm (256 ^ _) 256, ← Nat.mul_assoc]
    exact Nat.mul_le_mul_right _ (by have := b.isLt; show acc * 256 + b.toNat + 1 ≤ _; omega)

/-- A field of so many bytes is a number below that power of 256. -/
theorem fieldNat_lt (p : List Byte) (offset width : Nat) : fieldNat p offset width < 256 ^ width := by
  unfold fieldNat beNat
  refine lt_of_lt_of_le (foldl_bytes_lt _ 0) ?_
  rw [Nat.zero_add, Nat.one_mul]
  exact Nat.pow_le_pow_right (by decide) (by unfold field; simp)

end Sys2Proof.Machine
end

