-- ==== Sys2Proof/Laws/Schedule.lean ====
section
/-! SUPPORT. What the schedule's events do to many entries at once: the due list, the fold over entries, occurrences and the payloads of ARM and PRIME. -/

namespace Sys2Proof.Machine

/-! ## The due list (R47) -/

/-- The strict order of the due list (R47). -/
def dueLt (es : Vector Entry 64) (i j : Index) : Prop :=
  @LT.lt Nat _ es[i].dueTime es[j].dueTime ∨ @Eq Nat es[i].dueTime es[j].dueTime ∧ i < j

theorem dueBefore_iff (es : Vector Entry 64) (i j : Index) : dueBefore es i j = true ↔ dueLt es i j := by
  simp only [dueBefore, dueLt, Bool.or_eq_true, Bool.and_eq_true, decide_eq_true_eq]

@[simp] theorem Scope.beq_all (a : Scope) : (a == Scope.all) = decide (a = Scope.all) := by cases a <;> rfl

@[simp] theorem isNone_eq_decide (o : Option Port) : o.isNone = decide (o = none) := by cases o <;> rfl

theorem dueLt_trans {es : Vector Entry 64} {i j k : Index} (h1 : dueLt es i j) (h2 : dueLt es j k) : dueLt es i k := by
  unfold dueLt at *; rw [Fin.lt_def] at *; omega

theorem dueLt_total {es : Vector Entry 64} {i j : Index} (h : i ≠ j) (h' : ¬ dueLt es i j) : dueLt es j i := by
  unfold dueLt at *
  have : i.val ≠ j.val := fun e => h (Fin.ext e)
  rw [Fin.lt_def] at *
  omega

theorem mem_insertDue {es : Vector Entry 64} {i j : Index} {l : List Index} :
    j ∈ insertDue es i l ↔ j = i ∨ j ∈ l := by
  induction l with
  | nil => simp [insertDue]
  | cons a l ih =>
    unfold insertDue
    split
    · simp
    · rw [List.mem_cons, ih, List.mem_cons]; tauto

theorem pairwise_insertDue {es : Vector Entry 64} {i : Index} {l : List Index} (h : l.Pairwise (dueLt es)) (hi : i ∉ l) :
    (insertDue es i l).Pairwise (dueLt es) := by
  induction l with
  | nil => simp [insertDue]
  | cons a l ih =>
    rw [List.pairwise_cons] at h
    rw [List.mem_cons, not_or] at hi
    unfold insertDue
    split
    · rename_i hb
      rw [dueBefore_iff] at hb
      refine List.pairwise_cons.2 ⟨fun j hj => ?_, List.pairwise_cons.2 h⟩
      rcases List.mem_cons.1 hj with rfl | hj
      · exact hb
      · exact dueLt_trans hb (h.1 j hj)
    · rename_i hb
      rw [dueBefore_iff] at hb
      refine List.pairwise_cons.2 ⟨fun j hj => ?_, ih h.2 hi.2⟩
      rcases mem_insertDue.1 hj with rfl | hj
      · exact dueLt_total hi.1 hb
      · exact h.1 j hj

theorem foldr_insertDue (es : Vector Entry 64) (l : List Index) (h : l.Nodup) :
    (l.foldr (insertDue es) []).Pairwise (dueLt es) ∧ ∀ j, j ∈ l.foldr (insertDue es) [] ↔ j ∈ l := by
  induction l with
  | nil => simp
  | cons a l ih =>
    rw [List.nodup_cons] at h
    obtain ⟨h1, h2⟩ := ih h.2
    refine ⟨pairwise_insertDue h1 (fun hm => h.1 ((h2 a).1 hm)), fun j => ?_⟩
    rw [List.foldr_cons, mem_insertDue, h2, List.mem_cons]

theorem mem_indexesWhere {es : Vector Entry 64} {f : Entry → Bool} {i : Index} :
    i ∈ indexesWhere es f ↔ f es[i] = true := by simp [indexesWhere]

theorem nodup_indexesWhere (es : Vector Entry 64) (f : Entry → Bool) : (indexesWhere es f).Nodup :=
  (List.nodup_finRange 64).filter _

/-- The due list holds every ARMED entry once, in order (R47). -/
theorem dueList_spec (es : Vector Entry 64) :
    (dueList es).Pairwise (dueLt es) ∧ ∀ i, i ∈ dueList es ↔ es[i].state = .armed := by
  obtain ⟨h1, h2⟩ := foldr_insertDue es _ (nodup_indexesWhere es (·.state == .armed))
  refine ⟨h1, fun i => ?_⟩
  rw [dueList, h2, mem_indexesWhere]; simp

theorem dueBy_spec (es : Vector Entry 64) (t : Time) :
    (dueBy es t).Pairwise (dueLt es) ∧ ∀ i, i ∈ dueBy es t ↔ es[i].state = .armed ∧ es[i].dueTime ≤ t := by
  obtain ⟨h1, h2⟩ := dueList_spec es
  refine ⟨h1.filter _, fun i => ?_⟩
  rw [dueBy, List.mem_filter, h2]; simp

/-- Two lists in due-list order with the same members are equal (R47). -/
theorem eq_of_dueLt {es : Vector Entry 64} {l m : List Index} (hl : l.Pairwise (dueLt es)) (hm : m.Pairwise (dueLt es))
    (h : ∀ i, i ∈ l ↔ i ∈ m) : l = m := by
  have irr : ∀ i, ¬ dueLt es i i := fun i hi => by
    unfold dueLt at hi; rw [Fin.lt_def] at hi; omega
  have nd : ∀ {k : List Index}, k.Pairwise (dueLt es) → k.Nodup := fun hk => by
    refine hk.imp ?_
    rintro a _ hab rfl
    exact irr a hab
  refine List.Perm.eq_of_pairwise (le := dueLt es) ?_ hl hm ((List.perm_ext_iff_of_nodup (nd hl) (nd hm)).2 h)
  intro a b _ _ hab hba
  exact absurd (dueLt_trans hab hba) (irr a)

/-- A list that names the due entries in order is what the model fires or treats (R67, R79). -/
theorem State.dueInOrder_eq {s : State} {t : Time} {l : List Index} (h : s.dueInOrder t l) : dueBy s.scu.entries t = l := by
  obtain ⟨h1, h2⟩ := dueBy_spec s.scu.entries t
  exact eq_of_dueLt h1 h.2 fun i => (h2 i).trans (h.1 i).symm

/-! ## One event over many entries -/

/-- What an event does to the schedule: new entries, operations and records. -/
def State.afterEntries (s : State) (es : Vector Entry 64) (ops : List Action) (records : List Posted) : State :=
  { s with
    scu := { s.scu with entries := es }
    mail := { s.mail with ops := s.mail.ops ++ ops, records := s.mail.records ++ records } }

/-- A fold over distinct entries, each treated from its own record, the quality and the SCU's time alone: every entry of the
list is treated once, every other entry stands, and operations and records come in the list's order. -/
theorem State.foldl_entries (act : State → Index → State) (E : Index → Entry) (O : Index → List Action)
    (R : Index → List Posted) (l : List Index) (hl : l.Nodup) (s : State)
    (h : ∀ (t : State), ∀ i ∈ l, t.quality = s.quality → t.scu.now = s.scu.now →
      t.scu.entries[i] = s.scu.entries[i] → act t i = t.afterEntries (t.scu.entries.set i.val (E i)) (O i) (R i)) :
    ∃ es : Vector Entry 64, l.foldl act s = s.afterEntries es (l.flatMap O) (l.flatMap R)
      ∧ (∀ i ∈ l, es[i] = E i) ∧ ∀ i, i ∉ l → es[i] = s.scu.entries[i] := by
  induction l generalizing s with
  | nil => exact ⟨s.scu.entries, by simp [State.afterEntries], by simp, by simp⟩
  | cons a l ih =>
    rw [List.nodup_cons] at hl
    have e := h s a (List.mem_cons_self ..) rfl rfl rfl
    have get : ∀ i : Index, i ≠ a → (act s a).scu.entries[i] = s.scu.entries[i] := fun i hi => by
      have : a.val ≠ i.val := fun e => hi (Fin.ext e.symm)
      rw [e]; simp [State.afterEntries, Vector.getElem_set_ne, this]
    have ne : ∀ i ∈ l, i ≠ a := fun i hi e => hl.1 (e ▸ hi)
    obtain ⟨es, h1, h2, h3⟩ := ih hl.2 (act s a) fun t i hi hq hn he =>
      h t i (List.mem_cons_of_mem _ hi) (hq.trans (by rw [e]; rfl)) (hn.trans (by rw [e]; rfl))
        (he.trans (get i (ne i hi)))
    refine ⟨es, ?_, ?_, ?_⟩
    · rw [List.foldl_cons, h1, e]; simp [State.afterEntries]
    · intro i hi
      rcases List.mem_cons.1 hi with rfl | hi
      · rw [h3 i hl.1, e]; simp [State.afterEntries]
      · exact h2 i hi
    · intro i hi
      rw [List.mem_cons, not_or] at hi
      rw [h3 i hi.2, get i hi.1]

/-- A firing as an event on one entry (R69). -/
theorem State.fire_after (s : State) (i : Index) (k : Nat) (t : Time) (cause : Cause) (links : Links) :
    s.fire i k t cause links = s.afterEntries (s.scu.entries.set i.val (s.scu.entries[i].consume k))
      s.scu.entries[i].action.toList
      (if s.scu.entries[i].scope = .nobody then [] else [firePosted i s.scu.entries[i] k t cause s.quality links]) := by
  rw [State.fire_eq]
  by_cases hs : s.scu.entries[i].scope = .nobody
  · rw [if_pos hs, if_pos hs]; simp [State.afterEntries]
  · rw [if_neg hs, if_neg hs]
    simp [State.afterEntries, State.posted, firePosted, fireBody, lateness, Scope.beq_all]

/-- A miss as an event on one entry (R76). -/
theorem State.miss_after (s : State) (i : Index) (k : Nat) (t : Time) (cause : Cause) (links : Links) :
    s.miss i k t cause links = s.afterEntries (s.scu.entries.set i.val (s.scu.entries[i].consume k)) []
      [missPosted i s.scu.entries[i] k t cause s.quality links] := by
  rw [State.miss_eq]
  simp [State.afterEntries, State.posted, State.withEntry, missPosted, lateness, Entry.missAddress]

/-- A treatment as an event on one entry (R75, R76). -/
theorem State.treat_after (s : State) (i : Index) (t : Time) (cause : Cause) (links : Links) :
    s.treat i t cause links = s.afterEntries
      (s.scu.entries.set i.val (s.scu.entries[i].consume (s.scu.entries[i].passed t))) s.scu.entries[i].treatOps
      (s.scu.entries[i].treatRecords i (s.scu.entries[i].passed t) t cause s.quality links) := by
  rcases s.treat_cases i t cause links with ⟨h, e⟩ | ⟨h, e⟩
  · rw [e, State.fire_after]; unfold Entry.treatOps Entry.treatRecords; rw [h]
  · rw [e, State.miss_after]; unfold Entry.treatOps Entry.treatRecords; rw [h]

/-! ## Occurrences (R56, R74) -/

/-- The first occurrence later than a time, by its number (R56). -/
theorem advancePast_eq {D P n now : Nat} (h1 : 1 ≤ n) (h2 : D + (n - 1) * P ≤ now) (h3 : now < D + n * P) :
    advancePast D P now = D + n * P := by
  unfold advancePast
  have hp : 0 < P := by
    rcases Nat.eq_zero_or_pos P with h | h
    · subst h; simp at h2 h3; omega
    · exact h
  have : (now - D) / P = n - 1 := by
    rw [Nat.div_eq_iff hp]
    obtain ⟨m, rfl⟩ : ∃ m, n = m + 1 := ⟨n - 1, by omega⟩
    simp only [Nat.add_sub_cancel, Nat.add_mul] at *
    omega
  rw [this]; congr 2; omega

/-- A due at or before a time has a number of occurrences up to it (R74). -/
theorem exists_occurrences (D P now : Nat) (hp : 0 < P) (h : D ≤ now) :
    ∃ n, 1 ≤ n ∧ D + (n - 1) * P ≤ now ∧ now < D + n * P := by
  refine ⟨(now - D) / P + 1, Nat.le_add_left 1 _, ?_, ?_⟩
  · have := Nat.div_mul_le_self (now - D) P; simp only [Nat.add_sub_cancel]; omega
  · have := Nat.lt_div_mul_add (a := now - D) hp; rw [Nat.add_mul, Nat.one_mul]
    generalize (now - D) / P * P = m at *; omega

/-! ## The payloads of ARM and PRIME (R51) -/

theorem flagOf_flags (c : Creation) (d : Bool) : flagOf (c.flags d) 0 = d ∧ flagOf (c.flags d) 1 = c.period.isSome
    ∧ flagOf (c.flags d) 2 = c.remaining.isSome ∧ flagOf (c.flags d) 3 = c.action.isSome := by
  unfold Creation.flags
  generalize c.period.isSome = a; generalize c.remaining.isSome = b; generalize c.action.isSome = e
  revert d a b e; decide

@[simp] theorem Creation.length_bytes (c : Creation) : c.bytes.length = 14 := by simp [Creation.bytes]

theorem creationOperands_of {pre : List Byte} {c : Creation} {d : Bool} {k : Nat} (hc : c.Ok d)
    (hk : pre.length = k) (hf : (pre ++ c.bytes).getD 0 0 = c.flags d) (hl : fieldNat (pre ++ c.bytes) 1 2 = c.label) :
    creationOperands (pre ++ c.bytes) k = some c := by
  obtain ⟨h0, h1, h2, h3⟩ := flagOf_flags c d
  obtain ⟨k1, k2, k3, k4, k5⟩ := hc
  have ht : fieldTime (pre ++ c.bytes) k = some (c.period.getD 0) := by
    have := fieldTime_append_at (a := pre) (b := c.bytes) (offset := 0) hk
    rw [Nat.add_zero] at this; rw [this]
    unfold Creation.bytes
    rw [List.append_assoc, fieldTime_append_within (by simp), fieldTime_timeBytes]
    cases hp : c.period with
    | none => simp [Config.maxTime]
    | some P => exact Nat.le_trans (k2 P hp).2 (by decide)
  have hb : ∀ o w, fieldNat (pre ++ c.bytes) (k + o) w = fieldNat c.bytes o w := fun o w => fieldNat_append_at hk
  have hr : fieldNat c.bytes 8 2 = c.remaining.getD 0 := by
    unfold Creation.bytes
    rw [List.append_assoc, fieldNat_append_at (k := 8) (offset := 0) (by simp), fieldNat_append_within (by simp), fieldNat_beBytes]
    cases hp : c.remaining with
    | none => simp
    | some P => have := (k3 P hp).2; simp only [Option.getD_some]; omega
  have hx : ∀ o, fieldNat c.bytes (10 + o) 1 = fieldNat [BitVec.ofNat 8 ((c.action.map fun a => a.line.val).getD 0), ((c.action.map fun a => a.op.code).getD 0),
      c.scope.code, c.policy.code] o 1 := by
    intro o; unfold Creation.bytes; rw [fieldNat_append_at (by simp)]
  unfold creationOperands
  simp only [hf, hl, hb]
  rw [show (10 : Nat) = 10 + 0 from rfl, show (12 : Nat) = 10 + 2 from rfl, show (13 : Nat) = 10 + 3 from rfl]
  unfold periodOperand remainingOperand actionOperand scopeOperand
  rw [h0, h1, h2, h3, ht]
  simp only [show k + (10 + 0) + 1 = k + (10 + 1) by omega, hb, hx, hr]
  have e1 : (if c.period.isSome = true then (((some (c.period.getD 0)).bind (inRange Config.minPeriod Config.maxPeriod)).map some) else some none) = some c.period := by
    cases hp : c.period with
    | none => rfl
    | some P => simp [inRange, k2 P hp]
  have e2 : (if c.remaining.isSome = true then (if c.period.isSome = true then (inRange 1 65535 (c.remaining.getD 0)).map some else none) else some none) = some c.remaining := by
    cases hp : c.remaining with
    | none => rfl
    | some P => simp [inRange, k3 P hp, k4 (by rw [hp]; rfl)]
  rw [e1, e2]
  have e3 : (if c.action.isSome = true then (lineOf (fieldNat [BitVec.ofNat 8 ((c.action.map fun a => a.line.val).getD 0), ((c.action.map fun a => a.op.code).getD 0),
      c.scope.code, c.policy.code] 0 1)).bind (fun line => (LineOp.ofCode (fieldNat [BitVec.ofNat 8 ((c.action.map fun a => a.line.val).getD 0), ((c.action.map fun a => a.op.code).getD 0),
      c.scope.code, c.policy.code] 1 1)).map fun op => some ({ line, op } : Machine.Action)) else some none) = some c.action := by
    cases hp : c.action with
    | none => rfl
    | some a =>
      obtain ⟨n, op⟩ := a
      revert n op
      generalize c.scope.code = x; generalize c.policy.code = y
      intro n op _
      have hn : n.val % 256 = n.val := by omega
      cases op <;> simp [fieldNat, field, beNat, lineOf, LineOp.code, LineOp.ofCode, hn]
  have e4 : (Scope.ofCode (fieldNat [BitVec.ofNat 8 ((c.action.map fun a => a.line.val).getD 0), ((c.action.map fun a => a.op.code).getD 0),
      c.scope.code, c.policy.code] 2 1)).bind (fun sc => if (d && sc == .owner) = true then none else some sc) = some c.scope := by
    cases hs : c.scope <;> simp [fieldNat, field, beNat, Scope.code, Scope.ofCode]
    cases d
    · simp
    · exact absurd hs (k5 rfl)
  have e5 : LatePolicy.ofCode (fieldNat [BitVec.ofNat 8 ((c.action.map fun a => a.line.val).getD 0), ((c.action.map fun a => a.op.code).getD 0),
      c.scope.code, c.policy.code] 3 1) = some c.policy := by
    cases hs : c.policy <;> simp [fieldNat, field, beNat, LatePolicy.code, LatePolicy.ofCode]
  simp only [Option.bind_eq_bind] at *
  rw [e3]; simp only [Option.bind_some, e4, e5]; rfl

theorem armOperands_armPayload {c : Creation} {d : Bool} {due : Time} (hc : c.Ok d) (hd : due ≤ Config.maxTime) :
    armOperands (armPayload d due c) = some (due, c) := by
  have hl := hc.1
  unfold armOperands armPayload
  rw [creationOperands_of hc (by simp) (by simp) (by
    rw [List.append_assoc, List.append_assoc, fieldNat_append_at (k := 1) (offset := 0) (by simp), fieldNat_append_within (by simp), fieldNat_beBytes (by simpa using hl)])]
  rw [List.append_assoc, fieldTime_append_at (k := 3) (offset := 0) (by simp), fieldTime_append_within (by simp), fieldTime_timeBytes hd]
  rfl

theorem primeOperands_primePayload {c : Creation} {d : Bool} {q : PrimeSpec} (hc : c.Ok d) (hd : q.delay ≤ 100000000) :
    primeOperands (primePayload d q c) = some (q, c) := by
  have hl := hc.1
  unfold primeOperands primePayload
  rw [creationOperands_of hc (by simp) (by simp) (by
    simp only [List.append_assoc]
    rw [fieldNat_append_at (k := 1) (offset := 0) (by simp), fieldNat_append_within (by simp), fieldNat_beBytes (by simpa using hl)])]
  simp only [List.append_assoc]
  rw [← List.append_assoc]
  have hb : ∀ o w, fieldNat (([c.flags d] ++ beBytes c.label 2) ++ ([BitVec.ofNat 8 q.input.val, q.edge.code] ++ (beBytes q.delay 4 ++ ([boolCode q.rearm] ++ c.bytes)))) (3 + o) w = fieldNat ([BitVec.ofNat 8 q.input.val, q.edge.code] ++ (beBytes q.delay 4 ++ ([boolCode q.rearm] ++ c.bytes))) o w := fun o w => fieldNat_append_at (by simp)
  rw [show (3 : Nat) = 3 + 0 from rfl, show (4 : Nat) = 3 + 1 from rfl, show (5 : Nat) = 3 + 2 from rfl, show (9:Nat) = 3 + 6 from rfl, hb, hb, hb, hb]
  have e1 : fieldNat ([BitVec.ofNat 8 q.input.val, q.edge.code] ++ (beBytes q.delay 4 ++ ([boolCode q.rearm] ++ c.bytes))) 2 4 = q.delay := by
    rw [fieldNat_append_at (k := 2) (offset := 0) (by simp), fieldNat_append_within (by simp), fieldNat_beBytes (by norm_num; omega)]
  have e2 : fieldNat ([BitVec.ofNat 8 q.input.val, q.edge.code] ++ (beBytes q.delay 4 ++ ([boolCode q.rearm] ++ c.bytes))) 6 1 = (boolCode q.rearm).toNat := by
    rw [← List.append_assoc, fieldNat_append_at (k := 6) (offset := 0) (by simp)]; simp [fieldNat, field, beNat]
  simp only [Nat.reduceAdd]
  rw [e1, e2]
  have hn : q.input.val % 256 = q.input.val := by omega
  obtain ⟨n, e, dl, r⟩ := q
  cases e <;> cases r <;> simp [fieldNat, field, beNat, lineOf, PrimeEdge.code, PrimeEdge.ofCode, inRange, Config.maxDelay, boolCode, boolOf, hn] at * <;> rw [if_pos hd] <;> rfl

/-- A creating request that passes its checks comes to the index it receives (R51 to R53). -/
theorem State.creating_of_creates {α : Type} {s : State} {p : Port} {payload : List Byte} {a : α} {c : Creation}
    {i : Index} {d : Bool} {operands : Option (α × Creation)} {k : Index → Option Port → α → Creation → Reply}
    (h : s.creates p d c i) (hd : detachedFlag payload = d) (ho : operands = some (a, c)) :
    s.creating p payload operands k = k i (if d then none else some p) a c := by
  obtain ⟨h1, h2, h3, h4, h5, h6⟩ := h
  unfold State.creating
  rw [State.ifAttached_of_attached h1, hd, ho]
  simp only [State.ifInRange_some]
  have hq : (d && decide (s.sau.holder ≠ some p)) = false := by
    cases d
    · rfl
    · simp [h2 rfl]
  have hl : (c.action.any fun act => s.denies (if d then none else some p) act.line) = false := by
    cases ha : c.action with
    | none => rfl
    | some act =>
      rw [Option.any_some]
      unfold State.denies
      rcases h3 act ha with e | ⟨rfl, e⟩ <;> rw [e] <;> simp
  have hu : (!d && decide (s.scu.quota[p] ≤ s.scu.use p)) = false := by
    cases d
    · have := h4 rfl; simp; omega
    · rfl
  have hf : s.scu.firstFree = some i := by
    unfold Scu.firstFree indexesWhere
    rw [List.head?_filter]
    refine List.find?_eq_some_iff_append.2 ⟨by simpa using h5,
      (List.finRange 64).take i.val, (List.finRange 64).drop (i.val + 1), ?_, ?_⟩
    · conv_lhs => rw [← List.take_append_drop i.val (List.finRange 64)]
      rw [List.drop_eq_getElem_cons (by simp)]; simp
    · intro j hj
      obtain ⟨n, hn, rfl⟩ := List.mem_take_iff_getElem.1 hj
      have : s.scu.entries[(List.finRange 64)[n]'(by omega)].state ≠ .free := h6 _ (by rw [Fin.lt_def]; simp; omega)
      simpa using this
  rw [hq, hl, hu, hf]
  rfl

end Sys2Proof.Machine
end

