-- ==== Sys2Proof/Laws/Ticks.lean ====
section
/-! SUPPORT. What a tick can do, block by block, and the table of corrections in numbers (R3 to R8, R90, R101). -/

namespace Sys2Proof.Machine

/-- The source follows the supervision state (R29). -/
theorem State.source_eq (s : State) : s.source = if s.rsv.state = .locked then .refclk else .internal := by
  unfold State.source; cases s.rsv.state <;> rfl

/-- An advance keeps the flag and both trims. -/
theorem Tbu.advance_keeps (t : Tbu) (src : Source) :
    (t.advance src).1.isSet = t.isSet ∧ (t.advance src).1.refTrim = t.refTrim ∧ (t.advance src).1.intTrim = t.intTrim
      ∧ (t.advance src).1.trimTaken = none ∧ (t.advance src).1.slewTaken = false := by
  unfold Tbu.advance Tbu.trimPart
  cases t.trimTaken <;> cases src <;> exact ⟨rfl, rfl, rfl, rfl, rfl⟩

/-- The TBU's part of a tick held at the maximum (R8). -/
theorem State.tbuTick_held {s : State} (src : Source) (turn : Nat) (h : s.tbu.time = Config.maxTime) :
    s.tbuTick src turn = { s with tbu := { s.tbu with trimTaken := none, slewTaken := false } } := by
  unfold State.tbuTick; rw [if_pos h]; rfl

/-- The TBU's part of any other tick: its own state, the record of a slew that ended, the hand-over of the new time. -/
theorem State.tbuTick_moving {s : State} (src : Source) (turn : Nat) (h : s.tbu.time ≠ Config.maxTime) :
    s.tbuTick src turn = { s with
      tbu := (s.tbu.advance src).1
      mail := { s.mail with
        toScu := s.mail.toScu ++ [.advance turn (s.tbu.advance src).1.time]
        records := s.mail.records ++ (s.tbu.advance src).2.toList.map fun w =>
          { producer := .tbu, quality := s.quality, time := (s.tbu.advance src).1.time,
            body := .slewDone w.origin w.initial w.spacing, address := none, links := { turn := some turn } } } } := by
  unfold State.tbuTick
  rw [if_neg h]
  have hq : ({ s with tbu := (s.tbu.advance src).1 } : State).quality = s.quality :=
    State.quality_congr (Tbu.advance_keeps _ _).1 rfl
  cases he : (s.tbu.advance src).2 with
  | none => simp only [he, Option.toList_none, List.map_nil, List.append_nil]
  | some w => simp only [he, Option.toList_some, List.map_cons, List.map_nil, State.post, hq]

/-- The TBU's part of a tick touches the TBU, the hand-overs to the SCU and the records alone. -/
theorem State.tbuTick_frame (s : State) (src : Source) (turn : Nat) :
    s.tbuTick src turn = { s with
      tbu := (s.tbuTick src turn).tbu
      mail := { s.mail with
        toScu := (s.tbuTick src turn).mail.toScu, records := (s.tbuTick src turn).mail.records } } := by
  by_cases h : s.tbu.time = Config.maxTime
  · rw [State.tbuTick_held src turn h]
  · rw [State.tbuTick_moving src turn h]

/-- A tick in its three blocks: the TBU's part, then the counts of the TOU and the ECU, under the next turn (R90, R101). -/
theorem State.tickOf_eq (s : State) (src : Source) :
    s.tickOf src = { s with
      tbu := (s.tbuTick src s.mail.turns).tbu
      tou := { lines := s.tou.lines.map TrigLine.tick }
      ecu := { inputs := s.ecu.inputs.map Input.tick }
      mail := { s.mail with
        turns := s.mail.turns + 1
        toScu := (s.tbuTick src s.mail.turns).mail.toScu
        toEcu := s.mail.toEcu ++ ((List.finRange 8).filter fun n => s.ecu.inputs[n].sampleDue).map fun n =>
          .sample s.mail.turns n (s.tbuTick src s.mail.turns).tbu.time
        records := (s.tbuTick src s.mail.turns).mail.records } } := by
  unfold State.tickOf State.ecuTick
  rw [State.tbuTick_frame]

/-! ## What is done before a tick (R91, R101) -/

/-- With nothing waiting for the SCU, the TOU or the ECU, nothing is done before a tick. -/
theorem State.catchUp_of_taken {s : State} (h : s.handoversTaken) : s.catchUp = s := by
  obtain ⟨h1, h2, h3⟩ := h
  have a : s.scuCatchUp = s := by unfold State.scuCatchUp; rw [h1]; rfl
  have b : s.touCatchUp = s := by unfold State.touCatchUp; rw [h2]; rfl
  have c : s.ecuCatchUp = s := by unfold State.ecuCatchUp; rw [h3]; rfl
  unfold State.catchUp; rw [a, b, c]

/-- A timer that is due is one at its limit. -/
theorem Session.timedOut_iff (ses : Session) : ses.timedOut = true ↔ ses.atLimit := by
  simp [Session.timedOut, Session.atLimit, and_assoc]

/-- Everything the advance of a session end can do: nothing where there is none, else the SCU's step, which stands where it was
taken, and the ELU's. -/
theorem State.advanceEnd_cases (s : State) :
    (s.sau.ending = none ∧ s.advanceEnd = s)
      ∨ ∃ e, s.sau.ending = some e ∧ s.advanceEnd = (s.scuSessionEnd e.port).eluSessionEnd e.port := by
  unfold State.advanceEnd
  cases h : s.sau.ending with
  | none => exact .inl ⟨rfl, rfl⟩
  | some e => exact .inr ⟨e, rfl, rfl⟩

/-- A session end that the ELU cannot take yet does not go on. -/
theorem State.advanceEnd_of_endWaits {s : State} (h : s.endWaits = true) : s.advanceEnd = s := by
  unfold State.endWaits at h
  unfold State.advanceEnd
  cases he : s.sau.ending with
  | none => rfl
  | some e =>
    rw [he, Option.any_some, Bool.and_eq_true, beq_iff_eq] at h
    obtain ⟨hp, hw⟩ := h
    have h1 : s.scuSessionEnd e.port = s := by unfold State.scuSessionEnd; rw [he]; simp [hp]
    simp only
    rw [h1]
    unfold State.eluSessionEnd State.installWaits State.ownRecordsWait
    rw [he]
    simp only
    rw [if_neg]
    rintro ⟨-, -, h3, h4⟩
    rw [Bool.not_eq_true'] at h3 h4
    rw [h3, h4] at hw
    cases hw

/-- Everything the settling of one port's timer can do: nothing, the expiry, or the mark on one that must wait (R138). -/
theorem State.expireDue_cases (s : State) (p : Port) :
    (¬ s.sau.sessions[p].atLimit ∧ s.expireDue p = s)
      ∨ (s.sau.sessions[p].atLimit ∧ s.advanceEnd.sau.ending = none ∧ s.expireDue p = s.advanceEnd.idleExpiry p)
      ∨ (s.sau.sessions[p].atLimit ∧ s.advanceEnd.sau.ending.isSome = true
        ∧ s.expireDue p = s.advanceEnd.withSession p fun ses => { ses with overdue := true }) := by
  unfold State.expireDue
  by_cases h : s.sau.sessions[p].timedOut = true
  · have ha := (Session.timedOut_iff _).1 h
    rw [if_pos h]
    cases he : s.advanceEnd.sau.ending with
    | none => exact .inr (.inl ⟨ha, rfl, by simp only [he]; rfl⟩)
    | some e => exact .inr (.inr ⟨ha, rfl, by simp only [he]; rfl⟩)
  · exact .inl ⟨fun ha => h ((Session.timedOut_iff _).2 ha), if_neg h⟩

/-- An expiry that waits under its mark stays as it is. -/
theorem State.expireDue_of_overdue {s : State} (h : s.endWaits = true) {p : Port} (ho : s.sau.sessions[p].overdue = true) :
    s.expireDue p = s := by
  have ha := State.advanceEnd_of_endWaits h
  rcases s.expireDue_cases p with ⟨-, e1⟩ | ⟨-, hn, -⟩ | ⟨-, -, e1⟩
  · exact e1
  · rw [ha] at hn
    unfold State.endWaits at h
    rw [hn] at h
    cases h
  · have hm : ({ s.sau.sessions[p] with overdue := true } : Session) = s.sau.sessions[p] := by rw [← ho]
    have hs : s.sau.sessions.set p.val s.sau.sessions[p] = s.sau.sessions := by simp
    rw [e1, ha]
    show ({ s with sau := { s.sau with
      sessions := s.sau.sessions.set p.val { s.sau.sessions[p] with overdue := true } } } : State) = s
    rw [hm, hs]

/-- A timer below its limit stays as it is. -/
theorem State.expireDue_of_below {s : State} {p : Port} (h : ¬ s.sau.sessions[p].atLimit) : s.expireDue p = s :=
  if_neg fun ht => h ((Session.timedOut_iff _).1 ht)

/-- A timer below its limit, and an expiry that waits under its mark, stay as they are. -/
theorem State.expireDue_of_settled {s : State} (h : s.sessionsSettled) (p : Port) : s.expireDue p = s := by
  by_cases ha : s.sau.sessions[p].atLimit
  · exact State.expireDue_of_overdue (h.2 p ha).1 (h.2 p ha).2
  · exact State.expireDue_of_below ha

/-- With every report taken, and every expiry that can be, the SAU takes nothing before a tick. -/
theorem State.settleSessions_of_settled {s : State} (h : s.sessionsSettled) : s.settleSessions = s := by
  have hr : s.takeReports = s := by unfold State.takeReports; rw [h.1]; rfl
  unfold State.settleSessions
  rw [hr]
  generalize List.finRange 4 = l
  induction l with
  | nil => rfl
  | cons p l ih => rw [List.foldl_cons, State.expireDue_of_settled h p]; exact ih

/-- Two states settle alike where the first timer that one of them has to settle is settled alike. -/
theorem State.settleSessions_congr {s u : State} (p : Port) (hs : s.mail.reports = []) (hu : u.mail.reports = [])
    (h1 : ∀ q < p, s.expireDue q = s) (h2 : ∀ q < p, u.expireDue q = u) (h : s.expireDue p = u.expireDue p) :
    s.settleSessions = u.settleSessions := by
  have before : ∀ p : Port, ∀ q ∈ (List.finRange 4).take p.val, q < p := by decide
  have split : ∀ p : Port, List.finRange 4 = (List.finRange 4).take p.val ++ p :: (List.finRange 4).drop (p.val + 1) := by
    decide
  have key : ∀ (v : State), v.mail.reports = [] → (∀ q < p, v.expireDue q = v) →
      v.settleSessions = ((List.finRange 4).drop (p.val + 1)).foldl State.expireDue (v.expireDue p) := by
    intro v hr hv
    have e : v.takeReports = v := by unfold State.takeReports; rw [hr]; rfl
    unfold State.settleSessions
    rw [e, split p, List.foldl_append, List.foldl_cons, ← split p]
    congr 2
    have hb := before p
    generalize (List.finRange 4).take p.val = l at hb
    induction l with
    | nil => rfl
    | cons q l ih =>
      rw [List.foldl_cons, hv q (hb q (List.mem_cons_self ..))]
      exact ih fun r hr => hb r (List.mem_cons_of_mem _ hr)
  rw [key s hs h1, key u hu h2, h]

/-- With no event of the supervision due, settling changes nothing. -/
theorem State.settleDue_of_nothingDue {s : State} (h : s.rsv.nothingDue) : s.settleDue = s := by
  obtain ⟨h1, h2⟩ := h
  have hm : s.rsv.missingDue = false := by
    unfold Rsv.missingDue
    cases he : s.rsv.config.enabled with
    | false => rfl
    | true => rw [Bool.true_and]; exact decide_eq_false (Nat.not_le.2 (h1 he).1)
  have hc : s.rsv.closeDue = false := by
    unfold Rsv.closeDue
    cases he : s.rsv.config.enabled with
    | false => rfl
    | true =>
      rw [Bool.true_and]
      rcases (h1 he).2 with hx | hx
      · rw [show decide (Config.windowCycles ≤ s.rsv.cycles) = false from decide_eq_false (Nat.not_le.2 hx)]; rfl
      · rw [hx]; simp
  have ha : s.rsv.ageDue = false := by
    unfold Rsv.ageDue
    by_cases hs : s.rsv.state = .holdover
    · rw [show decide (Config.secondCycles ≤ s.rsv.ageCycles) = false from decide_eq_false (Nat.not_le.2 (h2 hs))]; simp
    · simp [hs]
  unfold State.settleDue State.settleWindow State.windowClose State.holdoverAgeIncrement
  simp [hm, hc, ha]

/-- A tick that is ready is one of REFCLK at the edge that waits, or else one of the internal oscillator and a cycle of its
counters (R2, R29). -/
theorem State.tick_of_ready {s : State} (h : s.tickReady) :
    s.tick = if 0 < s.mail.refTicks then
        { s with mail := { s.mail with refTicks := s.mail.refTicks - 1 } }.tickOf .refclk
      else (s.tickOf .internal).countCycle := by
  obtain ⟨⟨h1, hs, h2⟩, h3⟩ := h
  unfold State.tick
  rw [State.catchUp_of_taken h1, State.settleSessions_of_settled hs]
  have he : s.tickEdge = s := by
    unfold State.tickEdge
    by_cases hr : 0 < s.mail.refTicks
    · rw [if_pos hr]
    · have h0 : s.mail.refTicks = 0 := Nat.eq_zero_of_not_pos hr
      rw [if_neg hr, State.settleDue_of_nothingDue (h2 h0)]
      have : s.source = .internal := by rw [State.source_eq, if_neg (h3 h0)]
      simp only [this]
  rw [he]; rfl

/-- One cycle of the counters, as statements speak of it. -/
theorem State.countCycle_eq (s : State) : s.countCycle = s.cycled := by
  have h : Session.cycle = Session.cycled := by
    funext ses
    unfold Session.cycle Session.cycled
    by_cases h : ses.attached = true ∧ ses.limit ≠ 0 ∧ ses.seconds < ses.limit
    · rw [if_pos h, if_pos h]
      by_cases hc : ses.cycles + 1 < 10000000
      · have : ¬ Config.secondCycles ≤ ses.cycles + 1 := Nat.not_le.2 hc
        simp [hc, this]
      · have : Config.secondCycles ≤ ses.cycles + 1 := Nat.le_of_not_lt hc
        simp [hc, this]
    · rw [if_neg h, if_neg h]
  unfold State.countCycle State.cycled
  rw [h]; rfl

/-- The source of a tick that is ready: REFCLK at an edge that waits, and else the internal oscillator (R29). -/
theorem State.tickSource_of_ready {s : State} (h : s.tickReady) :
    s.tickSource = if 0 < s.mail.refTicks then .refclk else .internal := by
  unfold State.tickSource
  by_cases hr : 0 < s.mail.refTicks
  · rw [if_pos hr, if_pos hr]
  · rw [if_neg hr, if_neg hr, State.source_eq, if_neg (h.2 (Nat.eq_zero_of_not_pos hr))]

/-- A tick that is ready, block by block, in terms of the state before it (R2, R3, R29, R90, R101). -/
theorem State.tick_at {s : State} (h : s.tickReady) : s.tick = { s with
    tbu := (s.tbuTick s.tickSource s.mail.turns).tbu
    rsv := if 0 < s.mail.refTicks then s.rsv else s.rsv.cycled
    sau := if 0 < s.mail.refTicks then s.sau else s.cycled.sau
    tou := { lines := s.tou.lines.map TrigLine.tick }
    ecu := { inputs := s.ecu.inputs.map Input.tick }
    mail := { s.mail with
      refTicks := s.mail.refTicks - 1
      turns := s.mail.turns + 1
      toScu := (s.tbuTick s.tickSource s.mail.turns).mail.toScu
      toEcu := s.mail.toEcu ++ ((List.finRange 8).filter fun n => s.ecu.inputs[n].sampleDue).map fun n =>
        .sample s.mail.turns n (s.tbuTick s.tickSource s.mail.turns).tbu.time
      records := (s.tbuTick s.tickSource s.mail.turns).mail.records } } := by
  rw [State.tick_of_ready h, State.tickSource_of_ready h]
  by_cases hr : 0 < s.mail.refTicks
  · have hb : ({ s with mail := { s.mail with refTicks := s.mail.refTicks - 1 } } : State).tbuTick .refclk s.mail.turns
        = { s.tbuTick .refclk s.mail.turns with
            mail := { (s.tbuTick .refclk s.mail.turns).mail with refTicks := s.mail.refTicks - 1 } } := by
      by_cases hm : s.tbu.time = Config.maxTime
      · rw [State.tbuTick_held _ _ hm,
          State.tbuTick_held (s := { s with mail := { s.mail with refTicks := s.mail.refTicks - 1 } }) _ _ hm]
      · rw [State.tbuTick_moving _ _ hm,
          State.tbuTick_moving (s := { s with mail := { s.mail with refTicks := s.mail.refTicks - 1 } }) _ _ hm]
        rfl
    simp only [if_pos hr]
    rw [State.tickOf_eq]
    simp only [hb]
  · have h0 : s.mail.refTicks = 0 := Nat.eq_zero_of_not_pos hr
    simp only [if_neg hr]
    rw [State.tickOf_eq, State.countCycle_eq]
    unfold State.cycled
    simp [h0]

end Sys2Proof.Machine
end

