-- ==== Sys2Proof/Tests/Slice0.lean ====
section
/-! SUPPORT. Tests: the check of WellFormed, single steps with expected results from the data book's worked sequences and tables, and for every obligation with hypotheses a witness that meets them. -/

namespace Sys2Proof.Tests

set_option maxRecDepth 8000
set_option Elab.async false

open Sys2Proof.Machine

/-! ## Small states -/

/-- The state a command leaves. -/
def after (c : Instr) (s : State) : State :=
  match exec c s with
  | .next t => t
  | .fault _ => s
  | .refused _ => s

/-- The same state with a request waiting in a port's slot under TAG 05H. -/
def ask (s : State) (p : Port) (c : Code) (payload : List Byte) : State :=
  { s with
    hpu := s.hpu.set p.val { Hpu.initial with slot := .executing 5 false (.waiting c payload) }
    mail := { s.mail with reports := [] }
    sau := { s.sau with sessions := s.sau.sessions.set p.val { s.sau.sessions[p] with overdue := false } } }

/-- The answer in a port's slot. -/
def answerOf (s : State) (p : Port) : Option (Result × List Byte) :=
  match s.hpu[p].slot with
  | .executing _ _ (.answered r l) => some (r, l)
  | .executing _ _ (.waiting _ _) => none
  | .executing _ _ .taken => none
  | .free => none

/-- Serve a request on a state and give its answer. -/
def reply (s : State) (p : Port) (c : Code) (payload : List Byte) : Option (Result × List Byte) :=
  answerOf (after (c.command p) (ask s p c payload)) p

/-- An attached session with an idle limit of 30 internal seconds. -/
def session30 : Session :=
  { attached := true, limit := 30, seconds := 0, cycles := 0, mask := 3, auth := false, sessionEnded := false,
    overdue := false }

/-- A subscription to every kind and every input. -/
def everything : Subscription := { kinds := 31, lines := 255 }

/-- Ports 0 and 1 attached and subscribed to everything, port 0 holder; port 0 senior. -/
def open2 : State :=
  { State.reset with
    sau := { State.reset.sau with sessions := #v[session30, session30, Session.initial, Session.initial], holder := some 0 }
    elu := { State.reset.elu with subs := #v[some everything, some everything, none, none] } }

/-- A time of so many seconds and counts. -/
def at_ (seconds counts : Nat) : Time := seconds * 10000000 + counts

/-- A one-shot entry of port 0 with a due, no action, scope OWNER and policy CATCHUP. -/
def oneShot (due : Time) : Entry :=
  { Entry.free 0 with state := .armed, owner := some 0, due := some due, scope := .owner }

def withEntries (s : State) (es : List (Index × Entry)) : State := es.foldl (fun s e => s.withEntry e.1 e.2) s

/-! ## WellFormed -/

theorem test_wellFormed_refuses_producers :
    (Instr.recordTake .tou).wellFormed = false ∧ (Instr.recordTake .elu).wellFormed = false
      ∧ (Instr.recordTake .hpu).wellFormed = false := by decide

theorem test_wellFormed_admits : (Instr.recordTake .scu).wellFormed = true ∧ Instr.tick.wellFormed = true := by decide

/-! ## Bytes (R154, R165; chapter 10) -/

/-- The two checks of R154. -/
theorem test_crc_of_the_data_book :
    crc [1, 0, 0] = 0x6B ∧ crc [0x31, 0x32, 0x33, 0x34, 0x35, 0x36, 0x37, 0x38, 0x39] = 0xF4
      ∧ crcOfBytes [1, 0, 0] = 0x6B
      ∧ crcOfBytes [0x31, 0x32, 0x33, 0x34, 0x35, 0x36, 0x37, 0x38, 0x39] = 0xF4 := by decide +kernel

/-- The worked READ_TIME exchange of chapter 10. -/
theorem test_readTime_payload :
    reply { State.reset with
      tbu := { State.reset.tbu with time := at_ 12 3400000, isSet := true }
      rsv := { State.reset.rsv with state := .locked } } 2 .readTime []
      = some (.ok, [0, 0, 0, 0, 0x0C, 0x33, 0xE1, 0x40, 3, 1]) := by decide +kernel

/-! ## The Timebase Unit (worked sequence of chapter 1) -/

/-- The start of the worked sequence: tick `n` follows it with the accumulator and the slew given. -/
def slewing (time : Time) (acc : Nat) (residual : Int) (counter : Nat) (deferred : Bool) : State :=
  { State.reset with
    rsv := { State.reset.rsv with state := .locked }
    tbu := { State.reset.tbu with
      time, isSet := true, refTrim := 200000, refAcc := acc
      slew := some { origin := .host, initial := residual, residual, spacing := 100, counter, deferred } } }

/-- Tick 2: both corrections are +1, the trim is applied and the slew deferred. -/
theorem test_tick_defers :
    let t := after .tick (slewing (at_ 12 3400001) 999800000 2 99 false)
    t.tbu.time = at_ 12 3400003 ∧ t.tbu.refAcc = 0 ∧ t.tbu.slew.map Slew.residual = some 2
      ∧ t.tbu.slew.map Slew.deferred = some true := by decide +kernel

/-- Tick 2 with residual −2: both corrections are consumed. -/
theorem test_tick_cancels :
    let t := after .tick (slewing (at_ 12 3400001) 999800000 (-2) 99 false)
    t.tbu.time = at_ 12 3400002 ∧ t.tbu.slew.map Slew.residual = some (-1) := by decide +kernel

theorem test_trimCorrectionDue :
    (after .trimCorrectionDue (slewing 5 999800000 2 0 false)).tbu.refAcc = 0 := by decide +kernel

theorem test_slewCorrectionDue :
    (after .slewCorrectionDue (slewing 5 0 2 99 false)).tbu.slew.map Slew.counter = some 0 := by decide +kernel

theorem test_disciplineSlew :
    (after .disciplineSlew { State.reset with mail := { Mail.empty with slews := [{ initial := 300, spacing := 1000 }] } }
      ).tbu.slew.map Slew.residual = some 300 := by decide +kernel

/-- A STEP_TIME of +5 000 000 counts cancels the slew (worked sequence, last paragraph). -/
theorem test_stepTime :
    let t := after (.stepTime 0) (ask { open2 with tbu := (slewing (at_ 12 3400003) 0 2 0 true).tbu } 0 .stepTime
      (beSigned 5000000 8))
    t.tbu.time = at_ 12 8400003 ∧ t.tbu.slew = none
      ∧ t.mail.records.map (fun r => r.body) = [.step true 5000000 false (some (.host, 2))] := by decide +kernel

theorem test_setTime :
    (after (.setTime 0) (ask open2 0 .setTime [0, 0, 0, 0, 1, 0, 0, 2])).tbu.time = at_ 1 2 := by decide +kernel

theorem test_setTime_fraction : reply open2 0 .setTime [0, 0, 0, 0, 0, 0x98, 0x96, 0x80] = some (.range, []) := by
  decide +kernel

theorem test_slewTime :
    (after (.slewTime 0) (ask open2 0 .slewTime [0xFF, 0xFF, 0xFF, 0xFE, 0, 100])).tbu.slew.map Slew.residual
      = some (-2) := by decide +kernel

theorem test_setTrim : reply open2 0 .setTrim [1, 0xFF, 0xFC, 0xF2, 0xC0] = some (.ok, [0, 0, 0, 0]) := by decide +kernel

theorem test_readTimebase_detached : reply open2 2 .readTimebase [] = some (.notAttached, []) := by decide +kernel

/-! ## The Reference Supervisor (worked sequences of chapter 2) -/

def windowOf (state : SupState) (good cycles edges gap : Nat) : State :=
  { State.reset with rsv := { State.reset.rsv with state, good, cycles, edges, gap, age := 41 } }

/-- Step 8: the hundredth GOOD window locks, with the age of the holdover in the record. -/
theorem test_windowClose_locks :
    let t := after .windowClose (windowOf .holdover 99 1000 1001 0)
    t.rsv.state = .locked ∧ t.rsv.good = 0
      ∧ t.mail.records.map (fun r => r.body) = [.refState .holdover .locked .qualified 1001 41] := by decide +kernel

/-- Step 6: a SLOW window sets G to 0. -/
theorem test_windowClose_slow : (after .windowClose (windowOf .holdover 60 1000 962 0)).rsv.good = 0 := by decide +kernel

/-- Step 2: MISSING after 16 cycles begins the holdover. -/
theorem test_missingDeclaration :
    let t := after .missingDeclaration (windowOf .locked 0 328 312 16)
    t.rsv.state = .holdover ∧ t.rsv.age = 0 ∧ t.rsv.last = some (312, .missing) := by decide +kernel

theorem test_refclkEdge :
    (after .refclkEdge (windowOf .locked 0 10 9 15)).rsv.edges = 10
      ∧ (after .refclkEdge (windowOf .locked 0 10 9 15)).rsv.gap = 0 := by decide +kernel

/-- An edge of REFCLK while it is selected leaves a tick to be taken at it (R29). -/
theorem test_refclkEdge_brings_a_tick :
    (after .refclkEdge (windowOf .locked 0 10 9 15)).mail.refTicks = 1
      ∧ (after .refclkEdge (windowOf .holdover 0 10 9 15)).mail.refTicks = 0 := by decide +kernel

/-- The variant Expiry: the age reaches 3 600. -/
theorem test_holdoverExpiry :
    let s : State := { State.reset with
      rsv := { State.reset.rsv with state := .holdover, age := 3599, ageCycles := 10000000 } }
    (after .holdoverExpiry s).rsv.state = .unlocked ∧ (after .holdoverAgeIncrement s).rsv.age = 3600 := by decide +kernel

/-- The table of the discipline sequence: F and E of its six edges. -/
theorem test_phaseError :
    [at_ 500 9999700, at_ 501 2, at_ 502 40000, at_ 505 9999999].map phaseError = [-300, 2, 40000, -1] := by decide

/-- Its fifth edge: the third outlier sets the fault. -/
theorem test_ppsEdge_outlier :
    let s : State := { State.reset with
      rsv := { State.reset.rsv with
        state := .locked, streak := 2, pps := { role := true, discipline := true, window := 1000, spacing := 1000 } }
      mail := { Mail.empty with ppsEdges := [{ stamp := at_ 504 40001, adjusted := false, suppressed := 0, capture := 0 }] } }
    (after .ppsEdgeHandover s).rsv.fault = true ∧ (after .ppsEdgeHandover s).mail.slews = [] := by decide +kernel

/-- The variant Lower limit: an age of 41 meets a limit of 30. -/
theorem test_refConfig_lower_limit :
    reply { open2 with rsv := { State.reset.rsv with state := .holdover, age := 41 } } 0 .refConfig [1, 20, 100, 0, 30]
      = some (.ok, [0, 0, 0, 41]) := by decide +kernel

theorem test_ppsConfig_role : reply open2 0 .ppsConfig [0, 1, 0, 0, 0, 1, 0, 100] = some (.range, []) := by decide +kernel

theorem test_readRef :
    reply open2 1 .readRef [] = some (.ok, [0, 0, 0, 0, 0, 0, 0, 0, 1, 20, 100, 0x0E, 0x10, 0, 0, 0, 0, 3, 0xE8, 3, 0xE8,
      0, 0, 0, 0, 0, 0, 0]) := by decide +kernel

/-! ## The Schedule Unit (worked sequences of chapters 3 and 4) -/

/-- The tick of advance 2: entry 14 fires before entry 6, and entry 6 goes on to 300 s + 1 008 with 1 remaining. -/
theorem test_timeAdvance_order :
    let e6 : Entry := { oneShot (at_ 300 8) with
      period := some 1000, remaining := some 2, initial := some 2, action := some { line := 4, op := .clear } }
    let e14 : Entry := { oneShot (at_ 300 7) with action := some { line := 4, op := .set } }
    let s := withEntries { State.reset with mail := { Mail.empty with toScu := [.advance 0 (at_ 300 8)] } }
      [(14, e14), (6, e6), (2, oneShot (at_ 300 9))]
    let t := after .timeAdvance s
    t.mail.ops = [{ line := 4, op := .set }, { line := 4, op := .clear }] ∧ t.scu.entries[14].state = .free
      ∧ t.scu.entries[6].due = some (at_ 300 1008) ∧ t.scu.entries[6].remaining = some 1
      ∧ t.scu.entries[2].state = .armed := by decide +kernel

/-- The forward step over entries 7, 5 and 9: k of 12, 3 and 1, one PULSE, and the records in that order. -/
theorem test_stepHandover_sequence :
    let e7 : Entry := { oneShot (at_ 200 1000000) with
      period := some 2500000, policy := .skip, scope := .all, occurrence := 40 }
    let e5 : Entry := { oneShot (at_ 200 4000000) with
      period := some (at_ 1 0), remaining := some 10, initial := some 13, action := some { line := 2, op := .pulse }
      occurrence := 3 }
    let e9 : Entry := { oneShot (at_ 202 0) with policy := .skip, scope := .nobody }
    let s := withEntries { State.reset with mail := { Mail.empty with toScu := [.step 0 (at_ 200 0) (at_ 203 500000)] } }
      [(7, e7), (5, e5), (9, e9), (12, oneShot (at_ 210 0))]
    let t := after .stepHandover s
    t.mail.ops = [{ line := 2, op := .pulse }] ∧ t.scu.entries[7].due = some (at_ 203 1000000)
      ∧ t.scu.entries[5].due = some (at_ 203 4000000) ∧ t.scu.entries[5].remaining = some 7
      ∧ t.mail.records.map (fun r => r.body) = [
        .missed 7 0 0 29500000 12 .stepped false, .fire 5 0 0 26500000 3 .stepped false .unset,
        .missed 9 0 0 10500000 1 .stepped true] := by decide +kernel

/-- The example of R56: a due of 97 s moves by 4 periods of 1 s to 101 s. -/
theorem test_arm_advanced :
    let s : State := { open2 with scu := { open2.scu with now := at_ 100 2500000 } }
    reply s 0 .arm [2, 0, 0, 0, 0, 0, 0, 97, 0, 0, 0, 0, 0, 0, 0, 1, 0, 0, 0, 0, 0, 0, 0, 1, 0]
      = some (.ok, [0, 0, 0, 0, 0, 0, 101, 0, 0, 0, 2]) := by decide +kernel

/-- Step 1 of the table's sequence: handle (0, 0). -/
theorem test_arm_future :
    reply open2 0 .arm [8, 0, 0, 0, 0, 0, 0, 105, 0, 0, 0, 0, 0, 0, 0, 0, 0, 0, 0, 0, 0, 0, 0, 1, 0]
      = some (.ok, [0, 0, 0, 0, 0, 0, 105, 0, 0, 0, 0]) := by decide +kernel

/-- Step 4: a PRIME on EVT3, RISE, delay 20 000, rearm YES, TRG0 PULSE. -/
theorem test_prime :
    let t := after (.prime 0) (ask open2 0 .prime
      [8, 0, 0, 3, 0, 0, 0, 0x4E, 0x20, 1, 0, 0, 0, 0, 0, 0, 0, 0, 0, 0, 0, 0, 1, 0])
    t.scu.entries[0].state = .primed ∧ t.scu.entries[0].prime
      = some { input := 3, edge := .rise, delay := 20000, rearm := true } := by decide +kernel

/-- Priming: the due is the timestamp plus the delay (worked sequence of chapter 6, sample 6). -/
theorem test_primingHandover :
    let e : Entry := { oneShot 0 with
      state := .primed, due := none, prime := some { input := 2, edge := .rise, delay := 20000, rearm := false } }
    let s := withEntries { State.reset with
      scu := { State.reset.scu with now := at_ 50 1020 }
      mail := { Mail.empty with primings := [{ input := 2, direction := .rise, stamp := at_ 50 1012, turn := 0, capture := 0 }] } } [(0, e)]
    (after (.primingHandover 2) s).scu.entries[0].due = some (at_ 50 21012) := by decide +kernel

/-- A delay of 0 gives a past due: the SCU takes the tick of the edge first, and then treats the entry with AT_ARM (R83). -/
theorem test_primingHandover_after_its_tick :
    let e : Entry := { oneShot 0 with
      state := .primed, due := none, prime := some { input := 2, edge := .rise, delay := 0, rearm := false } }
    let s := withEntries { State.reset with mail := { Mail.empty with
      toScu := [.advance 0 9]
      primings := [{ input := 2, direction := .rise, stamp := 9, turn := 0, capture := 0 }] } } [(0, e)]
    after (.primingHandover 2) s = s
      ∧ (after (.primingHandover 2) (after .timeAdvance s)).mail.records.map (fun r => r.body)
        = [.fire 0 0 0 0 1 .atArm true .unset] := by decide +kernel

/-- Steps 5 to 7: HOLD of (0, 0), HOLD of another port's entry, CANCEL of (1, 0). -/
theorem test_hold_cancel :
    let s := withEntries open2 [(0, oneShot (at_ 105 0)), (1, oneShot (at_ 102 0))]
    reply s 0 .hold [0, 0] = some (.ok, [0, 0, 0, 0, 105, 0, 0, 0]) ∧ reply s 1 .hold [1, 0] = some (.notOwner, [])
      ∧ reply s 0 .cancel [1, 0] = some (.ok, [1, 0, 0]) ∧ reply s 0 .cancel [1, 1] = some (.staleHandle, []) := by
  decide +kernel

/-- The variant of chapter 4: entry 5 resumed late at 203 s + 600 000 covers 3 occurrences. -/
theorem test_resume_late :
    let e5 : Entry := { oneShot (at_ 200 4000000) with
      state := .held, period := some (at_ 1 0), remaining := some 10, initial := some 13, occurrence := 3 }
    let s := withEntries { open2 with scu := { open2.scu with now := at_ 203 600000 } } [(5, e5)]
    reply s 0 .resume [5, 0] = some (.ok, [1, 0, 0, 0, 0, 203, 0x3D, 0x09, 0x00, 0, 0, 0, 3]) := by decide +kernel

/-- The listing of the table's sequence: port 0 sees its own entries, the holder the detached one. -/
theorem test_listEntries :
    let s := withEntries { open2 with sau := { open2.sau with holder := some 1 } }
      [(0, oneShot 5), (1, { oneShot 6 with generation := 1 }), (2, { oneShot 7 with owner := none, scope := .all }),
        (3, { oneShot 8 with state := .primed, due := none })]
    reply s 0 .listEntries [0] = some (.ok, [3, 0, 0, 0, 1, 1, 1, 1, 3, 0, 2])
      ∧ reply s 1 .listEntries [0] = some (.ok, [1, 0, 2, 0, 1]) := by decide +kernel

theorem test_queryEntry :
    reply (withEntries open2 [(0, oneShot (at_ 105 0))]) 0 .queryEntry [0, 0]
      = some (.ok, [2, 1, 0, 0, 0, 0, 0, 0, 0, 0, 105, 0, 0, 0, 0, 0, 0, 0, 0, 0, 0, 0, 0, 0, 0, 0, 0, 0, 1, 0, 0, 0, 0, 0,
        0, 0, 0, 0, 0]) := by decide +kernel

/-- Quota lowered: the answer gives the quota replaced and the use. -/
theorem test_setQuota : reply (withEntries open2 [(0, oneShot 5)]) 0 .setQuota [0, 2] = some (.ok, [16, 1]) := by
  decide +kernel

theorem test_scuSessionEnd :
    let s := withEntries { open2 with sau := { open2.sau with
      ending := some { port := 0, reason := .expired, phase := .atScu, freed := 0, records := [] } } }
      [(0, oneShot 5), (1, { oneShot 6 with owner := none, scope := .all })]
    (after (.scuSessionEnd 0) s).scu.entries[0] = Entry.free 1
      ∧ (after (.scuSessionEnd 0) s).scu.entries[1].state = .armed
      ∧ (after (.scuSessionEnd 0) s).sau.ending.map Ending.freed = some 1 := by decide +kernel

/-! ## Lines (worked sequence of chapter 5) -/

def lineAt (active : Bool) (remaining width : Nat) : State :=
  open2.withLine 2 fun l => { l with active, remaining, width }

/-- DRIVE_LINE PULSE restarts a pulse with 2 ticks left at 4. -/
theorem test_driveLine : reply (lineAt true 2 4) 1 .driveLine [2, 0] = some (.ok, [1, 0, 4]) := by decide +kernel

theorem test_driveLine_range :
    reply open2 1 .driveLine [8, 0] = some (.range, []) ∧ reply open2 1 .driveLine [7, 4] = some (.range, []) := by
  decide +kernel

/-- The last tick of a pulse. -/
theorem test_pulse_ends :
    (after .tick (lineAt true 1 10)).tou.lines[2].active = false
      ∧ (after (.pulseEnd 2) (lineAt true 1 10)).tou.lines[2].active = false := by decide +kernel

/-- A PULSE on a HELD line. -/
theorem test_lineOperation :
    (after .lineOperation { lineAt true 0 10 with mail := { Mail.empty with ops := [{ line := 2, op := .pulse }] } }
      ).tou.lines[2].remaining = 10 := by decide +kernel

/-- A PULSE fired on one tick has its first decrement on the next, which applies it first (R90, R91). -/
theorem test_tick_takes_operations :
    (after .tick { lineAt false 0 10 with mail := { Mail.empty with ops := [{ line := 2, op := .pulse }] } }
      ).tou.lines[2].remaining = 9 := by decide +kernel

/-- BIND_LINE to port 1 is refused with index 5 while port 0's entry 5 drives the line. -/
theorem test_bindLine :
    reply (withEntries open2 [(5, { oneShot 9 with action := some { line := 2, op := .pulse } })]) 0 .bindLine [2, 1]
      = some (.lineInUse, [5]) := by decide +kernel

/-- LINE_CONFIG does not lengthen the pulse in flight. -/
theorem test_lineConfig :
    (after (.lineConfig 0) (ask (lineAt true 1 4) 0 .lineConfig [2, 0, 0, 10])).tou.lines[2].remaining = 1 := by
  decide +kernel

/-- READ_LINES between ticks 15 and 16: ACTIVE, pin HIGH, width 10, remaining 1. -/
theorem test_readLines :
    (reply (lineAt true 1 10) 1 .readLines []).map (fun r => (r.2.drop 12).take 6) = some [0x80, 6, 0, 10, 0, 1] := by
  decide +kernel

/-! ## Inputs (worked sequence of chapter 6) -/

def evt2 (stable : Level) (run : Nat) (candidate : Option Time) (deadLeft : Nat) (suppressed : Nat) (t : Time) : State :=
  { (open2.withInput 2 { Input.initial with
      select := .rise, divider := 4, dead := 8, stable := some stable, run, candidate, deadLeft, suppressed }) with
    mail := { Mail.empty with toEcu := [.sample 0 2 t] } }

/-- Sample 6 captures the edge with its timestamp and span. -/
theorem test_inputSample_captures :
    let t := after (.inputSample 2 .high) (evt2 .low 2 (some (at_ 50 1012)) 0 0 (at_ 50 1020))
    t.ecu.inputs[2].deadLeft = 8 ∧ t.mail.records.map (fun r => (r.time, r.body))
      = [(at_ 50 1012, .edge 2 .rise false false 0 8)] := by decide +kernel

/-- Sample 12 suppresses the edge. -/
theorem test_inputSample_suppresses :
    let t := after (.inputSample 2 .high) (evt2 .low 2 (some (at_ 50 1036)) 3 0 (at_ 50 1044))
    t.ecu.inputs[2].deadLeft = 2 ∧ t.ecu.inputs[2].suppressed = 1 ∧ t.mail.records = [] := by decide +kernel

/-- The first variant: a step shifts the candidate. -/
theorem test_ecuStepHandover :
    let s := evt2 .low 1 (some (at_ 50 1060)) 0 1 0
    let t := after .ecuStepHandover { s with
      mail := { s.mail with toEcu := [.step 0 (at_ 50 1062) (at_ 50 1001062)], toScu := [] } }
    t.ecu.inputs[2].candidate = some (at_ 50 1001060) ∧ t.ecu.inputs[2].adjusted = true := by decide +kernel

/-- The second variant: INPUT_CONFIG ends the dead time and keeps the suppressed count. -/
theorem test_inputConfig :
    let t := after (.inputConfig 0) (ask (evt2 .high 0 none 2 1 0) 0 .inputConfig [2, 1, 4, 3, 0, 8])
    t.ecu.inputs[2].deadLeft = 0 ∧ t.ecu.inputs[2].suppressed = 1 := by decide +kernel

/-- An INPUT_CONFIG that meets a sample: the tick of the sample follows it, and counts 1 towards a divider of 4 (R112). -/
theorem test_inputConfig_meets_a_sample :
    let t := after (.inputConfig 0) (ask (evt2 .high 0 none 0 0 0) 0 .inputConfig [2, 1, 4, 3, 0, 8])
    t.ecu.inputs[2].phase = 1 ∧ t.mail.toEcu = [] := by decide +kernel

theorem test_readInputs :
    (reply (evt2 .low 1 (some (at_ 0 9)) 5 2 0) 1 .readInputs []).map (fun r => (r.2.drop 30).take 15)
      = some [0x15, 0x13, 0, 8, 0, 5, 2, 0, 0, 0, 0, 0, 0, 0, 9] := by decide +kernel

/-! ## The log (chapter 7) -/

def posted (p : Block) (b : Body) : Posted := { producer := p, quality := .unset, time := 7, body := b, address := none }

def logged (seq : Nat) (set : Vector Bool 4) : Retained :=
  { record := { seq, quality := .unset, time := 7, body := .slewDone .host 2 100 }, pending := set }

/-- A record is stored under the next seq, and the seq after FFFFFFFFH is 1. -/
theorem test_recordTake :
    let s : State := { open2 with
      elu := { open2.elu with nextSeq := 4294967295 }
      mail := { Mail.empty with records := [posted .tbu (.slewDone .host 2 100)] } }
    (after (.recordTake .tbu) s).elu.nextSeq = 1
      ∧ (after (.recordTake .tbu) s).elu.log = [logged 4294967295 #v[true, true, false, false]] := by decide +kernel

/-- One capture handed to the RSV and then to the SCU: the PPS record goes before the FIRE record it causes, and no cause
connects it to a SLEW_DONE record that waits (R118). -/
theorem test_recordTake_pps_first :
    let fire : Posted := { posted .scu (.fire 0 0 0 0 1 .atArm true .unset) with links := { capture := some 2 } }
    let pps : Posted := { posted .rsv (.pps 0 false false false true false 0 0) with
      links := { capture := some 2 } }
    let done : Posted := { posted .tbu (.slewDone .host 2 100) with links := { turn := some 4 } }
    let s : State := { open2 with mail := { Mail.empty with records := [done, fire, pps] } }
    after (.recordTake .scu) s = s
      ∧ (after (.recordTake .scu) (after (.recordTake .rsv) s)).mail.records = [done] := by decide +kernel

theorem test_subscriptionInstall :
    (after (.subscriptionInstall 2) { open2 with mail := { Mail.empty with installs := [{ port := 2, sub := everything }] } }
      ).elu.subs[2] = some everything := by decide +kernel

/-- The records of a session end are not pending for the port, though it attaches again at once (R140). -/
theorem test_subscriptionInstall_after_the_end :
    let s : State := { open2 with mail := { Mail.empty with
      records := [posted .sau (.session 2 (some .detached) 5 0)], installs := [{ port := 2, sub := everything }] } }
    after (.subscriptionInstall 2) s = s
      ∧ (after (.subscriptionInstall 2) (after (.recordTake .sau) s)).elu.subs[2] = some everything := by decide +kernel

theorem test_subscribe : reply open2 0 .subscribe [2, 0, 1] = some (.ok, [31, 255]) := by decide +kernel

theorem test_readLog :
    reply { open2 with elu := { open2.elu with log := [logged 1 #v[false, true, false, false]] } } 1 .readLog [4]
      = some (.ok, [1, 0, 0, 0, 0, 1, 0, 0, 0, 1, 5, 0, 0, 0, 0, 0, 0, 0, 0, 7, 0, 0, 0, 2, 0, 100, 0, 0, 0, 0]) := by
  decide +kernel

/-- The seq of a record pending for another port alone is answered NOT_FOUND. -/
theorem test_ackLog :
    let s : State := { open2 with elu := { open2.elu with
      log := [logged 1 #v[true, true, false, false], logged 2 #v[false, true, false, false]] } }
    reply s 1 .ackLog [0, 0, 0, 2, 0] = some (.ok, [2, 0]) ∧ reply s 0 .ackLog [0, 0, 0, 2, 1] = some (.notFound, [])
      ∧ (after (.ackLog 1) (ask s 1 .ackLog [0, 0, 0, 2, 0])).elu.log = [logged 1 #v[true, false, false, false]] := by
  decide +kernel

theorem test_logPolicy : reply open2 0 .logPolicy [1] = some (.ok, [0, 0]) := by decide +kernel

/-! ## Sessions and authority (worked sequence of chapter 8) -/

/-- Port 0 holder, ports 1 and 3 waiting, port 3 senior, port 2 attached with no limit: the sequence after step 4. -/
def queued : State :=
  { State.reset with sau := { State.reset.sau with
    sessions := #v[{ session30 with limit := 5 }, { session30 with limit := 10 }, { session30 with limit := 0 }, session30]
    holder := some 0, queue := [1, 3], senior := 3 } }

/-- Steps 1, 2 and 5. -/
theorem test_claim :
    reply { queued with sau := { queued.sau with holder := none, queue := [] } } 0 .claim [] = some (.granted, [0])
      ∧ reply queued 2 .claim [] = some (.needLimit, []) ∧ reply queued 1 .claim [] = some (.queued, [1]) := by
  decide +kernel

/-- Step 6: the expiry of the holder promotes port 1. -/
theorem test_idleExpiry :
    let s : State := { queued with sau := { queued.sau with sessions := queued.sau.sessions.set 0 { session30 with
      limit := 5, seconds := 5 } } }
    let t := after (.idleExpiry 0) s
    t.sau.holder = some 1 ∧ t.sau.queue = [3] ∧ t.sau.sessions[1].auth = true
      ∧ t.sau.ending.map Ending.records = some [.authority 0 .expired .nothing (some 1) 1,
        .authority 1 .granted .queue (some 0) 1] := by decide +kernel

/-- The end of step 6: the SESSION record and SESSION_ENDED. -/
theorem test_eluSessionEnd :
    let s : State := { queued with sau := { queued.sau with
      ending := some { port := 0, reason := .expired, phase := .atElu, freed := 0, records := [] } } }
    let t := after (.eluSessionEnd 0) s
    t.sau.sessions[0].sessionEnded = true ∧ t.mail.records.map (fun r => r.body) = [.session 0 (some .expired) 5 0] := by
  decide +kernel

/-- A FIRE record of the port's own entry, posted before its session end, is stored for it and then freed (R87, R133). -/
theorem test_eluSessionEnd_after_its_records :
    let fire : Posted := { posted .scu (.fire 0 0 0 0 1 .advance true .unset) with
      address := some { owner := some 0, all := false } }
    let s : State := { open2 with
      sau := { open2.sau with ending := some { port := 0, reason := .expired, phase := .atElu, freed := 0, records := [] } }
      mail := { Mail.empty with records := [fire] } }
    after (.eluSessionEnd 0) s = s ∧ (after (.recordTake .scu) s).elu.log.map (fun r => r.pending) = [#v[true, false, false, false]]
      ∧ (after (.eluSessionEnd 0) (after (.recordTake .scu) s)).elu.log = [] := by decide +kernel

/-- Step 8: TAKE by port 3 from port 1. -/
theorem test_take :
    let s : State := { queued with sau := { queued.sau with holder := some 1, queue := [3] } }
    reply s 3 .take [] = some (.granted, [1]) ∧ (after (.take 3) (ask s 3 .take [])).sau.queue = [] := by decide +kernel

/-- Steps 9 and 11. -/
theorem test_release :
    let s : State := { queued with sau := { queued.sau with holder := some 3, queue := [1] } }
    reply s 2 .release [] = some (.badState, []) ∧ reply s 3 .release [] = some (.ok, [1]) := by decide +kernel

theorem test_attach : reply queued 0 .attach [5, 0, 0, 0] = some (.alreadyAttached, [])
    ∧ reply open2 2 .attach [9, 31, 255, 7] = some (.ok, [9, 0, 0, 0]) := by decide +kernel

theorem test_detach :
    (after (.detach 0) (ask open2 0 .detach [])).sau.holder = none ∧ reply open2 2 .detach [] = some (.notAttached, []) := by
  decide +kernel

/-- Step 7: GET_STATUS of a detached port whose session expired. -/
theorem test_getStatus :
    let s : State := { queued with sau := { queued.sau with
      sessions := queued.sau.sessions.set 0 { Session.initial with sessionEnded := true }, holder := some 1, queue := [3] } }
    reply s 0 .getStatus [] = some (.ok, [0, 0, 0, 1, 1, 3, 255, 255, 0, 3, 4, 4]) := by decide +kernel

theorem test_validFrameReport :
    (after (.validFrameReport 0) { queued with
      sau := { queued.sau with sessions := queued.sau.sessions.set 0 { session30 with seconds := 4 } }
      mail := { Mail.empty with reports := [{ port := 0, request := false }] } }).sau.sessions[0].seconds = 0 := by decide +kernel

/-- A TICK ends a session whose timer stands at its limit, unless a report waits, which goes first (R138). -/
theorem test_tick_expires :
    let s := queued.withSession 1 fun ses => { ses with limit := 30, seconds := 30 }
    let t := after .tick { s with mail := { Mail.empty with reports := [{ port := 1, request := false }] } }
    (after .tick s).sau.ending.map Ending.port = some 1 ∧ (after .tick s).sau.sessions[1].attached = false
      ∧ t.sau.ending = none ∧ t.sau.sessions[1].seconds = 0 := by decide +kernel

/-- Before an expiry a session end in progress goes on; where a record of its port keeps it at the ELU, the expiry waits, ahead
of every later report and request (R138, R140). -/
theorem test_tick_expiry_waits :
    let s := (after (.detach 0) (ask queued 0 .detach [])).withSession 1 fun ses => { ses with limit := 30, seconds := 30 }
    let own : Posted := {
      producer := .scu, quality := s.quality, time := 0, body := .session 0 none 0 0
      address := some { owner := some 0, all := false } }
    let t := after .tick { s with mail := { s.mail with records := [own] } }
    let u := after (.validFrameReport 1) { t with mail := { t.mail with reports := [{ port := 1, request := false }] } }
    ((after .tick s).sau.ending.map Ending.port = some 1 ∧ (after .tick s).sau.sessions[0].limit = 0)
      ∧ t.sau.ending.map Ending.port = some 0 ∧ t.sau.sessions[1].attached = true
      ∧ u.sau.sessions[1].seconds = 30 ∧ u.mail.reports = [] := by decide +kernel

/-! ## The host ports (chapter 9) -/

/-- The frame of the worked exchange: READ_TIME with TAG 05H. -/
def readTimeFrame : List Bool := bitsOfBytes [0x20, 5, 0, crc [0x20, 5, 0]]

theorem test_frameBegin :
    (after (.frameBegin 0) open2).hpu[0].link
      = .inFrame { status := 0xC0, refusal := none, staged := none } := by decide +kernel

theorem test_frameEnd_request :
    (after (.frameEnd 0 readTimeFrame) (after (.frameBegin 0) open2)).hpu[0].slot
      = .executing 5 false (.waiting .readTime []) := by decide +kernel

/-- A DRIVE_LINE whose frame is reported after the expiry is taken from a detached port: until the report it waits (R163). -/
theorem test_report_after_expiry :
    let bits := bitsOfBytes [0x52, 5, 2, 2, 0, crcOfBytes [0x52, 5, 2, 2, 0]]
    let s := after (.frameEnd 1 bits) (after (.frameBegin 1) (open2.withSession 1 fun ses => { ses with seconds := 30 }))
    let t := after (.validFrameReport 1) (after (.idleExpiry 1) s)
    s.mail.reports = [{ port := 1, request := true }] ∧ after (.driveLine 1) s = s
      ∧ answerOf (after (.driveLine 1) t) 1 = some (.notAttached, []) := by decide +kernel

theorem test_frameEnd_badCrc :
    (after (.frameEnd 0 (bitsOfBytes [0x20, 5, 0, 0])) (after (.frameBegin 0) open2)).hpu[0].refusal
      = some .badCrc := by decide +kernel

theorem test_requestCompletion :
    (after (.requestCompletion 0) (after (.readTime 0) (ask open2 0 .readTime []))).hpu[0].staged.map Response.tag
      = some 5 := by decide +kernel

/-! ## The whole part -/

theorem test_powerOn : (after .powerOn open2).rst = true ∧ (after .powerOn open2).sau.holder = none := by decide +kernel

theorem test_resetAssert :
    let t := after .resetAssert (withEntries open2 [(3, oneShot 5)])
    t.scu.entries[3] = Entry.free 1 ∧ t.sau.sessions[0].attached = false := by decide +kernel

/-- A step on its way reaches the ECU before the reset (R115). At the SCU either goes first: after the reset the step finds no
entry and posts nothing, and before it the entry passed over fires and its record stands (R87). -/
theorem test_resetAssert_meets_step :
    let s : State := { withEntries open2 [(3, oneShot 7)] with mail := { Mail.empty with
      toScu := [.step 1 0 900], toEcu := [.sample 0 2 0, .step 1 0 900, .sample 2 3 901] } }
    let late := after .stepHandover (after .resetAssert s)
    let early := after .resetAssert (after .stepHandover s)
    late.mail.toEcu = [.sample 2 3 901] ∧ late.scu.now = 900 ∧ late.mail.records = []
      ∧ early.mail.records.map (·.body) = [.fire 3 0 0 893 1 .stepped true .unset]
      ∧ late.scu.entries[3] = Entry.free 1 ∧ early.scu.entries[3] = Entry.free 1 := by decide +kernel

theorem test_resetRelease :
    (after (.resetRelease .high .low) { State.reset with rst := true }).sau.senior = 2 := by decide +kernel

/-- The first tick samples every input (R114). -/
theorem test_tick_samples : (after .tick State.reset).mail.toEcu.length = 8 := by decide +kernel

/-! ## Witnesses: states that meet every hypothesis of each statement together -/

theorem witness_StepRunsFrontCommand : ({ State.reset with pending := [.tick, .powerOn] } : State).pending = .tick :: [.powerOn] := rfl

/-- Both sources; with the supervision locked no tick belongs to the cycle. -/
theorem witness_IdleStepPassesOneCycle :
    (State.reset.pending = [] ∧ State.reset.nextOwnStep = none ∧ State.reset.rsv.state ≠ .locked)
      ∧ (windowOf .locked 0 999 999 15).pending = [] ∧ (windowOf .locked 0 999 999 15).nextOwnStep = none
      ∧ (windowOf .locked 0 999 999 15).rsv.state = .locked := by decide +kernel

theorem witness_PowerOnAndReleaseValues :
    (after .powerOn open2).rst = true
      ∧ (3 : Port).val = (if Level.high = .high then 2 else 0) + (if Level.high = .high then 1 else 0)
      ∧ (0 : Port).val = (if Level.low = .high then 2 else 0) + (if Level.low = .high then 1 else 0) := by decide +kernel

/-- A session end of port 0, with an entry of its own and one of nobody. -/
def endingAt (phase : EndPhase) (reason : EndReason) : State :=
  withEntries { open2 with sau := { open2.sau with
    sessions := open2.sau.sessions.set 0 { session30 with attached := false }, holder := none
    ending := some { port := 0, reason, phase, freed := 0, records := [] } } }
    [(0, oneShot 5), (1, { oneShot 6 with owner := none, scope := .all })]

/-- Generations 0 and 255 of entries in use, and a FREE one; a session end in progress before and after the SCU took it; a
step on its way behind a sample, and at the front with its hand-over to the SCU waiting; and a step that finds an empty
table. -/
theorem witness_ResetAssertionValues :
    let s := withEntries open2 [(3, oneShot 5), (63, { oneShot 5 with generation := 255 })]
    let w (toEcu : List EcuHandover) : State := { open2 with mail := { Mail.empty with toScu := [.step 1 0 9], toEcu } }
    (s.rst = false ∧ s.scu.entries[0].state = .free ∧ s.scu.entries[3].state ≠ .free ∧ s.scu.entries[63].state ≠ .free
        ∧ s.mail.toEcu = [] ∧ s.sau.ending = none)
      ∧ (∀ phase ∈ [EndPhase.atScu, .atElu], ∃ e, (endingAt phase .detached).sau.ending = some e ∧ e.phase = phase
        ∧ (endingAt phase .detached).rst = false ∧ (endingAt phase .detached).mail.toEcu = [])
      ∧ (∃ u, (w [.sample 0 2 0, .step 1 0 9]).mail.toEcu = .sample 0 2 0 :: [.step 1 0 9]
        ∧ exec (.inputSample 2 (w [.sample 0 2 0, .step 1 0 9]).pins[(2 : Line)]) (w [.sample 0 2 0, .step 1 0 9]) = .next u)
      ∧ (∃ u, (w [.step 1 0 9]).mail.toEcu = .step 1 0 9 :: []
        ∧ exec .ecuStepHandover { w [.step 1 0 9] with mail := { (w [.step 1 0 9]).mail with toScu := [] } } = .next u)
      ∧ (w []).mail.toScu = .step 1 0 9 :: [] ∧ ∀ i : Index, (w []).scu.entries[i].state = .free := by
  refine ⟨by decide +kernel, ?_, ⟨_, rfl, rfl⟩, ⟨_, rfl, rfl⟩, rfl, by decide +kernel⟩
  intro phase h
  simp only [List.mem_cons, List.not_mem_nil, or_false] at h
  rcases h with rfl | rfl <;> exact ⟨_, rfl, rfl, rfl, rfl⟩

/-- A state under LOCKED with one edge of REFCLK waiting to be taken as a tick. -/
def edgeWaits (s : State) : State := { s with mail := { s.mail with refTicks := 1 } }

/-- A correction due and none, either source, the maximum and the count before it. -/
theorem witness_TickAdvancesTime :
    let a := edgeWaits (slewing (Config.maxTime - 1) 999800000 (-2) 99 false)
    let b := { State.reset with tbu := { State.reset.tbu with time := Config.maxTime, intTrim := -200000 } }
    (a.TimebaseOk ∧ a.tickWhole ∧ a.tickReady ∧ a.tbu.time ≠ Config.maxTime ∧ a.trimCorrection ≠ 0 ∧ 0 < a.mail.refTicks)
      ∧ b.TimebaseOk ∧ b.tickWhole ∧ b.tickReady ∧ b.tbu.time = Config.maxTime ∧ b.trimCorrection = 0
        ∧ b.mail.refTicks = 0 := by
  refine ⟨⟨?_, ?_, ?_, ?_⟩, ?_, ?_, ?_, ?_⟩
  all_goals try unfold State.TimebaseOk Tbu.Ok PpsConfig.Ok SlewStart.Ok Slew.Ok
  all_goals try unfold State.tickReady State.tickSettled State.sessionsSettled State.handoversTaken Rsv.nothingDue Session.atLimit
  all_goals try unfold State.tickWhole
  all_goals decide +kernel

/-- No slew, a residual left, and a residual at 0 after a correction of either sign. -/
theorem witness_TickMovesSlew :
    let a := edgeWaits (slewing 5 0 1 99 false)
    let b := edgeWaits (slewing 5 0 (-1) 3 true)
    let c := edgeWaits (slewing 5 999800000 1 99 false)
    (State.reset.TimebaseOk ∧ State.reset.tickWhole ∧ State.reset.tickReady ∧ State.reset.tbu.slew = none)
      ∧ (a.TimebaseOk ∧ a.tickWhole ∧ a.tickReady ∧ a.tbu.time ≠ Config.maxTime ∧ ∃ w, a.tbu.slew = some w
          ∧ w.correctionDue ≠ 0 ∧ a.trimCorrection ≠ w.correctionDue ∧ w.residual - w.residual.sign = 0)
      ∧ (b.TimebaseOk ∧ b.tickWhole ∧ b.tickReady ∧ ∃ w, b.tbu.slew = some w ∧ w.correctionDue = -1
          ∧ b.trimCorrection ≠ w.correctionDue ∧ w.residual - w.residual.sign = 0)
      ∧ c.TimebaseOk ∧ c.tickWhole ∧ c.tickReady ∧ ∃ w, c.tbu.slew = some w ∧ w.correctionDue ≠ 0
          ∧ c.trimCorrection = w.correctionDue ∧ w.residual ≠ 0 := by
  refine ⟨⟨?_, ?_, ?_, ?_⟩, ⟨?_, ?_, ?_, ?_, _, rfl, ?_⟩, ⟨?_, ?_, ?_, _, rfl, ?_⟩, ?_, ?_, ?_, _, rfl, ?_⟩
  all_goals try unfold State.TimebaseOk Tbu.Ok PpsConfig.Ok SlewStart.Ok Slew.Ok
  all_goals try unfold State.tickReady State.tickSettled State.sessionsSettled State.handoversTaken Rsv.nothingDue Session.atLimit
  all_goals try unfold State.tickWhole
  all_goals decide +kernel

theorem witness_TickCountsPulsesAndSamples :
    ∀ s ∈ [lineAt true 1 10, lineAt true 2 10, lineAt false 0 10, edgeWaits (lineAt true 1 10)],
      s.tickWhole ∧ s.tickReady := by
  intro s hs
  unfold State.tickWhole State.tickReady State.tickSettled State.sessionsSettled State.handoversTaken Rsv.nothingDue
    Session.atLimit
  simp only [List.mem_cons, List.not_mem_nil, or_false] at hs
  rcases hs with rfl | rfl | rfl | rfl <;> decide +kernel

/-- Each of the things that can stand before a tick. -/
theorem witness_TickTakesWhatStandsBeforeIt :
    let w (toScu : List TimeHandover) (ops : List Action) (toEcu : List EcuHandover) : State :=
      { open2 with mail := { Mail.empty with toScu, ops, toEcu } }
    let a := w [.advance 0 1] [] []
    let b := w [.step 0 1 9] [] []
    let c := w [] [{ line := 0, op := .pulse }] []
    let d := w [] [] [.sample 0 2 1]
    let e := w [] [] [.step 0 1 9]
    let f : State := { open2 with mail := { Mail.empty with reports := [{ port := 1, request := true }] } }
    let full (p : Port) (s : State) : State := s.withSession p fun ses => { ses with seconds := 30 }
    let x := full 1 open2
    let y := full 1 (endingAt .atScu .detached)
    let y2 := full 1 (endingAt .atElu .detached)
    let y3 : State := { y2 with mail := { y2.mail with installs := [{ port := 0, sub := ⟨0, 0⟩ }] } }
    let m := windowOf .locked 0 328 312 16
    let close := windowOf .locked 0 1000 1000 15
    let age : State := { State.reset with rsv := { State.reset.rsv with state := .holdover, ageCycles := 10000000 } }
    let edge := windowOf .locked 0 999 999 15
    (a.mail.toScu = .advance 0 1 :: [] ∧ ∃ u, exec .timeAdvance a = .next u)
      ∧ (b.mail.toScu = .step 0 1 9 :: [] ∧ ∃ u, exec .stepHandover b = .next u)
      ∧ (c.mail.toScu = [] ∧ c.mail.ops ≠ [] ∧ ∃ u, exec .lineOperation c = .next u)
      ∧ (d.mail.toScu = [] ∧ d.mail.ops = [] ∧ d.mail.toEcu = .sample 0 2 1 :: []
        ∧ ∃ u, exec (.inputSample 2 d.pins[(2 : Line)]) d = .next u)
      ∧ (e.mail.toScu = [] ∧ e.mail.ops = [] ∧ e.mail.toEcu = .step 0 1 9 :: [] ∧ ∃ u, exec .ecuStepHandover e = .next u)
      ∧ (f.handoversTaken ∧ ∃ r rest, f.mail.reports = r :: rest ∧ ∃ u, exec (.validFrameReport r.port) f = .next u)
      ∧ (x.handoversTaken ∧ x.mail.reports = [] ∧ x.sau.ending = none ∧ x.sau.sessions[(1 : Port)].atLimit
        ∧ (∀ q : Port, q < 1 → ¬ x.sau.sessions[q].atLimit) ∧ ∃ u, exec (.idleExpiry 1) x = .next u)
      ∧ (y.handoversTaken ∧ y.mail.reports = [] ∧ y.sau.sessions[(1 : Port)].atLimit
        ∧ ∃ e, y.sau.ending = some e ∧ e.phase = .atScu ∧ ∃ u, exec (.scuSessionEnd e.port) y = .next u)
      ∧ (y2.handoversTaken ∧ y2.mail.reports = [] ∧ y2.sau.sessions[(1 : Port)].atLimit
        ∧ ∃ e, y2.sau.ending = some e ∧ e.phase = .atElu ∧ ∃ u, exec (.eluSessionEnd e.port) y2 = .next u)
      ∧ (y3.handoversTaken ∧ y3.mail.reports = [] ∧ y3.endWaits = true ∧ y3.sau.sessions[(1 : Port)].atLimit
        ∧ ∀ q : Port, q < 1 → y3.sau.sessions[q].atLimit → y3.sau.sessions[q].overdue = true)
      ∧ (m.handoversTaken ∧ m.mail.refTicks = 0 ∧ m.rsv.config.enabled = true ∧ 16 ≤ m.rsv.gap ∧ m.sessionsSettled
        ∧ ∃ u, exec .missingDeclaration m = .next u)
      ∧ (close.handoversTaken ∧ close.mail.refTicks = 0 ∧ close.rsv.gap < 16 ∧ 1000 ≤ close.rsv.cycles ∧ 1 ≤ close.rsv.edges
        ∧ close.sessionsSettled ∧ ∃ u, exec .windowClose close = .next u)
      ∧ (age.handoversTaken ∧ age.rsv.state = .holdover ∧ 10000000 ≤ age.rsv.ageCycles ∧ age.rsv.gap < 16
        ∧ age.rsv.edges = 0 ∧ age.sessionsSettled ∧ ∃ u, exec .holdoverAgeIncrement age = .next u)
      ∧ edge.tickSettled ∧ edge.mail.refTicks = 0 ∧ edge.rsv.state = .locked ∧ ∃ u, exec .refclkEdge edge = .next u := by
  refine ⟨⟨rfl, _, rfl⟩, ⟨rfl, _, rfl⟩, ⟨rfl, by decide, _, rfl⟩, ⟨rfl, rfl, rfl, _, rfl⟩, ⟨rfl, rfl, rfl, _, rfl⟩,
    ⟨⟨rfl, rfl, rfl⟩, _, _, rfl, _, rfl⟩, ⟨⟨rfl, rfl, rfl⟩, rfl, rfl, ?_, ?_, _, rfl⟩,
    ⟨⟨rfl, rfl, rfl⟩, rfl, ?_, _, rfl, rfl, _, rfl⟩, ⟨⟨rfl, rfl, rfl⟩, rfl, ?_, _, rfl, rfl, _, rfl⟩,
    ⟨⟨rfl, rfl, rfl⟩, rfl, ?_, ?_, ?_⟩,
    ⟨⟨rfl, rfl, rfl⟩, rfl, rfl, by decide, ?_, _, rfl⟩,
    ⟨⟨rfl, rfl, rfl⟩, rfl, by decide, by decide, by decide, ?_, _, rfl⟩,
    ⟨⟨rfl, rfl, rfl⟩, rfl, by decide, by decide, rfl, ?_, _, rfl⟩, ?_, rfl, rfl, _, rfl⟩
  all_goals try unfold State.tickSettled
  all_goals try unfold State.sessionsSettled
  all_goals try unfold State.handoversTaken Rsv.nothingDue
  all_goals try unfold Session.atLimit
  all_goals decide +kernel

theorem witness_TickPartsMakeOneTick :
    let a := slewing 5 999800000 2 99 false
    let l := lineAt true 1 10
    (a.TimebaseOk ∧ a.tbu.trimTaken = none ∧ a.tbu.time ≠ Config.maxTime ∧ a.trimCorrection ≠ 0 ∧ a.tickSettled)
      ∧ (∃ w, a.tbu.slew = some w ∧ a.tbu.slewTaken = false ∧ w.spacing ≤ w.counter + 1)
      ∧ l.mail.toScu = [] ∧ l.mail.ops = [] ∧ l.tou.lines[2].counted = false ∧ l.tou.lines[2].remaining = 1
      ∧ l.tickSettled := by
  refine ⟨⟨?_, rfl, ?_, ?_, ?_⟩, ⟨_, rfl, ?_⟩, rfl, rfl, ?_, ?_, ?_⟩
  all_goals try unfold State.TimebaseOk Tbu.Ok PpsConfig.Ok SlewStart.Ok Slew.Ok
  all_goals try unfold State.tickSettled State.sessionsSettled Session.atLimit State.handoversTaken Rsv.nothingDue
  all_goals decide +kernel

/-- A request of port `p` as `ask` puts it. -/
theorem asks_ask (s : State) (p : Port) (c : Code) (l : List Byte) : (ask s p c l).asks p 5 false c l := by
  simp [State.asks, ask]

/-- The largest step back, with a saturated offset field, to the time 0; and the maximum set. -/
theorem witness_AcceptedStepAppliesAtOnce :
    let a := ask { open2 with tbu := (slewing 9223372036854775808 0 2 0 true).tbu } 0 .stepTime
      (beSigned (-9223372036854775808) 8)
    let b := ask open2 0 .setTime (timeBytes Config.maxTime)
    (a.asks 0 5 false .stepTime (beSigned (-9223372036854775808) 8)
        ∧ a.sau.sessions[(0 : Port)].attached = true ∧ a.sau.holder = some 0 ∧ a.tbu.time ≤ Config.maxTime
        ∧ a.tbu.isSet = true ∧ (0 : Int) - (a.tbu.time : Int) = -9223372036854775808
        ∧ (Quality.freerun = .locked ↔ a.rsv.state = .locked) ∧ (Quality.freerun = .holdover ↔ a.rsv.state = .holdover)
        ∧ max (-140737488355327) (min 140737488355327 (-9223372036854775808)) = -140737488355327)
      ∧ b.asks 0 5 false .setTime (timeBytes Config.maxTime) ∧ b.sau.sessions[(0 : Port)].attached = true
        ∧ b.sau.holder = some 0 ∧ b.tbu.time ≤ Config.maxTime
        ∧ (Quality.freerun = .locked ↔ b.rsv.state = .locked) ∧ (Quality.freerun = .holdover ↔ b.rsv.state = .holdover) := by
  refine ⟨⟨asks_ask .., ?_⟩, asks_ask .., ?_⟩ <;> decide +kernel

/-- The largest offset, with discipline off and on, and a discipline slew. -/
theorem witness_SlewsStartAndReplace :
    let l := beSigned (-10000000) 4 ++ beBytes 10000 2
    let a := ask open2 0 .slewTime l
    let b := ask { open2 with rsv := { open2.rsv with pps := { open2.rsv.pps with role := true, discipline := true } } } 0
      .slewTime l
    (a.asks 0 5 false .slewTime l ∧ a.sau.sessions[(0 : Port)].attached = true ∧ a.sau.holder = some 0
        ∧ a.rsv.pps.discipline = false)
      ∧ (b.asks 0 5 false .slewTime l ∧ b.sau.sessions[(0 : Port)].attached = true ∧ b.sau.holder = some 0
        ∧ b.rsv.pps.discipline = true)
      ∧ ({ State.reset with mail := { Mail.empty with slews := [{ initial := 300, spacing := 1000 }] } } : State).mail.slews
        = { initial := 300, spacing := 1000 } :: [] := by
  refine ⟨⟨asks_ask .., ?_⟩, ⟨asks_ask .., ?_⟩, rfl⟩ <;> decide +kernel

theorem witness_TimebaseAndReferenceReports :
    (∀ c ∈ [Code.readTime, .readTimebase, .readRef], (ask open2 1 c []).asks 1 5 false c []
        ∧ (ask open2 1 c []).sau.sessions[(1 : Port)].attached = true ∧ (ask open2 1 c []).tbu.isSet = false)
      ∧ (ask (slewing 5 0 2 0 false) 3 .readTime []).asks 3 5 false .readTime []
        ∧ (ask (slewing 5 0 2 0 false) 3 .readTime []).tbu.isSet = true := by
  refine ⟨fun c _ => ⟨asks_ask .., rfl, rfl⟩, asks_ask .., rfl⟩

/-- Each class at the tolerance's edge: 980 and 1020 GOOD, 979 SLOW, 1021 FAST, and the 16th cycle of a gap; G one before
the qualification length and two before it. -/
theorem witness_WindowClassificationActs :
    let s := windowOf .holdover 98 1000 980 0
    let q := windowOf .holdover 99 1000 1020 0
    let slow := windowOf .unlocked 99 1000 979 0
    let fast := windowOf .locked 0 1000 1021 0
    let gap := windowOf .locked 0 328 312 16
    let good := windowOf .locked 0 1000 1000 0
    (s.rsv.config.enabled = true ∧ 1000 ≤ s.rsv.cycles ∧ 1 ≤ s.rsv.edges ∧ s.rsv.state ≠ .locked
        ∧ 1000 ≤ s.rsv.edges + s.rsv.config.tolerance ∧ s.rsv.edges ≤ 1000 + s.rsv.config.tolerance
        ∧ s.rsv.good + 1 < s.rsv.config.qualLength)
      ∧ (q.rsv.config.enabled = true ∧ 1000 ≤ q.rsv.cycles ∧ q.rsv.state ≠ .locked
        ∧ q.rsv.edges = 1000 + q.rsv.config.tolerance ∧ q.rsv.config.qualLength ≤ q.rsv.good + 1)
      ∧ (slow.rsv.config.enabled = true ∧ 1000 ≤ slow.rsv.cycles ∧ 1 ≤ slow.rsv.edges ∧ slow.rsv.state ≠ .locked
        ∧ slow.rsv.edges + slow.rsv.config.tolerance < 1000)
      ∧ (fast.rsv.config.enabled = true ∧ 1000 ≤ fast.rsv.cycles ∧ fast.rsv.state = .locked
        ∧ 1000 + fast.rsv.config.tolerance < fast.rsv.edges)
      ∧ (gap.rsv.config.enabled = true ∧ 16 ≤ gap.rsv.gap ∧ gap.rsv.state = .locked)
      ∧ good.rsv.config.enabled = true ∧ 1000 ≤ good.rsv.cycles ∧ good.rsv.state = .locked ∧ good.rsv.edges = 1000 := by
  decide +kernel

/-- The last cycle before a declaration and before a close, the declaration, and the close. -/
theorem witness_ReferenceEdgeCounts :
    let free := windowOf .locked 0 999 65535 15
    let gap := windowOf .locked 0 20 3 16
    let close := windowOf .locked 0 1000 1 15
    let off := { State.reset with rsv := { State.reset.rsv with config := { State.reset.rsv.config with enabled := false } } }
    (free.rsv.config.enabled = true ∧ free.rsv.gap < 16 ∧ free.rsv.cycles < 1000)
      ∧ (gap.rsv.config.enabled = true ∧ 16 ≤ gap.rsv.gap ∧ ∃ t, exec .missingDeclaration gap = .next t)
      ∧ (close.rsv.config.enabled = true ∧ close.rsv.gap < 16 ∧ 1000 ≤ close.rsv.cycles ∧ 1 ≤ close.rsv.edges
        ∧ ∃ t, exec .windowClose close = .next t)
      ∧ off.rsv.config.enabled = false := by
  refine ⟨?_, ⟨?_, ?_, _, rfl⟩, ⟨?_, ?_, ?_, ?_, _, rfl⟩, ?_⟩ <;> decide +kernel

theorem witness_HoldoverAgesAndExpires :
    let s (age : Nat) : State := { State.reset with
      rsv := { State.reset.rsv with state := .holdover, age, ageCycles := 10000000 } }
    (s 3598).rsv.state = .holdover ∧ 10000000 ≤ (s 3598).rsv.ageCycles ∧ (s 3598).rsv.age + 1 < (s 3598).rsv.config.limit
      ∧ (s 3599).rsv.state = .holdover ∧ (s 3599).rsv.config.limit ≤ (s 3599).rsv.age + 1 := by decide +kernel

/-- The largest error either way, the window's edge, the third outlier, and an applied error. -/
theorem witness_PpsEdgeJudged :
    let s (stamp : Time) (streak : Nat) : State := { State.reset with
      rsv := { State.reset.rsv with
        state := .locked, streak, pps := { role := true, discipline := true, window := 1000, spacing := 1000 } }
      mail := { Mail.empty with ppsEdges := [{ stamp, adjusted := true, suppressed := 3, capture := 0 }] } }
    (s (at_ 7 5000000) 2).mail.ppsEdges = { stamp := at_ 7 5000000, adjusted := true, suppressed := 3, capture := 0 } :: []
      ∧ at_ 7 5000000 % 10000000 = 5000000 ∧ (s (at_ 7 5000000) 2).rsv.pps.window < (-5000000 : Int).natAbs
      ∧ 3 ≤ min ((s (at_ 7 5000000) 2).rsv.streak + 1) 255
      ∧ (s (at_ 7 1000) 0).mail.ppsEdges = { stamp := at_ 7 1000, adjusted := true, suppressed := 3, capture := 0 } :: []
      ∧ ¬ (s (at_ 7 1000) 0).rsv.pps.window < (1000 : Int).natAbs ∧ (s (at_ 7 1000) 0).rsv.pps.discipline = true
      ∧ (s (at_ 7 1000) 0).rsv.state = .locked ∧ (s (at_ 7 1001) 0).rsv.pps.window < (1001 : Int).natAbs := by
  decide +kernel

/-- The five changes of the enable and the limit. -/
theorem witness_ReferenceConfigured :
    let on : SupConfig := { enabled := true, tolerance := 5, qualLength := 255, limit := 1 }
    let off : SupConfig := { enabled := false, tolerance := 50, qualLength := 1, limit := 65535 }
    let pl (c : SupConfig) : List Byte :=
      [if c.enabled = true then 1 else 0, BitVec.ofNat 8 c.tolerance, BitVec.ofNat 8 c.qualLength] ++ beBytes c.limit 2
    let s (state : SupState) (before c : SupConfig) : State :=
      ask { open2 with rsv := { open2.rsv with state, config := before, age := 1 } } 0 .refConfig (pl c)
    on.Ok ∧ off.Ok ∧ ∀ state before c, (s state before c).asks 0 5 false .refConfig (pl c)
      ∧ (s state before c).sau.sessions[(0 : Port)].attached = true ∧ (s state before c).sau.holder = some 0
      ∧ (s state before c).rsv.config = before ∧ (s state before c).rsv.state = state ∧ on.limit ≤ (s state before c).rsv.age := by
  refine ⟨?_, ?_, fun state before c => ⟨asks_ask .., rfl, rfl, rfl, rfl, Nat.le_refl 1⟩⟩
  · unfold SupConfig.Ok; decide
  · unfold SupConfig.Ok; decide

/-- A one-shot entry, a periodic one at the end of its count and past the maximum, and a rearming one. -/
theorem witness_OccurrencesConsumed :
    let one := oneShot (at_ 3 0)
    let last : Entry := { one with period := some 1000, remaining := some 2, initial := some 2 }
    let past : Entry := { oneShot Config.maxTime with period := some 1000 }
    let rearm : Entry := { one with prime := some { input := 0, edge := .any, delay := 0, rearm := true } }
    one.due = some (at_ 3 0) ∧ one.endsAfter 1 = true ∧ last.endsAfter 2 = true ∧ last.endsAfter 1 = false
      ∧ past.due = some Config.maxTime ∧ past.endsAfter 1 = true ∧ rearm.endsAfter 1 = true
      ∧ last.passed (at_ 3 999) = 1 ∧ last.passed (at_ 3 5000) = 2 := by decide +kernel

/-- Two entries in the order of the due list, one of them at the time value itself, and one later. -/
theorem witness_TimeAdvanceFires :
    let s := withEntries { State.reset with mail := { Mail.empty with toScu := [.advance 0 (at_ 300 8)] } }
      [(14, oneShot (at_ 300 7)), (6, oneShot (at_ 300 8)), (2, oneShot (at_ 300 9))]
    s.mail.toScu = .advance 0 (at_ 300 8) :: [] ∧ s.dueInOrder (at_ 300 8) [14, 6] := by
  unfold State.dueInOrder
  decide +kernel

theorem witness_StepTreatsPassedEntries :
    let s (new : Time) := withEntries { State.reset with mail := { Mail.empty with toScu := [.step 0 (at_ 200 0) new] } }
      [(7, { oneShot (at_ 203 0) with policy := .skip }), (5, oneShot (at_ 203 0)), (2, oneShot (at_ 203 1))]
    ((s (at_ 203 0)).mail.toScu = .step 0 (at_ 200 0) (at_ 203 0) :: [] ∧ (s (at_ 203 0)).dueInOrder (at_ 203 0) [5, 7]
        ∧ at_ 200 0 < at_ 203 0)
      ∧ (s (at_ 200 0)).mail.toScu = .step 0 (at_ 200 0) (at_ 200 0) :: [] ∧ at_ 200 0 ≤ at_ 200 0 := by
  unfold State.dueInOrder
  decide +kernel

/-- Entries primed on EVT2 in the four cases: 0 with a due ahead, 1 one-shot and due at the time itself, 2 periodic and past,
3 with a due past the maximum. -/
def primedFour (now : Time) : State :=
  let e (delay : Nat) (period : Option Nat) : Entry := { oneShot 0 with
    state := .primed, due := none, period, prime := some { input := 2, edge := .any, delay, rearm := true } }
  withEntries { State.reset with
    scu := { State.reset.scu with now }
    mail := { Mail.empty with primings := [{ input := 2, direction := .rise, stamp := now - 8, turn := 0, capture := 0 }] } }
    [(0, e 9 none), (1, e 8 none), (2, e 0 (some 1000)), (3, e 100000000 none)]

theorem witness_PrimingArmsMatchingEntries :
    let edge : Priming := { input := 2, direction := .rise, stamp := Config.maxTime - 13, turn := 7, capture := 0 }
    let other : Priming := { edge with input := 3 }
    let s : State := { primedFour (Config.maxTime - 5) with
      mail := { Mail.empty with primings := [other, edge], toScu := [.advance 8 Config.maxTime] } }
    let early : State := { s with mail := { s.mail with toScu := [.advance 7 (Config.maxTime - 5)] } }
    let l : List Index := [0, 1, 2, 3]
    s.mail.primings = [other] ++ edge :: [] ∧ (∀ e ∈ [other], e.input ≠ edge.input)
      ∧ (∀ h ∈ s.mail.toScu, edge.turn < h.turn) ∧ (∃ h ∈ early.mail.toScu, h.turn ≤ edge.turn) ∧ l.Pairwise (· < ·)
      ∧ (∀ i : Index, i ∈ l ↔ s.scu.entries[i].state = .primed
          ∧ (s.scu.entries[i].prime.any fun q => q.input == 2 && decide (q.edge = .any ∨ q.edge = .rise)) = true)
      ∧ (∀ i ∈ l, ∀ P ∈ s.scu.entries[i].period, 0 < P)
      ∧ Config.maxTime - 13 + 9 ≤ Config.maxTime ∧ s.scu.now < Config.maxTime - 13 + 9
      ∧ Config.maxTime - 13 + 8 ≤ s.scu.now ∧ Config.maxTime < Config.maxTime - 13 + 100000000
      ∧ Config.maxTime < Config.maxTime - 13 + 1 * 1000 := by decide +kernel

/-- A creation of port 0 with every field at the end of its range. -/
def creationMax : Creation :=
  { label := 65535, period := some Config.maxPeriod, remaining := some 65535, action := some { line := 7, op := .toggle }
    scope := .all, policy := .skip }

def creationOne : Creation :=
  { label := 0, period := none, remaining := none, action := none, scope := .owner, policy := .catchup }

theorem creationMax_ok (detached : Bool) : creationMax.Ok detached := by
  unfold Creation.Ok creationMax
  refine ⟨by decide, ?_, ?_, by simp, by simp⟩ <;> decide

theorem creationOne_ok : creationOne.Ok false := by
  unfold Creation.Ok creationOne
  decide

/-- A due one count ahead, at the time itself one-shot under each policy, and periodic. -/
theorem witness_ArmCreatesEntry :
    let s (detached : Bool) (due : Time) (c : Creation) : State :=
      ask { open2 with scu := { open2.scu with now := 100 } } 0 .arm (armPayload detached due c)
    (∀ detached due c, (s detached due c).asks 0 5 false .arm (armPayload detached due c))
      ∧ creationMax.Ok true ∧ creationOne.Ok false
      ∧ (s true 101 creationMax).creates 0 true creationMax 0 ∧ (s false 100 creationOne).creates 0 false creationOne 0
      ∧ (s true 101 creationMax).scu.now < 101 ∧ 100 ≤ (s false 100 creationOne).scu.now
      ∧ (100 : Nat) + (1 - 1) * Config.maxPeriod ≤ 100 ∧ (100 : Nat) < 100 + 1 * Config.maxPeriod := by
  refine ⟨fun _ _ _ => asks_ask .., creationMax_ok true, creationOne_ok, ?_, ?_, ?_⟩
  · unfold State.creates; decide +kernel
  · unfold State.creates; decide +kernel
  · decide +kernel

theorem witness_PrimeCreatesEntry :
    let q : PrimeSpec := { input := 7, edge := .any, delay := 100000000, rearm := true }
    let s := ask (withEntries open2 [(0, oneShot 5)]) 0 .prime (primePayload false q creationMax)
    s.asks 0 5 false .prime (primePayload false q creationMax) ∧ creationMax.Ok false ∧ q.delay ≤ 100000000
      ∧ s.creates 0 false creationMax 1 := by
  refine ⟨asks_ask .., creationMax_ok false, Nat.le_refl _, ?_⟩
  unfold State.creates
  decide +kernel

/-- One above the last fraction of a due, one below the least period, a count of 0, line 8, scope 3, a delay above 10 s. -/
theorem witness_CreationRefused_range :
    let arm (flags : Byte) (common : List Byte) : List Byte := [flags, 0, 0, 0, 0, 0, 0, 5, 0, 0, 0] ++ common
    let a := ask open2 0 .arm (arm 2 [0, 0, 0, 0, 0, 0, 3, 0xE7, 0, 0, 0, 0, 0, 0])
    let b := ask open2 0 .prime [0, 0, 0, 0, 0, 5, 0xF5, 0xE1, 1, 0, 0, 0, 0, 0, 0, 0, 0, 0, 0, 0, 0, 0, 0, 0]
    (a.sau.sessions[(0 : Port)].attached = true ∧ a.asks 0 5 false .arm (arm 2 [0, 0, 0, 0, 0, 0, 3, 0xE7, 0, 0, 0, 0, 0, 0])
        ∧ fieldNat (arm 2 [0, 0, 0, 0, 0, 0, 3, 0xE7, 0, 0, 0, 0, 0, 0]) 16 3 = 999)
      ∧ (fieldNat [0, 0, 0, 0, 0, 0, 0, 5, 0x98, 0x96, 0x80] 8 3 = 10000000)
      ∧ (b.sau.sessions[(0 : Port)].attached = true
        ∧ b.asks 0 5 false .prime [0, 0, 0, 0, 0, 5, 0xF5, 0xE1, 1, 0, 0, 0, 0, 0, 0, 0, 0, 0, 0, 0, 0, 0, 0, 0]
        ∧ fieldNat [0, 0, 0, 0, 0, 5, 0xF5, 0xE1, 1] 5 4 = 100000001) := by
  refine ⟨⟨rfl, asks_ask .., ?_⟩, ?_, rfl, asks_ask .., ?_⟩ <;> decide +kernel

/-- A detached entry asked for by port 1, which is attached and not the holder: every other field in its range (a PRIME), and
one out of it (an ARM with scope 3). -/
theorem witness_CreationRefused_authority :
    let l := primePayload true { input := 7, edge := .any, delay := 0, rearm := false } { creationMax with scope := .all }
    let bad : List Byte := [1] ++ List.replicate 22 0 ++ [3, 0]
    open2.sau.sessions[(1 : Port)].attached = true ∧ open2.sau.holder ≠ some 1
      ∧ (l.getD 0 0).toNat % 2 = 1 ∧ (bad.getD 0 0).toNat % 2 = 1 ∧ l.length ∈ Code.lengths .prime ∧ bad.length ∈ Code.lengths .arm
      ∧ armOperands bad = none
      ∧ (ask open2 1 .prime l).asks 1 5 false .prime l ∧ (ask open2 1 .arm bad).asks 1 5 false .arm bad := by
  refine ⟨by decide +kernel, by decide +kernel, by decide +kernel, by decide +kernel, by decide +kernel, by decide +kernel,
    by decide +kernel, asks_ask .., asks_ask ..⟩

/-- Of a line bound to port 1, at the quota, and with every index in use; and the holder, who may ask for a detached entry. -/
theorem witness_CreationRefused :
    let pl (detached : Bool) := armPayload detached 5 creationMax
    let bound := open2.withLine 7 fun l => { l with binding := some 1 }
    let full := withEntries open2 ((List.finRange 16).map fun i => (⟨i.val, by omega⟩, oneShot 5))
    let every := withEntries open2 ((List.finRange 64).map fun i => (i, { oneShot 5 with owner := some 1 }))
    (∀ (s : State) (p : Port) (detached : Bool), (ask s p .arm (pl detached)).asks p 5 false .arm (pl detached))
      ∧ creationMax.Ok true ∧ creationMax.Ok false
      ∧ open2.sau.holder = some 0
      ∧ (bound.sau.sessions[(0 : Port)].attached = true ∧ bound.tou.lines[(7 : Line)].binding = some 1)
      ∧ (full.sau.sessions[(0 : Port)].attached = true ∧ full.scu.quota[(0 : Port)] = full.scu.use 0)
      ∧ every.scu.use 0 < every.scu.quota[(0 : Port)] ∧ ∀ i : Index, every.scu.entries[i].state ≠ .free := by
  refine ⟨fun _ _ _ => asks_ask .., creationMax_ok true, creationMax_ok false, ?_⟩
  decide +kernel

/-- Index 64 and 63, a FREE entry, the generation beside the entry's, another port's entry, a detached entry. -/
theorem witness_HandleChecks :
    let s := withEntries open2 [(63, { oneShot 5 with owner := some 1 }), (0, { oneShot 5 with owner := none, scope := .all })]
    (∀ (p : Port) (l : List Byte), (ask s p .cancel l).asks p 5 false .cancel l)
      ∧ s.sau.sessions[(2 : Port)].attached = false ∧ s.sau.sessions[(0 : Port)].attached = true
      ∧ 63 < (64 : Byte).toNat ∧ (63 : Index).val = (63 : Byte).toNat ∧ s.scu.entries[1].state = .free
      ∧ s.scu.entries[63].generation ≠ (1 : Byte).toNat ∧ s.scu.entries[63].generation = (0 : Byte).toNat
      ∧ s.scu.entries[63].owner = some 1 ∧ s.scu.entries[0].owner = none ∧ s.sau.holder ≠ some 1 := by
  refine ⟨fun _ _ => asks_ask .., ?_⟩
  decide +kernel

/-- An ARMED entry, and a detached HELD one of generation 255 under the holder. -/
theorem witness_CancelAndHold :
    let held : Entry := { oneShot 9 with state := .held, owner := none, scope := .all, generation := 255 }
    let s := withEntries open2 [(0, oneShot (at_ 105 0)), (63, held)]
    (∀ (c : Code) (l : List Byte), (ask s 0 c l).asks 0 5 false c l) ∧ s.sau.sessions[(0 : Port)].attached = true
      ∧ (s.scu.entries[0].state = .armed ∧ s.scu.entries[0].due = some (at_ 105 0) ∧ s.scu.entries[0].owner = some 0)
      ∧ s.scu.entries[63].state = .held ∧ s.scu.entries[63].generation < 256 ∧ s.scu.entries[63].owner = none
      ∧ s.sau.holder = some 0 := by
  refine ⟨fun _ _ => asks_ask .., ?_⟩
  decide +kernel

/-- A HELD entry whose due is the SCU's time itself or one count ahead, an ARMED one, and a due whose fraction is out of
range. -/
theorem witness_ResumeArmsOrTreats :
    let s (now : Time) := withEntries { open2 with scu := { open2.scu with now } }
      [(5, { oneShot (at_ 105 0) with state := .held, generation := 255 }), (6, oneShot (at_ 105 9))]
    (∀ (now : Time) (l : List Byte), (ask (s now) 0 .resume l).asks 0 5 false .resume l)
      ∧ (s (at_ 105 0)).sau.sessions[(0 : Port)].attached = true ∧ (s (at_ 105 0)).scu.entries[5].state = .held
      ∧ (s (at_ 105 0)).scu.entries[5].due = some (at_ 105 0) ∧ at_ 105 0 ≤ (s (at_ 105 0)).scu.now
      ∧ (s (at_ 104 9999999)).scu.now < at_ 105 0 ∧ (s (at_ 105 0)).scu.entries[6].state = .armed
      ∧ 9999999 < fieldNat [0, 0, 0, 0, 5, 0x98, 0x96, 0x80] 5 3 := by
  refine ⟨fun _ _ => asks_ask .., ?_⟩
  decide +kernel

/-- A PRIMED entry, index 64, and a listing of 32 entries with a further one. -/
theorem witness_EntriesReported :
    let s := withEntries open2 ((List.finRange 33).map fun i => (⟨i.val, by omega⟩, oneShot 5))
    let shown : List Index := (List.finRange 32).map fun i => ⟨i.val, by omega⟩
    (∀ (c : Code) (l : List Byte), (ask s 0 c l).asks 0 5 false c l) ∧ s.sau.sessions[(0 : Port)].attached = true
      ∧ s.scu.entries[32].state ≠ .free ∧ s.scu.entries[32].owner = some 0 ∧ 63 < (64 : Byte).toNat
      ∧ (shown ++ [32]).Pairwise (· < ·) ∧ shown.length = 32
      ∧ (∀ i : Index, i ∈ shown ++ [32] ↔ (0 : Byte).toNat ≤ i.val ∧ s.scu.entries[i].state ≠ .free
        ∧ (s.scu.entries[i].owner = some 0 ∨ s.scu.entries[i].owner = none ∧ s.sau.holder = some 0)) := by
  refine ⟨fun _ _ => asks_ask .., ?_⟩
  decide +kernel

theorem witness_SessionEndFreesEntries :
    (endingAt .atScu .expired).sau.ending = some { port := 0, reason := .expired, phase := .atScu, freed := 0, records := [] }
      ∧ (endingAt .atScu .expired).scu.entries[0].owner = some 0
      ∧ (endingAt .atScu .expired).scu.entries[1].owner ≠ some 0 := by decide +kernel

/-- A line operation from the SCU; a DRIVE_LINE on a line that is SHARED, bound to the port and bound to another; and one of a
line, and of an operation, just above its range. -/
theorem witness_LineOperationsApply :
    let s (binding : Option Port) : State :=
      (lineAt true 1 65535).withLine 7 fun l => { l with binding }
    ({ lineAt true 1 10 with mail := { Mail.empty with ops := [{ line := 7, op := .toggle }] } } : State).mail.ops
        = { line := 7, op := .toggle } :: []
      ∧ (∀ (b : Option Port) (l : List Byte), (ask (s b) 1 .driveLine l).asks 1 5 false .driveLine l)
      ∧ (s none).sau.sessions[(1 : Port)].attached = true ∧ (s none).tou.lines[(7 : Line)].binding = none
      ∧ (s (some 1)).tou.lines[(7 : Line)].binding = some 1 ∧ (s (some 0)).tou.lines[(7 : Line)].binding = some 0
      ∧ 7 < (8 : Byte).toNat ∧ 3 < (4 : Byte).toNat := by
  refine ⟨rfl, fun _ _ => asks_ask .., ?_⟩
  decide +kernel

/-- Line 2 with an entry of port 0 on it: a binding to port 1 is blocked by index 5, one to port 0 and SHARED are not. -/
theorem witness_BindLineChecksTable :
    let s := withEntries open2 [(5, { oneShot 9 with action := some { line := 2, op := .pulse } })]
    let blocks (binding : Option Port) (i : Index) : Prop :=
      binding ≠ none ∧ s.scu.entries[i].state ≠ .free ∧ s.scu.entries[i].owner ≠ binding
        ∧ (s.scu.entries[i].action.any fun a => a.line == 2) = true
    (∀ l : List Byte, (ask s 0 .bindLine l).asks 0 5 false .bindLine l)
      ∧ s.sau.sessions[(0 : Port)].attached = true ∧ s.sau.holder = some 0
      ∧ blocks (some 1) 5 ∧ (∀ j : Index, j < 5 → ¬ blocks (some 1) j) ∧ (∀ i : Index, ¬ blocks (some 0) i)
      ∧ ∀ i : Index, ¬ blocks none i := by
  refine ⟨fun _ => asks_ask .., ?_⟩
  decide +kernel

/-- The ends of every range, and a divider of 1 and of 64 with a sample waiting. -/
theorem witness_ConfigurationReplaced :
    let s := evt2 .high 0 none 2 1 0
    (∀ (c : Code) (l : List Byte), (ask s 0 c l).asks 0 5 false c l)
      ∧ s.sau.sessions[(0 : Port)].attached = true ∧ s.sau.holder = some 0
      ∧ s.mail.toEcu = .sample 0 2 0 :: []
      ∧ ({ window := 5000000, spacing := 10000, role := true, discipline := true } : PpsConfig).Ok
      ∧ ({ window := 1, spacing := 100, role := false, discipline := false } : PpsConfig).Ok := by
  refine ⟨fun _ _ => asks_ask .., rfl, rfl, rfl, ?_, ?_⟩ <;> (unfold PpsConfig.Ok; decide)

/-- The input before its first sample, on the stable level, within a run, and at its end with the edge unselected or within
the dead time; another input's sample stands before each. -/
theorem witness_SampleWithoutCapture :
    let s (i : Input) : State := { (State.reset.withInput 7 i) with
      mail := { Mail.empty with toEcu := [.sample 5 0 9, .sample 5 7 9] } }
    (∀ i, (s i).mail.toEcu = [.sample 5 0 9] ++ .sample 5 7 9 :: [])
      ∧ (∀ h ∈ [EcuHandover.sample 5 0 9], ∃ j m u, h = .sample j m u ∧ m ≠ 7) ∧ (∀ i, (s i).ecu.inputs[(7 : Line)] = i)
      ∧ (s Input.initial).rsv.pps.role = false ∧ Input.initial.stable = none ∧ Input.initial.select = .off
      ∧ ∀ run, run + 1 < 3 ∨ 3 ≤ run + 1 → ∃ i : Input, i.stable = some .low ∧ i.qualify = 3 ∧ i.run = run
        ∧ i.select = .both ∧ i.deadLeft = 1 := by
  refine ⟨fun _ => rfl, ?_, fun i => ?_, rfl, rfl, rfl, fun run _ => ?_⟩
  · intro h hh
    exact ⟨5, 0, 9, by simpa using hh, by decide⟩
  · simp [State.withInput]
  · exact ⟨{ Input.initial with stable := some .low, run, candidate := some 3, select := .both, deadLeft := 1 },
      rfl, rfl, rfl, rfl, rfl⟩

/-- A run that ends on its first sample and one that ends later, and the PPS edge of EVT7. -/
theorem witness_SampleCaptures :
    let one : Input := { Input.initial with stable := some .low, qualify := 1, select := .rise }
    let later : Input := { Input.initial with stable := some .high, run := 2, candidate := some 3, adjusted := true, select := .both }
    let s (n : Line) (role : Bool) (i : Input) : State := { (State.reset.withInput n i) with
      rsv := { State.reset.rsv with pps := { State.reset.rsv.pps with role } }
      mail := { Mail.empty with toEcu := [.sample 5 n 9] } }
    ((s 7 true one).mail.toEcu = [] ++ .sample 5 7 9 :: [] ∧ (s 7 true one).ecu.inputs[(7 : Line)] = one
        ∧ (s 7 true one).rsv.pps.role = true ∧ one.qualify ≤ one.run + 1 ∧ one.deadLeft = 0 ∧ one.stable = some .low
        ∧ one.run = 0)
      ∧ (s 0 true later).mail.toEcu = [] ++ .sample 5 0 9 :: [] ∧ (s 0 true later).ecu.inputs[(0 : Line)] = later
        ∧ later.qualify ≤ later.run + 1 ∧ later.deadLeft = 0 ∧ later.stable = some .high ∧ later.run ≠ 0
        ∧ later.candidate = some 3 ∧ later.select = .both := by decide +kernel

/-- A run whose candidate moves to 0 exactly, and one that is held at 0; the SCU with a later advance waiting, and with the step
itself. -/
theorem witness_StepShiftsRuns :
    let s (old new : Time) (k : Nat) : State := { evt2 .low 1 (some 8) 0 0 0 with
      mail := { Mail.empty with toEcu := [.step 5 old new], toScu := [.advance k 11] } }
    (s 18 10 6).mail.toEcu = .step 5 18 10 :: [] ∧ (∀ h ∈ (s 18 10 6).mail.toScu, 5 < h.turn)
      ∧ (∃ h ∈ (s 18 10 5).mail.toScu, h.turn ≤ 5)
      ∧ (s 18 10 6).ecu.inputs[2].run ≠ 0 ∧ (s 18 10 6).ecu.inputs[2].candidate = some 8
      ∧ (8 : Int) + 10 - 18 = 0 ∧ (s 19 10 6).mail.toEcu = .step 5 19 10 :: [] ∧ (8 : Int) + 10 - 19 < 0
      ∧ (s 18 10 6).ecu.inputs[0].run = 0 := by decide +kernel

theorem witness_LinesAndInputsReported :
    (∀ (p : Port) (c : Code), (ask open2 p c []).asks p 5 false c [])
      ∧ open2.sau.sessions[(3 : Port)].attached = false ∧ open2.sau.sessions[(1 : Port)].attached = true :=
  ⟨fun _ _ => asks_ask .., rfl, rfl⟩

/-- A port with a subscription and one without, and a record of each addressing. -/
theorem witness_ScopesByKind :
    open2.elu.subs[(0 : Port)] = some everything ∧ open2.elu.subs[(3 : Port)] = none
      ∧ (posted .ecu (.edge 7 .rise false false 0 0)).body = .edge 7 .rise false false 0 0
      ∧ ({ posted .scu (.fire 63 0 0 0 1 .advance true .unset) with address := some { owner := none, all := true } } :
          Posted).address = some { owner := none, all := true }
      ∧ (open2.elu.pendingSet (posted .sau (.authority 2 .granted .claim none 0))) = #v[true, true, false, false] := by
  decide +kernel

/-- The log empty, one record short of full and full under each policy; the seq at its end; a record of another producer
before the one taken, which need not wait; and the same record behind the STEP record of its own step. -/
theorem witness_RecordTakenIntoLog :
    let r := posted .tbu (.slewDone .host 2 100)
    let b := posted .ecu (.edge 0 .rise false false 0 0)
    let full (k : Nat) (policy : FullPolicy) : State := { open2 with
      elu := { open2.elu with log := List.replicate k (logged 5 #v[true, false, false, false]), policy, nextSeq := 4294967295 }
      mail := { Mail.empty with records := [b, r] } }
    let step : Posted := { posted .tbu (.step true 5 false none) with links := { turn := some 3 } }
    let missed : Posted := { posted .scu (.missed 0 0 0 0 1 .stepped true) with links := { turn := some 3 } }
    (∀ k policy, (full k policy).mail.records = [b] ++ r :: [] ∧ (full k policy).elu.log.length = k
        ∧ (full k policy).elu.policy = policy ∧ ¬ (full k policy).mustWait r)
      ∧ b.producer ≠ r.producer
      ∧ ({ open2 with mail := { Mail.empty with records := [step, missed] } } : State).mustWait missed
      ∧ ((full 127 .hold).elu.pendingSet r)[(0 : Port)] = true ∧ ((full 128 .hold).elu.pendingSet r)[(3 : Port)] = false
      ∧ (full 128 .overwrite).elu.log = logged 5 #v[true, false, false, false]
          :: List.replicate 127 (logged 5 #v[true, false, false, false]) := by
  refine ⟨fun k policy => ⟨rfl, List.length_replicate .., rfl, fun h => ?_⟩, by decide, .inl ?_, ?_, ?_, rfl⟩
  · rw [← State.holdsBack_iff] at h
    exact absurd h (by show ¬ Mail.holdsBack { Mail.empty with records := _ } _ = true; decide)
  · exact ⟨_, List.mem_cons_self .., .inl ⟨rfl, .inl rfl, 3, 3, rfl, rfl, Nat.le_refl 3⟩⟩
  all_goals decide +kernel

/-- An install with another port's before it, with and without an older session end on record, and a SUBSCRIBE with the largest
masks and one above each. -/
theorem witness_SubscriptionsReplaced :
    let i : Install := { port := 0, sub := everything }
    let s (records : List Posted) : State :=
      { open2 with mail := { Mail.empty with installs := [i, { i with port := 2 }], records } }
    (s []).mail.installs = [i] ++ { port := 2, sub := everything } :: [] ∧ (s []).mail.records = []
      ∧ (s [posted .sau (.session 2 (some .expired) 5 0)]).mail.records.map (fun r => r.body) = [.session 2 (some .expired) 5 0]
      ∧ (∀ j ∈ [i], j.port ≠ 2) ∧ (∀ l : List Byte, (ask open2 1 .subscribe l).asks 1 5 false .subscribe l)
      ∧ open2.sau.sessions[(1 : Port)].attached = true ∧ (∀ j ∈ open2.mail.installs, j.port ≠ 1)
      ∧ (31 : Byte).toNat < 32 ∧ (7 : Byte).toNat < 8 ∧ 32 ≤ (32 : Byte).toNat ∧ 8 ≤ (8 : Byte).toNat := by
  refine ⟨rfl, rfl, rfl, ?_, fun _ => asks_ask .., ?_⟩ <;> decide +kernel

/-- Limits 0, 1, 4 and 5, and a log with more records than the limit. -/
theorem witness_LogRead :
    let s : State := { open2 with elu := { open2.elu with
      log := [logged 1 #v[false, true, false, false], logged 2 #v[true, true, false, false], logged 3 #v[true, false, false, false]] } }
    (∀ l : List Byte, (ask s 1 .readLog l).asks 1 5 false .readLog l) ∧ s.sau.sessions[(1 : Port)].attached = true
      ∧ open2.sau.sessions[(3 : Port)].attached = false ∧ (0 : Byte).toNat = 0 ∧ 4 < (5 : Byte).toNat ∧ (4 : Byte).toNat ≤ 4
      ∧ s.elu.log.filter (fun r => r.pending[(1 : Port)])
        = [logged 1 #v[false, true, false, false]] ++ [logged 2 #v[true, true, false, false]]
      ∧ [logged 1 #v[false, true, false, false]].length = (1 : Byte).toNat := by
  refine ⟨fun _ => asks_ask .., ?_⟩
  decide +kernel

/-- The seq 0, the largest seq, and a seq that names nothing of the port. -/
theorem witness_LogAcknowledged :
    let older := [logged 4294967294 #v[true, true, false, false]]
    let r := logged 4294967295 #v[false, true, false, false]
    let new := [logged 1 #v[true, false, false, false]]
    let s : State := { open2 with elu := { open2.elu with log := older ++ [r] ++ new } }
    (∀ l : List Byte, (ask s 1 .ackLog l).asks 1 5 false .ackLog l) ∧ s.sau.sessions[(1 : Port)].attached = true
      ∧ open2.sau.sessions[(3 : Port)].attached = false ∧ s.elu.log = (older ++ [r]) ++ new ∧ s.elu.log = [] ++ (older ++ [r] ++ new)
      ∧ r.record.seq = 4294967295 ∧ r.pending[(1 : Port)] = true ∧ (∀ x ∈ older, x.record.seq ≠ 4294967295)
      ∧ (∀ x ∈ new, ∃ q : Port, x.pending[q] = true)
      ∧ ∀ x ∈ s.elu.log, x.record.seq = 1 → x.pending[(1 : Port)] = false := by
  refine ⟨fun _ => asks_ask .., ?_⟩
  decide +kernel

theorem witness_SessionEndCompletes :
    let e (reason : EndReason) : Ending := { port := 0, reason, phase := .atElu, freed := 0, records := [] }
    let s := endingAt .atElu .expired
    let d : State := { endingAt .atElu .detached with hpu := State.reset.hpu.set 0 { Hpu.initial with slot := .executing 5 false .taken } }
    (s.sau.ending = some (e .expired) ∧ s.mail.records = [] ∧ ∀ i ∈ s.mail.installs, i.port ≠ 0)
      ∧ d.sau.ending = some (e .detached) ∧ (∀ i ∈ d.mail.installs, i.port ≠ 0)
      ∧ d.hpu[(0 : Port)].slot = .executing 5 false .taken
      ∧ ({ posted .scu (.missed 0 0 0 0 1 .advance true) with address := some { owner := some 0, all := false } } :
          Posted).address = some { owner := some 0, all := false } := by decide +kernel

/-- The largest masks, one above each, and an attached port. -/
theorem witness_AttachOpensSession :
    (∀ (p : Port) (l : List Byte), (ask open2 p .attach l).asks p 5 false .attach l) ∧ open2.sau.ending = none
      ∧ open2.sau.sessions[(0 : Port)].attached = true ∧ open2.sau.sessions[(3 : Port)].attached = false
      ∧ (31 : Byte).toNat < 32 ∧ (7 : Byte).toNat < 8 ∧ 32 ≤ (32 : Byte).toNat ∧ 8 ≤ (8 : Byte).toNat := by
  refine ⟨fun _ _ => asks_ask .., ?_⟩
  decide +kernel

/-- The holder with a queue and without, a queued port, and an idle timer at its limit. -/
theorem witness_SessionEndBegins :
    let expired : State := { queued with sau := { queued.sau with
      sessions := queued.sau.sessions.set 1 { session30 with limit := 255, seconds := 255 } } }
    (∀ (s : State) (p : Port), (ask s p .detach []).asks p 5 false .detach [])
      ∧ (queued.sau.ending = none ∧ queued.sau.sessions[(0 : Port)].attached = true ∧ queued.sau.holder = some 0
        ∧ queued.sau.queue = 1 :: [3] ∧ (1 : Port) ≠ 0 ∧ 0 ∉ queued.sau.queue)
      ∧ (open2.sau.holder = some 0 ∧ open2.sau.queue = [])
      ∧ (expired.sau.sessions[(1 : Port)].attached = true ∧ expired.sau.holder ≠ some 1
        ∧ expired.sau.sessions[(1 : Port)].limit ≠ 0
        ∧ expired.sau.sessions[(1 : Port)].limit ≤ expired.sau.sessions[(1 : Port)].seconds)
      ∧ open2.sau.sessions[(3 : Port)].attached = false := by
  refine ⟨fun _ _ => asks_ask .., ?_⟩
  decide +kernel

/-- Nobody holds it, the port holds it, another holds it with the port waiting in the second place and not waiting. -/
theorem witness_ClaimGrantsOrQueues :
    let nobody : State := { queued with sau := { queued.sau with holder := none, queue := [] } }
    (∀ (s : State) (p : Port), (ask s p .claim []).asks p 5 false .claim []) ∧ queued.sau.ending = none
      ∧ open2.sau.sessions[(3 : Port)].attached = false
      ∧ (queued.sau.sessions[(2 : Port)].attached = true ∧ queued.sau.sessions[(2 : Port)].limit = 0)
      ∧ (queued.sau.sessions[(3 : Port)].attached = true ∧ queued.sau.sessions[(3 : Port)].limit ≠ 0)
      ∧ nobody.sau.holder = none ∧ queued.sau.holder = some 0 ∧ queued.sau.queue = [1] ++ 3 :: [] ∧ (3 : Port) ∉ [(1 : Port)]
      ∧ open2.sau.holder = some 0 ∧ open2.sau.sessions[(1 : Port)].limit ≠ 0 ∧ 1 ∉ open2.sau.queue := by
  refine ⟨fun _ _ => asks_ask .., ?_⟩
  decide +kernel

theorem witness_ReleasePassesAuthority :
    (∀ (s : State) (p : Port), (ask s p .release []).asks p 5 false .release []) ∧ queued.sau.ending = none
      ∧ open2.sau.sessions[(3 : Port)].attached = false
      ∧ (queued.sau.sessions[(0 : Port)].attached = true ∧ queued.sau.holder = some 0 ∧ queued.sau.queue = 1 :: [3])
      ∧ (open2.sau.sessions[(0 : Port)].attached = true ∧ open2.sau.holder = some 0 ∧ open2.sau.queue = [])
      ∧ (queued.sau.sessions[(3 : Port)].attached = true ∧ 3 ∈ queued.sau.queue)
      ∧ queued.sau.sessions[(2 : Port)].attached = true ∧ 2 ∉ queued.sau.queue := by
  refine ⟨fun _ _ => asks_ask .., ?_⟩
  decide +kernel

theorem witness_TakeBySenior :
    let own : State := { queued with sau := { queued.sau with holder := some 3, queue := [1] } }
    let nobody : State := { queued with sau := { queued.sau with holder := none, queue := [] } }
    let noLimit : State := { queued with sau := { queued.sau with senior := 2 } }
    (∀ (s : State) (p : Port), (ask s p .take []).asks p 5 false .take []) ∧ queued.sau.ending = none
      ∧ open2.sau.sessions[(3 : Port)].attached = false
      ∧ (queued.sau.sessions[(1 : Port)].attached = true ∧ queued.sau.senior ≠ 1)
      ∧ (noLimit.sau.senior = 2 ∧ noLimit.sau.sessions[(2 : Port)].attached = true ∧ noLimit.sau.sessions[(2 : Port)].limit = 0)
      ∧ (queued.sau.senior = 3 ∧ queued.sau.sessions[(3 : Port)].attached = true ∧ queued.sau.sessions[(3 : Port)].limit ≠ 0)
      ∧ own.sau.holder = some 3 ∧ nobody.sau.holder = none ∧ queued.sau.holder = some 0 := by
  refine ⟨fun _ _ => asks_ask .., ?_⟩
  decide +kernel

/-- An attached port at the last cycle of its first second, in the second place of the queue; and a detached port. -/
theorem witness_StatusReportedAndCleared :
    let s : State := { queued with sau := { queued.sau with
      sessions := queued.sau.sessions.set 3 { session30 with cycles := 9999999, auth := true } } }
    (∀ (s : State) (p : Port), (ask s p .getStatus []).asks p 5 false .getStatus []) ∧ s.sau.ending = none
      ∧ s.sau.sessions[(3 : Port)].attached = true ∧ 29 * 10000000 + 0 * 10000000 + 9999999 ≤ 30 * 10000000
      ∧ 30 * 10000000 < (29 + 1) * 10000000 + 0 * 10000000 + 9999999
      ∧ s.sau.queue = [1] ++ 3 :: [] ∧ (3 : Port) ∉ [(1 : Port)]
      ∧ open2.sau.sessions[(3 : Port)].attached = false ∧ 3 ∉ open2.sau.queue := by
  refine ⟨fun _ _ => asks_ask .., ?_⟩
  decide +kernel

/-- A port with a staged response and a refusal held, and the STATUS byte of it. -/
def stagedAt (payload : List Byte) : State :=
  { open2 with hpu := open2.hpu.set 0 { Hpu.initial with
      staged := some { result := .ok, tag := 5, payload }, refusal := some .short } }

/-- An idle link; its image of 8 bytes with a byte at each end, and the first bit after it. -/
theorem witness_FrameBeginLatchesImage :
    let s := stagedAt [1, 2]
    let image : Image := { status := 0xC5, refusal := some .short, staged := s.hpu[(0 : Port)].staged }
    (image.bytes[0]? = some 0xC5 ∧ image.bytes[7]? ≠ none ∧ image.bytes.length = 8) ∧ s.rst = false ∧ s.hpu[(0 : Port)].link = .idle
      ∧ ∀ b : Fin 8, (0xC5 : Byte)[b] = match b.val with
        | 0 => s.hpu[(0 : Port)].refusal.isSome
        | 1 => decide ((∃ r ∈ s.elu.log, r.pending[(0 : Port)] = true) ∧ s.sau.sessions[(0 : Port)].mask[0] = true
            ∨ s.sau.sessions[(0 : Port)].auth = true ∧ s.sau.sessions[(0 : Port)].mask[1] = true
            ∨ s.sau.sessions[(0 : Port)].sessionEnded = true ∧ s.sau.sessions[(0 : Port)].mask[2] = true)
        | 2 => s.hpu[(0 : Port)].staged.isSome
        | 3 => decide (s.hpu[(0 : Port)].slot ≠ .free)
        | 4 => decide (∃ r ∈ s.elu.log, r.pending[(0 : Port)] = true)
        | 5 => decide ((0 : Port) ∈ s.sau.queue)
        | 6 => decide (s.sau.holder = some 0)
        | _ => s.sau.sessions[(0 : Port)].attached := by decide +kernel

/-- In a frame that carries a response of 2 bytes and a refusal: 7 edges, 7 bytes (the response not whole), 8 bytes (whole),
129 bytes, and a NOP of 128 bytes. -/
theorem witness_FrameEndsWithoutRequest :
    let s := after (.frameBegin 0) (stagedAt [1, 2])
    let nop : List Byte := [0, 9, 0, crcOfBytes [0, 9, 0]] ++ List.replicate 124 0
    (∃ m, s.hpu[(0 : Port)].link = .inFrame m ∧ m.refusal.isSome = true
        ∧ ∃ r, m.staged = some r ∧ r.payload.length + 6 = 8)
      ∧ frameBytes (List.replicate 7 true) = [] ∧ frameBytes (List.replicate 1032 true) = List.replicate 129 0xFF
      ∧ frameBytes (List.replicate 23 true) = [0xFF, 0xFF] ∧ frameBytes (bitsOfBytes nop) = nop ∧ nop.length = 128
      ∧ ([0, 9, 0, 0] : List Byte).getD 3 0 ≠ crcOfBytes [0, 9, 0] := by
  refine ⟨⟨_, rfl, ?_, _, rfl, ?_⟩, ?_⟩ <;> decide +kernel

/-- A frame of 128 bytes with a known CODE and length, one with another length and one of an unknown CODE; a slot that is
FREE and one that executes; a response staged after the frame began; and a frame that carries a response and a refusal out
whole, or ends before the response does. -/
theorem witness_FrameRequestJudged :
    let s := after (.frameBegin 0) open2
    let busy : State := after (.frameBegin 0) (ask open2 0 .readTime [])
    let done : State := after (.requestCompletion 0) (after (.readTime 0) busy)
    let out (n : Nat) : State := after (.frameBegin 0) (stagedAt (List.replicate n 0))
    let body (code : Byte) : List Byte := [code, 5, 0, crcOfBytes [code, 5, 0]] ++ List.replicate 124 0xEE
    (∃ m, s.hpu[(0 : Port)].link = .inFrame m ∧ m.staged = none ∧ m.refusal = none)
      ∧ s.hpu[(0 : Port)].slot = .free ∧ s.hpu[(0 : Port)].staged = none ∧ busy.hpu[(0 : Port)].slot ≠ .free
      ∧ (∃ m, done.hpu[(0 : Port)].link = .inFrame m ∧ m.staged = none ∧ m.refusal = none)
      ∧ done.hpu[(0 : Port)].slot = .free ∧ done.hpu[(0 : Port)].staged ≠ none
      ∧ (∃ m r, (out 120).hpu[(0 : Port)].link = .inFrame m ∧ m.staged = some r ∧ r.payload.length + 6 ≤ 128 ∧ m.refusal ≠ none)
      ∧ (∃ m r, (out 123).hpu[(0 : Port)].link = .inFrame m ∧ m.staged = some r ∧ 128 < r.payload.length + 6)
      ∧ (bitsOfBytes (body 0x20)).length < 1032 ∧ frameBytes (bitsOfBytes (body 0x20)) = body 0x20
      ∧ (0x20, .readTime, [0]) ∈ requestTable ∧ (0x40, .arm, [25]) ∈ requestTable
      ∧ ∀ row ∈ requestTable, row.1 ≠ 0xFF := by
  refine ⟨⟨_, rfl, ?_⟩, ?_, ?_, ?_, ⟨_, rfl, ?_⟩, ?_, ?_, ⟨_, _, rfl, rfl, ?_, ?_⟩, ⟨_, _, rfl, rfl, ?_⟩, ?_, ?_, ?_, ?_, ?_⟩
  all_goals decide +kernel

/-- A report of port 0 behind one of port 1; a detached port; an expiry that waits for a session end; an answered request. -/
theorem witness_ReportsAndCompletions :
    let r (p : Port) : Report := { port := p, request := false }
    let s : State := { queued with mail := { Mail.empty with reports := [r 1, r 0] } }
    let o : State := open2.withSession 0 fun ses => { ses with seconds := 30, overdue := true }
    let a : State := after (.readTime 0) (ask open2 0 .readTime [])
    (s.mail.reports = [r 1] ++ r 0 :: [] ∧ (∀ b ∈ [r 1], b.port ≠ 0)
        ∧ s.sau.sessions[(0 : Port)].attached = true ∧ s.sau.sessions[(0 : Port)].overdue = false)
      ∧ State.reset.sau.sessions[(0 : Port)].attached = false ∧ o.sau.sessions[(0 : Port)].overdue = true
      ∧ a.ready 0 = false
      ∧ a.hpu[(0 : Port)].slot = .executing 5 false (.answered .ok [0, 0, 0, 0, 0, 0, 0, 0, 0, 0]) := by decide +kernel

theorem witness_AttachmentAndAuthorityChecked :
    let early : State := after (.frameEnd 0 readTimeFrame) (after (.frameBegin 0) open2)
    ((∃ g d c l, early.hpu[(0 : Port)].slot = .executing g d (.waiting c l))
        ∧ ({ port := 0, request := true } ∈ early.mail.reports ∨ early.sau.sessions[(0 : Port)].overdue = true))
      ∧ (∀ (p : Port) (c : Code) (l : List Byte), (ask open2 p c l).asks p 5 false c l) ∧ open2.sau.ending = none
      ∧ (∀ i ∈ open2.mail.installs, i.port ≠ 1) ∧ open2.sau.sessions[(3 : Port)].attached = false
      ∧ open2.sau.sessions[(1 : Port)].attached = true ∧ open2.sau.holder ≠ some 1 := by
  refine ⟨⟨⟨_, _, _, _, rfl⟩, by decide +kernel⟩, fun _ _ _ => asks_ask .., ?_⟩
  decide +kernel

/-- One value beside the range of a field of each request. -/
theorem witness_HolderRangesChecked :
    let refused (c : Code) (l : List Byte) : Prop := l.length ∈ c.lengths ∧ (ask open2 0 c l).asks 0 5 false c l
    open2.sau.sessions[(0 : Port)].attached = true ∧ open2.sau.holder = some 0 ∧ open2.tbu.isSet = false
      ∧ (refused .setTime [0, 0, 0, 0, 0, 0x98, 0x96, 0x80] ∧ 9999999 < fieldNat [0, 0, 0, 0, 0, 0x98, 0x96, 0x80] 5 3)
      ∧ (refused .stepTime (beSigned (-1) 8) ∧ (0 : Int) + fieldInt (beSigned (-1) 8) 0 8 < 0)
      ∧ (refused .slewTime [0, 0, 0, 0, 0, 99] ∧ fieldNat [0, 0, 0, 0, 0, 99] 4 2 < 100)
      ∧ (refused .setTrim ([1] ++ beSigned (-200001) 4) ∧ 200000 < (fieldInt ([1] ++ beSigned (-200001) 4) 1 4).natAbs)
      ∧ (refused .refConfig [1, 51, 1, 0, 1] ∧ 50 < fieldNat [1, 51, 1, 0, 1] 1 1)
      ∧ (refused .ppsConfig [0, 1, 0, 0, 0, 1, 0, 100] ∧ fieldNat [0, 1, 0, 0, 0, 1, 0, 100] 0 1 = 0)
      ∧ (refused .setQuota [0, 65] ∧ 64 < fieldNat [0, 65] 1 1)
      ∧ (refused .bindLine [0, 0x81] ∧ 3 < fieldNat [0, 0x81] 1 1)
      ∧ (refused .lineConfig [0, 0, 0, 0] ∧ fieldNat [0, 0, 0, 0] 2 2 = 0)
      ∧ (refused .inputConfig [0, 0, 1, 16, 0, 0] ∧ 15 < fieldNat [0, 0, 1, 16, 0, 0] 3 1)
      ∧ refused .logPolicy [2] ∧ 1 < fieldNat [2] 0 1 := by
  intro refused
  have h : ∀ c l, l.length ∈ c.lengths → refused c l := fun c l hl => ⟨hl, asks_ask ..⟩
  refine ⟨rfl, rfl, rfl, ⟨h _ _ ?_, ?_⟩, ⟨h _ _ ?_, ?_⟩, ⟨h _ _ ?_, ?_⟩, ⟨h _ _ ?_, ?_⟩, ⟨h _ _ ?_, ?_⟩, ⟨h _ _ ?_, ?_⟩,
    ⟨h _ _ ?_, ?_⟩, ⟨h _ _ ?_, ?_⟩, ⟨h _ _ ?_, ?_⟩, ⟨h _ _ ?_, ?_⟩, h _ _ ?_, ?_⟩ <;> decide +kernel

/-! The laws, at states that are not the reset state and with a command that changes them. -/

theorem witness_TimebaseAndSupervisionLawsKept :
    let s : State := { slewing Config.maxTime 999999999 (-2) 99 true with pending := [.tick] }
    let r : State := { windowOf .holdover 254 1000 65535 16 with pending := [.windowClose] }
    (s.TimebaseOk ∧ ∃ t, step s = .next t) ∧ r.rsv.Ok ∧ ∃ t, step r = .next t := by
  refine ⟨⟨?_, _, rfl⟩, ?_, _, rfl⟩
  · unfold State.TimebaseOk Tbu.Ok PpsConfig.Ok SlewStart.Ok Slew.Ok
    decide +kernel
  · unfold Rsv.Ok SupConfig.Ok PpsConfig.Ok
    decide +kernel

/-- An entry one count ahead of the SCU's time, on a line bound to its owner, and an advance that reaches it. -/
theorem witness_ScheduleLawKept :
    let e : Entry := { oneShot 101 with
      period := some 1000, remaining := some 65535, initial := some 65535, generation := 255
      action := some { line := 7, op := .pulse } }
    let s : State := { withEntries { open2.withLine 7 (fun l => { l with binding := some 0 }) with
        tbu := { State.reset.tbu with time := 102 }, scu := { State.reset.scu with now := 100 }
        mail := { Mail.empty with toScu := [.advance 0 102] } } [(63, e)] with pending := [.timeAdvance] }
    s.ScheduleOk ∧ ∃ t, step s = .next t := by
  intro e s
  refine ⟨⟨?_, ?_, ?_, ?_, ?_, ?_, ?_⟩, _, rfl⟩
  · decide +kernel
  · exact ⟨by decide +kernel, by decide +kernel, rfl⟩
  · unfold Entry.Ok
    decide +kernel
  · decide +kernel
  · decide +kernel
  · intro i p hs ho
    left
    revert i p
    decide +kernel
  · intro i a q hs ha hb
    have h : ∀ i : Index, s.scu.entries[i].state ≠ .free →
        s.scu.entries[i].owner = some 0 ∧ s.scu.entries[i].action = some { line := 7, op := .pulse } := by decide +kernel
    obtain ⟨h1, h2⟩ := h i hs
    cases h2.symm.trans ha
    exact h1.trans hb

/-- A holder, a queue of two, a retained record, and a session end about to begin. -/
theorem witness_SessionLawsKept :
    let s : State := { queued with
      sau := { queued.sau with sessions := queued.sau.sessions.set 0 { session30 with limit := 5, seconds := 5 } }
      elu := { queued.elu with
        subs := Vector.replicate 4 (some everything), log := [logged 4294967295 #v[false, true, false, false]] }
      pending := [.idleExpiry 0] }
    s.SessionsOk ∧ ∃ t, step s = .next t := by
  refine ⟨⟨?_, ?_, ?_, ?_⟩, _, rfl⟩
  · unfold Elu.Ok; decide +kernel
  · unfold Sau.AuthorityOk; decide +kernel
  · unfold State.sessionOk Session.atLimit; decide +kernel
  · unfold State.subscriptionOk; decide +kernel

theorem witness_PinAndPortLawsKept :
    let s : State := { evt2 .low 2 (some 3) 8 255 9 with pending := [.inputSample 2 .high] }
    let h : State := { after (.frameBegin 0) (stagedAt (List.replicate 120 0)) with
      pending := [.frameEnd 0 (List.replicate 1008 true)] }
    (s.PinsOk ∧ ∃ t, step s = .next t) ∧ h.PortsOk ∧ ∃ t, step h = .next t := by
  refine ⟨⟨?_, _, rfl⟩, ⟨?_, ?_, ?_⟩, _, rfl⟩
  · unfold State.PinsOk TrigLine.Ok Input.Ok
    decide +kernel
  · intro p
    fin_cases p
    · exact ⟨by decide +kernel, trivial, by decide +kernel, by decide +kernel, rfl⟩
    all_goals exact ⟨by decide +kernel, trivial, by decide +kernel, trivial⟩
  · decide +kernel
  · decide +kernel

theorem witness_ResetQuietKept :
    let s : State := { after .resetAssert (withEntries open2 [(3, oneShot 5)]) with pending := [.tick] }
    (s.rst = true ∧ s.QuietInReset) ∧ ∃ t, step s = .next t := by
  refine ⟨⟨by decide +kernel, ?_⟩, _, rfl⟩
  unfold State.QuietInReset
  decide +kernel

end Sys2Proof.Tests
end

section
/-! The laws of the timebase and the supervision (O55): what every command leaves of the TBU, the RSV and the discipline slews on
their way, and what those that move them keep. -/

namespace Sys2Proof.Machine

/-! ## The part of the state that the laws of the timebase and the supervision speak of -/

/-- The TBU, the RSV and the discipline slews on their way to the TBU. -/
structure Clock where
  tbu : Tbu
  rsv : Rsv
  slews : List SlewStart

/-- The clock part of a state: all that `State.TimebaseOk` and `Rsv.Ok` depend on. -/
def State.clock (s : State) : Clock := { tbu := s.tbu, rsv := s.rsv, slews := s.mail.slews }

theorem State.clock_eq_iff {s t : State} :
    t.clock = s.clock ↔ t.tbu = s.tbu ∧ t.rsv = s.rsv ∧ t.mail.slews = s.mail.slews := by
  simp only [State.clock, Clock.mk.injEq]

/-- The passage from one state to another keeps the laws of the timebase and those of the supervision, each by itself. -/
def State.ClockLawsKept (s t : State) : Prop := (s.TimebaseOk → t.TimebaseOk) ∧ (s.rsv.Ok → t.rsv.Ok)

theorem State.ClockLawsKept.refl (s : State) : s.ClockLawsKept s := ⟨id, id⟩

theorem State.ClockLawsKept.trans {s t u : State} (h : s.ClockLawsKept t) (k : t.ClockLawsKept u) : s.ClockLawsKept u :=
  ⟨k.1 ∘ h.1, k.2 ∘ h.2⟩

/-- The laws do not see more of a state than its clock part. -/
theorem State.ClockLawsKept.of_clock_eq {s t : State} (h : t.clock = s.clock) : s.ClockLawsKept t := by
  obtain ⟨ht, hr, hw⟩ := State.clock_eq_iff.1 h
  unfold State.ClockLawsKept State.TimebaseOk
  rw [ht, hr, hw]
  exact ⟨id, id⟩

/-! ## The shared operations leave the clock part -/

@[simp] theorem State.post_clock (s : State) (b : Block) (t : Time) (y : Body) (a : Option Address) (k : Links) :
    (s.post b t y a k).clock = s.clock := rfl
@[simp] theorem State.withSession_clock (s : State) (p : Port) (f : Session → Session) :
    (s.withSession p f).clock = s.clock := rfl
@[simp] theorem State.withHpu_clock (s : State) (p : Port) (f : Hpu → Hpu) : (s.withHpu p f).clock = s.clock := rfl
@[simp] theorem State.withLine_clock (s : State) (n : Line) (f : TrigLine → TrigLine) :
    (s.withLine n f).clock = s.clock := rfl
@[simp] theorem State.withInput_clock (s : State) (n : Line) (i : Input) : (s.withInput n i).clock = s.clock := rfl
@[simp] theorem State.withEntry_clock (s : State) (i : Index) (e : Entry) : (s.withEntry i e).clock = s.clock := rfl

@[simp] theorem State.postAll_clock (s : State) (b : Block) (t : Time) (ys : List Body) :
    (s.postAll b t ys).clock = s.clock := by rw [State.postAll_eq]; rfl

/-- Events of which each leaves the clock part leave it one after the other. -/
theorem State.foldl_clock {α : Type} {f : State → α → State} (h : ∀ s a, (f s a).clock = s.clock) (l : List α) (s : State) :
    (l.foldl f s).clock = s.clock := by
  induction l generalizing s with
  | nil => rfl
  | cons a l ih => rw [List.foldl_cons, ih, h]

/-! ## Requests by their checks -/

/-- What holds of the state as it is and of the state a request leaves holds behind the attachment check. -/
theorem State.ifAttached_state {P : State → Prop} {s : State} {p : Port} {k : Reply} (hs : P s) (hk : P k.state) :
    P (s.ifAttached p k).state := by
  unfold State.ifAttached
  split
  · exact hk
  · exact hs

theorem State.ifHolder_state {P : State → Prop} {s : State} {p : Port} {k : Reply} (hs : P s) (hk : P k.state) :
    P (s.ifHolder p k).state := by
  refine State.ifAttached_state hs ?_
  split
  · exact hk
  · exact hs

/-- The range check hands on operands that it has decoded. -/
theorem State.ifInRange_state {α : Type} {P : State → Prop} {s : State} {o : Option α} {k : α → Reply} (hs : P s)
    (hk : ∀ a, o = some a → P (k a).state) : P (s.ifInRange o k).state := by
  cases o with
  | none => exact hs
  | some a => exact hk a rfl

/-- A request keeps the laws if its service does: the answer goes to the slot. -/
theorem State.serve_clockLawsKept {s : State} {p : Port} {c : Code} {f : List Byte → Reply}
    (h : ∀ l, s.ClockLawsKept (f l).state) : s.ClockLawsKept (s.serve p c f) := by
  rcases s.serve_cases p c f with ⟨-, e⟩ | ⟨l, -, e⟩
  · rw [e]; exact .refl s
  · rw [e]; exact (h l).trans (.of_clock_eq rfl)

/-- The clock part stays the same: the relation of states that requests of the other blocks stand in. -/
def State.SameClock (s t : State) : Prop := t.clock = s.clock

theorem State.SameClock.refl (s : State) : s.SameClock s := rfl

theorem State.serve_clock {s : State} {p : Port} {c : Code} {f : List Byte → Reply} (h : ∀ l, s.SameClock (f l).state) :
    (s.serve p c f).clock = s.clock := by
  rcases s.serve_cases p c f with ⟨-, e⟩ | ⟨l, -, e⟩
  · rw [e]
  · rw [e]; exact h l

theorem State.serveSau_clock {s : State} {p : Port} {c : Code} {f : List Byte → Reply} (h : ∀ l, s.SameClock (f l).state) :
    (s.serveSau p c f).clock = s.clock := by
  unfold State.serveSau
  split
  · rfl
  · exact State.serve_clock h

/-! ## The SCU and the TOU leave the clock part -/

@[simp] theorem State.fire_clock (s : State) (i : Index) (k : Nat) (t : Time) (cause : Cause) (links : Links) :
    (s.fire i k t cause links).clock = s.clock := by
  rw [State.fire_eq]
  split <;> rfl

@[simp] theorem State.miss_clock (s : State) (i : Index) (k : Nat) (t : Time) (cause : Cause) (links : Links) :
    (s.miss i k t cause links).clock = s.clock := rfl

@[simp] theorem State.treat_clock (s : State) (i : Index) (t : Time) (cause : Cause) (links : Links) :
    (s.treat i t cause links).clock = s.clock := by
  rcases s.treat_cases i t cause links with ⟨-, e⟩ | ⟨-, e⟩ <;> simp [e]

@[simp] theorem State.timeAdvance_clock (s : State) : s.timeAdvance.clock = s.clock := by
  unfold State.timeAdvance
  split
  · exact State.foldl_clock (fun s i => s.fire_clock ..) _ _
  · rfl

@[simp] theorem State.stepHandover_clock (s : State) : s.stepHandover.clock = s.clock := by
  unfold State.stepHandover
  split
  · dsimp only
    split
    · exact State.foldl_clock (fun s i => s.treat_clock ..) _ _
    · rfl
  · rfl

@[simp] theorem State.primeEntry_clock (s : State) (t : Time) (k : Links) (i : Index) :
    (s.primeEntry t k i).clock = s.clock := by
  unfold State.primeEntry
  dsimp only
  split
  · rfl
  · split
    · rfl
    · split
      · simp
      · split <;> rfl

@[simp] theorem State.primingHandover_clock (s : State) (n : Line) : (s.primingHandover n).clock = s.clock := by
  unfold State.primingHandover
  split
  · rfl
  · split
    · exact State.foldl_clock (fun s i => s.primeEntry_clock ..) _ _
    · rfl

@[simp] theorem State.scuSessionEnd_clock (s : State) (p : Port) : (s.scuSessionEnd p).clock = s.clock := by
  unfold State.scuSessionEnd
  split
  · rfl
  · split <;> rfl

@[simp] theorem State.lineOperation_clock (s : State) : s.lineOperation.clock = s.clock := by
  unfold State.lineOperation
  split <;> rfl

@[simp] theorem State.pulseEnd_clock (s : State) (n : Line) : (s.pulseEnd n).clock = s.clock := by
  unfold State.pulseEnd
  split <;> rfl

/-- A creating request leaves the clock part if its creation does. -/
theorem State.creating_sameClock {α : Type} {s : State} {p : Port} {l : List Byte} {o : Option (α × Creation)}
    {k : Index → Option Port → α → Creation → Reply} (h : ∀ i w a c, s.SameClock (k i w a c).state) :
    s.SameClock (s.creating p l o k).state := by
  refine State.ifAttached_state (.refl s) ?_
  split
  · exact .refl s
  · refine State.ifInRange_state (.refl s) fun a _ => ?_
    generalize (if detachedFlag l then none else some p) = owner
    dsimp only
    split
    · exact .refl s
    · split
      · exact .refl s
      · split
        · exact .refl s
        · exact h ..

theorem State.armAt_sameClock (s : State) (i : Index) (w : Option Port) (due : Time) (c : Creation) :
    s.SameClock (s.armAt i w due c).state := by
  unfold State.armAt
  dsimp only
  split
  · rfl
  · split
    · split
      · simp [State.SameClock]
      · rfl
    · split <;> rfl

/-- A request on a handle leaves the clock part if what it does to a checked entry does. -/
theorem State.withHandle_sameClock {s : State} {p : Port} {l : List Byte} {k : Index → Reply}
    (h : ∀ i, s.SameClock (k i).state) : s.SameClock (s.withHandle p l k).state := by
  refine State.ifAttached_state (.refl s) (State.ifInRange_state (.refl s) fun i _ => ?_)
  dsimp only
  split
  · exact .refl s
  · split
    · split
      · exact h i
      · exact .refl s
    · split
      · exact h i
      · exact .refl s

theorem State.holdAt_sameClock (s : State) (i : Index) : s.SameClock (s.holdAt i).state := by
  unfold State.holdAt
  dsimp only
  split <;> rfl

theorem State.resumeAt_sameClock (s : State) (l : List Byte) (i : Index) : s.SameClock (s.resumeAt l i).state := by
  unfold State.resumeAt
  dsimp only
  split
  · refine State.ifInRange_state (.refl s) fun due _ => ?_
    dsimp only
    split <;> simp [State.SameClock]
  · exact .refl s

/-! ## The ECU, the ELU, the SAU and the HPUs leave the clock part -/

@[simp] theorem State.capture_clock (s : State) (n : Line) (i : Input) (q : QualifiedEdge) (turn : Nat) (t : Time) :
    (s.capture n i q turn t).clock = s.clock := by
  rw [State.capture_eq]
  split <;> rfl

@[simp] theorem State.inputSample_clock (s : State) (n : Line) (l : Level) : (s.inputSample n l).clock = s.clock := by
  unfold State.inputSample
  split
  · rfl
  · unfold State.judgeSample
    dsimp only
    split
    · rfl
    · split
      · rfl
      · split
        · rw [State.capture_clock]; rfl
        · rfl

@[simp] theorem State.ecuStep_clock (s : State) : s.ecuStep.clock = s.clock := by
  unfold State.ecuStep
  split <;> rfl

@[simp] theorem State.ecuStepHandover_clock (s : State) : s.ecuStepHandover.clock = s.clock := by
  rcases s.ecuStepHandover_cases with e | ⟨_, _, _, _, -, -, e⟩ <;> simp [e]

@[simp] theorem State.recordTake_clock (s : State) (b : Block) : (s.recordTake b).clock = s.clock := by
  rcases s.recordTake_cases b with e | ⟨_, _, -, -, e⟩ <;> rw [e]; rfl

@[simp] theorem State.subscriptionInstall_clock (s : State) (p : Port) : (s.subscriptionInstall p).clock = s.clock := by
  unfold State.subscriptionInstall
  split
  · rfl
  · split <;> rfl

@[simp] theorem State.finishEnd_clock (s : State) (e : Ending) : (s.finishEnd e).clock = s.clock := by
  unfold State.finishEnd
  dsimp only
  split
  · rw [State.withHpu_clock, State.postAll_clock]; rfl
  · rw [State.postAll_clock]; rfl

@[simp] theorem State.eluSessionEnd_clock (s : State) (p : Port) : (s.eluSessionEnd p).clock = s.clock := by
  unfold State.eluSessionEnd
  split
  · rfl
  · split
    · rw [State.finishEnd_clock]; rfl
    · rfl

@[simp] theorem State.idleExpiry_clock (s : State) (p : Port) : (s.idleExpiry p).clock = s.clock := by
  unfold State.idleExpiry
  split <;> rfl

@[simp] theorem State.validFrameReport_clock (s : State) (p : Port) : (s.validFrameReport p).clock = s.clock := by
  unfold State.validFrameReport
  split <;> rfl

@[simp] theorem State.frameBegin_clock (s : State) (p : Port) : (s.frameBegin p).clock = s.clock := by
  unfold State.frameBegin
  dsimp only
  split <;> rfl

@[simp] theorem State.frameEnd_clock (s : State) (p : Port) (l : List Bool) : (s.frameEnd p l).clock = s.clock := by
  unfold State.frameEnd
  split
  · rfl
  · dsimp only
    split <;> rfl

@[simp] theorem State.detach_clock (s : State) (p : Port) : (s.detach p).clock = s.clock := by
  unfold State.detach
  split <;> rfl

theorem State.claim_sameClock (s : State) (p : Port) : s.SameClock (s.claim p).state := by
  refine State.ifAttached_state (.refl s) ?_
  split
  · rfl
  · split
    · rfl
    · split
      · rfl
      · split <;> rfl

theorem State.release_sameClock (s : State) (p : Port) : s.SameClock (s.release p).state := by
  refine State.ifAttached_state (.refl s) ?_
  split
  · exact State.postAll_clock ..
  · split <;> rfl

theorem State.take_sameClock (s : State) (p : Port) : s.SameClock (s.take p).state := by
  refine State.ifAttached_state (.refl s) ?_
  split
  · rfl
  · split
    · rfl
    · exact State.postAll_clock ..

theorem State.attach_sameClock (s : State) (p : Port) (l : List Byte) : s.SameClock (s.attach p l).state := by
  unfold State.attach
  split
  · rfl
  · exact State.ifInRange_state (.refl s) fun _ _ => rfl

theorem State.ackLog_sameClock (s : State) (p : Port) (l : List Byte) : s.SameClock (s.ackLog p l).state := by
  refine State.ifAttached_state (.refl s) ?_
  split <;> rfl

theorem State.driveLine_sameClock (s : State) (p : Port) (l : List Byte) : s.SameClock (s.driveLine p l).state := by
  refine State.ifAttached_state (.refl s) (State.ifInRange_state (.refl s) fun a _ => ?_)
  dsimp only
  split <;> rfl

theorem State.bindLine_sameClock (s : State) (p : Port) (l : List Byte) : s.SameClock (s.bindLine p l).state := by
  refine State.ifHolder_state (.refl s) (State.ifInRange_state (.refl s) fun a _ => ?_)
  dsimp only
  split <;> rfl

end Sys2Proof.Machine
end

section
namespace Sys2Proof.Machine

/-! ## The TBU keeps its ranges -/

theorem Slew.start_ok {origin : Origin} {offset : Int} {spacing : Nat} (h0 : offset ≠ 0)
    (h : offset.natAbs ≤ Config.maxSlew) (h1 : 100 ≤ spacing) (h2 : spacing ≤ 10000) :
    (Slew.start origin offset spacing).Ok :=
  ⟨h0, h, h0, le_rfl, Iff.rfl, h1, h2, Nat.zero_lt_of_lt h1⟩

theorem Slew.count_ok {w : Slew} (h : w.Ok) : w.count.Ok := by
  obtain ⟨h0, hi, hr, hm, hs, h1, h2, hc⟩ := h
  unfold Slew.count Slew.reachesSpacing
  split
  · exact ⟨h0, hi, hr, hm, hs, h1, h2, Nat.zero_lt_of_lt h1⟩
  next hn => exact ⟨h0, hi, hr, hm, hs, h1, h2, by simpa using hn⟩

/-- A correction brings the residual nearer to 0 and never past it (R5). -/
theorem Slew.consume_ok {w : Slew} (h : w.Ok) (hr' : w.consume.residual ≠ 0) : w.consume.Ok := by
  obtain ⟨h0, hi, hr, hm, hs, h1, h2, hc⟩ := h
  have hv : w.consume.residual = w.residual - if 0 < w.residual then 1 else -1 := by
    unfold Slew.consume Slew.sign
    split <;> rfl
  refine ⟨h0, hi, hr', ?_, ?_, h1, h2, hc⟩
  · change w.consume.residual.natAbs ≤ w.initial.natAbs
    split at hv <;> omega
  · change 0 < w.consume.residual ↔ 0 < w.initial
    split at hv <;> omega

theorem Slew.settle_ok {w : Slew} {trim : Option Sign} (h : w.Ok) (hr : (w.settle trim).residual ≠ 0) :
    (w.settle trim).Ok := by
  unfold Slew.settle at hr ⊢
  split
  next hf =>
    simp only [hf] at hr
    exact Slew.consume_ok h hr
  · exact h

/-- An accumulator that reaches 10^9 loses it on the tick of its correction (R4). -/
theorem Tbu.accNext_lt {t : Tbu} {src : Source} (ha : t.acc src < Config.trimFull)
    (ht : (t.trim src).natAbs ≤ Config.maxTrim) : t.accNext src < Config.trimFull := by
  unfold Tbu.accNext Tbu.trimDue
  unfold Config.trimFull at *
  unfold Config.maxTrim at ht
  by_cases h : t.trim src ≠ 0 ∧ 1000000000 ≤ t.acc src + (t.trim src).natAbs
  · rw [if_pos h]
    simp only [Option.isSome_some, if_true]
    omega
  · rw [if_neg h]
    simp only [Option.isSome_none, Bool.false_eq_true, if_false]
    omega

theorem Tbu.Ok.acc_lt {t : Tbu} (h : t.Ok) (src : Source) : t.acc src < Config.trimFull := by
  obtain ⟨-, -, -, hr, hi, -⟩ := h
  cases src
  · exact hi
  · exact hr

theorem Tbu.Ok.trim_le {t : Tbu} (h : t.Ok) (src : Source) : (t.trim src).natAbs ≤ Config.maxTrim := by
  obtain ⟨-, hr, hi, -⟩ := h
  cases src
  · exact hi
  · exact hr

theorem Tbu.withAcc_ok {t : Tbu} (h : t.Ok) {n : Nat} (hn : n < Config.trimFull) (src : Source) : (t.withAcc n src).Ok := by
  obtain ⟨ht, hr, hi, har, hai, hw⟩ := h
  cases src
  · exact ⟨ht, hr, hi, har, hn, hw⟩
  · exact ⟨ht, hr, hi, hn, hai, hw⟩

theorem Tbu.withTrim_ok {t : Tbu} (h : t.Ok) {v : Int} (hv : v.natAbs ≤ Config.maxTrim) (src : Source) :
    (t.withTrim v src).Ok := by
  obtain ⟨ht, hr, hi, har, hai, hw⟩ := h
  cases src
  · exact ⟨ht, hr, hv, har, hai, hw⟩
  · exact ⟨ht, hv, hi, har, hai, hw⟩

/-- The set flag, the marks, and a slew in its ranges do not matter to the other ranges of the TBU. -/
theorem Tbu.Ok.with_slew {t : Tbu} (h : t.Ok) {time : Time} {isSet : Bool} {slew : Option Slew} {mark : Option Sign}
    {taken : Bool} (ht : time ≤ Config.maxTime) (hw : ∀ w ∈ slew, w.Ok) :
    ({ t with time, isSet, slew, trimTaken := mark, slewTaken := taken } : Tbu).Ok := by
  obtain ⟨-, hr, hi, har, hai, -⟩ := h
  exact ⟨ht, hr, hi, har, hai, hw⟩

theorem Tbu.trimPart_ok {t : Tbu} (h : t.Ok) (src : Source) : (t.trimPart src).1.Ok := by
  unfold Tbu.trimPart
  split
  · exact h
  · exact Tbu.withAcc_ok h (Tbu.accNext_lt (h.acc_lt src) (h.trim_le src)) src

theorem Tbu.slewPart_ok {t : Tbu} (h : ∀ w ∈ t.slew, w.Ok) : ∀ w ∈ t.slewPart, w.Ok := by
  unfold Tbu.slewPart
  split
  · exact h
  · intro w hw
    obtain ⟨v, hv, rfl⟩ := Option.mem_map.1 hw
    exact Slew.count_ok (h v hv)

/-- The TBU's part of a tick keeps its ranges (R4, R5, R7, R8). -/
theorem Tbu.advance_ok {t : Tbu} (h : t.Ok) (src : Source) : (t.advance src).1.Ok := by
  have h1 := Tbu.trimPart_ok h src
  refine h1.with_slew (Nat.min_le_right ..) fun w hw => ?_
  obtain ⟨hw, hr⟩ := Option.mem_filter_iff.1 hw
  obtain ⟨v, hv, rfl⟩ := Option.mem_map.1 hw
  obtain ⟨-, -, -, -, -, hs⟩ := h1
  exact Slew.settle_ok (Tbu.slewPart_ok hs v hv) (by simpa using hr)

theorem State.tbuTick_ok {s : State} (h : s.tbu.Ok) (src : Source) (turn : Nat) : (s.tbuTick src turn).tbu.Ok := by
  by_cases hm : s.tbu.time = Config.maxTime
  · rw [State.tbuTick_held src turn hm]
    exact h
  · rw [State.tbuTick_moving src turn hm]
    exact Tbu.advance_ok h src

/-- What leaves the RSV and the slews on their way, and keeps the ranges of the TBU, keeps the laws. -/
theorem State.ClockLawsKept.of_tbu {s t : State} (hr : t.rsv = s.rsv) (hw : t.mail.slews = s.mail.slews)
    (ht : s.tbu.Ok → t.tbu.Ok) : s.ClockLawsKept t := by
  unfold State.ClockLawsKept State.TimebaseOk
  rw [hr, hw]
  exact ⟨fun ⟨h1, h2⟩ => ⟨ht h1, h2⟩, id⟩

theorem State.tickOf_clockLawsKept (s : State) (src : Source) : s.ClockLawsKept (s.tickOf src) := by
  rw [State.tickOf_eq]
  exact .of_tbu rfl rfl fun h => State.tbuTick_ok h ..

theorem State.trimCorrectionDue_clockLawsKept (s : State) : s.ClockLawsKept s.trimCorrectionDue := by
  unfold State.trimCorrectionDue
  split
  · exact .refl s
  · split
    · exact .refl s
    · exact .of_tbu rfl rfl fun h => Tbu.withAcc_ok h (Tbu.accNext_lt (h.acc_lt _) (h.trim_le _)) _

theorem State.slewCorrectionDue_clockLawsKept (s : State) : s.ClockLawsKept s.slewCorrectionDue := by
  unfold State.slewCorrectionDue
  split
  · exact .refl s
  next w hw =>
    split
    · refine .of_tbu rfl rfl fun h => h.with_slew h.1 fun v hv => ?_
      obtain rfl := Option.mem_some_iff.1 hv
      obtain ⟨-, -, -, -, -, hs⟩ := h
      exact Slew.count_ok (hs w hw)
    · exact .refl s

theorem State.applyStep_clockLawsKept {s : State} {isStep : Bool} {new : Time} (h : new ≤ Config.maxTime) :
    s.ClockLawsKept (s.applyStep isStep new) :=
  .of_tbu rfl rfl fun ht => ht.with_slew h fun _ hw => nomatch hw

/-- A time field spells a time value up to the maximum (R1). -/
theorem fieldTime_le {p : List Byte} {offset : Nat} {t : Time} (h : fieldTime p offset = some t) : t ≤ Config.maxTime := by
  have hs := fieldNat_lt p offset 5
  have hf : ¬ 9999999 < fieldNat p (offset + 5) 3 := fun hn => by
    rw [fieldTime_eq_none.2 hn] at h
    cases h
  rw [fieldTime_of (Nat.le_of_not_lt hf)] at h
  obtain rfl := Option.some.inj h
  show fieldNat p offset 5 * 10000000 + fieldNat p (offset + 5) 3 ≤ 10995116277759999999
  have hs : fieldNat p offset 5 < 1099511627776 := hs
  omega

theorem addOffset_le {t : Time} {offset : Int} {new : Time} (h : addOffset t offset = some new) : new ≤ Config.maxTime := by
  unfold addOffset at h
  dsimp only at h
  split at h
  next hs =>
    obtain rfl := Option.some.inj h
    exact Int.toNat_le.2 hs.2
  · cases h

theorem State.setTime_clockLawsKept (s : State) (p : Port) (l : List Byte) : s.ClockLawsKept (s.setTime p l).state :=
  State.ifHolder_state (.refl s) <| State.ifInRange_state (.refl s) fun _ h =>
    State.applyStep_clockLawsKept (fieldTime_le h)

theorem State.stepTime_clockLawsKept (s : State) (p : Port) (l : List Byte) : s.ClockLawsKept (s.stepTime p l).state := by
  refine State.ifHolder_state (.refl s) ?_
  split
  · exact State.ifInRange_state (.refl s) fun _ h => State.applyStep_clockLawsKept (addOffset_le h)
  · exact .refl s

theorem inRange_eq_some {lo hi n m : Nat} : inRange lo hi n = some m ↔ (lo ≤ n ∧ n ≤ hi) ∧ n = m := by
  unfold inRange
  split <;> simp_all

theorem inMagnitude_eq_some {b : Nat} {v u : Int} : inMagnitude b v = some u ↔ v.natAbs ≤ b ∧ v = u := by
  unfold inMagnitude
  split <;> simp_all

theorem slewOperands_bounds {l : List Byte} {offset : Int} {spacing : Nat} (h : slewOperands l = some (offset, spacing)) :
    offset.natAbs ≤ Config.maxSlew ∧ 100 ≤ spacing ∧ spacing ≤ 10000 := by
  simp only [slewOperands, Option.bind_eq_bind, Option.bind_eq_some_iff, Option.pure_def, Option.some.injEq, Prod.mk.injEq,
    inRange_eq_some, inMagnitude_eq_some] at h
  obtain ⟨_, ⟨ho, rfl⟩, _, ⟨hs, rfl⟩, rfl, rfl⟩ := h
  exact ⟨ho, hs⟩

theorem trimOperands_bounds {l : List Byte} {src : Source} {v : Int} (h : trimOperands l = some (src, v)) :
    v.natAbs ≤ Config.maxTrim := by
  simp only [trimOperands, Option.bind_eq_bind, Option.bind_eq_some_iff, Option.pure_def, Option.some.injEq, Prod.mk.injEq,
    inMagnitude_eq_some] at h
  obtain ⟨_, -, _, ⟨hv, rfl⟩, -, rfl⟩ := h
  exact hv

theorem State.withSlew_clockLawsKept {s : State} {slew : Option Slew} (h : ∀ w ∈ slew, w.Ok) :
    s.ClockLawsKept (s.withSlew slew) :=
  .of_tbu rfl rfl fun ht => ht.with_slew ht.1 h

theorem State.slewTime_clockLawsKept (s : State) (p : Port) (l : List Byte) : s.ClockLawsKept (s.slewTime p l).state := by
  refine State.ifHolder_state (.refl s) (State.ifInRange_state (.refl s) fun ⟨offset, spacing⟩ h => ?_)
  obtain ⟨ho, h1, h2⟩ := slewOperands_bounds h
  dsimp only
  split
  · exact .refl s
  · refine State.withSlew_clockLawsKept fun w hw => ?_
    split at hw
    · cases hw
    next h0 =>
      obtain rfl := Option.mem_some_iff.1 hw
      exact Slew.start_ok h0 ho h1 h2

theorem State.setTrim_clockLawsKept (s : State) (p : Port) (l : List Byte) : s.ClockLawsKept (s.setTrim p l).state :=
  State.ifHolder_state (.refl s) <| State.ifInRange_state (.refl s) fun _ h =>
    .of_tbu rfl rfl fun ht => Tbu.withAcc_ok (Tbu.withTrim_ok ht (trimOperands_bounds h) _) (by decide) _

/-- The TBU takes the oldest discipline slew, whose ranges the laws hold while it is on its way (R18). -/
theorem State.disciplineSlew_clockLawsKept (s : State) : s.ClockLawsKept s.disciplineSlew := by
  unfold State.disciplineSlew
  split
  · exact .refl s
  next w rest hw =>
    refine ⟨fun ⟨ht, hp, hs⟩ => ?_, id⟩
    rw [hw] at hs
    obtain ⟨h0, hi, h1, h2⟩ := hs w (List.mem_cons_self ..)
    refine ⟨ht.with_slew ht.1 fun v hv => ?_, hp, fun v hv => hs v (List.mem_cons_of_mem _ hv)⟩
    obtain rfl := Option.mem_some_iff.1 hv
    exact Slew.start_ok h0 (hi.trans (by decide)) h1 h2

/-! ## The RSV keeps its laws -/

/-- What leaves the TBU, the PPS configuration and the slews on their way, and keeps the laws of the RSV, keeps the laws. -/
theorem State.ClockLawsKept.of_rsv {s t : State} (ht : t.tbu = s.tbu) (hp : t.rsv.pps = s.rsv.pps)
    (hw : t.mail.slews = s.mail.slews) (hr : s.rsv.Ok → t.rsv.Ok) : s.ClockLawsKept t := by
  unfold State.ClockLawsKept State.TimebaseOk
  rw [ht, hp, hw]
  exact ⟨id, hr⟩

theorem SupConfig.Ok.limit_pos {c : SupConfig} (h : c.Ok) : 0 < c.limit := by
  obtain ⟨-, -, -, -, hl, -⟩ := h
  exact hl

/-- Supervision that has left UNLOCKED is enabled (R31, R33). -/
theorem Rsv.Ok.enabled {r : Rsv} (h : r.Ok) (hs : r.state ≠ .unlocked) : r.config.enabled = true := by
  obtain ⟨-, -, -, -, -, -, -, -, -, -, -, hd, -⟩ := h
  cases he : r.config.enabled with
  | true => rfl
  | false => exact absurd (hd he).1 hs

/-- A state change and a new G (R26 to R28). -/
theorem Rsv.Ok.withState {r : Rsv} (h : r.Ok) (he : r.config.enabled = true) {state : SupState} {good : Nat}
    (hg : good ≤ 255) (hl : state = .locked → good = 0) (hh : state = .holdover → r.age < r.config.limit) :
    ({ r with state, good } : Rsv).Ok := by
  obtain ⟨hc, hp, -, -, hcy, hed, hgap, hlast, hage, hac, -, -, hrest⟩ := h
  exact ⟨hc, hp, hg, hl, hcy, hed, hgap, hlast, hage, hac, hh, fun hd => absurd (he.symm.trans hd) nofun, hrest⟩

/-- A window that is classified becomes the last one, and a new one begins (R24, R25). -/
theorem Rsv.Ok.newWindow {r : Rsv} (h : r.Ok) (cls : WindowClass) {gap : Nat} (hgap : gap ≤ r.gap) :
    ({ r with cycles := 0, edges := 0, gap, last := some (r.edges, cls) } : Rsv).Ok := by
  obtain ⟨hc, hp, hg, hl, -, hed, hgap', -, hage, hac, hh, hd, hrest⟩ := h
  refine ⟨hc, hp, hg, hl, Nat.zero_le _, Nat.zero_le _, hgap.trans hgap', ?_, hage, hac, hh, fun hn => ?_, hrest⟩
  · rintro l hl
    obtain rfl := Option.mem_some_iff.1 hl
    exact hed
  · obtain ⟨h1, h2, -, -, h3⟩ := hd hn
    exact ⟨h1, h2, rfl, rfl, Nat.le_zero.1 (hgap.trans h3.le)⟩

theorem State.qualify_rsvOk {s : State} {cls : WindowClass} {n : Nat} (h : s.rsv.Ok) (he : s.rsv.config.enabled = true)
    (hs : s.rsv.state ≠ .locked) : (s.qualify cls n).rsv.Ok := by
  have hh : s.rsv.state = .holdover → s.rsv.age < s.rsv.config.limit := by
    obtain ⟨-, -, -, -, -, -, -, -, -, -, hh, -⟩ := h
    exact hh
  unfold State.qualify
  split
  · split
    · exact h.withState he (Nat.zero_le _) (fun _ => rfl) nofun
    next hq =>
      obtain ⟨-, -, -, hq255, -⟩ := h.1
      exact h.withState he (by omega) (fun hl => absurd hl hs) hh
  · exact h.withState he (Nat.zero_le _) (fun hl => absurd hl hs) hh

theorem State.supervise_rsvOk {s : State} {cls : WindowClass} {n : Nat} (h : s.rsv.Ok) (he : s.rsv.config.enabled = true) :
    (s.supervise cls n).rsv.Ok := by
  unfold State.supervise
  split
  · exact h
  · obtain ⟨hc, hp, -, -, hcy, hed, hgap, hlast, -, -, -, -, hrest⟩ := h
    exact ⟨hc, hp, Nat.zero_le _, nofun, hcy, hed, hgap, hlast, Nat.zero_le _, Nat.zero_le _, fun _ => hc.limit_pos,
      fun hd => absurd (he.symm.trans hd) nofun, hrest⟩

theorem State.classified_rsvOk {s : State} {cls : WindowClass} {n : Nat} (h : s.rsv.Ok) (he : s.rsv.config.enabled = true) :
    (s.classified cls n).rsv.Ok := by
  unfold State.classified
  split
  · exact State.supervise_rsvOk h he
  next hs => exact State.qualify_rsvOk h he (by rw [hs]; nofun)
  next hs => exact State.qualify_rsvOk h he (by rw [hs]; nofun)

/-- A classification touches the supervision and the records alone. -/
theorem State.classified_frame (s : State) (cls : WindowClass) (n : Nat) :
    (s.classified cls n).tbu = s.tbu ∧ (s.classified cls n).rsv.pps = s.rsv.pps
      ∧ (s.classified cls n).mail.slews = s.mail.slews := by
  have hq : (s.qualify cls n).tbu = s.tbu ∧ (s.qualify cls n).rsv.pps = s.rsv.pps
      ∧ (s.qualify cls n).mail.slews = s.mail.slews := by
    unfold State.qualify
    split
    · split <;> exact ⟨rfl, rfl, rfl⟩
    · exact ⟨rfl, rfl, rfl⟩
  unfold State.classified State.supervise
  split
  · split <;> exact ⟨rfl, rfl, rfl⟩
  · exact hq
  · exact hq

theorem State.windowClose_clockLawsKept (s : State) : s.ClockLawsKept s.windowClose := by
  unfold State.windowClose
  split
  next hd =>
    have he : s.rsv.config.enabled = true := by
      simp only [Rsv.closeDue, Bool.and_eq_true] at hd
      exact hd.1.1
    obtain ⟨ht, hp, hw⟩ := State.classified_frame _ _ _
    exact .of_rsv ht hp hw fun h => State.classified_rsvOk (h.newWindow _ le_rfl) he
  · exact .refl s

theorem State.missingDeclaration_clockLawsKept (s : State) : s.ClockLawsKept s.missingDeclaration := by
  unfold State.missingDeclaration
  split
  next hd =>
    have he : s.rsv.config.enabled = true := by
      simp only [Rsv.missingDue, Bool.and_eq_true] at hd
      exact hd.1
    obtain ⟨ht, hp, hw⟩ := State.classified_frame _ _ _
    exact .of_rsv ht hp hw fun h => State.classified_rsvOk (h.newWindow _ (Nat.zero_le _)) he
  · exact .refl s

theorem State.settleWindow_clockLawsKept (s : State) : s.ClockLawsKept s.settleWindow := by
  unfold State.settleWindow
  split
  · exact s.missingDeclaration_clockLawsKept
  · exact s.windowClose_clockLawsKept

theorem Rsv.countEdge_ok {r : Rsv} (h : r.Ok) : r.countEdge.Ok := by
  unfold Rsv.countEdge
  split
  next he =>
    obtain ⟨hc, hp, hg, hl, hcy, -, -, hlast, hage, hac, hh, -, hrest⟩ := h
    exact ⟨hc, hp, hg, hl, hcy, Nat.min_le_right .., Nat.zero_le _, hlast, hage, hac, hh,
      fun hd => absurd (he.symm.trans hd) nofun, hrest⟩
  · exact h

@[simp] theorem Rsv.countEdge_pps (r : Rsv) : r.countEdge.pps = r.pps := by
  unfold Rsv.countEdge
  split <;> rfl

theorem State.refclkEdge_clockLawsKept (s : State) : s.ClockLawsKept s.refclkEdge := by
  refine s.settleWindow_clockLawsKept.trans ?_
  unfold State.refclkEdge
  dsimp only
  split <;> exact .of_rsv rfl (Rsv.countEdge_pps _) rfl Rsv.countEdge_ok

/-- The age of a holdover whose increment is due, and the expiry that the increment may bring (R28). -/
theorem Rsv.Ok.age_lt {r : Rsv} (h : r.Ok) (hs : r.state = .holdover) : r.age < r.config.limit := by
  obtain ⟨-, -, -, -, -, -, -, -, -, -, hh, -⟩ := h
  exact hh hs

/-- Everything an expiry can do: nothing below the limit, and else UNLOCKED with its record (R28). -/
theorem State.expireIfAtLimit_cases (s : State) :
    (¬ (s.rsv.state = .holdover ∧ s.rsv.config.limit ≤ s.rsv.age) ∧ s.expireIfAtLimit = s)
      ∨ (s.rsv.state = .holdover ∧ s.rsv.config.limit ≤ s.rsv.age ∧ s.expireIfAtLimit = s.enter .unlocked .expired 0) := by
  unfold State.expireIfAtLimit
  by_cases h : s.rsv.state = .holdover ∧ s.rsv.config.limit ≤ s.rsv.age
  · exact .inr ⟨h.1, h.2, if_pos h⟩
  · exact .inl ⟨h, if_neg h⟩

/-- An expiry leaves a holdover below its limit, whatever the age it meets, if the other laws stand. -/
theorem State.expireIfAtLimit_rsvOk {s : State} {r : Rsv} (h : r.Ok)
    {config : SupConfig} {age ageCycles : Nat} (hc : config.Ok) (hce : config.enabled = true) (ha : age ≤ 65535)
    (hac : ageCycles ≤ Config.secondCycles) (hs : s.rsv = { r with config, age, ageCycles }) :
    s.expireIfAtLimit.rsv.Ok := by
  obtain ⟨-, hp, hg, hl, hcy, hed, hgap, hlast, -, -, -, -, hrest⟩ := h
  rcases s.expireIfAtLimit_cases with ⟨hn, e⟩ | ⟨-, -, e⟩
  · rw [hs] at hn
    rw [e, hs]
    exact ⟨hc, hp, hg, hl, hcy, hed, hgap, hlast, ha, hac, fun hst => Nat.lt_of_not_le fun hle => hn ⟨hst, hle⟩,
      fun hd => absurd (hce.symm.trans hd) nofun, hrest⟩
  · have e' : s.expireIfAtLimit.rsv = { r with config, age, ageCycles, state := .unlocked } := by
      rw [e]
      show { s.rsv with state := .unlocked } = _
      rw [hs]
    rw [e']
    exact ⟨hc, hp, hg, nofun, hcy, hed, hgap, hlast, ha, hac, nofun, fun hd => absurd (hce.symm.trans hd) nofun, hrest⟩

theorem State.expireIfAtLimit_frame (s : State) :
    s.expireIfAtLimit.tbu = s.tbu ∧ s.expireIfAtLimit.rsv.pps = s.rsv.pps
      ∧ s.expireIfAtLimit.mail.slews = s.mail.slews := by
  rcases s.expireIfAtLimit_cases with ⟨-, e⟩ | ⟨-, -, e⟩ <;> rw [e] <;> exact ⟨rfl, rfl, rfl⟩

/-- The increment of a holdover age, with the expiry that it may bring (R28). -/
theorem State.incrementAge_clockLawsKept {s : State} (hd : s.rsv.ageDue = true) :
    s.ClockLawsKept { s with rsv := s.rsv.incrementAge }.expireIfAtLimit := by
  obtain ⟨ht, hp, hw⟩ := State.expireIfAtLimit_frame { s with rsv := s.rsv.incrementAge }
  refine .of_rsv ht hp hw fun h => ?_
  have hs : s.rsv.state = .holdover := by
    simp only [Rsv.ageDue, Bool.and_eq_true, decide_eq_true_eq] at hd
    exact hd.1
  have he := h.enabled (by rw [hs]; nofun)
  have ha := h.age_lt hs
  obtain ⟨-, -, -, -, -, hlim⟩ := h.1
  exact State.expireIfAtLimit_rsvOk h h.1 he (by omega : s.rsv.age + 1 ≤ 65535) (Nat.zero_le _) rfl

theorem State.holdoverAgeIncrement_clockLawsKept (s : State) : s.ClockLawsKept s.holdoverAgeIncrement := by
  unfold State.holdoverAgeIncrement
  split
  next hd => exact State.incrementAge_clockLawsKept hd
  · exact .refl s

/-- A holdover below its limit does not expire. -/
theorem State.expireIfAtLimit_of_ok {s : State} (h : s.rsv.Ok) : s.expireIfAtLimit = s := by
  rcases s.expireIfAtLimit_cases with ⟨-, e⟩ | ⟨hs, hle, -⟩
  · exact e
  · exact absurd (h.age_lt hs) (Nat.not_lt.2 hle)

theorem State.holdoverExpiry_clockLawsKept (s : State) : s.ClockLawsKept s.holdoverExpiry := by
  unfold State.holdoverExpiry
  split
  next hd => exact State.incrementAge_clockLawsKept hd.1
  · obtain ⟨ht, hp, hw⟩ := s.expireIfAtLimit_frame
    exact .of_rsv ht hp hw fun h => by rw [State.expireIfAtLimit_of_ok h]; exact h

theorem Rsv.cycle_ok {r : Rsv} (h : r.Ok) : r.cycle.Ok := by
  obtain ⟨hc, hp, hg, hl, hcy, hed, hgap, hlast, hage, hac, hh, hd, hrest⟩ := h
  refine ⟨hc, hp, hg, hl, ?_, hed, ?_, hlast, hage, ?_, hh, fun hn => ?_, hrest⟩
  · show (if r.config.enabled = true then _ else _) ≤ _
    split
    · exact Nat.min_le_right ..
    · exact hcy
  · show (if r.config.enabled = true then _ else _) ≤ _
    split
    · exact Nat.min_le_right ..
    · exact hgap
  · show (if r.state = .holdover then _ else _) ≤ _
    split
    · exact Nat.min_le_right ..
    · exact hac
  · have hn : r.config.enabled = false := hn
    have := hd hn
    simpa [Rsv.cycle, hn] using this

theorem State.countCycle_clockLawsKept (s : State) : s.ClockLawsKept s.countCycle := .of_rsv rfl rfl rfl Rsv.cycle_ok

/-! ## Pulse-per-second edges and the requests of the RSV -/

theorem phaseError_bounds (t : Time) : -5000000 ≤ phaseError t ∧ phaseError t ≤ 4999999 := by
  have hf : fraction t < 10000000 := Nat.mod_lt _ (by decide)
  unfold phaseError
  split <;> omega

theorem Rsv.judge_ok {r : Rsv} (h : r.Ok) {e : Int} (he : -5000000 ≤ e ∧ e ≤ 4999999) (outlier : Bool) :
    (r.judge e outlier).Ok := by
  obtain ⟨hc, hp, hg, hl, hcy, hed, hgap, hlast, hage, hac, hh, hd, hst, hf, -⟩ := h
  refine ⟨hc, hp, hg, hl, hcy, hed, hgap, hlast, hage, hac, hh, hd, ?_, ?_, ?_⟩
  · show r.streakAfter outlier ≤ 255
    unfold Rsv.streakAfter
    split
    · exact Nat.min_le_right ..
    · exact Nat.zero_le _
  · show (outlier && (r.fault || decide (3 ≤ r.streakAfter outlier))) = decide (3 ≤ r.streakAfter outlier)
    rw [hf]
    cases outlier with
    | false => rfl
    | true =>
      have hm : 3 ≤ r.streak → 3 ≤ r.streakAfter true := fun h3 => by simp [Rsv.streakAfter]; omega
      rw [Bool.true_and, Bool.eq_iff_iff, Bool.or_eq_true, decide_eq_true_eq, decide_eq_true_eq]
      exact ⟨fun h => h.elim hm id, .inr⟩
  · intro v hv
    obtain rfl := Option.mem_some_iff.1 hv
    exact he

/-- A discipline slew that an edge starts lies within the window of the PPS configuration (R37). -/
theorem State.ppsEdge_clockLawsKept (s : State) (edge : PpsEdge) : s.ClockLawsKept (s.ppsEdge edge) := by
  refine ⟨fun ⟨ht, hp, hw⟩ => ⟨ht, hp, fun w hm => ?_⟩, fun h => Rsv.judge_ok h (phaseError_bounds _) _⟩
  change w ∈ (if _ then _ else _ : List SlewStart) at hm
  split at hm
  next ha =>
    rcases List.mem_append.1 hm with hm | hm
    · exact hw w hm
    · obtain rfl := List.mem_singleton.1 hm
      simp only [Bool.and_eq_true, Bool.not_eq_true', decide_eq_true_eq, decide_eq_false_iff_not] at ha
      obtain ⟨⟨⟨ho, -⟩, -⟩, h0⟩ := ha
      obtain ⟨-, hwin, h1, h2, -⟩ := hp
      exact ⟨Int.neg_ne_zero.2 h0, by simp only [Int.natAbs_neg]; omega, h1, h2⟩
  · exact hw w hm

theorem State.ppsEdgeHandover_clockLawsKept (s : State) : s.ClockLawsKept s.ppsEdgeHandover := by
  unfold State.ppsEdgeHandover
  split
  · exact .refl s
  next edge rest _ =>
    exact (State.ClockLawsKept.of_clock_eq (t := { s with mail := { s.mail with ppsEdges := rest } }) rfl).trans
      (State.ppsEdge_clockLawsKept _ edge)

theorem refOperands_ok {l : List Byte} {c : SupConfig} (h : refOperands l = some c) : c.Ok := by
  simp only [refOperands, Option.bind_eq_bind, Option.bind_eq_some_iff, Option.pure_def, Option.some.injEq,
    inRange_eq_some] at h
  obtain ⟨_, -, _, ⟨ht, rfl⟩, _, ⟨hq, rfl⟩, _, ⟨hl, rfl⟩, rfl⟩ := h
  exact ⟨ht.1, ht.2, hq.1, hq.2, hl⟩

theorem ppsOperands_ok {l : List Byte} {c : PpsConfig} (h : ppsOperands l = some c) : c.Ok := by
  simp only [ppsOperands, Option.bind_eq_bind, Option.bind_eq_some_iff, inRange_eq_some] at h
  obtain ⟨role, -, discipline, -, _, ⟨hw, rfl⟩, _, ⟨hs, rfl⟩, h⟩ := h
  split at h
  · cases h
  next hd =>
    obtain rfl := Option.some.inj h
    refine ⟨hw.1, hw.2, hs.1, hs.2, fun ht => ?_⟩
    have ht : discipline = true := ht
    simpa [ht] using hd

/-- Supervision that is switched on or off begins with no window and G at 0 (R33). -/
theorem Rsv.Ok.stopped {r : Rsv} (h : r.Ok) {config : SupConfig} (hc : config.Ok) :
    ({ r with config, state := .unlocked }.stopWindow : Rsv).Ok := by
  obtain ⟨-, hp, -, -, -, -, -, hlast, hage, hac, -, -, hrest⟩ := h
  exact ⟨hc, hp, Nat.zero_le _, nofun, Nat.zero_le _, Nat.zero_le _, Nat.zero_le _, hlast, hage, hac, nofun,
    fun _ => ⟨rfl, rfl, rfl, rfl, rfl⟩, hrest⟩

/-- A disabled supervision is UNLOCKED (R31). -/
theorem Rsv.Ok.unlocked_of_disabled {r : Rsv} (h : r.Ok) (hd : r.config.enabled = false) : r.state = .unlocked := by
  by_contra hn
  exact absurd ((h.enabled hn).symm.trans hd) nofun

theorem State.applyRefConfig_rsvOk {s : State} {c : SupConfig} (hc : c.Ok) (h : s.rsv.Ok) : (s.applyRefConfig c).rsv.Ok := by
  unfold State.applyRefConfig
  dsimp only
  split
  next he hce =>
    split
    next hu => simpa [hu] using h.stopped hc
    · exact h.stopped hc
  next he hce =>
    have hu := h.unlocked_of_disabled he
    simpa [hu] using h.stopped hc
  next he hce =>
    have hu := h.unlocked_of_disabled he
    obtain ⟨-, hp, hg, -, hcy, hed, hgap, hlast, hage, hac, -, hd, hrest⟩ := h
    exact ⟨hc, hp, hg, fun hl => absurd (hu.symm.trans hl) nofun, hcy, hed, hgap, hlast, hage, hac,
      fun hh => absurd (hu.symm.trans hh) nofun, fun _ => hd he, hrest⟩
  next he hce =>
    have ⟨_, _, _, _, _, _, _, _, hage, hac, _⟩ := h
    exact State.expireIfAtLimit_rsvOk h hc hce hage hac rfl

theorem State.applyRefConfig_frame (s : State) (c : SupConfig) :
    (s.applyRefConfig c).tbu = s.tbu ∧ (s.applyRefConfig c).rsv.pps = s.rsv.pps
      ∧ (s.applyRefConfig c).mail.slews = s.mail.slews := by
  unfold State.applyRefConfig
  dsimp only
  split
  · split <;> exact ⟨rfl, rfl, rfl⟩
  · exact ⟨rfl, rfl, rfl⟩
  · exact ⟨rfl, rfl, rfl⟩
  · exact State.expireIfAtLimit_frame _

theorem State.refConfig_clockLawsKept (s : State) (p : Port) (l : List Byte) : s.ClockLawsKept (s.refConfig p l).state := by
  refine State.ifHolder_state (.refl s) (State.ifInRange_state (.refl s) fun c hc => ?_)
  obtain ⟨ht, hp, hw⟩ := s.applyRefConfig_frame c
  exact .of_rsv ht hp hw (State.applyRefConfig_rsvOk (refOperands_ok hc))

theorem State.ppsConfig_clockLawsKept (s : State) (p : Port) (l : List Byte) : s.ClockLawsKept (s.ppsConfig p l).state := by
  refine State.ifHolder_state (.refl s) (State.ifInRange_state (.refl s) fun c hc => ?_)
  refine ⟨fun ⟨ht, _, hw⟩ => ⟨ht, ppsOperands_ok hc, hw⟩, fun h => ?_⟩
  obtain ⟨hcf, -, hg, hl, hcy, hed, hgap, hlast, hage, hac, hh, hd, -, -, herr⟩ := h
  exact ⟨hcf, ppsOperands_ok hc, hg, hl, hcy, hed, hgap, hlast, hage, hac, hh, hd, Nat.zero_le _, rfl, herr⟩

end Sys2Proof.Machine
end

section
namespace Sys2Proof.Machine

/-! ## What stands before a tick leaves the clock part, but for the supervision events that are due -/

@[simp] theorem State.scuTake_clock (s : State) (h : TimeHandover) : (s.scuTake h).clock = s.clock := by
  unfold State.scuTake
  split <;> simp

@[simp] theorem State.ecuTake_clock (s : State) (h : EcuHandover) : (s.ecuTake h).clock = s.clock := by
  unfold State.ecuTake
  split <;> simp

@[simp] theorem State.ecuTakeAtReset_clock (s : State) (h : EcuHandover) : (s.ecuTakeAtReset h).clock = s.clock := by
  unfold State.ecuTakeAtReset
  split <;> simp

@[simp] theorem State.catchUp_clock (s : State) : s.catchUp.clock = s.clock := by
  unfold State.catchUp State.ecuCatchUp State.touCatchUp State.scuCatchUp
  rw [State.foldl_clock State.ecuTake_clock, State.foldl_clock fun s _ => s.lineOperation_clock,
    State.foldl_clock State.scuTake_clock]

@[simp] theorem State.advanceEnd_clock (s : State) : s.advanceEnd.clock = s.clock := by
  rcases s.advanceEnd_cases with ⟨-, e⟩ | ⟨e', -, e⟩ <;> simp [e]

@[simp] theorem State.expireDue_clock (s : State) (p : Port) : (s.expireDue p).clock = s.clock := by
  rcases s.expireDue_cases p with ⟨-, e⟩ | ⟨-, -, e⟩ | ⟨-, -, e⟩ <;> simp [e]

@[simp] theorem State.settleSessions_clock (s : State) : s.settleSessions.clock = s.clock := by
  unfold State.settleSessions State.takeReports
  rw [State.foldl_clock State.expireDue_clock, 
    State.foldl_clock (f := fun s (r : Report) => s.validFrameReport r.port) fun s r => s.validFrameReport_clock r.port]

theorem State.tickEdge_clockLawsKept (s : State) : s.ClockLawsKept s.tickEdge := by
  have hd : s.ClockLawsKept s.settleDue :=
    s.settleWindow_clockLawsKept.trans (State.holdoverAgeIncrement_clockLawsKept _)
  unfold State.tickEdge
  split
  · exact .refl s
  · dsimp only
    split
    · exact hd.trans (State.refclkEdge_clockLawsKept _)
    · exact hd

theorem State.takeTick_clockLawsKept (s : State) : s.ClockLawsKept s.takeTick := by
  unfold State.takeTick
  split
  · exact (State.ClockLawsKept.of_clock_eq (t := { s with mail := { s.mail with refTicks := s.mail.refTicks - 1 } }) rfl).trans
      (State.tickOf_clockLawsKept _ _)
  · exact (s.tickOf_clockLawsKept _).trans (State.countCycle_clockLawsKept _)

theorem State.tick_clockLawsKept (s : State) : s.ClockLawsKept s.tick := by
  have h : s.ClockLawsKept s.catchUp.settleSessions := .of_clock_eq (by simp)
  exact h.trans ((State.tickEdge_clockLawsKept _).trans (State.takeTick_clockLawsKept _))

theorem State.internalCycle_clockLawsKept (s : State) : s.ClockLawsKept s.internalCycle := by
  unfold State.internalCycle
  split
  · exact s.tick_clockLawsKept
  · exact s.countCycle_clockLawsKept

/-! ## Power-on and RST# -/

theorem Tbu.initial_ok : Tbu.initial.Ok := ⟨Nat.zero_le _, by decide, by decide, by decide, by decide, nofun⟩

theorem Rsv.initial_ok : Rsv.initial.Ok := by
  refine ⟨⟨?_, ?_, ?_, ?_, ?_, ?_⟩, ⟨?_, ?_, ?_, ?_, nofun⟩, ?_, nofun, ?_, ?_, ?_, nofun, ?_, ?_, nofun, nofun, ?_, rfl, nofun⟩ <;>
    decide

theorem State.powerOn_clockLawsKept (s : State) : s.ClockLawsKept s.powerOn := by
  have ⟨_, hp, _⟩ := Rsv.initial_ok
  exact ⟨fun _ => ⟨Tbu.initial_ok, hp, nofun⟩, fun _ => Rsv.initial_ok⟩

@[simp] theorem State.stepsBeforeReset_clock (s : State) : s.stepsBeforeReset.clock = s.clock := by
  refine State.foldl_clock (fun s h => ?_) _ _
  split <;> simp

@[simp] theorem State.closeEnding_clock (s : State) : s.closeEnding.clock = s.clock := by
  unfold State.closeEnding
  split <;> simp

/-- RST# cancels the slew and leaves the rest of the clock part (R23, R42). -/
theorem State.resetAssert_clockLawsKept (s : State) : s.ClockLawsKept s.resetAssert := by
  unfold State.resetAssert
  split
  · exact .refl s
  · have h : s.ClockLawsKept s.stepsBeforeReset.closeEnding := .of_clock_eq (by simp)
    exact h.trans (.of_tbu rfl rfl fun ht => ht.with_slew ht.1 nofun)

/-! ## Every command -/

/-- Every command answers a next state (log 30) and keeps the laws of the timebase and of the supervision. -/
theorem exec_clockLawsKept (c : Instr) (s : State) : ∃ t, exec c s = .next t ∧ s.ClockLawsKept t := by
  have same {t : State} (h : t.clock = s.clock) : ∃ t', Host.Outcome.next (φ := Fault) (ρ := Refusal) t = .next t'
      ∧ s.ClockLawsKept t' := ⟨t, rfl, .of_clock_eq h⟩
  cases c with
  | powerOn => exact ⟨_, rfl, s.powerOn_clockLawsKept⟩
  | resetAssert => exact ⟨_, rfl, s.resetAssert_clockLawsKept⟩
  | resetRelease a b => exact same (by unfold State.resetRelease; split <;> rfl)
  | tick => exact ⟨_, rfl, s.tick_clockLawsKept⟩
  | trimCorrectionDue => exact ⟨_, rfl, s.trimCorrectionDue_clockLawsKept⟩
  | slewCorrectionDue => exact ⟨_, rfl, s.slewCorrectionDue_clockLawsKept⟩
  | timeAdvance => exact same s.timeAdvance_clock
  | stepHandover => exact same s.stepHandover_clock
  | primingHandover n => exact same (s.primingHandover_clock n)
  | lineOperation => exact same s.lineOperation_clock
  | pulseEnd n => exact same (s.pulseEnd_clock n)
  | inputSample n l => exact same (s.inputSample_clock n l)
  | ecuStepHandover => exact same s.ecuStepHandover_clock
  | windowClose => exact ⟨_, rfl, s.windowClose_clockLawsKept⟩
  | missingDeclaration => exact ⟨_, rfl, s.missingDeclaration_clockLawsKept⟩
  | holdoverAgeIncrement => exact ⟨_, rfl, s.holdoverAgeIncrement_clockLawsKept⟩
  | holdoverExpiry => exact ⟨_, rfl, s.holdoverExpiry_clockLawsKept⟩
  | ppsEdgeHandover => exact ⟨_, rfl, s.ppsEdgeHandover_clockLawsKept⟩
  | disciplineSlew => exact ⟨_, rfl, s.disciplineSlew_clockLawsKept⟩
  | recordTake b => exact same (s.recordTake_clock b)
  | subscriptionInstall p => exact same (s.subscriptionInstall_clock p)
  | scuSessionEnd p => exact same (s.scuSessionEnd_clock p)
  | eluSessionEnd p => exact same (s.eluSessionEnd_clock p)
  | idleExpiry p => exact same (s.idleExpiry_clock p)
  | validFrameReport p => exact same (s.validFrameReport_clock p)
  | frameBegin p => exact same (s.frameBegin_clock p)
  | frameEnd p l => exact same (s.frameEnd_clock p l)
  | requestCompletion p => exact same rfl
  | attach p => exact same (State.serveSau_clock (s.attach_sameClock p))
  | detach p => exact same (by split; exacts [rfl, s.detach_clock p])
  | getStatus p => exact same (State.serveSau_clock fun _ => rfl)
  | claim p => exact same (State.serveSau_clock fun _ => s.claim_sameClock p)
  | release p => exact same (State.serveSau_clock fun _ => s.release_sameClock p)
  | take p => exact same (State.serveSau_clock fun _ => s.take_sameClock p)
  | readTime p => exact same (State.serve_clock fun _ => .refl s)
  | readTimebase p => exact same (State.serve_clock fun _ => State.ifAttached_state (.refl s) (.refl s))
  | setTime p => exact ⟨_, rfl, State.serve_clockLawsKept (s.setTime_clockLawsKept p)⟩
  | stepTime p => exact ⟨_, rfl, State.serve_clockLawsKept (s.stepTime_clockLawsKept p)⟩
  | slewTime p => exact ⟨_, rfl, State.serve_clockLawsKept (s.slewTime_clockLawsKept p)⟩
  | setTrim p => exact ⟨_, rfl, State.serve_clockLawsKept (s.setTrim_clockLawsKept p)⟩
  | readRef p => exact same (State.serve_clock fun _ => State.ifAttached_state (.refl s) (.refl s))
  | refConfig p => exact ⟨_, rfl, State.serve_clockLawsKept (s.refConfig_clockLawsKept p)⟩
  | ppsConfig p => exact ⟨_, rfl, State.serve_clockLawsKept (s.ppsConfig_clockLawsKept p)⟩
  | arm p => exact same (State.serve_clock fun _ => State.creating_sameClock s.armAt_sameClock)
  | prime p => exact same (State.serve_clock fun _ => State.creating_sameClock fun _ _ _ _ => rfl)
  | cancel p => exact same (State.serve_clock fun _ => State.withHandle_sameClock fun _ => rfl)
  | hold p => exact same (State.serve_clock fun _ => State.withHandle_sameClock s.holdAt_sameClock)
  | resume p => exact same (State.serve_clock fun l => State.withHandle_sameClock (s.resumeAt_sameClock l))
  | queryEntry p => exact same (State.serve_clock fun _ => State.withHandle_sameClock fun _ => .refl s)
  | listEntries p =>
    exact same (State.serve_clock fun _ => State.ifAttached_state (.refl s) (State.ifInRange_state (.refl s) fun _ _ => .refl s))
  | setQuota p =>
    exact same (State.serve_clock fun _ => State.ifHolder_state (.refl s) (State.ifInRange_state (.refl s) fun _ _ => rfl))
  | bindLine p => exact same (State.serve_clock (s.bindLine_sameClock p))
  | lineConfig p =>
    exact same (State.serve_clock fun _ => State.ifHolder_state (.refl s) (State.ifInRange_state (.refl s) fun _ _ => rfl))
  | driveLine p => exact same (State.serve_clock (s.driveLine_sameClock p))
  | readLines p => exact same (State.serve_clock fun _ => State.ifAttached_state (.refl s) (.refl s))
  | inputConfig p =>
    exact same (State.serve_clock fun _ => State.ifHolder_state (.refl s) (State.ifInRange_state (.refl s) fun _ _ => rfl))
  | readInputs p => exact same (State.serve_clock fun _ => State.ifAttached_state (.refl s) (.refl s))
  | subscribe p =>
    refine same ?_
    split
    · rfl
    · exact State.serve_clock fun _ => State.ifAttached_state (.refl s) (State.ifInRange_state (.refl s) fun _ _ => rfl)
  | readLog p =>
    exact same (State.serve_clock fun _ => State.ifAttached_state (.refl s) (State.ifInRange_state (.refl s) fun _ _ => .refl s))
  | ackLog p => exact same (State.serve_clock (s.ackLog_sameClock p))
  | logPolicy p =>
    exact same (State.serve_clock fun _ => State.ifHolder_state (.refl s) (State.ifInRange_state (.refl s) fun _ _ => rfl))
  | refclkEdge => exact ⟨_, rfl, s.refclkEdge_clockLawsKept⟩

/-- Every step answers a next state and keeps the laws: a command, or what the part does by itself (log 4). -/
theorem step_clockLawsKept (s : State) : ∃ t, step s = .next t ∧ s.ClockLawsKept t := by
  unfold step
  split
  next c rest _ =>
    obtain ⟨t, e, h⟩ := exec_clockLawsKept c { s with pending := rest }
    exact ⟨t, e, .trans (.of_clock_eq rfl) h⟩
  · split
    · exact exec_clockLawsKept _ s
    · exact ⟨_, rfl, s.internalCycle_clockLawsKept⟩

/-- Settles O55: every step keeps the laws of the timebase and of the supervision, command by command. -/
theorem timebaseAndSupervisionLawsKept : Obligations.TimebaseAndSupervisionLawsKept := by
  have kept {s t : State} (e : step s = .next t) : s.ClockLawsKept t := by
    obtain ⟨u, eu, h⟩ := step_clockLawsKept s
    cases eu.symm.trans e
    exact h
  exact ⟨fun s t h e => (kept e).1 h, fun s t h e => (kept e).2 h⟩

end Sys2Proof.Machine
end

section
/-! Power-on, the reports and the requests of the timebase (O3, O10, O11, O12, O60). -/

namespace Sys2Proof.Machine

/-! ## The state after reset -/

theorem Entry.free_ok {g : Nat} (h : g < 256) : (Entry.free g).Ok :=
  ⟨h, fun _ => rfl, Nat.zero_lt_succ _, Nat.zero_le _, by simp [Entry.free], nofun, nofun, nofun, nofun, rfl, nofun, nofun, nofun, nofun⟩

theorem TrigLine.initial_ok : TrigLine.initial.Ok := ⟨by decide, by decide, by decide, fun h => absurd rfl h⟩

theorem Input.initial_ok : Input.initial.Ok :=
  ⟨.inl rfl, by decide, by decide, by decide, by decide, by decide, ⟨fun _ => rfl, fun _ => rfl⟩, fun _ => ⟨rfl, rfl, rfl⟩, nofun,
    fun _ => rfl, by decide, by decide⟩

theorem Elu.initial_ok : Elu.initial.Ok := by
  refine ⟨by decide, by decide, by decide, fun _ h => absurd h List.not_mem_nil, fun p => ?_⟩
  simp [Elu.initial]

theorem Sau.initial_authorityOk : Sau.initial.AuthorityOk := ⟨nofun, nofun, List.nodup_nil, by decide, fun _ => rfl⟩

theorem Hpu.initial_ok : Hpu.initial.Ok := ⟨fun _ => rfl, trivial, nofun, trivial⟩

@[simp] theorem State.reset_entry (i : Index) : State.reset.scu.entries[i] = Entry.free 0 := by
  simp [State.reset, Scu.initial]
@[simp] theorem State.reset_quota (p : Port) : State.reset.scu.quota[p] = 16 := by
  simp [State.reset, Scu.initial, Config.defaultQuota]
@[simp] theorem State.reset_line (n : Line) : State.reset.tou.lines[n] = TrigLine.initial := by
  simp [State.reset, Tou.initial]
@[simp] theorem State.reset_input (n : Line) : State.reset.ecu.inputs[n] = Input.initial := by
  simp [State.reset, Ecu.initial]
@[simp] theorem State.reset_session (p : Port) : State.reset.sau.sessions[p] = Session.initial := by
  simp [State.reset, Sau.initial]
@[simp] theorem State.reset_sub (p : Port) : State.reset.elu.subs[p] = none := by simp [State.reset, Elu.initial]
@[simp] theorem State.reset_dropped (p : Port) : State.reset.elu.dropped[p] = 0 := by simp [State.reset, Elu.initial]
@[simp] theorem State.reset_lost (p : Port) : State.reset.elu.lost[p] = 0 := by simp [State.reset, Elu.initial]
@[simp] theorem State.reset_hpu (p : Port) : State.reset.hpu[p] = Hpu.initial := by simp [State.reset]

theorem State.reset_scheduleOk : State.reset.ScheduleOk := by
  have free (i : Index) : State.reset.scu.entries[i].state = .free := by rw [State.reset_entry]; rfl
  refine ⟨by decide, rfl, fun i => ?_, fun p => ?_, fun i h => ?_, fun i p h => ?_, fun i a q h => ?_⟩
  · rw [State.reset_entry]
    exact Entry.free_ok (by decide)
  · rw [State.reset_quota]
    decide
  · exact absurd ((free i).symm.trans h) nofun
  · exact absurd (free i) h
  · exact absurd (free i) h

theorem State.reset_sessionsOk : State.reset.SessionsOk := by
  refine ⟨Elu.initial_ok, Sau.initial_authorityOk, fun p => ?_, fun p => ?_⟩
  · unfold State.sessionOk
    rw [State.reset_session]
    exact ⟨by decide, by decide, by decide, fun _ => rfl, fun _ _ => ⟨rfl, rfl, rfl⟩, nofun, nofun⟩
  · unfold State.subscriptionOk
    rw [State.reset_session, State.reset_sub]
    exact ⟨Nat.zero_le _, nofun, nofun, nofun⟩

theorem State.reset_portsOk : State.reset.PortsOk := by
  refine ⟨fun p => ?_, nofun, fun p => ?_⟩
  · rw [State.reset_hpu]
    exact Hpu.initial_ok
  · rw [State.reset_hpu]
    rfl

/-- Settles O60, block by block. -/
theorem resetMeetsEveryLaw : Obligations.ResetMeetsEveryLaw := by
  have ⟨_, hp, _⟩ := Rsv.initial_ok
  refine ⟨⟨Tbu.initial_ok, hp, nofun⟩, Rsv.initial_ok, State.reset_scheduleOk, ⟨fun n => ?_, fun n => ?_⟩,
    State.reset_sessionsOk, State.reset_portsOk, nofun⟩
  · rw [State.reset_line]
    exact TrigLine.initial_ok
  · rw [State.reset_input]
    exact Input.initial_ok

/-! ## Power-on and the release of RST# -/

/-- The straps name the port whose number has SEN1 as its more significant bit (R145). -/
theorem seniorOf_eq {sen1 sen0 : Level} {p : Port}
    (h : p.val = (if sen1 = .high then 2 else 0) + (if sen0 = .high then 1 else 0)) : seniorOf sen1 sen0 = p := by
  apply Fin.ext
  rw [h]
  cases sen1 <;> cases sen0 <;> rfl

/-- Settles O3: POWER_ON gives `State.reset` under RST#, and RESET_RELEASE samples the straps. -/
theorem powerOnAndReleaseValues : Obligations.PowerOnAndReleaseValues := by
  refine ⟨fun s => ⟨s.powerOn, rfl, rfl, rfl, rfl, rfl, rfl, rfl, rfl, rfl, rfl, rfl, rfl, rfl, rfl, rfl, rfl, rfl, rfl, rfl,
    rfl, rfl, rfl, rfl, rfl, fun i => ?entries, State.reset_quota, fun n => ?lines, fun n => ?inputs, rfl, rfl, rfl,
    fun p => ⟨State.reset_sub p, State.reset_dropped p, State.reset_lost p⟩, rfl, rfl, fun p => ?sessions, fun p => ?ports⟩,
    fun s sen1 sen0 senior hr hs => ?release⟩
  case entries =>
    change State.reset.scu.entries[i].state = _ ∧ State.reset.scu.entries[i].generation = _
    rw [State.reset_entry]
    exact ⟨rfl, rfl⟩
  case lines =>
    have e : s.powerOn.tou.lines[n] = TrigLine.initial := State.reset_line n
    rw [e]
    exact ⟨rfl, rfl, rfl, rfl, rfl⟩
  case inputs =>
    have e : s.powerOn.ecu.inputs[n] = Input.initial := State.reset_input n
    rw [e]
    exact ⟨rfl, rfl, rfl, rfl, rfl, rfl, rfl, rfl, rfl, rfl, rfl, rfl⟩
  case sessions =>
    have e : s.powerOn.sau.sessions[p] = Session.initial := State.reset_session p
    rw [e]
    exact ⟨rfl, rfl, rfl, rfl, rfl⟩
  case ports =>
    have e : s.powerOn.hpu[p] = Hpu.initial := State.reset_hpu p
    rw [e]
    exact ⟨rfl, rfl, rfl, rfl, rfl, rfl, rfl⟩
  case release =>
    show Host.Outcome.next (s.resetRelease sen1 sen0) = _
    unfold State.resetRelease
    rw [if_pos hr, seniorOf_eq hs]

/-! ## Reports of the timebase and the reference (R20, R21, R40) -/

theorem State.source_code (s : State) : s.source.code = if s.rsv.state = .locked then 1 else 0 := by
  rw [State.source_eq]
  split <;> rfl

/-- The quality as READ_TIME codes it (R9). -/
theorem State.quality_code (s : State) : s.quality.code =
    if s.tbu.isSet = true then (match s.rsv.state with | .unlocked => 1 | .holdover => 2 | .locked => 3) else 0 := by
  unfold State.quality
  cases s.tbu.isSet <;> cases s.rsv.state <;> rfl

/-- Settles O12: each report is answered on the state as it stands. -/
theorem timebaseAndReferenceReports : Obligations.TimebaseAndReferenceReports := by
  intro s p tag d quality state source hq0 hq1 hst hsrc
  have hq : s.quality.code = quality := by
    rw [State.quality_code]
    cases hb : s.tbu.isSet with
    | false => rw [hq0 hb]; rfl
    | true => rw [hq1 hb]; rfl
  have hs : s.rsv.state.code = state := by
    rw [hst]
    cases s.rsv.state <;> rfl
  have hc : s.source.code = source := by rw [State.source_code, hsrc]
  refine ⟨fun h => ?_, fun h ha => ?_, fun h ha => ?_⟩
  · show Host.Outcome.next (s.serve p .readTime _) = _
    rw [State.serve_of_asks h rfl, ← hq, ← hs]
    rfl
  · show Host.Outcome.next (s.serve p .readTimebase _) = _
    rw [State.ifAttached_of_attached ha, State.serve_of_asks h rfl, ← hc]
    rfl
  · show Host.Outcome.next (s.serve p .readRef _) = _
    rw [State.ifAttached_of_attached ha, State.serve_of_asks h rfl, ← hc, ← hs]
    refine congrArg (fun l => Host.Outcome.next (s.answered p tag d .ok l)) ?_
    dsimp only [State.report, State.refReport]
    rcases s.rsv.last with _ | ⟨_, _ | _ | _ | _⟩ <;> rcases s.rsv.lastError with _ | _ <;> rfl

end Sys2Proof.Machine
end

section
/-! Steps and slews (O10, O11). -/

namespace Sys2Proof.Machine

/-! ## Fields of a payload read back -/

theorem fieldInt_append_within {a b : List Byte} {offset width : Nat} (h : offset + width ≤ a.length) :
    fieldInt (a ++ b) offset width = fieldInt a offset width := by unfold fieldInt; rw [field_append_within h]

theorem fieldInt_beSigned {v : Int} {width : Nat} (h1 : -(256 ^ width : Nat) ≤ 2 * v) (h2 : 2 * v < (256 ^ width : Nat)) :
    fieldInt (beSigned v width) 0 width = v := by
  unfold fieldInt field
  simp [List.take_of_length_le, beInt_beSigned h1 h2]

theorem inMagnitude_of {b : Nat} {v : Int} (h : v.natAbs ≤ b) : inMagnitude b v = some v := if_pos h

/-! ## Steps (R12 to R15) -/

/-- The field of a STEP record saturates at 2^47-1 in magnitude (R15). -/
theorem stepField_eq (offset : Int) : stepField offset = max (-140737488355327) (min 140737488355327 offset) := by
  unfold stepField Config.maxStepField
  split
  · omega
  · split <;> omega

/-- The quality of a set timescale, by the supervision state (R9). -/
theorem State.quality_of_set {s : State} {q : Quality} (h : s.tbu.isSet = true) (hl : q = .locked ↔ s.rsv.state = .locked)
    (hh : q = .holdover ↔ s.rsv.state = .holdover) (hu : q ≠ .unset) : s.quality = q := by
  unfold State.quality
  rw [if_pos h]
  cases hs : s.rsv.state with
  | locked => exact (hl.2 hs).symm
  | holdover => exact (hh.2 hs).symm
  | unlocked =>
    cases q with
    | freerun => rfl
    | unset => exact absurd rfl hu
    | locked => exact absurd ((hl.1 rfl).symm.trans hs) nofun
    | holdover => exact absurd ((hh.1 rfl).symm.trans hs) nofun

/-- An accepted step, with the quality of the timescale it sets (R9, R14, R15). -/
theorem State.applyStep_eq {s : State} {q : Quality} (isStep : Bool) (new : Time)
    (h : ({ s with tbu := { s.tbu with time := new, isSet := true, slew := none, slewTaken := false } } : State).quality = q) :
    s.applyStep isStep new = { s with
      tbu := { s.tbu with time := new, isSet := true, slew := none, slewTaken := false },
      mail := { s.mail with
        turns := s.mail.turns + 1
        records := s.mail.records ++ [{
          producer := .tbu, quality := q, time := new, body := stepBody isStep s.tbu.time new s.tbu.slew, address := none
          links := { turn := some s.mail.turns } }]
        toScu := s.mail.toScu ++ [.step s.mail.turns s.tbu.time new]
        toEcu := s.mail.toEcu ++ [.step s.mail.turns s.tbu.time new] } } := by
  subst h
  rfl

theorem addOffset_of {t new : Time} {offset : Int} (h : offset = (new : Int) - (t : Int)) (hn : new ≤ Config.maxTime) :
    addOffset t offset = some new := by
  have hs : (t : Int) + offset = (new : Int) := by omega
  unfold addOffset
  simp only [hs]
  rw [if_pos ⟨Int.natCast_nonneg new, Int.ofNat_le.2 hn⟩, Int.toNat_natCast]

/-- Settles O10: both requests end in `State.applyStep`. -/
theorem acceptedStepAppliesAtOnce : Obligations.AcceptedStepAppliesAtOnce := by
  intro s p tag d isStep new offset field quality ha hh ht hn ho hf hl hho hu hset hstep
  have hq := State.quality_of_set
    (s := { s with tbu := { s.tbu with time := new, isSet := true, slew := none, slewTaken := false } }) rfl hl hho hu
  have hb : stepBody isStep s.tbu.time new s.tbu.slew
      = .step isStep field (decide (field ≠ offset)) (s.tbu.slew.map fun w => (w.origin, w.residual)) := by
    rw [hf, ho, ← stepField_eq]
    rfl
  rw [← hb, ← State.applyStep_eq isStep new hq]
  cases isStep with
  | false =>
    have hr := hset rfl
    have e : s.setTime p (timeBytes new)
        = { state := s.applyStep false new, result := .ok, payload := timeBytes s.tbu.time } := by
      unfold State.setTime
      rw [State.ifHolder_of_holder ha hh, fieldTime_timeBytes hn, State.ifInRange_some]
    show Host.Outcome.next (s.serve p .setTime (s.setTime p)) = _
    rw [State.serve_of_asks hr (by rw [e]; rfl), e]
  | true =>
    obtain ⟨hr, hs, h1, h2⟩ := hstep rfl
    have hfield : fieldInt (beSigned offset 8) 0 8 = offset := fieldInt_beSigned (by omega) (by omega)
    have e : s.stepTime p (beSigned offset 8)
        = { state := s.applyStep true new, result := .ok, payload := timeBytes s.tbu.time } := by
      unfold State.stepTime
      rw [State.ifHolder_of_holder ha hh, if_pos hs, hfield, addOffset_of ho hn, State.ifInRange_some]
    show Host.Outcome.next (s.serve p .stepTime (s.stepTime p)) = _
    rw [State.serve_of_asks hr (by rw [e]; rfl), e]

/-! ## Slews (R17, R18) -/

theorem slewOperands_of {offset : Int} {spacing : Nat} (h1 : -10000000 ≤ offset) (h2 : offset ≤ 10000000)
    (h3 : 100 ≤ spacing) (h4 : spacing ≤ 10000) :
    slewOperands (beSigned offset 4 ++ beBytes spacing 2) = some (offset, spacing) := by
  have hi : fieldInt (beSigned offset 4 ++ beBytes spacing 2) 0 4 = offset := by
    rw [fieldInt_append_within (by simp)]
    exact fieldInt_beSigned (by omega) (by omega)
  have hn : fieldNat (beSigned offset 4 ++ beBytes spacing 2) 4 2 = spacing := by
    rw [fieldNat_append_at (k := 4) (offset := 0) (by simp)]
    exact fieldNat_beBytes (by omega)
  unfold slewOperands
  rw [hi, hn, inMagnitude_of (by unfold Config.maxSlew; omega), inRange_of h3 h4]
  rfl

/-- Settles O11: a slew that starts stands in place of the one in flight. -/
theorem slewsStartAndReplace : Obligations.SlewsStartAndReplace := by
  refine ⟨fun s p tag d offset spacing h ha hh h1 h2 h3 h4 => ?_, fun s w rest hw => ?_⟩
  · have e : s.slewTime p (beSigned offset 4 ++ beBytes spacing 2) =
        if s.rsv.pps.discipline then s.refuse .disciplined
        else {
          state := s.withSlew (if offset = 0 then none else some (Slew.start .host offset spacing)), result := .ok
          payload := beSigned ((s.tbu.slew.map Slew.residual).getD 0) 4 ++ [originCode (s.tbu.slew.map Slew.origin)] } := by
      unfold State.slewTime
      rw [State.ifHolder_of_holder ha hh, slewOperands_of h1 h2 h3 h4, State.ifInRange_some]
    refine ⟨fun hd => ?_, fun hd => ?_⟩ <;> rw [hd] at e
    · show Host.Outcome.next (s.serve p .slewTime (s.slewTime p)) = _
      rw [State.serve_of_asks h (by rw [e]; rfl), e]
      rfl
    · show Host.Outcome.next (s.serve p .slewTime (s.slewTime p)) = _
      rw [State.serve_of_asks h (by rw [e]; rfl), e]
      rcases s.tbu.slew with _ | ⟨_ | _, _⟩ <;> rfl
  · show Host.Outcome.next s.disciplineSlew = _
    unfold State.disciplineSlew
    rw [hw]
    rfl

end Sys2Proof.Machine
end

section
/-! A whole tick in numbers: the time, the slew, the pulses and the sample phases (O5, O6, O7). -/

namespace Sys2Proof.Machine

/-! ## Corrections in numbers (R4 to R6) -/

/-- A correction that may be due, as a number. -/
def signInt (o : Option Sign) : Int := (o.map Sign.toInt).getD 0

theorem signInt_eq_zero_iff {o : Option Sign} : signInt o = 0 ↔ o = none := by
  rcases o with _ | _ | _ <;> simp [signInt, Sign.toInt]

theorem signInt_injective {a b : Option Sign} : signInt a = signInt b ↔ a = b := by
  rcases a with _ | _ | _ <;> rcases b with _ | _ | _ <;> simp [signInt, Sign.toInt]

/-- The table of R6 in numbers: one count and the corrections, kept within 0 to 2. -/
theorem combine_advance (trim slew : Option Sign) :
    ((combine trim slew).1 : Int) = max 0 (min 2 (1 + signInt trim + signInt slew)) := by
  rcases trim with _ | _ | _ <;> rcases slew with _ | _ | _ <;> rfl

/-- The table of R6: a due slew correction is consumed unless the trim correction has the same sign. -/
theorem combine_consumes (trim slew : Option Sign) :
    (combine trim slew).2 = .consumed ↔ slew ≠ none ∧ trim ≠ slew := by
  rcases trim with _ | _ | _ <;> rcases slew with _ | _ | _ <;> simp [combine]

theorem sign_eq_signInt {v : Int} (h : v ≠ 0) : v.sign = signInt (some (if 0 < v then .plus else .minus)) := by
  rcases lt_or_gt_of_ne h with hv | hv
  · rw [Int.sign_eq_neg_one_of_neg hv, if_neg (not_lt.2 hv.le)]
    rfl
  · rw [Int.sign_eq_one_of_pos hv, if_pos hv]
    rfl

theorem State.trim_tickSource (s : State) : s.tbu.trim s.tickSource = s.selectedTrim := by
  unfold State.tickSource State.selectedTrim
  rw [State.source_eq]
  by_cases hr : 0 < s.mail.refTicks <;> by_cases hl : s.rsv.state = .locked <;> simp [hr, hl, Tbu.trim]

theorem State.acc_tickSource (s : State) : s.tbu.acc s.tickSource = s.selectedAcc := by
  unfold State.tickSource State.selectedAcc
  rw [State.source_eq]
  by_cases hr : 0 < s.mail.refTicks <;> by_cases hl : s.rsv.state = .locked <;> simp [hr, hl, Tbu.acc]

/-- The trim correction of the next tick, in numbers (R4). -/
theorem State.trimCorrection_eq (s : State) : s.trimCorrection = signInt (s.tbu.trimDue s.tickSource) := by
  unfold State.trimCorrection Tbu.trimDue
  rw [State.trim_tickSource, State.acc_tickSource]
  by_cases h0 : s.selectedTrim = 0
  · simp [h0, signInt]
  · by_cases hf : Config.trimFull ≤ s.selectedAcc + s.selectedTrim.natAbs
    · rw [if_pos hf, if_pos ⟨h0, hf⟩, sign_eq_signInt h0]
    · rw [if_neg hf, if_neg fun h => hf h.2]
      rfl

/-- The accumulator of the tick's source after the tick, in numbers (R4). -/
theorem State.accNext_eq (s : State) : s.tbu.accNext s.tickSource
    = s.selectedAcc + s.selectedTrim.natAbs - (if s.trimCorrection = 0 then 0 else 1000000000) := by
  unfold Tbu.accNext
  rw [State.trim_tickSource, State.acc_tickSource, State.trimCorrection_eq]
  cases h : s.tbu.trimDue s.tickSource with
  | none => simp [signInt]
  | some g => simp [signInt_eq_zero_iff, Config.trimFull]

theorem Slew.count_residual (w : Slew) : w.count.residual = w.residual := by unfold Slew.count; split <;> rfl

theorem Slew.count_eq (w : Slew) : w.count = { w with
    counter := if w.spacing ≤ w.counter + 1 then 0 else w.counter + 1
    deferred := w.deferred || decide (w.spacing ≤ w.counter + 1) } := by
  unfold Slew.count Slew.reachesSpacing
  by_cases h : w.spacing ≤ w.counter + 1 <;> simp [h]

theorem Slew.count_deferred (w : Slew) :
    w.count.deferred = decide (w.deferred = true ∨ w.spacing ≤ w.counter + 1) := by
  rw [Slew.count_eq]
  simp

/-- The slew correction due on the next tick, in numbers (R5, R6). -/
theorem Slew.correctionDue_eq {w : Slew} (h : w.residual ≠ 0) : w.correctionDue = signInt w.count.correction := by
  unfold Slew.correctionDue Slew.correction Slew.sign
  rw [Slew.count_residual, Slew.count_deferred, sign_eq_signInt h]
  by_cases hc : w.deferred = true ∨ w.spacing ≤ w.counter + 1
  · rw [if_pos hc, if_pos (decide_eq_true hc)]
  · rw [if_neg hc, if_neg fun hd => hc (of_decide_eq_true hd)]
    rfl

theorem State.slewCorrection_eq {s : State} (h : s.tbu.Ok) :
    s.slewCorrection = signInt ((s.tbu.slew.map Slew.count).bind Slew.correction) := by
  obtain ⟨-, -, -, -, -, hw⟩ := h
  unfold State.slewCorrection
  cases hs : s.tbu.slew with
  | none => rfl
  | some w =>
    obtain ⟨-, -, hr, -⟩ := hw w hs
    exact Slew.correctionDue_eq hr

/-! ## The TBU's part of a whole tick -/

/-- The TBU after a tick of which no part was taken ahead: the trim of the source, the slew, the time (R3 to R6). -/
theorem Tbu.advance_of_whole {t : Tbu} (ht : t.trimTaken = none) (hs : t.slewTaken = false) (src : Source) :
    t.advance src = ({ t.withAcc (t.accNext src) src with
        time := advanceTime t.time (combine (t.trimDue src) ((t.slew.map Slew.count).bind Slew.correction)).1
        slew := ((t.slew.map Slew.count).map (·.settle (t.trimDue src))).filter (·.residual != 0)
        trimTaken := none, slewTaken := false },
      ((t.slew.map Slew.count).map (·.settle (t.trimDue src))).filter (·.residual == 0)) := by
  have hp : t.trimPart src = (t.withAcc (t.accNext src) src, t.trimDue src) := by unfold Tbu.trimPart; rw [ht]
  have hw : (t.withAcc (t.accNext src) src).slewPart = t.slew.map Slew.count := by
    unfold Tbu.slewPart
    cases src <;> simp [Tbu.withAcc, hs]
  unfold Tbu.advance
  rw [hp]
  simp only [hw]

/-- A tick that is ready and whole, below the maximum. -/
theorem State.tick_tbu {s : State} (hr : s.tickReady) (h : s.tbu.time ≠ Config.maxTime) :
    s.tick.tbu = (s.tbu.advance s.tickSource).1 := by
  rw [State.tick_at hr, State.tbuTick_moving _ _ h]

theorem State.tick_records {s : State} (hr : s.tickReady) (h : s.tbu.time ≠ Config.maxTime) :
    s.tick.mail.records = s.mail.records ++ (s.tbu.advance s.tickSource).2.toList.map fun w =>
      { producer := .tbu, quality := s.quality, time := s.tick.tbu.time, body := .slewDone w.origin w.initial w.spacing
        address := none, links := { turn := some s.mail.turns } } := by
  rw [State.tick_tbu hr h, State.tick_at hr, State.tbuTick_moving _ _ h]

theorem State.tick_toScu {s : State} (hr : s.tickReady) (h : s.tbu.time ≠ Config.maxTime) :
    s.tick.mail.toScu = [.advance s.mail.turns s.tick.tbu.time] := by
  have ⟨⟨⟨hscu, _⟩, _⟩, _⟩ := hr
  rw [State.tick_tbu hr h, State.tick_at hr, State.tbuTick_moving _ _ h]
  simp only [hscu, List.nil_append]

/-- The mark-free TBU held at the maximum stands (R8). -/
theorem State.tick_held {s : State} (hw : s.tickWhole) (hr : s.tickReady) (h : s.tbu.time = Config.maxTime) :
    s.tick.tbu = s.tbu ∧ s.tick.mail.toScu = [] ∧ s.tick.mail.records = s.mail.records := by
  obtain ⟨ht, hs, -⟩ := hw
  have ⟨⟨⟨hscu, _⟩, _⟩, _⟩ := hr
  rw [State.tick_at hr, State.tbuTick_held _ _ h]
  refine ⟨?_, hscu, rfl⟩
  show ({ s.tbu with trimTaken := none, slewTaken := false } : Tbu) = s.tbu
  rw [← ht, ← hs]

theorem Tbu.withAcc_refAcc (t : Tbu) (n : Nat) (src : Source) :
    (t.withAcc n src).refAcc = if src = .refclk then n else t.refAcc := by cases src <;> rfl

theorem Tbu.withAcc_intAcc (t : Tbu) (n : Nat) (src : Source) :
    (t.withAcc n src).intAcc = if src = .refclk then t.intAcc else n := by cases src <;> rfl

/-- Settles O5, by the cases of the maximum and of the source. -/
theorem tickAdvancesTime : Obligations.TickAdvancesTime := by
  intro s hok hwhole hr
  have ⟨ht, hs, _⟩ := hwhole
  refine ⟨s.tick, rfl, ?_⟩
  by_cases hm : s.tbu.time = Config.maxTime
  · obtain ⟨htbu, hscu, hrec⟩ := State.tick_held hwhole hr hm
    rw [htbu]
    exact ⟨rfl, rfl, rfl, ht, hs, fun hn => absurd hm hn, fun _ => ⟨rfl, hscu, hrec⟩⟩
  · obtain ⟨hset, href, hint, htaken, hstaken⟩ := Tbu.advance_keeps s.tbu s.tickSource
    have hsrc := State.tickSource_of_ready hr
    have htrim := s.trim_tickSource
    have hacc := s.acc_tickSource
    have hadv := Tbu.advance_of_whole ht hs s.tickSource
    rw [State.tick_toScu hr hm, State.tick_tbu hr hm]
    refine ⟨hset, href, hint, htaken, hstaken, fun _ => ⟨?_, fun h0 => ?_, fun h0 => ?_, rfl⟩, fun hn => absurd hn hm⟩
    · obtain ⟨htb, -⟩ := hok
      rw [hadv, s.trimCorrection_eq, State.slewCorrection_eq htb, ← combine_advance]
      unfold advanceTime
      rw [Nat.cast_min, Nat.cast_add]
    · rw [if_pos h0] at hsrc
      rw [hadv]
      show (s.tbu.withAcc _ _).intAcc = _ ∧ (s.tbu.withAcc _ _).refAcc = _
      rw [Tbu.withAcc_intAcc, Tbu.withAcc_refAcc, State.accNext_eq, ← hacc, ← htrim, hsrc]
      exact ⟨rfl, rfl⟩
    · rw [if_neg (by omega)] at hsrc
      rw [hadv]
      show (s.tbu.withAcc _ _).refAcc = _ ∧ (s.tbu.withAcc _ _).intAcc = _
      rw [Tbu.withAcc_intAcc, Tbu.withAcc_refAcc, State.accNext_eq, ← hacc, ← htrim, hsrc]
      exact ⟨rfl, rfl⟩

/-! ## The slew on a tick (R5 to R7) -/

/-- A slew after a tick: its correction is applied or cancelled, or stays deferred (R5, R6). -/
theorem Slew.settle_count {w : Slew} (h : w.residual ≠ 0) {trim : Option Sign} {applied : Bool}
    (ha : applied = true ↔ w.correctionDue ≠ 0 ∧ signInt trim ≠ w.correctionDue) :
    w.count.settle trim = { w with
      residual := if applied = true then w.residual - w.residual.sign else w.residual
      counter := if w.spacing ≤ w.counter + 1 then 0 else w.counter + 1
      deferred := decide (w.correctionDue ≠ 0) && !applied } := by
  have hc : (combine trim w.count.correction).2 = .consumed ↔ applied = true := by
    rw [combine_consumes, ha, Slew.correctionDue_eq h, Ne, Ne, Ne, Ne, signInt_eq_zero_iff, signInt_injective]
  have hdue : decide (w.correctionDue ≠ 0) = w.count.deferred := by
    rw [Slew.correctionDue_eq h]
    unfold Slew.correction
    cases w.count.deferred <;> simp [signInt_eq_zero_iff]
  unfold Slew.settle
  cases applied with
  | true =>
    rw [hc.2 rfl]
    simp only [Slew.consume, Slew.sign, Slew.count_residual, if_true, Bool.not_true, Bool.and_false]
    rw [sign_eq_signInt h, Slew.count_eq]
    rfl
  | false =>
    have hk : (combine trim w.count.correction).2 = .kept := by
      cases hf : (combine trim w.count.correction).2 with
      | consumed => exact absurd (hc.1 hf) nofun
      | kept => rfl
    rw [hk, hdue]
    simp only [Slew.count_eq, Bool.false_eq_true, if_false, Bool.not_false, Bool.and_true]

/-- Settles O6: with no slew nothing appears, and a slew settles by the table of R6 and ends at 0. -/
theorem tickMovesSlew : Obligations.TickMovesSlew := by
  intro s hok ⟨ht, hs, _⟩ hr hm
  obtain ⟨⟨-, -, -, -, -, hslew⟩, -⟩ := hok
  have hadv := Tbu.advance_of_whole ht hs s.tickSource
  refine ⟨s.tick, rfl, fun h => ?_, fun w hw applied residual ha hres => ?_⟩
  · rw [State.tick_records hr hm, State.tick_tbu hr hm, hadv, h]
    simp
  · obtain ⟨-, -, h0, -⟩ := hslew w hw
    rw [State.trimCorrection_eq] at ha
    rw [State.tick_records hr hm, State.tick_tbu hr hm, hadv, hw, Option.map_some, Option.map_some,
      Slew.settle_count h0 ha, ← hres]
    refine ⟨fun hn => ?_, fun hz => ?_⟩
    · simp [Option.filter, hn]
    · simp [Option.filter, hz]

/-! ## Pulses and sample phases (R90, R101) -/

/-- A line of which no part of the tick was taken ahead counts its pulse down (R90). -/
theorem TrigLine.tick_of_whole {l : TrigLine} (h : l.counted = false) : l.tick =
    if l.remaining = 0 then l
    else if l.remaining = 1 then { l with active := false, remaining := 0 }
    else { l with remaining := l.remaining - 1 } := by
  unfold TrigLine.tick
  rw [h]
  rfl

theorem Input.tick_eq (i : Input) :
    i.tick = { i with phase := if i.divider ≤ i.phase + 1 then 0 else i.phase + 1 } := by
  unfold Input.tick Input.sampleDue
  by_cases h : i.divider ≤ i.phase + 1 <;> simp [h]

/-- Settles O7: `State.tick_at` block by block. -/
theorem tickCountsPulsesAndSamples : Obligations.TickCountsPulsesAndSamples := by
  intro s ⟨_, _, hc⟩ hr
  have ⟨⟨⟨_, _, hecu⟩, _⟩, _⟩ := hr
  refine ⟨s.tick, rfl, fun n => ?_, fun n => ?_, ⟨(List.finRange 8).filter fun n => s.ecu.inputs[n].sampleDue, ?_, fun n => ?_, ?_⟩,
    fun h0 => ?_, fun h0 => ?_, ?_⟩
  · rw [State.tick_at hr, ← TrigLine.tick_of_whole (hc n)]
    simp
  · rw [State.tick_at hr, ← Input.tick_eq]
    simp
  · exact (List.pairwise_lt_finRange 8).filter _
  · simp [Input.sampleDue]
  · rw [State.tick_at hr, hecu, List.nil_append]
  · rw [State.tick_at hr, if_pos h0, if_pos h0]
    exact ⟨rfl, rfl⟩
  · rw [State.tick_at hr, if_neg (by omega), if_neg (by omega)]
    exact ⟨rfl, rfl⟩
  · rw [State.tick_at hr]

end Sys2Proof.Machine
end

section
/-! The parts of a tick that commands take ahead of it (O9). -/

namespace Sys2Proof.Machine

/-! ## A tick with nothing before it but an edge of its clock -/

/-- With no event of the supervision due, no window is settled. -/
theorem State.settleWindow_of_nothingDue {s : State} (h : s.rsv.nothingDue) : s.settleWindow = s := by
  obtain ⟨h1, -⟩ := h
  have hm : ¬ s.rsv.missingDue = true := fun h => by
    simp only [Rsv.missingDue, Bool.and_eq_true, decide_eq_true_eq] at h
    obtain ⟨he, hg⟩ := h
    exact absurd (h1 he).1 (Nat.not_lt.2 hg)
  have hc : ¬ s.rsv.closeDue = true := fun h => by
    simp only [Rsv.closeDue, Bool.and_eq_true, decide_eq_true_eq] at h
    obtain ⟨⟨he, hw⟩, hn⟩ := h
    have hw : 1000 ≤ s.rsv.cycles := hw
    have := (h1 he).2
    omega
  unfold State.settleWindow State.windowClose
  rw [if_neg hm, if_neg hc]

@[simp] theorem Rsv.countEdge_state (r : Rsv) : r.countEdge.state = r.state := by
  unfold Rsv.countEdge
  split <;> rfl

/-- A settled tick of REFCLK with no edge waiting brings its edge, which counts (R24, R29). -/
theorem State.tickEdge_of_settled {s : State} (h : s.tickSettled) : s.tickEdge =
    if s.mail.refTicks = 0 ∧ s.rsv.state = .locked then
      { s with rsv := s.rsv.countEdge, mail := { s.mail with refTicks := s.mail.refTicks + 1 } }
    else s := by
  obtain ⟨-, -, hn⟩ := h
  unfold State.tickEdge
  by_cases hr : 0 < s.mail.refTicks
  · rw [if_pos hr, if_neg fun hx => hr.ne' hx.1]
  · have h0 : s.mail.refTicks = 0 := Nat.eq_zero_of_not_pos hr
    rw [if_neg hr, State.settleDue_of_nothingDue (hn h0)]
    by_cases hl : s.rsv.state = .locked
    · have hs : s.source = .refclk := by rw [State.source_eq, if_pos hl]
      have hs2 : ({ s with rsv := s.rsv.countEdge } : State).source = .refclk := by
        rw [State.source_eq, if_pos (by rw [Rsv.countEdge_state]; exact hl)]
      rw [if_pos ⟨h0, hl⟩]
      simp only [hs]
      unfold State.refclkEdge
      simp only [State.settleWindow_of_nothingDue (hn h0), hs2]
    · have hs : s.source = .internal := by rw [State.source_eq, if_neg hl]
      rw [if_neg fun hx => hl hx.2]
      simp only [hs]

theorem State.tick_of_settled {s : State} (h : s.tickSettled) : s.tick = s.tickEdge.takeTick := by
  obtain ⟨h1, h2, -⟩ := h
  unfold State.tick
  rw [State.catchUp_of_taken h1, State.settleSessions_of_settled h2]

/-- Two states that differ in the TBU or the lines alone end alike if their ticks of the clock source do. -/
theorem State.tick_congr {s : State} {x : Tbu} {y : Tou} (h : s.tickSettled)
    (hx : ∀ (r : Rsv) (n : Nat), r.state = s.rsv.state →
      ({ s with tbu := x, tou := y, rsv := r, mail := { s.mail with refTicks := n } } : State).tickOf s.tickSource
        = ({ s with rsv := r, mail := { s.mail with refTicks := n } } : State).tickOf s.tickSource) :
    ({ s with tbu := x, tou := y } : State).tick = s.tick := by
  have ht : ({ s with tbu := x, tou := y } : State).tickSettled := h
  rw [State.tick_of_settled h, State.tick_of_settled ht, State.tickEdge_of_settled h, State.tickEdge_of_settled ht]
  by_cases he : s.mail.refTicks = 0 ∧ s.rsv.state = .locked
  · have hs : s.tickSource = .refclk := by
      unfold State.tickSource
      rw [if_neg (by omega), State.source_eq, if_pos he.2]
    rw [if_pos he, if_pos he]
    unfold State.takeTick
    rw [if_pos (Nat.succ_pos _), if_pos (Nat.succ_pos _)]
    rw [hs] at hx
    exact hx _ _ (Rsv.countEdge_state _)
  · rw [if_neg he, if_neg he]
    unfold State.takeTick
    by_cases hr : 0 < s.mail.refTicks
    · have hs : s.tickSource = .refclk := by
        unfold State.tickSource
        rw [if_pos hr]
      rw [if_pos hr, if_pos hr]
      rw [hs] at hx
      exact hx _ _ rfl
    · have hs : s.tickSource = .internal := by
        unfold State.tickSource
        rw [if_neg hr, State.source_eq, if_neg fun hl => he ⟨Nat.eq_zero_of_not_pos hr, hl⟩]
      rw [if_neg hr, if_neg hr]
      rw [hs] at hx
      exact congrArg State.countCycle (hx s.rsv s.mail.refTicks rfl)

/-- A TBU that advances alike makes the same tick. -/
theorem State.tick_congr_tbu {s : State} {x : Tbu} (h : s.tickSettled) (hm : s.tbu.time ≠ Config.maxTime)
    (ht : x.time = s.tbu.time) (hs : x.isSet = s.tbu.isSet)
    (ha : x.advance s.tickSource = s.tbu.advance s.tickSource) : ({ s with tbu := x } : State).tick = s.tick := by
  refine State.tick_congr (y := s.tou) h fun r n _ => ?_
  have hq : ({ s with tbu := x, rsv := r, mail := { s.mail with refTicks := n } } : State).quality
      = ({ s with rsv := r, mail := { s.mail with refTicks := n } } : State).quality := State.quality_congr hs rfl
  have hx : x.time ≠ Config.maxTime := ht ▸ hm
  rw [State.tickOf_eq, State.tickOf_eq, State.tbuTick_moving _ _ (by exact hx), State.tbuTick_moving _ _ (by exact hm)]
  simp only [ha, hq]

/-- The TBU's part of a tick does not see the lines. -/
theorem State.tbuTick_tou (s : State) (y : Tou) (src : Source) (turn : Nat) :
    ({ s with tou := y } : State).tbuTick src turn = { s.tbuTick src turn with tou := y } := by
  by_cases hm : s.tbu.time = Config.maxTime
  · rw [State.tbuTick_held _ _ hm, State.tbuTick_held (s := { s with tou := y }) _ _ hm]
  · rw [State.tbuTick_moving _ _ hm, State.tbuTick_moving (s := { s with tou := y }) _ _ hm]
    rfl

/-- Lines that count alike make the same tick. -/
theorem State.tick_congr_tou {s : State} {y : Tou} (h : s.tickSettled)
    (hy : y.lines.map TrigLine.tick = s.tou.lines.map TrigLine.tick) : ({ s with tou := y } : State).tick = s.tick := by
  refine State.tick_congr (x := s.tbu) h fun r n _ => ?_
  have hb := State.tbuTick_tou { s with rsv := r, mail := { s.mail with refTicks := n } } y s.tickSource s.mail.turns
  rw [State.tickOf_eq, State.tickOf_eq]
  simp only [hb, hy]

/-! ## The parts taken ahead (log 6) -/

/-- The trim part taken ahead stands for that of the tick (R4). -/
theorem Tbu.advance_of_trimTaken {t : Tbu} {src : Source} {g : Sign} (ht : t.trimTaken = none) (hg : t.trimDue src = some g) :
    ({ t.withAcc (t.accNext src) src with trimTaken := some g } : Tbu).advance src = t.advance src := by
  unfold Tbu.advance Tbu.trimPart
  rw [ht, hg]
  cases src <;> rfl

/-- The slew part taken ahead stands for that of the tick (R5). -/
theorem Tbu.advance_of_slewTaken {t : Tbu} {w : Slew} (src : Source) (hw : t.slew = some w) (hs : t.slewTaken = false) :
    ({ t with slew := some w.count, slewTaken := true } : Tbu).advance src = t.advance src := by
  unfold Tbu.advance Tbu.trimPart Tbu.slewPart
  cases ht : t.trimTaken <;> cases src <;>
    simp only [Tbu.withAcc, hs, hw, if_true, Bool.false_eq_true, if_false, Option.map_some] <;> rfl

/-- A pulse end taken ahead stands for the last count of the pulse (R90). -/
theorem TrigLine.tick_of_pulseEnd {l : TrigLine} (hc : l.counted = false) (h1 : l.remaining = 1) :
    ({ l with active := false, remaining := 0, counted := true } : TrigLine).tick = l.tick := by
  rw [TrigLine.tick_of_whole hc, h1]
  unfold TrigLine.tick
  simp [hc]

theorem State.withLine_map_tick {s : State} {n : Line} {f : TrigLine → TrigLine} (h : (f s.tou.lines[n]).tick = s.tou.lines[n].tick) :
    (s.withLine n f).tou.lines.map TrigLine.tick = s.tou.lines.map TrigLine.tick := by
  rw [State.withLine_tou]
  apply Vector.ext
  intro i hi
  rw [Vector.getElem_map, Vector.getElem_map, Vector.getElem_set]
  split
  next hn =>
    subst hn
    exact h
  · rfl

/-- A trim correction that is due, with its sign (R4). -/
theorem State.trimDue_of_ne {s : State} (h : s.trimCorrection ≠ 0) :
    s.tbu.trimDue s.tickSource = some (if 0 < s.selectedTrim then .plus else .minus) := by
  rw [State.trimCorrection_eq, Ne, signInt_eq_zero_iff] at h
  unfold Tbu.trimDue at h ⊢
  rw [State.trim_tickSource] at h ⊢
  split at h
  next hd => rw [if_pos hd]
  · exact absurd rfl h

/-- TRIM_CORRECTION_DUE in a state whose next tick makes a correction due (R4). -/
theorem State.trimCorrectionDue_of_due {s : State} (ht : s.tbu.trimTaken = none) (hm : s.tbu.time ≠ Config.maxTime) {g : Sign}
    (hg : s.tbu.trimDue s.tickSource = some g) : s.trimCorrectionDue =
      { s with tbu := { s.tbu.withAcc (s.tbu.accNext s.tickSource) s.tickSource with trimTaken := some g } } := by
  unfold State.trimCorrectionDue
  rw [if_neg (by rw [ht]; simpa using hm), hg]

/-- The accumulator of the tick's source, written back by source. -/
theorem State.withAcc_tickSource (s : State) (n : Nat) : s.tbu.withAcc n s.tickSource = { s.tbu with
    refAcc := if 0 < s.mail.refTicks ∨ s.rsv.state = .locked then n else s.tbu.refAcc
    intAcc := if 0 < s.mail.refTicks ∨ s.rsv.state = .locked then s.tbu.intAcc else n } := by
  unfold State.tickSource
  rw [State.source_eq]
  by_cases hr : 0 < s.mail.refTicks <;> by_cases hl : s.rsv.state = .locked <;> simp [hr, hl, Tbu.withAcc]

/-- Settles O9: each part taken ahead makes the tick that the whole one would have made. -/
theorem tickPartsMakeOneTick : Obligations.TickPartsMakeOneTick := by
  refine ⟨fun s _ ht hm hc => ?_, fun s w hw hs hm hp => ?_, fun s n hscu hops hcn h1 => ?_⟩
  · have hg := State.trimDue_of_ne hc
    have e := State.trimCorrectionDue_of_due ht hm hg
    refine ⟨s.trimCorrectionDue, rfl, ?_, fun h => congrArg Host.Outcome.next ?_⟩
    · rw [e, State.withAcc_tickSource, State.accNext_eq, if_neg hc]
      unfold State.selectedAcc State.selectedTrim
      by_cases hsrc : 0 < s.mail.refTicks ∨ s.rsv.state = .locked <;> simp only [hsrc, if_true, if_false]
    · rw [e]
      refine State.tick_congr_tbu h hm ?_ ?_ (Tbu.advance_of_trimTaken ht hg) <;> cases s.tickSource <;> rfl
  · have hcount : w.count = { w with counter := 0, deferred := true } := by
      rw [Slew.count_eq]
      simp [hp]
    have e : s.slewCorrectionDue = { s with tbu := { s.tbu with slew := some w.count, slewTaken := true } } := by
      unfold State.slewCorrectionDue
      rw [hw]
      simp [hm, hs, Slew.reachesSpacing, hp]
    refine ⟨s.slewCorrectionDue, rfl, by rw [e, hcount], fun h => congrArg Host.Outcome.next ?_⟩
    rw [e]
    exact State.tick_congr_tbu h hm rfl rfl (Tbu.advance_of_slewTaken _ hw hs)
  · have e : s.pulseEnd n = s.withLine n fun l => { l with active := false, remaining := 0, counted := true } := by
      have hl : s.tou.lines[n].pulseEnd = { s.tou.lines[n] with active := false, remaining := 0, counted := true } := by
        unfold TrigLine.pulseEnd
        rw [if_pos ⟨by rw [hcn]; rfl, h1⟩]
      unfold State.pulseEnd State.withLine
      rw [hscu, hops, hl]
      rfl
    have hl : (s.withLine n fun l => { l with active := false, remaining := 0, counted := true }).tou.lines.map TrigLine.tick
        = s.tou.lines.map TrigLine.tick := State.withLine_map_tick (TrigLine.tick_of_pulseEnd hcn h1)
    refine ⟨s.pulseEnd n, rfl, e, fun h => congrArg Host.Outcome.next ?_⟩
    rw [e]
    exact State.tick_congr_tou h hl

end Sys2Proof.Machine
end

section
/-! The checks that gated requests share, and the fields out of range (O53, O54). -/

namespace Sys2Proof.Machine

/-! ## Refused requests -/

/-- A request whose service refuses it is answered with the refusal, and nothing but its slot changes (R167). -/
theorem State.serve_of_refused {s : State} {p : Port} {g : Byte} {d : Bool} {c : Code} {l : List Byte} {f : List Byte → Reply}
    {r : Result} (h : s.asks p g d c l) (hf : f l = s.refuse r) : s.serve p c f = s.answered p g d r [] := by
  rw [State.serve_of_asks h (by rw [hf]; rfl), hf]
  rfl

theorem State.serveSau_of_refused {s : State} {p : Port} {g : Byte} {d : Bool} {c : Code} {l : List Byte} {f : List Byte → Reply}
    {r : Result} (he : s.sau.ending = none) (h : s.asks p g d c l) (hf : f l = s.refuse r) :
    s.serveSau p c f = s.answered p g d r [] := by
  rw [State.serveSau_of_idle he, State.serve_of_refused h hf]

theorem State.serveSau_of_no_request {s : State} {p : Port} {c : Code} {f : List Byte → Reply} (h : s.request? p c = none) :
    s.serveSau p c f = s := by
  unfold State.serveSau
  split
  · rfl
  · exact State.serve_of_no_request h

/-- A holder's request with operands out of range is answered RANGE (R166). -/
theorem State.ifHolder_of_range {α : Type} {s : State} {p : Port} {o : Option α} {k : α → Reply}
    (ha : s.sau.sessions[p].attached = true) (hh : s.sau.holder = some p) (ho : o = none) :
    s.ifHolder p (s.ifInRange o k) = s.refuse .range := by
  rw [State.ifHolder_of_holder ha hh, ho, State.ifInRange_none]

/-! ## Attachment and authority (R137, R148) -/

/-- A request that is not there for its block changes nothing, whatever its CODE (log 2). -/
theorem exec_of_no_request {s : State} {p : Port} {c : Code} (h : s.request? p c = none) : exec (c.command p) s = .next s := by
  have sau {f : List Byte → Reply} : Host.Outcome.next (φ := Fault) (ρ := Refusal) (s.serveSau p c f) = .next s :=
    congrArg _ (State.serveSau_of_no_request h)
  cases c
  case attach | getStatus | claim | release | take => exact sau
  case detach => exact congrArg Host.Outcome.next (if_pos (.inr h))
  case subscribe =>
    refine congrArg Host.Outcome.next ?_
    split
    · rfl
    · exact State.serve_of_no_request h
  all_goals exact congrArg Host.Outcome.next (State.serve_of_no_request h)

/-- DETACH of a detached port (R137). -/
theorem State.detach_of_detached {s : State} {p : Port} {g : Byte} {d : Bool} {l : List Byte}
    (h : s.asks p g d .detach l) (ha : s.sau.sessions[p].attached = false) :
    s.detach p = s.answered p g d .notAttached [] := by
  obtain ⟨hs, -⟩ := h
  unfold State.detach State.attached
  rw [if_neg (by rw [ha]; nofun)]
  simp only [State.withHpu, State.answered, Hpu.answer, hs]

theorem State.installWaits_of_none {s : State} {p : Port} (h : ∀ i ∈ s.mail.installs, i.port ≠ p) : s.installWaits p = false := by
  unfold State.installWaits
  rw [List.any_eq_false]
  exact fun i hi hp => h i hi (beq_iff_eq.1 hp)

/-- Every request but READ_TIME, GET_STATUS and ATTACH asks for attachment first (R137). -/
theorem exec_of_detached {s : State} {p : Port} {g : Byte} {d : Bool} {c : Code} {l : List Byte} (h : s.asks p g d c l)
    (he : s.sau.ending = none) (hi : ∀ i ∈ s.mail.installs, i.port ≠ p) (ha : s.sau.sessions[p].attached = false)
    (h1 : c ≠ .readTime) (h2 : c ≠ .getStatus) (h3 : c ≠ .attach) :
    exec (c.command p) s = .next (s.answered p g d .notAttached []) := by
  cases c
  case readTime | getStatus | attach => contradiction
  case claim | release | take =>
    exact congrArg Host.Outcome.next (State.serveSau_of_refused he h (State.ifAttached_of_detached ha))
  case detach =>
    refine congrArg Host.Outcome.next ?_
    rw [if_neg (by rw [he, State.request?_of_asks h]; simp), State.detach_of_detached h ha]
  case subscribe =>
    refine congrArg Host.Outcome.next ?_
    rw [State.installWaits_of_none hi]
    exact State.serve_of_refused h (State.ifAttached_of_detached ha)
  all_goals exact congrArg Host.Outcome.next (State.serve_of_refused h (State.ifAttached_of_detached ha))

/-- Settles O53: a held request is not there for its block, and the checks come before the fields. -/
theorem attachmentAndAuthorityChecked : Obligations.AttachmentAndAuthorityChecked := by
  refine ⟨fun s p tag d c payload _ hw => exec_of_no_request (State.request?_of_held c hw),
    fun s p tag d c payload h he hi => ⟨exec_of_detached h he hi, fun ha hh hc => ?_⟩⟩
  have gated {f : List Byte → Reply} {k : Reply} (hf : f payload = s.ifHolder p k) :
      Host.Outcome.next (φ := Fault) (ρ := Refusal) (s.serve p c f) = .next (s.answered p tag d .notAuthority []) :=
    congrArg _ (State.serve_of_refused h (hf.trans (State.ifHolder_of_not_holder ha hh)))
  rcases hc with rfl | rfl | rfl | rfl | rfl | rfl | rfl | rfl | rfl | rfl | rfl <;> exact gated rfl

/-! ## Operands out of range (R166) -/

theorem addOffset_eq_none {t : Time} {offset : Int} (h : (t : Int) + offset < 0 ∨ (Config.maxTime : Int) < (t : Int) + offset) :
    addOffset t offset = none := if_neg (by omega)

theorem le_of_boolOf {n : Nat} {b : Bool} (h : boolOf n = some b) : n ≤ 1 := by
  by_contra hn
  rw [boolOf_eq_none.2 (Nat.lt_of_not_le hn)] at h
  cases h

theorem slewOperands_eq_none {l : List Byte}
    (h : 10000000 < (fieldInt l 0 4).natAbs ∨ fieldNat l 4 2 < 100 ∨ 10000 < fieldNat l 4 2) : slewOperands l = none := by
  simp only [slewOperands, Option.bind_eq_bind, Option.bind_eq_none_iff, inMagnitude_eq_some, inRange_eq_some]
  rintro _ ⟨ho, -⟩ _ ⟨hs, -⟩
  have ho : (fieldInt l 0 4).natAbs ≤ 10000000 := ho
  omega

theorem trimOperands_eq_none {l : List Byte} (h : 1 < fieldNat l 0 1 ∨ 200000 < (fieldInt l 1 4).natAbs) :
    trimOperands l = none := by
  simp only [trimOperands, Option.bind_eq_bind, Option.bind_eq_none_iff, inMagnitude_eq_some]
  rintro _ hb _ ⟨ht, -⟩
  have ht : (fieldInt l 1 4).natAbs ≤ 200000 := ht
  have := le_of_boolOf hb
  omega

theorem refOperands_eq_none {l : List Byte} (h : 1 < fieldNat l 0 1 ∨ fieldNat l 1 1 < 5 ∨ 50 < fieldNat l 1 1
    ∨ fieldNat l 2 1 = 0 ∨ fieldNat l 3 2 = 0) : refOperands l = none := by
  simp only [refOperands, Option.bind_eq_bind, Option.bind_eq_none_iff, inRange_eq_some]
  rintro _ hb _ ⟨ht, -⟩ _ ⟨hq, -⟩ _ ⟨hl, -⟩
  have := le_of_boolOf hb
  omega

theorem ppsOperands_eq_none {l : List Byte} (h : 1 < fieldNat l 0 1 ∨ 1 < fieldNat l 1 1
    ∨ fieldNat l 0 1 = 0 ∧ fieldNat l 1 1 = 1 ∨ fieldNat l 2 4 = 0 ∨ 5000000 < fieldNat l 2 4 ∨ fieldNat l 6 2 < 100
    ∨ 10000 < fieldNat l 6 2) : ppsOperands l = none := by
  simp only [ppsOperands, Option.bind_eq_bind, Option.bind_eq_none_iff, inRange_eq_some]
  rintro role hr discipline hd _ ⟨hw, -⟩ _ ⟨hs, -⟩
  have := le_of_boolOf hr
  have := le_of_boolOf hd
  obtain ⟨h0, h1⟩ : fieldNat l 0 1 = 0 ∧ fieldNat l 1 1 = 1 := by omega
  rw [h0] at hr
  rw [h1] at hd
  cases hr
  cases hd
  rfl

theorem quotaOperands_eq_none {l : List Byte} (h : 3 < fieldNat l 0 1 ∨ fieldNat l 1 1 = 0 ∨ 64 < fieldNat l 1 1) :
    quotaOperands l = none := by
  rcases h with h | h
  · simp [quotaOperands, portOf_eq_none.2 h]
  · simp [quotaOperands, inRange_eq_none.2 (by omega : fieldNat l 1 1 < 1 ∨ 64 < fieldNat l 1 1)]

theorem bindOperands_eq_none {l : List Byte} (h : 7 < fieldNat l 0 1 ∨ 3 < fieldNat l 1 1 ∧ fieldNat l 1 1 ≠ 128) :
    bindOperands l = none := by
  rcases h with h | h
  · simp [bindOperands, lineOf_eq_none.2 h]
  · simp [bindOperands, bindingOf_eq_none.2 h]

theorem lineConfigOperands_eq_none {l : List Byte} (h : 7 < fieldNat l 0 1 ∨ 1 < fieldNat l 1 1 ∨ fieldNat l 2 2 = 0) :
    lineConfigOperands l = none := by
  rcases h with h | h | h
  · simp [lineConfigOperands, lineOf_eq_none.2 h]
  · simp [lineConfigOperands, levelOf_eq_none.2 h]
  · simp [lineConfigOperands, inRange_eq_none.2 (by omega : fieldNat l 2 2 < 1 ∨ 65535 < fieldNat l 2 2)]

theorem inputOperands_eq_none {l : List Byte} (h : 7 < fieldNat l 0 1 ∨ 3 < fieldNat l 1 1
    ∨ fieldNat l 2 1 ≠ 1 ∧ fieldNat l 2 1 ≠ 4 ∧ fieldNat l 2 1 ≠ 16 ∧ fieldNat l 2 1 ≠ 64
    ∨ fieldNat l 3 1 = 0 ∨ 15 < fieldNat l 3 1) : inputOperands l = none := by
  rcases h with h | h | h | h
  · simp [inputOperands, lineOf_eq_none.2 h]
  · simp [inputOperands, EdgeSelect.ofCode_eq_none.2 h]
  · simp [inputOperands, dividerOf_eq_none.2 h]
  · simp [inputOperands, inRange_eq_none.2 (by omega : fieldNat l 3 1 < 1 ∨ 15 < fieldNat l 3 1)]

/-- Settles O54: each gated request refuses by its operands alone. -/
theorem holderRangesChecked : Obligations.HolderRangesChecked := by
  intro s p tag d c payload byte word long hq _ ha hh hb hw hl
  obtain rfl : byte = fun k => fieldNat payload k 1 := funext hb
  obtain rfl : word = fun k => fieldNat payload k 2 := funext hw
  obtain rfl : long = fun k => fieldNat payload k 4 := funext hl
  have refused {f : List Byte → Reply} {r : Result} (hf : f payload = s.refuse r) :
      Host.Outcome.next (φ := Fault) (ρ := Refusal) (s.serve p c f) = .next (s.answered p tag d r []) :=
    congrArg _ (State.serve_of_refused hq hf)
  refine ⟨?_, ?_⟩
  · rintro (⟨rfl, h⟩ | ⟨rfl, hs, h⟩ | ⟨rfl, h⟩ | ⟨rfl, h⟩ | ⟨rfl, h⟩ | ⟨rfl, h⟩ | ⟨rfl, h⟩ | ⟨rfl, h⟩ | ⟨rfl, h⟩ | ⟨rfl, h⟩
      | ⟨rfl, h⟩)
    · exact refused (State.ifHolder_of_range ha hh (fieldTime_eq_none.2 h))
    · refine refused ?_
      unfold State.stepTime
      rw [State.ifHolder_of_holder ha hh, if_pos hs, addOffset_eq_none h, State.ifInRange_none]
    · exact refused (State.ifHolder_of_range ha hh (slewOperands_eq_none h))
    · exact refused (State.ifHolder_of_range ha hh (trimOperands_eq_none h))
    · exact refused (State.ifHolder_of_range ha hh (refOperands_eq_none h))
    · exact refused (State.ifHolder_of_range ha hh (ppsOperands_eq_none h))
    · exact refused (State.ifHolder_of_range ha hh (quotaOperands_eq_none h))
    · exact refused (State.ifHolder_of_range ha hh (bindOperands_eq_none h))
    · exact refused (State.ifHolder_of_range ha hh (lineConfigOperands_eq_none h))
    · exact refused (State.ifHolder_of_range ha hh (inputOperands_eq_none h))
    · exact refused (State.ifHolder_of_range ha hh (FullPolicy.ofCode_eq_none.2 h))
  · rintro ⟨rfl, hs⟩
    refine refused ?_
    unfold State.stepTime
    rw [State.ifHolder_of_holder ha hh, if_neg (by rw [hs]; nofun)]

end Sys2Proof.Machine
end

section
/-! The requests that replace a configuration (O32). -/

namespace Sys2Proof.Machine

/-! ## Payloads read back field by field (R165, R166) -/

theorem fieldNat_cons_zero (b : Byte) (l : List Byte) : fieldNat (b :: l) 0 1 = b.toNat := by
  simp [fieldNat, field, beNat]

theorem fieldNat_cons_succ (b : Byte) (l : List Byte) (k width : Nat) : fieldNat (b :: l) (k + 1) width = fieldNat l k width := rfl

theorem fieldInt_cons_succ (b : Byte) (l : List Byte) (k width : Nat) : fieldInt (b :: l) (k + 1) width = fieldInt l k width := rfl

theorem toNat_ofNat_of_lt {n : Nat} (h : n < 256) : (BitVec.ofNat 8 n).toNat = n := by
  rw [BitVec.toNat_ofNat, Nat.mod_eq_of_lt h]

theorem lineOf_val (n : Line) : lineOf n.val = some n := dif_pos n.isLt

theorem portOf_val (p : Port) : portOf p.val = some p := dif_pos p.isLt

theorem line_byte (n : Line) : (BitVec.ofNat 8 n.val).toNat = n.val := toNat_ofNat_of_lt (by omega)

theorem port_byte (p : Port) : (BitVec.ofNat 8 p.val).toNat = p.val := toNat_ofNat_of_lt (by omega)

/-- An ON byte, as requests carry it, decodes to its flag. -/
theorem boolOf_flag (b : Bool) : boolOf (if b = true then 1#8 else 0#8).toNat = some b := by cases b <;> rfl

theorem trimOperands_of {b : Byte} {src : Source} {v : Int} (hb : b = (match src with | .internal => 0 | .refclk => 1))
    (h1 : -200000 ≤ v) (h2 : v ≤ 200000) : trimOperands ([b] ++ beSigned v 4) = some (src, v) := by
  have h0 : fieldNat ([b] ++ beSigned v 4) 0 1 = b.toNat := fieldNat_cons_zero ..
  have hv : fieldInt ([b] ++ beSigned v 4) 1 4 = v :=
    (fieldInt_cons_succ ..).trans (fieldInt_beSigned (by omega) (by omega))
  unfold trimOperands
  rw [h0, hv, inMagnitude_of (by unfold Config.maxTrim; omega), hb]
  cases src <;> rfl

theorem ppsOperands_of {c : PpsConfig} (h : c.Ok) :
    ppsOperands ([if c.role = true then 1 else 0, if c.discipline = true then 1 else 0] ++ beBytes c.window 4
      ++ beBytes c.spacing 2) = some c := by
  obtain ⟨hw1, hw2, hs1, hs2, hd⟩ := h
  generalize hl : [if c.role = true then (1 : Byte) else 0, if c.discipline = true then 1 else 0] ++ beBytes c.window 4
      ++ beBytes c.spacing 2 = l
  have h0 : fieldNat l 0 1 = (if c.role = true then 1#8 else 0#8).toNat := hl ▸ fieldNat_cons_zero ..
  have h1 : fieldNat l 1 1 = (if c.discipline = true then 1#8 else 0#8).toNat := hl ▸ fieldNat_cons_zero ..
  have h2 : fieldNat l 2 4 = c.window := by
    rw [← hl, List.append_assoc, fieldNat_append_at (k := 2) (offset := 0) rfl, fieldNat_append_within (by simp)]
    exact fieldNat_beBytes (by omega)
  have h6 : fieldNat l 6 2 = c.spacing := by
    rw [← hl, fieldNat_append_at (k := 6) (offset := 0) (by simp)]
    exact fieldNat_beBytes (by omega)
  unfold ppsOperands
  rw [h0, h1, h2, h6, boolOf_flag, boolOf_flag, inRange_of hw1 hw2, inRange_of hs1 hs2]
  have hd' : (c.discipline && !c.role) = false := by
    cases hc : c.discipline with
    | false => rfl
    | true => rw [hd hc]; rfl
  simp only [Option.bind_eq_bind, Option.bind_some, hd']
  rfl

theorem quotaOperands_of {q : Port} {quota : Nat} (h1 : 1 ≤ quota) (h2 : quota ≤ 64) :
    quotaOperands [BitVec.ofNat 8 q.val, BitVec.ofNat 8 quota] = some (q, quota) := by
  unfold quotaOperands
  rw [fieldNat_cons_zero, fieldNat_cons_succ _ _ 0, fieldNat_cons_zero, port_byte, portOf_val,
    toNat_ofNat_of_lt (by omega), inRange_of h1 h2]
  rfl

theorem lineConfigOperands_of {n : Line} {idle : Level} {width : Nat} {b : Byte}
    (hb : b = (match idle with | .low => 0 | .high => 1)) (h1 : 1 ≤ width) (h2 : width ≤ 65535) :
    lineConfigOperands ([BitVec.ofNat 8 n.val, b] ++ beBytes width 2) = some (n, idle, width) := by
  have hw : fieldNat ([BitVec.ofNat 8 n.val, b] ++ beBytes width 2) 2 2 = width := by
    rw [fieldNat_append_at (k := 2) (offset := 0) rfl]
    exact fieldNat_beBytes (by omega)
  have hi : fieldNat ([BitVec.ofNat 8 n.val, b] ++ beBytes width 2) 1 1 = b.toNat := fieldNat_cons_zero ..
  have hn : fieldNat ([BitVec.ofNat 8 n.val, b] ++ beBytes width 2) 0 1 = n.val := (fieldNat_cons_zero ..).trans (line_byte n)
  unfold lineConfigOperands
  rw [hn, hi, hw, lineOf_val, inRange_of h1 h2, hb]
  cases idle <;> rfl

theorem inputOperands_of {n : Line} {select : EdgeSelect} {divider qualify dead : Nat} {b : Byte}
    (hb : b = (match select with | .off => 0 | .rise => 1 | .fall => 2 | .both => 3))
    (hd : divider = 1 ∨ divider = 4 ∨ divider = 16 ∨ divider = 64) (h1 : 1 ≤ qualify) (h2 : qualify ≤ 15)
    (h3 : dead ≤ 65535) :
    inputOperands ([BitVec.ofNat 8 n.val, b, BitVec.ofNat 8 divider, BitVec.ofNat 8 qualify] ++ beBytes dead 2)
      = some (n, { select, divider, qualify, dead }) := by
  generalize hl : [BitVec.ofNat 8 n.val, b, BitVec.ofNat 8 divider, BitVec.ofNat 8 qualify] ++ beBytes dead 2 = l
  have f0 : fieldNat l 0 1 = n.val := hl ▸ (fieldNat_cons_zero ..).trans (line_byte n)
  have f1 : fieldNat l 1 1 = b.toNat := hl ▸ fieldNat_cons_zero ..
  have f2 : fieldNat l 2 1 = divider := hl ▸ (fieldNat_cons_zero ..).trans (toNat_ofNat_of_lt (by omega))
  have f3 : fieldNat l 3 1 = qualify := hl ▸ (fieldNat_cons_zero ..).trans (toNat_ofNat_of_lt (by omega))
  have f4 : fieldNat l 4 2 = dead := by
    rw [← hl, fieldNat_append_at (k := 4) (offset := 0) rfl]
    exact fieldNat_beBytes (by omega)
  have hs : EdgeSelect.ofCode b.toNat = some select := by rw [hb]; cases select <;> rfl
  have hdiv : dividerOf divider = some divider := by rcases hd with rfl | rfl | rfl | rfl <;> rfl
  unfold inputOperands
  rw [f0, f1, f2, f3, f4, lineOf_val, hs, hdiv, inRange_of h1 h2]
  rfl

/-! ## Accepted requests of the holder -/

/-- A holder's request with operands in range is answered by its service on them, which leaves the slots. -/
theorem State.serve_of_accepted {α : Type} {s : State} {p : Port} {g : Byte} {d : Bool} {c : Code} {l : List Byte}
    {f : List Byte → Reply} {o : Option α} {k : α → Reply} {a : α} (ha : s.sau.sessions[p].attached = true)
    (hh : s.sau.holder = some p) (h : s.asks p g d c l) (hf : f l = s.ifHolder p (s.ifInRange o k)) (ho : o = some a)
    (hk : (k a).state.hpu = s.hpu) : s.serve p c f = (k a).state.answered p g d (k a).result (k a).payload := by
  rw [State.ifHolder_of_holder ha hh, ho, State.ifInRange_some] at hf
  rw [State.serve_of_asks h (by rw [hf]; exact hk), hf]

/-- What becomes of the samples that wait when an INPUT_CONFIG with a divider is taken, and the phase it sets (R112, log 13). -/
theorem inputConfig_withdrawn {l : List EcuHandover} {n : Line} {divider : Nat} {w : Bool}
    (hw : w = (divider != 1 && l.any (EcuHandover.samples n))) :
    (divider = 1 ∨ (∀ k t, .sample k n t ∉ l) → (if w then l.filter fun h => !h.samples n else l) = l ∧ (if w then 1 else 0) = 0)
      ∧ (divider ≠ 1 → (∃ k t, .sample k n t ∈ l) → (if w then 1 else 0) = 1
        ∧ (if w then l.filter fun h => !h.samples n else l) = l.filter fun h => match h with
          | .sample _ m _ => m != n
          | .step _ _ _ => true) := by
  have hany : l.any (EcuHandover.samples n) = true ↔ ∃ k t, .sample k n t ∈ l := by
    rw [List.any_eq_true]
    constructor
    · rintro ⟨_ | _, hm, hs⟩
      · obtain rfl := beq_iff_eq.1 hs
        exact ⟨_, _, hm⟩
      · cases hs
    · rintro ⟨k, t, hm⟩
      exact ⟨_, hm, beq_iff_eq.2 rfl⟩
  refine ⟨fun h => ?_, fun h1 h2 => ?_⟩
  · have : w = false := by
      rw [hw]
      rcases h with rfl | h
      · rfl
      · rw [Bool.and_eq_false_iff]
        exact .inr (Bool.eq_false_iff.2 fun ha => by
          obtain ⟨k, t, hm⟩ := hany.1 ha
          exact h k t hm)
    rw [this]
    exact ⟨rfl, rfl⟩
  · have : w = true := by
      rw [hw, hany.2 h2, Bool.and_true, bne_iff_ne]
      exact h1
    rw [this]
    refine ⟨rfl, List.filter_congr fun h _ => ?_⟩
    cases h <;> rfl

/-- Settles O32: the operands read back, and each request's effect on them. -/
theorem configurationReplaced : Obligations.ConfigurationReplaced := by
  intro s p tag d ha hh
  refine ⟨fun trim h1 h2 => ⟨fun h => ?_, fun h => ?_⟩, fun c hc h => ?_, fun q quota h1 h2 h => ?_,
    fun n idle width h1 h2 h => ?_, fun n select divider qualify dead hd h1 h2 h3 h => ?_, fun policy h => ?_⟩
  · have e := State.serve_of_accepted (f := s.setTrim p) ha hh h rfl (trimOperands_of (src := .refclk) rfl h1 h2) rfl
    exact congrArg Host.Outcome.next e
  · have e := State.serve_of_accepted (f := s.setTrim p) ha hh h rfl (trimOperands_of (src := .internal) rfl h1 h2) rfl
    exact congrArg Host.Outcome.next e
  · have e := State.serve_of_accepted (f := s.ppsConfig p) ha hh h rfl (ppsOperands_of hc) rfl
    exact congrArg Host.Outcome.next e
  · have e := State.serve_of_accepted (f := s.setQuota p) ha hh h rfl (quotaOperands_of h1 h2) rfl
    exact congrArg Host.Outcome.next e
  · have e := State.serve_of_accepted (f := s.lineConfig p) ha hh h rfl
      (lineConfigOperands_of (idle := idle) (by cases idle <;> rfl) h1 h2) rfl
    refine (congrArg Host.Outcome.next e).trans ?_
    dsimp only
    cases s.tou.lines[n].idle <;> rfl
  · obtain ⟨hc1, hc2⟩ := inputConfig_withdrawn (l := s.mail.toEcu) (n := n) (divider := divider) rfl
    have e := State.serve_of_accepted (f := s.inputConfig p) ha hh h rfl
      (inputOperands_of (select := select) (by cases select <;> rfl) hd h1 h2 h3) rfl
    refine ⟨_, _, hc1, hc2, (congrArg Host.Outcome.next e).trans ?_⟩
    dsimp only
    cases s.ecu.inputs[n].select <;> rfl
  · have e := State.serve_of_accepted (f := s.logPolicy p) (a := policy) ha hh h rfl (by cases policy <;> rfl) rfl
    refine (congrArg Host.Outcome.next e).trans ?_
    dsimp only
    cases s.elu.policy <;> rfl

end Sys2Proof.Machine
end

section
/-! The assertion of RST# (O4). -/

namespace Sys2Proof.Machine

/-! ## With no step on its way -/

/-- The completion of a session end at RST# touches the records alone (R164, log 17). -/
theorem State.closeEnding_frame (s : State) :
    s.closeEnding = { s with mail := { s.mail with records := s.closeEnding.mail.records } } := by
  cases he : s.sau.ending with
  | none =>
    have e : s.closeEnding = s := by unfold State.closeEnding; rw [he]
    rw [e]
  | some e => rw [State.closeEnding_of_ending he, State.postAll_eq]

theorem EcuHandover.isStep_iff (h : EcuHandover) : h.isStep = true ↔ ∃ k x y, h = .step k x y := by
  cases h <;> simp [EcuHandover.isStep]

/-- The device reset block by block, when the ECU has no step to take first (R23, R42, R65, R99, R115, R135, R152, R164). -/
theorem State.resetAssert_of_no_step {s : State} (hr : s.rst = false) (hn : s.mail.toEcu.any EcuHandover.isStep = false) :
    s.resetAssert = { s with
      rst := true
      tbu := { s.tbu with slew := none, slewTaken := false }
      scu := s.scu.resetTable
      tou := { lines := s.tou.lines.map fun l => { TrigLine.initial with counted := l.counted } }
      ecu := Ecu.initial
      elu := { Elu.initial with nextSeq := s.elu.nextSeq }
      sau := { Sau.initial with senior := s.sau.senior }
      hpu := Vector.replicate 4 Hpu.initial
      mail := { s.mail with ops := [], installs := [], reports := [], records := s.closeEnding.mail.records } } := by
  unfold State.resetAssert Mail.afterReset
  rw [if_neg (by rw [hr]; nofun), State.stepsBeforeReset_of_no_step hn]
  conv_lhs => rw [s.closeEnding_frame]

theorem Scu.resetTable_entry (c : Scu) (i : Index) :
    c.resetTable.entries[i] = if c.entries[i].state = .free then c.entries[i] else c.entries[i].freed := by
  simp only [Scu.resetTable, Fin.getElem_fin, Vector.getElem_map, beq_iff_eq]

/-! ## With a step on its way (R115) -/

/-- The ECU judges a sample without touching RST# and what waits for it. -/
theorem State.judgeSample_frame (s : State) (n : Line) (level : Level) (turn : Nat) (t : Time) :
    (s.judgeSample n level turn t).rst = s.rst ∧ (s.judgeSample n level turn t).mail.toEcu = s.mail.toEcu := by
  unfold State.judgeSample
  dsimp only
  split
  · exact ⟨rfl, rfl⟩
  · split
    · exact ⟨rfl, rfl⟩
    · split
      · rw [State.capture_eq]
        split <;> exact ⟨rfl, rfl⟩
      · exact ⟨rfl, rfl⟩

/-- The hand-over that the ECU takes at RST# leaves the list, and RST# stands. -/
theorem State.ecuTakeAtReset_frame {s : State} {h : EcuHandover} {rest : List EcuHandover} (hm : s.mail.toEcu = h :: rest) :
    (s.ecuTakeAtReset h).rst = s.rst ∧ (s.ecuTakeAtReset h).mail.toEcu = rest := by
  cases h with
  | sample k n t =>
    have ht : takeSample n s.mail.toEcu = some (k, t, rest) := by rw [hm]; exact if_pos rfl
    show (s.inputSample n s.pins[n]).rst = _ ∧ (s.inputSample n s.pins[n]).mail.toEcu = _
    unfold State.inputSample
    rw [ht]
    exact State.judgeSample_frame ..
  | step k x y =>
    show s.ecuStep.rst = _ ∧ s.ecuStep.mail.toEcu = _
    rw [State.ecuStep_of_step hm]
    exact ⟨rfl, rfl⟩

/-- With a step on its way, the ECU takes its oldest hand-over first and the rest after it (R109, R115). -/
theorem State.stepsBeforeReset_cons {s : State} {h : EcuHandover} {rest : List EcuHandover} (hm : s.mail.toEcu = h :: rest)
    (hs : s.mail.toEcu.any EcuHandover.isStep = true) : s.stepsBeforeReset = (s.ecuTakeAtReset h).stepsBeforeReset := by
  obtain ⟨-, hr⟩ := State.ecuTakeAtReset_frame hm
  unfold State.stepsBeforeReset
  rw [hr, hm, List.foldl_cons, if_pos hs]

/-- The reset after the ECU has taken its oldest hand-over is the reset before. -/
theorem State.resetAssert_cons {s : State} {h : EcuHandover} {rest : List EcuHandover} (hx : s.rst = false)
    (hm : s.mail.toEcu = h :: rest) (hs : s.mail.toEcu.any EcuHandover.isStep = true) :
    s.resetAssert = (s.ecuTakeAtReset h).resetAssert := by
  obtain ⟨hr, -⟩ := State.ecuTakeAtReset_frame hm
  unfold State.resetAssert
  rw [State.stepsBeforeReset_cons hm hs, hr, hx]
  rfl

/-- A step is taken at RST# as ECU_STEP_HANDOVER takes it where nothing waits for the SCU (R115, log 17). -/
theorem State.ecuStepHandover_of_no_scu {s : State} {k : Nat} {x y : Time} {rest : List EcuHandover}
    (hm : s.mail.toEcu = .step k x y :: rest) :
    ({ s with mail := { s.mail with toScu := [] } } : State).ecuStepHandover
      = { s.ecuStep with mail := { s.ecuStep.mail with toScu := [] } } := by
  have hm' : ({ s with mail := { s.mail with toScu := [] } } : State).mail.toEcu = .step k x y :: rest := hm
  unfold State.ecuStepHandover
  rw [hm', State.ecuStep_of_step hm]
  exact (if_pos rfl).trans (State.ecuStep_of_step hm')

/-- A step taken with every entry FREE gives the SCU its time and treats nothing (R87). -/
theorem State.stepHandover_of_free {s : State} {k : Nat} {x y : Time} {rest : List TimeHandover}
    (hf : ∀ i : Index, s.scu.entries[i].state = .free) (hm : s.mail.toScu = .step k x y :: rest) :
    s.stepHandover = { s with scu := { s.scu with now := y }, mail := { s.mail with toScu := rest } } := by
  have hd : dueBy s.scu.entries y = [] := by
    obtain ⟨-, hmem⟩ := dueBy_spec s.scu.entries y
    refine List.eq_nil_iff_forall_not_mem.2 fun i hi => ?_
    obtain ⟨ha, -⟩ := (hmem i).1 hi
    exact absurd ((hf i).symm.trans ha) nofun
  unfold State.stepHandover
  rw [hm]
  dsimp only
  rw [hd]
  split <;> rfl

/-! ## The statement -/

/-- Settles O4: the values by block, then the step that reaches the ECU first, then the step that finds an empty table. -/
theorem resetAssertionValues : Obligations.ResetAssertionValues := by
  refine ⟨fun s hr hstep => ?_, fun s u k x y hr hmem hu => congrArg Host.Outcome.next ?_,
    fun t j T T' rest hf hm => congrArg Host.Outcome.next (State.stepHandover_of_free hf hm)⟩
  · have hn : s.mail.toEcu.any EcuHandover.isStep = false := by
      rw [List.any_eq_false]
      intro h hm hs
      obtain ⟨k, x, y, rfl⟩ := h.isStep_iff.1 hs
      exact hstep k x y hm
    refine ⟨s.resetAssert, rfl, ?_⟩
    rw [State.resetAssert_of_no_step hr hn]
    refine ⟨rfl, rfl, rfl, rfl, rfl, rfl, fun i hi => ?free, fun i hi => ?used, fun p => ?quota, fun n => ?line, fun n => ?input,
      rfl, rfl, rfl, fun p => ?log, rfl, rfl, rfl, rfl, fun p => ?session, fun p => ?port, rfl, fun p => ⟨rfl, rfl⟩,
      fun he => ?idle, fun e freed he hf => ?ending⟩
    case free => rw [Scu.resetTable_entry, if_pos hi]
    case used =>
      rw [Scu.resetTable_entry, if_neg hi]
      rfl
    case quota => simp [Scu.resetTable, Config.defaultQuota]
    case line => simp [TrigLine.initial]
    case input => simp [Ecu.initial, Input.initial]
    case log => simp [Elu.initial]
    case session => simp [Sau.initial, Session.initial]
    case port => simp [Hpu.initial]
    case idle =>
      show s.closeEnding.mail.records = _
      unfold State.closeEnding
      rw [he]
    case ending =>
      show s.closeEnding.mail.records = _
      rw [State.closeEnding_of_ending he, State.postAll_eq, hf]
      rfl
  · have hs : s.mail.toEcu.any EcuHandover.isStep = true := List.any_eq_true.2 ⟨_, hmem, rfl⟩
    rcases hu with ⟨j, n, T, rest, hm, e⟩ | ⟨j, T, T', rest, v, hm, e, rfl⟩
    · cases e
      exact State.resetAssert_cons hr hm hs
    · have e' : Host.Outcome.next (φ := Fault) (ρ := Refusal) _ = .next v := e
      rw [State.ecuStepHandover_of_no_scu hm] at e'
      cases e'
      have hscu : s.ecuStep.mail.toScu = s.mail.toScu := by rw [State.ecuStep_of_step hm]
      rw [State.resetAssert_cons hr hm hs, ← hscu]
      rfl

end Sys2Proof.Machine
end

section
/-! The events of the reference supervision (O13, O14, O15). -/

namespace Sys2Proof.Machine

/-! ## When an event of the supervision is due (R24, R25, R28) -/

theorem Rsv.missingDue_iff (r : Rsv) : r.missingDue = true ↔ r.config.enabled = true ∧ 16 ≤ r.gap := by
  rw [Rsv.missingDue, Bool.and_eq_true, decide_eq_true_eq]
  rfl

theorem Rsv.closeDue_iff (r : Rsv) : r.closeDue = true ↔ r.config.enabled = true ∧ 1000 ≤ r.cycles ∧ 1 ≤ r.edges := by
  rw [Rsv.closeDue, Bool.and_eq_true, Bool.and_eq_true, decide_eq_true_eq, decide_eq_true_eq, and_assoc]
  rfl

theorem Rsv.ageDue_iff (r : Rsv) : r.ageDue = true ↔ r.state = .holdover ∧ 10000000 ≤ r.ageCycles := by
  rw [Rsv.ageDue, Bool.and_eq_true, decide_eq_true_eq, decide_eq_true_eq]
  rfl

/-- No window is due to be declared MISSING or to close (R24, R25). -/
def Rsv.windowOpen (r : Rsv) : Prop := r.config.enabled = true → r.gap < 16 ∧ (r.cycles < 1000 ∨ r.edges = 0)

theorem Rsv.windowOpen_iff (r : Rsv) : r.windowOpen ↔ r.missingDue ≠ true ∧ r.closeDue ≠ true := by
  rw [Ne, Ne, r.missingDue_iff, r.closeDue_iff]
  unfold Rsv.windowOpen
  cases r.config.enabled with
  | false => simp
  | true => simp only [true_imp_iff, true_and]; omega

/-- An open window is not settled. -/
theorem State.settleWindow_of_open {s : State} (h : s.rsv.windowOpen) : s.settleWindow = s := by
  obtain ⟨hm, hc⟩ := s.rsv.windowOpen_iff.1 h
  unfold State.settleWindow State.windowClose
  rw [if_neg hm, if_neg hc]

theorem State.settleWindow_of_missing {s : State} (he : s.rsv.config.enabled = true) (hg : 16 ≤ s.rsv.gap) :
    s.settleWindow = s.missingDeclaration := if_pos (s.rsv.missingDue_iff.2 ⟨he, hg⟩)

theorem State.settleWindow_of_close {s : State} (hg : s.rsv.gap < 16) : s.settleWindow = s.windowClose :=
  if_neg fun h => Nat.not_lt.2 (s.rsv.missingDue_iff.1 h).2 hg

/-! ## The effect of a class (R26, R27) -/

theorem State.classified_of_locked {s : State} (h : s.rsv.state = .locked) (cls : WindowClass) (n : Nat) :
    s.classified cls n = s.supervise cls n := by
  unfold State.classified
  rw [h]

theorem State.classified_of_not_locked {s : State} (h : s.rsv.state ≠ .locked) (cls : WindowClass) (n : Nat) :
    s.classified cls n = s.qualify cls n := by
  unfold State.classified
  split
  next hl => exact absurd hl h
  · rfl
  · rfl

theorem State.qualify_of_below {s : State} (h : s.rsv.good + 1 < s.rsv.config.qualLength) (n : Nat) :
    s.qualify .good n = { s with rsv := { s.rsv with good := s.rsv.good + 1 } } := by
  unfold State.qualify
  rw [if_pos rfl, if_neg (Nat.not_le.2 h)]

theorem State.qualify_of_reached {s : State} (h : s.rsv.config.qualLength ≤ s.rsv.good + 1) (n : Nat) :
    s.qualify .good n = ({ s with rsv := { s.rsv with state := .locked, good := 0 } } : State).posted .rsv
      (if s.tbu.isSet = true then .locked else .unset) s.tbu.time
      (.refState s.rsv.state .locked .qualified n (if s.rsv.state = .holdover then s.rsv.age else 0)) none := by
  unfold State.qualify
  rw [if_pos rfl, if_pos h]
  rfl

theorem State.qualify_of_bad {s : State} {cls : WindowClass} (h : cls ≠ .good) (n : Nat) :
    s.qualify cls n = { s with rsv := { s.rsv with good := 0 } } := if_neg h

theorem State.supervise_of_bad {s : State} {cls : WindowClass} (hs : s.rsv.state = .locked) (h : cls ≠ .good) (n : Nat) :
    s.supervise cls n = ({ s with rsv := { s.rsv with state := .holdover, good := 0, age := 0, ageCycles := 0 } } :
        State).posted .rsv (if s.tbu.isSet = true then .holdover else .unset) s.tbu.time
      (.refState .locked .holdover cls.reason n 0) none := by
  unfold State.supervise
  rw [if_neg h, State.enter_eq, hs]
  rfl

/-! ## The class of a window (R24) -/

/-- A class that lies by the tolerance as R24 says is the class of the count. -/
theorem classOf_eq {tolerance count : Nat} {cls : WindowClass}
    (hg : cls = .good ↔ 1000 ≤ count + tolerance ∧ count ≤ 1000 + tolerance)
    (hf : cls = .fast ↔ 1000 + tolerance < count) (hs : cls = .slow ↔ count + tolerance < 1000) :
    classOf tolerance count = cls := by
  unfold classOf
  split
  next h => exact (hf.2 h).symm
  · split
    next h => exact (hs.2 h).symm
    · exact (hg.2 (by omega)).symm

/-- Settles O13: the two events end in `State.classified`, whose five cases are those of R26 and R27. -/
theorem windowClassificationActs : Obligations.WindowClassificationActs := by
  intro s c cls after quality he hc
  have hrun : exec c s = .next (({ s with rsv := after } : State).classified cls s.rsv.edges) := by
    rcases hc with ⟨rfl, hcy, hed, hg, hf, hs, rfl⟩ | ⟨rfl, hgap, rfl, rfl⟩
    · have h : s.rsv.closeDue = true := s.rsv.closeDue_iff.2 ⟨he, hcy, hed⟩
      show Host.Outcome.next s.windowClose = _
      unfold State.windowClose
      rw [if_pos h]
      dsimp only
      rw [classOf_eq hg hf hs]
    · have h : s.rsv.missingDue = true := s.rsv.missingDue_iff.2 ⟨he, hgap⟩
      show Host.Outcome.next s.missingDeclaration = _
      unfold State.missingDeclaration
      rw [if_pos h]
  obtain ⟨hst, hgood, hage, hql⟩ : after.state = s.rsv.state ∧ after.good = s.rsv.good ∧ after.age = s.rsv.age
      ∧ after.config = s.rsv.config := by
    rcases hc with ⟨-, -, -, -, -, -, rfl⟩ | ⟨-, -, -, rfl⟩ <;> exact ⟨rfl, rfl, rfl, rfl⟩
  rw [hrun, ← hst, ← hgood, ← hage, ← hql]
  refine ⟨?_, ?_, ?_, ?_, ?_⟩
  · rintro hn rfl hb
    rw [State.classified_of_not_locked (by exact hn), State.qualify_of_below (by exact hb)]
  · rintro hn rfl hr rfl
    rw [State.classified_of_not_locked (by exact hn), State.qualify_of_reached (by exact hr)]
  · rintro hn hb
    rw [State.classified_of_not_locked (by exact hn), State.qualify_of_bad hb]
  · rintro hl rfl
    rw [State.classified_of_locked (by exact hl)]
    rfl
  · rintro hl hb rfl
    rw [State.classified_of_locked (by exact hl), State.supervise_of_bad (by exact hl) hb]
    cases cls <;> rfl

/-! ## Edges of REFCLK (R24, R25, R29) -/

theorem Rsv.countEdge_of_enabled {r : Rsv} (h : r.config.enabled = true) :
    r.countEdge = { r with edges := min (r.edges + 1) 65535, gap := 0 } := if_pos h

theorem Rsv.countEdge_of_disabled {r : Rsv} (h : r.config.enabled = false) : r.countEdge = r :=
  if_neg (by rw [h]; nofun)

/-- An edge counts after the window is settled, and while REFCLK is selected it leaves a tick waiting (log 5, log 8). -/
theorem State.refclkEdge_eq {s t : State} (h : s.settleWindow = t) : s.refclkEdge = { t with
    rsv := t.rsv.countEdge
    mail := { t.mail with refTicks := t.mail.refTicks + if t.rsv.state = .locked then 1 else 0 } } := by
  subst h
  unfold State.refclkEdge
  simp only [State.source_eq, Rsv.countEdge_state]
  by_cases hl : s.settleWindow.rsv.state = .locked
  · simp only [if_pos hl]
  · simp only [if_neg hl]
    rfl

/-- An event of the supervision touches the RSV and the records alone, and the records it posts have no address (R30). -/
def State.SupervisionStep (s t : State) : Prop :=
  ∃ (rsv : Rsv) (records : List Posted), (∀ r ∈ records, r.address = none)
    ∧ t = { s with rsv, mail := { s.mail with records := s.mail.records ++ records } }

theorem State.SupervisionStep.of_rsv (s : State) (r : Rsv) : s.SupervisionStep { s with rsv := r } := by
  refine ⟨r, [], fun _ h => absurd h List.not_mem_nil, ?_⟩
  rw [List.append_nil]

theorem State.SupervisionStep.of_posted (s : State) (r : Rsv) (q : Quality) (t : Time) (y : Body) :
    s.SupervisionStep (({ s with rsv := r } : State).posted .rsv q t y none) :=
  ⟨r, _, fun _ h => by rw [List.mem_singleton.1 h], rfl⟩

theorem State.SupervisionStep.of_classified (s : State) (r : Rsv) (cls : WindowClass) (n : Nat) :
    s.SupervisionStep (({ s with rsv := r } : State).classified cls n) := by
  by_cases hl : r.state = .locked
  · rw [State.classified_of_locked (by exact hl)]
    by_cases hg : cls = .good
    · rw [State.supervise, if_pos hg]
      exact .of_rsv s r
    · rw [State.supervise_of_bad (by exact hl) hg]
      exact .of_posted s _ _ _ _
  · rw [State.classified_of_not_locked (by exact hl)]
    by_cases hg : cls = .good
    · subst hg
      by_cases hq : r.config.qualLength ≤ r.good + 1
      · rw [State.qualify_of_reached (by exact hq)]
        exact .of_posted s _ _ _ _
      · rw [State.qualify_of_below (Nat.not_le.1 hq)]
        exact .of_rsv s _
    · rw [State.qualify_of_bad hg]
      exact .of_rsv s _

/-- A classification leaves the configuration and the window's counters. -/
theorem State.classified_window (s : State) (cls : WindowClass) (n : Nat) :
    (s.classified cls n).rsv.config = s.rsv.config ∧ (s.classified cls n).rsv.cycles = s.rsv.cycles
      ∧ (s.classified cls n).rsv.gap = s.rsv.gap := by
  unfold State.classified State.supervise State.qualify
  split <;> split
  · exact ⟨rfl, rfl, rfl⟩
  · exact ⟨rfl, rfl, rfl⟩
  · split <;> exact ⟨rfl, rfl, rfl⟩
  · exact ⟨rfl, rfl, rfl⟩
  · split <;> exact ⟨rfl, rfl, rfl⟩
  · exact ⟨rfl, rfl, rfl⟩

/-- A window event begins a new window under the same configuration (R24, R25). -/
def State.WindowBegun (s t : State) : Prop :=
  s.SupervisionStep t ∧ t.rsv.config = s.rsv.config ∧ t.rsv.windowOpen

theorem State.WindowBegun.of_classified {s : State} {r : Rsv} (cls : WindowClass) (n : Nat) (hcfg : r.config = s.rsv.config)
    (hc : r.cycles = 0) (hg : r.gap < 16) : s.WindowBegun (({ s with rsv := r } : State).classified cls n) := by
  obtain ⟨h1, h2, h3⟩ := State.classified_window { s with rsv := r } cls n
  refine ⟨.of_classified s r cls n, h1.trans hcfg, fun _ => ⟨?_, .inl ?_⟩⟩
  · rw [h3]
    exact hg
  · rw [h2]
    exact hc.trans_lt (by decide)

theorem State.missingDeclaration_begins {s : State} (he : s.rsv.config.enabled = true) (hg : 16 ≤ s.rsv.gap) :
    s.WindowBegun s.missingDeclaration := by
  rw [State.missingDeclaration, if_pos (s.rsv.missingDue_iff.2 ⟨he, hg⟩)]
  exact .of_classified _ _ rfl rfl (Nat.zero_lt_succ 15)

theorem State.windowClose_begins {s : State} (he : s.rsv.config.enabled = true) (hg : s.rsv.gap < 16)
    (hc : 1000 ≤ s.rsv.cycles) (hd : 1 ≤ s.rsv.edges) : s.WindowBegun s.windowClose := by
  rw [State.windowClose, if_pos (s.rsv.closeDue_iff.2 ⟨he, hc, hd⟩)]
  exact .of_classified _ _ rfl rfl hg

/-- Settles O14: an edge in an open window, one while supervision is disabled, and one after a window event. -/
theorem referenceEdgeCounts : Obligations.ReferenceEdgeCounts := by
  intro s
  refine ⟨fun he hg hc => ?_, fun he => ?_, fun t he ht => ?_⟩
  · show Host.Outcome.next s.refclkEdge = _
    rw [State.refclkEdge_eq (State.settleWindow_of_open fun _ => ⟨hg, hc⟩), Rsv.countEdge_of_enabled he]
  · have hopen : s.rsv.windowOpen := fun h => absurd (he.symm.trans h) nofun
    show Host.Outcome.next s.refclkEdge = _
    rw [State.refclkEdge_eq (State.settleWindow_of_open hopen), Rsv.countEdge_of_disabled he]
  · obtain ⟨hw, hb⟩ : s.settleWindow = t ∧ s.WindowBegun t := by
      rcases ht with ⟨hg, h⟩ | ⟨hg, hc, hd, h⟩
      · obtain rfl : s.missingDeclaration = t := Host.Outcome.next.inj h
        exact ⟨State.settleWindow_of_missing he hg, State.missingDeclaration_begins he hg⟩
      · obtain rfl : s.windowClose = t := Host.Outcome.next.inj h
        exact ⟨State.settleWindow_of_close hg, State.windowClose_begins he hg hc hd⟩
    obtain ⟨-, hcfg, -⟩ := hb
    show Host.Outcome.next s.refclkEdge = _
    rw [State.refclkEdge_eq hw, Rsv.countEdge_of_enabled (by rw [hcfg]; exact he)]

/-! ## The holdover age (R28) -/

/-- A holdover at its limit ends with its record, at the age it has (R28, R30). -/
theorem State.expireIfAtLimit_of_reached {s : State} (hs : s.rsv.state = .holdover) (h : s.rsv.config.limit ≤ s.rsv.age) :
    s.expireIfAtLimit = ({ s with rsv := { s.rsv with state := .unlocked } } : State).posted .rsv
      (if s.tbu.isSet = true then .freerun else .unset) s.tbu.time
      (.refState .holdover .unlocked .expired 0 s.rsv.age) none := by
  unfold State.expireIfAtLimit
  rw [if_pos ⟨hs, h⟩, State.enter_eq, hs]
  rfl

theorem State.holdoverAgeIncrement_of_due {s : State} (hs : s.rsv.state = .holdover) (hd : 10000000 ≤ s.rsv.ageCycles) :
    s.holdoverAgeIncrement = ({ s with rsv := s.rsv.incrementAge } : State).expireIfAtLimit :=
  if_pos (s.rsv.ageDue_iff.2 ⟨hs, hd⟩)

theorem State.holdoverAgeIncrement_of_not_due {s : State} (h : ¬ (s.rsv.state = .holdover ∧ 10000000 ≤ s.rsv.ageCycles)) :
    s.holdoverAgeIncrement = s := if_neg fun hd => h (s.rsv.ageDue_iff.1 hd)

/-- Settles O15: below the limit the age alone moves, and at the limit both commands expire the holdover. -/
theorem holdoverAgesAndExpires : Obligations.HoldoverAgesAndExpires := by
  rintro s quality hs hd rfl
  refine ⟨fun hb => ?_, fun hl c hc => ?_⟩
  · show Host.Outcome.next s.holdoverAgeIncrement = _
    rw [State.holdoverAgeIncrement_of_due hs hd]
    exact congrArg Host.Outcome.next (if_neg fun h => Nat.not_le.2 hb h.2)
  · have hx := State.expireIfAtLimit_of_reached (s := { s with rsv := s.rsv.incrementAge }) hs hl
    rcases hc with rfl | rfl
    · show Host.Outcome.next s.holdoverAgeIncrement = _
      rw [State.holdoverAgeIncrement_of_due hs hd, hx]
      rfl
    · have he : s.holdoverExpiry = ({ s with rsv := s.rsv.incrementAge } : State).expireIfAtLimit :=
        if_pos ⟨s.rsv.ageDue_iff.2 ⟨hs, hd⟩, hl⟩
      show Host.Outcome.next s.holdoverExpiry = _
      rw [he, hx]
      rfl

end Sys2Proof.Machine
end

section
/-! Pulse-per-second edges and REF_CONFIG (O16, O17). -/

namespace Sys2Proof.Machine

/-- The phase error in numbers (R36). -/
theorem phaseError_eq (stamp : Time) : phaseError stamp =
    if stamp % 10000000 < 5000000 then ((stamp % 10000000 : Nat) : Int) else ((stamp % 10000000 : Nat) : Int) - 10000000 := rfl

/-- Settles O16: the judgement, the slew and the record of `State.ppsEdge`, each under the name that the statement gives it. -/
theorem ppsEdgeJudged : Obligations.PpsEdgeJudged := by
  rintro s edge rest f e outlier applied fault streak hm rfl he ho rfl hf ha
  rw [← phaseError_eq] at he
  subst he
  have ho : outlier = decide (s.rsv.pps.window < (phaseError edge.stamp).natAbs) := by
    rw [Bool.eq_iff_iff, ho, decide_eq_true_eq]
  have hf : fault = (s.rsv.judge (phaseError edge.stamp) outlier).fault := by
    show fault = (outlier && (s.rsv.fault || decide (3 ≤ s.rsv.streakAfter outlier)))
    rw [Bool.eq_iff_iff, Bool.and_eq_true, Bool.or_eq_true, decide_eq_true_eq]
    exact hf
  have ha : applied = (!outlier && s.rsv.pps.discipline && decide (s.rsv.state = .locked)
      && decide (phaseError edge.stamp ≠ 0)) := by
    rw [Bool.eq_iff_iff, ha]
    simp [and_assoc]
  show Host.Outcome.next s.ppsEdgeHandover = _
  unfold State.ppsEdgeHandover State.ppsEdge
  rw [hm]
  dsimp only
  rw [← ho, ← ha, ← hf, ← decide_not]
  subst hf
  cases applied
  · simp only [Bool.false_eq_true, if_false, List.append_nil]
    rfl
  · rfl

/-! ## REF_CONFIG (R31, R33) -/

theorem refOperands_of {c : SupConfig} (h : c.Ok) :
    refOperands ([if c.enabled = true then 1 else 0, BitVec.ofNat 8 c.tolerance, BitVec.ofNat 8 c.qualLength]
      ++ beBytes c.limit 2) = some c := by
  obtain ⟨ht1, ht2, hq1, hq2, hl1, hl2⟩ := h
  generalize hl : [if c.enabled = true then (1 : Byte) else 0, BitVec.ofNat 8 c.tolerance, BitVec.ofNat 8 c.qualLength]
      ++ beBytes c.limit 2 = l
  have h0 : fieldNat l 0 1 = (if c.enabled = true then 1#8 else 0#8).toNat := hl ▸ fieldNat_cons_zero ..
  have h1 : fieldNat l 1 1 = c.tolerance := hl ▸ (fieldNat_cons_zero ..).trans (toNat_ofNat_of_lt (by omega))
  have h2 : fieldNat l 2 1 = c.qualLength := hl ▸ (fieldNat_cons_zero ..).trans (toNat_ofNat_of_lt (by omega))
  have h3 : fieldNat l 3 2 = c.limit := by
    rw [← hl, fieldNat_append_at (k := 3) (offset := 0) rfl]
    exact fieldNat_beBytes (by omega)
  unfold refOperands
  rw [h0, h1, h2, h3, boolOf_flag, inRange_of ht1 ht2, inRange_of hq1 hq2, inRange_of hl1 hl2]
  rfl

theorem State.applyRefConfig_of_disabling {s : State} {c : SupConfig} (h : s.rsv.config.enabled = true)
    (hc : c.enabled = false) (hu : s.rsv.state = .unlocked) : s.applyRefConfig c =
      { s with rsv := { s.rsv with config := c, good := 0, cycles := 0, edges := 0, gap := 0 } } := by
  unfold State.applyRefConfig
  dsimp only
  rw [h, hc]
  dsimp only
  rw [if_pos hu]
  rfl

/-- Supervision that is switched off ends with its record (R30, R33). -/
theorem State.applyRefConfig_of_leaving {s : State} {c : SupConfig} (h : s.rsv.config.enabled = true)
    (hc : c.enabled = false) (hu : s.rsv.state ≠ .unlocked) : s.applyRefConfig c =
      ({ s with rsv := { s.rsv with config := c, state := .unlocked, good := 0, cycles := 0, edges := 0, gap := 0 } } :
        State).posted .rsv (if s.tbu.isSet = true then .freerun else .unset) s.tbu.time
        (.refState s.rsv.state .unlocked .disabled 0 (if s.rsv.state = .holdover then s.rsv.age else 0)) none := by
  unfold State.applyRefConfig
  dsimp only
  rw [h, hc]
  dsimp only
  rw [if_neg hu]
  rfl

theorem State.applyRefConfig_of_enabling {s : State} {c : SupConfig} (h : s.rsv.config.enabled = false)
    (hc : c.enabled = true) : s.applyRefConfig c =
      { s with rsv := { s.rsv with config := c, good := 0, cycles := 0, edges := 0, gap := 0 } } := by
  unfold State.applyRefConfig
  dsimp only
  rw [h, hc]
  rfl

theorem State.applyRefConfig_of_enabled {s : State} {c : SupConfig} (h : s.rsv.config.enabled = true)
    (hc : c.enabled = true) : s.applyRefConfig c = ({ s with rsv := { s.rsv with config := c } } : State).expireIfAtLimit := by
  unfold State.applyRefConfig
  dsimp only
  rw [h, hc]

theorem State.applyRefConfig_of_same {s : State} {c : SupConfig} (h : s.rsv.config.enabled = c.enabled)
    (hl : c.enabled = true → s.rsv.state = .holdover → s.rsv.age < c.limit) :
    s.applyRefConfig c = { s with rsv := { s.rsv with config := c } } := by
  cases hc : c.enabled with
  | true =>
    rw [State.applyRefConfig_of_enabled (h.trans hc) hc]
    exact if_neg fun hx => Nat.not_le.2 (hl hc hx.1) hx.2
  | false =>
    unfold State.applyRefConfig
    dsimp only
    rw [h, hc]

theorem State.expireIfAtLimit_hpu (s : State) : s.expireIfAtLimit.hpu = s.hpu := by
  unfold State.expireIfAtLimit
  split <;> rfl

/-- An accepted REF_CONFIG leaves the slots. -/
theorem State.applyRefConfig_hpu (s : State) (c : SupConfig) : (s.applyRefConfig c).hpu = s.hpu := by
  unfold State.applyRefConfig
  dsimp only
  split
  · split <;> rfl
  · rfl
  · rfl
  · exact State.expireIfAtLimit_hpu _

/-- Settles O17: the five cases of `State.applyRefConfig`, each answered with what it leaves. -/
theorem referenceConfigured : Obligations.ReferenceConfigured := by
  rintro s p tag d c quality hc hq ha hh rfl
  have hrun : exec (.refConfig p) s = .next ((s.applyRefConfig c).answered p tag d .ok
      ([(s.applyRefConfig c).rsv.state.code, BitVec.ofNat 8 (s.applyRefConfig c).rsv.good]
        ++ beBytes (s.applyRefConfig c).rsv.age 2)) :=
    congrArg Host.Outcome.next
      (State.serve_of_accepted (f := s.refConfig p) ha hh hq rfl (refOperands_of hc) (s.applyRefConfig_hpu c))
  refine ⟨fun h1 h2 h3 => ?_, fun h1 h2 h3 => ?_, fun h1 h2 h3 => ?_, fun h1 h2 h3 h4 => ?_, fun h1 h2 => ?_⟩
  · rw [hrun, State.applyRefConfig_of_disabling h1 h2 h3, h3]
    rfl
  · rw [hrun, State.applyRefConfig_of_leaving h1 h2 h3]
    rfl
  · rw [hrun, State.applyRefConfig_of_enabling h1 h2, h3]
    rfl
  · rw [hrun, State.applyRefConfig_of_enabled h1 h2,
      State.expireIfAtLimit_of_reached (s := { s with rsv := { s.rsv with config := c } }) h3 h4]
    rfl
  · rw [hrun, State.applyRefConfig_of_same h1 h2]
    cases s.rsv.state <;> rfl

end Sys2Proof.Machine
end

section
/-! What stands before a tick, and the step of a part with nothing waiting (O2, O8). -/

namespace Sys2Proof.Machine

/-! ## With nothing waiting (log 4) -/

theorem Rsv.nothingDue_iff (r : Rsv) : r.nothingDue ↔ r.windowOpen ∧ ¬ (r.state = .holdover ∧ 10000000 ≤ r.ageCycles) := by
  unfold Rsv.nothingDue Rsv.windowOpen
  rw [not_and, Nat.not_le]

/-- A part in which no step waits has nothing before a tick, and no edge of REFCLK waits in it (log 4). -/
theorem State.tickSettled_of_nextOwnStep {s : State} (h : s.nextOwnStep = none) : s.tickSettled ∧ s.mail.refTicks = 0 := by
  simp only [State.nextOwnStep, State.handoverSteps, State.dueSteps, List.head?_eq_none_iff, List.append_eq_nil_iff,
    Option.toList_eq_nil_iff, List.map_eq_nil_iff, List.filter_eq_nil_iff, ite_eq_right_iff, List.cons_ne_nil,
    imp_false, Nat.not_lt, Nat.le_zero] at h
  obtain ⟨⟨⟨⟨⟨⟨⟨⟨⟨⟨⟨-, hops⟩, -⟩, -⟩, -⟩, hscu⟩, -⟩, hecu⟩, -⟩, hticks⟩, ⟨⟨⟨hmissing, hclose⟩, hage⟩, hreports⟩, hexpiry⟩, -⟩ := h
  refine ⟨⟨⟨hscu, hops, hecu⟩, ⟨hreports, fun p ha => ?_⟩, fun _ => ?_⟩, hticks⟩
  · exact absurd ((Session.timedOut_iff _).2 ha) (hexpiry p (List.mem_finRange p))
  · exact s.rsv.nothingDue_iff.2 ⟨s.rsv.windowOpen_iff.2 ⟨hmissing, hclose⟩, fun hd => hage (s.rsv.ageDue_iff.2 hd)⟩

/-- Settles O2: the step is `State.internalCycle`, a tick or a cycle of the counters by the source. -/
theorem idleStepPassesOneCycle : Obligations.IdleStepPassesOneCycle := by
  intro s hp hn
  obtain ⟨hs, h0⟩ := State.tickSettled_of_nextOwnStep hn
  have hstep : step s = .next s.internalCycle := by
    unfold step
    rw [hp]
    dsimp only
    rw [hn]
  unfold State.internalCycle at hstep
  rw [State.source_eq] at hstep
  refine ⟨hs, h0, fun hl => ?_, fun hl => ?_⟩
  · rw [if_neg hl] at hstep
    exact hstep
  · rw [if_pos hl] at hstep
    rw [hstep, ← State.countCycle_eq]

end Sys2Proof.Machine
end

section
/-! What stands before a tick, one by one (O8). -/

namespace Sys2Proof.Machine

/-! ## The hand-overs to the SCU, the TOU and the ECU (R91, R101) -/

/-- What each of many events leaves, all of them leave. -/
theorem State.foldl_keeps {α β : Type} {f : State → α → State} {g : State → β} (h : ∀ s a, g (f s a) = g s) (l : List α)
    (s : State) : g (l.foldl f s) = g s := by
  induction l generalizing s with
  | nil => rfl
  | cons a l ih => rw [List.foldl_cons, ih, h]

@[simp] theorem State.fire_toScu (s : State) (i : Index) (k : Nat) (t : Time) (cause : Cause) (links : Links) :
    (s.fire i k t cause links).mail.toScu = s.mail.toScu := by rw [State.fire_after]; rfl

@[simp] theorem State.treat_toScu (s : State) (i : Index) (t : Time) (cause : Cause) (links : Links) :
    (s.treat i t cause links).mail.toScu = s.mail.toScu := by rw [State.treat_after]; rfl

/-- The hand-over that the SCU takes leaves the list (R67, R78). -/
theorem State.scuTake_toScu {s : State} {h : TimeHandover} {rest : List TimeHandover} (hm : s.mail.toScu = h :: rest) :
    (s.scuTake h).mail.toScu = rest := by
  cases h with
  | advance k t =>
    show s.timeAdvance.mail.toScu = rest
    unfold State.timeAdvance
    rw [hm]
    exact State.foldl_keeps (g := fun s => s.mail.toScu) (fun s i => s.fire_toScu ..) _ _
  | step k x y =>
    show s.stepHandover.mail.toScu = rest
    unfold State.stepHandover
    rw [hm]
    dsimp only
    split
    · exact State.foldl_keeps (g := fun s => s.mail.toScu) (fun s i => s.treat_toScu ..) _ _
    · rfl

/-- What waits for the SCU is taken one by one. -/
theorem State.catchUp_of_toScu {s : State} {h : TimeHandover} {rest : List TimeHandover} (hm : s.mail.toScu = h :: rest) :
    s.catchUp = (s.scuTake h).catchUp := by
  unfold State.catchUp State.scuCatchUp
  rw [State.scuTake_toScu hm, hm, List.foldl_cons]

theorem State.scuCatchUp_of_none {s : State} (h : s.mail.toScu = []) : s.scuCatchUp = s := by
  unfold State.scuCatchUp
  rw [h]
  rfl

theorem State.touCatchUp_of_none {s : State} (h : s.mail.ops = []) : s.touCatchUp = s := by
  unfold State.touCatchUp
  rw [h]
  rfl

theorem State.lineOperation_of_cons {s : State} {a : Action} {rest : List Action} (hm : s.mail.ops = a :: rest) :
    s.lineOperation = ({ s with mail := { s.mail with ops := rest } } : State).operate a := by
  unfold State.lineOperation
  rw [hm]

/-- Operations are taken one by one, after all that waits for the SCU (R91). -/
theorem State.catchUp_of_ops {s : State} (hscu : s.mail.toScu = []) (hm : s.mail.ops ≠ []) :
    s.catchUp = s.lineOperation.catchUp := by
  obtain ⟨a, rest, hm⟩ := List.exists_cons_of_ne_nil hm
  have hu := State.lineOperation_of_cons hm
  have htou : s.touCatchUp = s.lineOperation.touCatchUp := by
    have hrest : s.lineOperation.mail.ops = rest := by rw [hu]; rfl
    unfold State.touCatchUp
    rw [hrest, hm, List.foldl_cons]
  unfold State.catchUp
  rw [State.scuCatchUp_of_none hscu, State.scuCatchUp_of_none (s := s.lineOperation) (by rw [hu]; exact hscu), htou]

/-- The ECU judges a sample without touching what waits for the SCU and the TOU. -/
theorem State.judgeSample_earlier (s : State) (n : Line) (level : Level) (turn : Nat) (t : Time) :
    (s.judgeSample n level turn t).mail.toScu = s.mail.toScu ∧ (s.judgeSample n level turn t).mail.ops = s.mail.ops := by
  unfold State.judgeSample
  dsimp only
  split
  · exact ⟨rfl, rfl⟩
  · split
    · exact ⟨rfl, rfl⟩
    · split
      · rw [State.capture_eq]
        split <;> exact ⟨rfl, rfl⟩
      · exact ⟨rfl, rfl⟩

/-- The hand-over that the ECU takes leaves the list, where the SCU and the TOU have taken theirs (R101, R109). -/
theorem State.ecuTake_lists {s : State} {h : EcuHandover} {rest : List EcuHandover} (hscu : s.mail.toScu = [])
    (hm : s.mail.toEcu = h :: rest) :
    (s.ecuTake h).mail.toScu = s.mail.toScu ∧ (s.ecuTake h).mail.ops = s.mail.ops ∧ (s.ecuTake h).mail.toEcu = rest := by
  cases h with
  | sample k n t =>
    have ht : takeSample n s.mail.toEcu = some (k, t, rest) := by rw [hm]; exact if_pos rfl
    show (s.inputSample n s.pins[n]).mail.toScu = _ ∧ (s.inputSample n s.pins[n]).mail.ops = _
      ∧ (s.inputSample n s.pins[n]).mail.toEcu = _
    unfold State.inputSample
    rw [ht]
    obtain ⟨-, hecu⟩ := State.judgeSample_frame _ n s.pins[n] k t
    obtain ⟨h1, h2⟩ := State.judgeSample_earlier _ n s.pins[n] k t
    exact ⟨h1, h2, hecu⟩
  | step k x y =>
    have htook : s.scuTook k = true := (s.scuTook_iff k).2 (by rw [hscu]; nofun)
    have e : s.ecuTake (.step k x y) = s.ecuStep := by
      show s.ecuStepHandover = _
      unfold State.ecuStepHandover
      rw [hm]
      exact if_pos htook
    rw [e, State.ecuStep_of_step hm]
    exact ⟨rfl, rfl, rfl⟩

/-- Samples and steps are taken one by one, after all that waits for the SCU and the TOU. -/
theorem State.catchUp_of_toEcu {s : State} {h : EcuHandover} {rest : List EcuHandover} (hscu : s.mail.toScu = [])
    (hops : s.mail.ops = []) (hm : s.mail.toEcu = h :: rest) : s.catchUp = (s.ecuTake h).catchUp := by
  obtain ⟨h1, h2, h3⟩ := State.ecuTake_lists hscu hm
  have hecu : s.ecuCatchUp = (s.ecuTake h).ecuCatchUp := by
    unfold State.ecuCatchUp
    rw [h3, hm, List.foldl_cons]
  unfold State.catchUp
  rw [State.scuCatchUp_of_none hscu, State.touCatchUp_of_none hops,
    State.scuCatchUp_of_none (h1.trans hscu), State.touCatchUp_of_none (h2.trans hops), hecu]

/-- A tick sees of the hand-overs no more than where they lead. -/
theorem State.tick_congr_of_catchUp {s u : State} (h : s.catchUp = u.catchUp) : s.tick = u.tick := by
  unfold State.tick
  rw [h]

/-! ## Reports and expiries (R138, R140) -/

/-- With every hand-over taken, a tick sees no more than where the SAU's part leads. -/
theorem State.tick_congr_of_settleSessions {s u : State} (hs : s.handoversTaken) (hu : u.handoversTaken)
    (h : s.settleSessions = u.settleSessions) : s.tick = u.tick := by
  unfold State.tick
  rw [State.catchUp_of_taken hs, State.catchUp_of_taken hu, h]

theorem State.validFrameReport_of_cons {s : State} {r : Report} {rest : List Report} (hm : s.mail.reports = r :: rest) :
    s.validFrameReport r.port
      = ({ s with mail := { s.mail with reports := rest } } : State).withSession r.port Session.restart := by
  unfold State.validFrameReport
  rw [hm]
  simp

/-- Reports are taken one by one (R138). -/
theorem State.tick_of_report {s : State} {r : Report} {rest : List Report} (hs : s.handoversTaken)
    (hm : s.mail.reports = r :: rest) : s.tick = (s.validFrameReport r.port).tick := by
  have hu := State.validFrameReport_of_cons hm
  have hrep : s.takeReports = (s.validFrameReport r.port).takeReports := by
    have hrest : (s.validFrameReport r.port).mail.reports = rest := by rw [hu]; rfl
    unfold State.takeReports
    rw [hrest, hm, List.foldl_cons]
  refine State.tick_congr_of_settleSessions hs (by rw [hu]; exact hs) ?_
  unfold State.settleSessions
  rw [hrep]

/-- What the SAU does to the sessions of a state without bringing any timer to its limit, and without touching the hand-overs and
the reports. -/
def State.SessionStep (s u : State) : Prop :=
  u.mail.toScu = s.mail.toScu ∧ u.mail.ops = s.mail.ops ∧ u.mail.toEcu = s.mail.toEcu ∧ u.mail.reports = s.mail.reports
    ∧ ∀ q : Port, u.sau.sessions[q].atLimit → s.sau.sessions[q].atLimit

/-- Where the first timer at its limit settles alike after a step of the SAU, so does the tick. -/
theorem State.SessionStep.tick_eq {s u : State} (h : s.SessionStep u) (ht : s.handoversTaken) (hr : s.mail.reports = [])
    {p : Port} (hp : ∀ q < p, ¬ s.sau.sessions[q].atLimit) (he : s.expireDue p = u.expireDue p) : s.tick = u.tick := by
  obtain ⟨h1, h2, h3, hrep, hses⟩ := h
  obtain ⟨t1, t2, t3⟩ := ht
  exact State.tick_congr_of_settleSessions ⟨t1, t2, t3⟩ ⟨h1.trans t1, h2.trans t2, h3.trans t3⟩
    (State.settleSessions_congr p hr (hrep.trans hr) (fun q hq => State.expireDue_of_below (hp q hq))
      (fun q hq => State.expireDue_of_below fun ha => hp q hq (hses q ha)) he)

/-- With no session end in progress, settling a timer is IDLE_EXPIRY (R138). -/
theorem State.expireDue_of_idle {s : State} (h : s.sau.ending = none) (p : Port) : s.expireDue p = s.idleExpiry p := by
  have ha : s.advanceEnd = s := by
    unfold State.advanceEnd
    rw [h]
  rcases s.expireDue_cases p with ⟨hb, e⟩ | ⟨-, -, e⟩ | ⟨-, hx, -⟩
  · have hi : s.idleExpiry p = s := if_neg fun hx => hb ((Session.timedOut_iff _).1 hx.2)
    rw [e, hi]
  · rw [e, ha]
  · rw [ha, h] at hx
    cases hx

theorem getElem_set_session {v : Vector Session 4} {p q : Port} {x : Session} :
    (v.set p.val x)[q] = if q = p then x else v[q] := by
  by_cases h : q = p
  · subst h
    simp
  · have : p.val ≠ q.val := fun e => h (Fin.ext e.symm)
    rw [if_neg h]
    simp [Vector.getElem_set_ne, this]

/-- The authority of a port whose session ends passes on without touching a timer (R140 step 2). -/
theorem Sau.leave_atLimit (u : Sau) (p : Port) (reason : EndReason) (q : Port) :
    (u.leave p reason).1.sessions[q].atLimit ↔ u.sessions[q].atLimit := by
  unfold Sau.leave
  split
  · unfold Sau.passOn
    split
    · rfl
    · unfold Sau.setAuth
      dsimp only
      rw [getElem_set_session]
      split
      next hq => subst hq; rfl
      · rfl
  · rfl

/-- A port whose session begins to end is detached, so its timer is at no limit, and the other timers stand (R140). -/
theorem State.beginEnd_sessionStep (s : State) (p : Port) (reason : EndReason) :
    s.SessionStep (s.beginEnd p reason) ∧ ¬ (s.beginEnd p reason).sau.sessions[p].atLimit := by
  have hset (q : Port) : (s.beginEnd p reason).sau.sessions[q] =
      if q = p then { (s.sau.leave p reason).1.sessions[p] with attached := false, auth := false, overdue := false }
      else (s.sau.leave p reason).1.sessions[q] := getElem_set_session
  refine ⟨⟨rfl, rfl, rfl, rfl, fun q h => ?_⟩, fun h => ?_⟩
  · rw [hset] at h
    split at h
    · exact absurd h.1 nofun
    · exact (Sau.leave_atLimit ..).1 h
  · rw [hset, if_pos rfl] at h
    exact absurd h.1 nofun

/-- With no session end in progress, the first expiry that is due is taken by itself (R138). -/
theorem State.tick_of_expiry {s : State} (hs : s.handoversTaken) (hr : s.mail.reports = []) (he : s.sau.ending = none)
    {p : Port} (hp : s.sau.sessions[p].atLimit) (hq : ∀ q < p, ¬ s.sau.sessions[q].atLimit) :
    s.tick = (s.idleExpiry p).tick := by
  have hu : s.idleExpiry p = s.beginEnd p .expired :=
    if_pos ⟨by rw [he]; rfl, (Session.timedOut_iff _).2 hp⟩
  obtain ⟨hstep, hn⟩ := s.beginEnd_sessionStep p .expired
  rw [hu]
  refine hstep.tick_eq hs hr hq ?_
  rw [State.expireDue_of_idle he, hu, State.expireDue_of_below hn]

/-! ## The session end in progress (R140) -/

/-- Where a timer is due in two states whose session ends advance to one state, it settles alike. -/
theorem State.expireDue_congr {s u : State} {p : Port} (hs : s.sau.sessions[p].atLimit) (hu : u.sau.sessions[p].atLimit)
    (h : s.advanceEnd = u.advanceEnd) : s.expireDue p = u.expireDue p := by
  unfold State.expireDue
  rw [if_pos ((Session.timedOut_iff _).2 hs), if_pos ((Session.timedOut_iff _).2 hu), h]

/-- A timer that is due among others has a first one. -/
theorem State.exists_first_atLimit {s : State} (h : ∃ p : Port, s.sau.sessions[p].atLimit) :
    ∃ p : Port, s.sau.sessions[p].atLimit ∧ ∀ q < p, ¬ s.sau.sessions[q].atLimit := by
  obtain ⟨p, hp, hmin⟩ := (wellFounded_lt (α := Port)).has_min {p | s.sau.sessions[p].atLimit} h
  exact ⟨p, hp, fun q hq ha => hmin q ha hq⟩

theorem State.advanceEnd_of_ending {s : State} {e : Ending} (h : s.sau.ending = some e) :
    s.advanceEnd = (s.scuSessionEnd e.port).eluSessionEnd e.port := by
  unfold State.advanceEnd
  rw [h]

theorem State.scuSessionEnd_of_atScu {s : State} {e : Ending} (h : s.sau.ending = some e) (hp : e.phase = .atScu) :
    s.scuSessionEnd e.port = { s with
      scu := s.scu.freeOwned e.port
      sau := { s.sau with ending := some { e with phase := .atElu, freed := s.scu.use e.port } } } := by
  unfold State.scuSessionEnd
  rw [h]
  exact if_pos ⟨rfl, hp⟩

theorem State.scuSessionEnd_of_atElu {s : State} {e : Ending} (h : s.sau.ending = some e) (hp : e.phase = .atElu) :
    s.scuSessionEnd e.port = s := by
  unfold State.scuSessionEnd
  rw [h]
  exact if_neg fun ⟨_, hx⟩ => nomatch hp.symm.trans hx

/-- A session end goes on at the SCU by its next step (R140 step 3). -/
theorem State.tick_of_scuSessionEnd {s : State} {e : Ending} (hs : s.handoversTaken) (hr : s.mail.reports = [])
    (hl : ∃ p : Port, s.sau.sessions[p].atLimit) (he : s.sau.ending = some e) (hp : e.phase = .atScu) :
    s.tick = (s.scuSessionEnd e.port).tick := by
  obtain ⟨p, hlp, hq⟩ := State.exists_first_atLimit hl
  have hu := State.scuSessionEnd_of_atScu he hp
  have hadv : s.advanceEnd = (s.scuSessionEnd e.port).advanceEnd := by
    have hend : (s.scuSessionEnd e.port).sau.ending = some { e with phase := .atElu, freed := s.scu.use e.port } := by
      rw [hu]
    have hstay : (s.scuSessionEnd e.port).scuSessionEnd e.port = s.scuSessionEnd e.port :=
      State.scuSessionEnd_of_atElu (e := { e with phase := .atElu, freed := s.scu.use e.port }) hend rfl
    rw [State.advanceEnd_of_ending he, State.advanceEnd_of_ending hend, hstay]
  have hses : (s.scuSessionEnd e.port).sau.sessions = s.sau.sessions := by rw [hu]
  have hstep : s.SessionStep (s.scuSessionEnd e.port) := by
    rw [State.SessionStep, hses]
    rw [hu]
    exact ⟨rfl, rfl, rfl, rfl, fun _ h => h⟩
  exact hstep.tick_eq hs hr hq (State.expireDue_congr hlp (by rw [hses]; exact hlp) hadv)

/-- The last steps of a session end close it without bringing a timer to its limit (R140 steps 5 to 7). -/
theorem State.finishEnd_sessionStep (s : State) (e : Ending) :
    s.SessionStep (s.finishEnd e) ∧ (s.finishEnd e).sau.ending = none := by
  have hsau : (s.finishEnd e).sau = { s.sau with
      sessions := s.sau.sessions.set e.port.val (s.sau.sessions[e.port].close e.reason), ending := none } := by
    unfold State.finishEnd
    dsimp only
    rw [State.postAll_eq]
    split <;> rfl
  have hmail : ∃ records, (s.finishEnd e).mail = { s.mail with records := records } := by
    unfold State.finishEnd
    dsimp only
    rw [State.postAll_eq]
    split <;> exact ⟨_, rfl⟩
  obtain ⟨records, hmail⟩ := hmail
  refine ⟨?_, by rw [hsau]⟩
  unfold State.SessionStep
  rw [hmail]
  refine ⟨rfl, rfl, rfl, rfl, fun q h => ?_⟩
  have hset : (s.finishEnd e).sau.sessions[q] =
      if q = e.port then s.sau.sessions[e.port].close e.reason else s.sau.sessions[q] := by
    rw [hsau]
    exact getElem_set_session
  rw [hset] at h
  split at h
  · exact absurd rfl h.2.1
  · exact h

/-- A session end goes on at the ELU by its last step, or waits there and the tick finds it as it is (R140 step 4). -/
theorem State.tick_of_eluSessionEnd {s : State} {e : Ending} (hs : s.handoversTaken) (hr : s.mail.reports = [])
    (hl : ∃ p : Port, s.sau.sessions[p].atLimit) (he : s.sau.ending = some e) (hp : e.phase = .atElu) :
    s.tick = (s.eluSessionEnd e.port).tick := by
  obtain ⟨p, hlp, hq⟩ := State.exists_first_atLimit hl
  have hadv : s.advanceEnd = s.eluSessionEnd e.port := by
    rw [State.advanceEnd_of_ending he, State.scuSessionEnd_of_atElu he hp]
  have hcases : s.eluSessionEnd e.port = s
      ∨ s.eluSessionEnd e.port = ({ s with elu := s.elu.remove e.port } : State).finishEnd e := by
    unfold State.eluSessionEnd
    rw [he]
    dsimp only
    split
    · exact .inr rfl
    · exact .inl rfl
  rcases hcases with hu | hu
  · rw [hu]
  · obtain ⟨hstep, hnone⟩ := State.finishEnd_sessionStep { s with elu := s.elu.remove e.port } e
    rw [← hu] at hstep hnone
    refine State.SessionStep.tick_eq (s := s) hstep hs hr hq ?_
    rw [State.expireDue_of_idle hnone]
    rcases s.expireDue_cases p with ⟨hb, -⟩ | ⟨-, -, ex⟩ | ⟨-, hx, -⟩
    · exact absurd hlp hb
    · rw [ex, hadv]
    · rw [hadv, hnone] at hx
      cases hx

/-- An expiry that meets a session end waiting at the ELU takes its mark by itself (log 35). -/
theorem State.tick_of_mark {s : State} (hs : s.handoversTaken) (hr : s.mail.reports = []) (hw : s.endWaits = true)
    {p : Port} (hp : s.sau.sessions[p].atLimit)
    (hq : ∀ q < p, s.sau.sessions[q].atLimit → s.sau.sessions[q].overdue = true) :
    s.tick = (s.withSession p fun ses => { ses with overdue := true }).tick := by
  generalize hu : (s.withSession p fun ses => { ses with overdue := true }) = u
  have hwu : u.endWaits = true := by
    rw [← hu]
    exact hw
  have hset (q : Port) : u.sau.sessions[q] =
      if q = p then { s.sau.sessions[p] with overdue := true } else s.sau.sessions[q] := by
    rw [← hu]
    exact getElem_set_session
  have hstay {v : State} (hv : v.endWaits = true) {q : Port}
      (h : v.sau.sessions[q].atLimit → v.sau.sessions[q].overdue = true) : v.expireDue q = v := by
    by_cases ha : v.sau.sessions[q].atLimit
    · exact State.expireDue_of_overdue hv (h ha)
    · exact State.expireDue_of_below ha
  have hmark : s.expireDue p = u := by
    have ha := State.advanceEnd_of_endWaits hw
    rcases s.expireDue_cases p with ⟨hb, -⟩ | ⟨-, hn, -⟩ | ⟨-, -, ex⟩
    · exact absurd hp hb
    · rw [ha] at hn
      rw [State.endWaits, hn] at hw
      cases hw
    · rw [ex, ha, hu]
  have htu : u.handoversTaken ∧ u.mail.reports = [] := by
    rw [← hu]
    exact ⟨hs, hr⟩
  refine State.tick_congr_of_settleSessions hs htu.1
    (State.settleSessions_congr p hr htu.2 (fun q h => hstay hw (hq q h)) (fun q h => hstay hwu ?_) ?_)
  · rw [hset, if_neg h.ne]
    exact hq q h
  · rw [hmark, hstay hwu fun _ => by rw [hset, if_pos rfl]]

/-! ## The events of the supervision and the edge of REFCLK (R24, R25, R28, R29) -/

/-- An event of the supervision leaves what the blocks have taken before a tick, and a session end that waits goes on waiting. -/
theorem State.SupervisionStep.settled {s u : State} (h : s.SupervisionStep u) (hs : s.handoversTaken)
    (ht : s.sessionsSettled) : u.handoversTaken ∧ u.sessionsSettled := by
  obtain ⟨r, records, hn, rfl⟩ := h
  have hw : ({ s with rsv := r, mail := { s.mail with records := s.mail.records ++ records } } : State).endWaits
      = s.endWaits := by
    unfold State.endWaits
    refine congrArg (Option.any · s.sau.ending) (funext fun e => ?_)
    have hnone : (records.any fun r => r.address.any fun a => a.owner == some e.port) = false := by
      rw [List.any_eq_false]
      intro r hr
      rw [hn r hr]
      nofun
    simp only [List.any_append, hnone, Bool.or_false]
  refine ⟨hs, ht.1, fun p hp => ?_⟩
  rw [hw]
  exact ht.2 p hp

/-- After an event of the supervision that settling makes, and after which it makes the same, the tick is the same. -/
theorem State.SupervisionStep.tick_eq {s u : State} (h : s.SupervisionStep u) (hs : s.handoversTaken)
    (ht : s.sessionsSettled) (h0 : s.mail.refTicks = 0) (hd : s.settleDue = u.settleDue) : s.tick = u.tick := by
  obtain ⟨hsu, htu⟩ := h.settled hs ht
  have hu0 : u.mail.refTicks = 0 := by
    obtain ⟨_, _, -, rfl⟩ := h
    exact h0
  unfold State.tick
  rw [State.catchUp_of_taken hs, State.catchUp_of_taken hsu, State.settleSessions_of_settled ht,
    State.settleSessions_of_settled htu]
  unfold State.tickEdge
  rw [if_neg (by omega), if_neg (by omega), hd]

/-- A window event that is due is made by itself: the window after it is open (R24, R25). -/
theorem State.tick_of_window {s u : State} (hs : s.handoversTaken) (ht : s.sessionsSettled) (h0 : s.mail.refTicks = 0)
    (hw : s.settleWindow = u) (hb : s.WindowBegun u) : s.tick = u.tick := by
  obtain ⟨hstep, -, hopen⟩ := hb
  refine hstep.tick_eq hs ht h0 ?_
  unfold State.settleDue
  rw [hw, State.settleWindow_of_open hopen]

/-- Everything the expiry after an increment does to a state: the RSV and a record without an address at most. -/
theorem State.SupervisionStep.of_expireIfAtLimit (s : State) (r : Rsv) :
    s.SupervisionStep ({ s with rsv := r } : State).expireIfAtLimit := by
  unfold State.expireIfAtLimit
  split
  · exact .of_posted s _ _ _ _
  · exact .of_rsv s r

/-- An expiry leaves the window and the cycles of the holdover. -/
theorem State.expireIfAtLimit_window (s : State) :
    (s.rsv.windowOpen → s.expireIfAtLimit.rsv.windowOpen) ∧ s.expireIfAtLimit.rsv.ageCycles = s.rsv.ageCycles := by
  unfold State.expireIfAtLimit
  split <;> exact ⟨id, rfl⟩

/-- A holdover second that is due, with no window event before it, is taken by itself (R28). -/
theorem State.tick_of_holdoverSecond {s : State} (hs : s.handoversTaken) (ht : s.sessionsSettled)
    (h0 : s.mail.refTicks = 0) (hh : s.rsv.state = .holdover) (hd : 10000000 ≤ s.rsv.ageCycles) (hopen : s.rsv.windowOpen) :
    s.tick = s.holdoverAgeIncrement.tick := by
  have hu := State.holdoverAgeIncrement_of_due hh hd
  obtain ⟨hkeep, hcycles⟩ := State.expireIfAtLimit_window { s with rsv := s.rsv.incrementAge }
  rw [← hu] at hkeep hcycles
  have hstep : s.SupervisionStep s.holdoverAgeIncrement := by
    rw [hu]
    exact .of_expireIfAtLimit s _
  have hage : s.holdoverAgeIncrement.rsv.ageCycles = 0 := hcycles
  have hstay : s.holdoverAgeIncrement.holdoverAgeIncrement = s.holdoverAgeIncrement :=
    State.holdoverAgeIncrement_of_not_due (by rw [hage]; omega)
  refine hstep.tick_eq hs ht h0 ?_
  unfold State.settleDue
  rw [State.settleWindow_of_open hopen, State.settleWindow_of_open (hkeep hopen), hstay]

/-- The edge of REFCLK at which a settled tick is taken may come by itself (R29, log 5). -/
theorem State.tick_of_refclkEdge {s : State} (hs : s.tickSettled) (h0 : s.mail.refTicks = 0) (hl : s.rsv.state = .locked) :
    s.tick = s.refclkEdge.tick := by
  have ⟨hh, ht, hn⟩ := hs
  have hu := State.refclkEdge_eq (State.settleWindow_of_nothingDue (hn h0))
  rw [if_pos hl] at hu
  have hwaits : s.refclkEdge.mail.refTicks = 1 := by rw [hu, h0]
  have hsu : s.refclkEdge.tickSettled := by
    rw [hu]
    exact ⟨hh, ht, fun h => absurd h (Nat.succ_ne_zero _)⟩
  rw [State.tick_of_settled hs, State.tick_of_settled hsu, State.tickEdge_of_settled hs, if_pos ⟨h0, hl⟩, ← hu,
    State.tickEdge_of_settled hsu, if_neg (by omega)]

/-! ## The statement -/

/-- Settles O8: each thing that stands before the tick is the first that `State.tick` takes. -/
theorem tickTakesWhatStandsBeforeIt : Obligations.TickTakesWhatStandsBeforeIt := by
  intro s u h
  suffices heq : s.tick = u.tick from ⟨s.tick, rfl, congrArg Host.Outcome.next heq.symm⟩
  rcases h with ⟨k, T, rest, hm, h⟩ | ⟨k, T, T', rest, hm, h⟩ | ⟨hscu, hops, h⟩ | ⟨hscu, hops, k, n, T, rest, hm, h⟩
    | ⟨hscu, hops, k, T, T', rest, hm, h⟩ | ⟨hs, r, rest, hm, h⟩ | ⟨hs, hr, he, p, hp, hq, h⟩
    | ⟨hs, hr, hl, e, he, ⟨hp, h⟩ | ⟨hp, h⟩⟩ | ⟨hs, hr, hw, p, hp, hq, rfl⟩ | ⟨hs, ht, h0, he, hg, h⟩
    | ⟨hs, ht, h0, he, hg, hc, hd, h⟩ | ⟨hs, ht, h0, hh, hd, hopen, h⟩ | ⟨hs, h0, hl, h⟩
  · obtain rfl : s.timeAdvance = u := Host.Outcome.next.inj h
    exact State.tick_congr_of_catchUp (State.catchUp_of_toScu hm)
  · obtain rfl : s.stepHandover = u := Host.Outcome.next.inj h
    exact State.tick_congr_of_catchUp (State.catchUp_of_toScu hm)
  · obtain rfl : s.lineOperation = u := Host.Outcome.next.inj h
    exact State.tick_congr_of_catchUp (State.catchUp_of_ops hscu hops)
  · obtain rfl : s.inputSample n s.pins[n] = u := Host.Outcome.next.inj h
    exact State.tick_congr_of_catchUp (State.catchUp_of_toEcu hscu hops hm)
  · obtain rfl : s.ecuStepHandover = u := Host.Outcome.next.inj h
    exact State.tick_congr_of_catchUp (State.catchUp_of_toEcu hscu hops hm)
  · obtain rfl : s.validFrameReport r.port = u := Host.Outcome.next.inj h
    exact State.tick_of_report hs hm
  · obtain rfl : s.idleExpiry p = u := Host.Outcome.next.inj h
    exact State.tick_of_expiry hs hr he hp hq
  · obtain rfl : s.scuSessionEnd e.port = u := Host.Outcome.next.inj h
    exact State.tick_of_scuSessionEnd hs hr hl he hp
  · obtain rfl : s.eluSessionEnd e.port = u := Host.Outcome.next.inj h
    exact State.tick_of_eluSessionEnd hs hr hl he hp
  · exact State.tick_of_mark hs hr hw hp hq
  · obtain rfl : s.missingDeclaration = u := Host.Outcome.next.inj h
    exact State.tick_of_window hs ht h0 (State.settleWindow_of_missing he hg) (State.missingDeclaration_begins he hg)
  · obtain rfl : s.windowClose = u := Host.Outcome.next.inj h
    exact State.tick_of_window hs ht h0 (State.settleWindow_of_close hg) (State.windowClose_begins he hg hc hd)
  · obtain rfl : s.holdoverAgeIncrement = u := Host.Outcome.next.inj h
    exact State.tick_of_holdoverSecond hs ht h0 hh hd hopen
  · obtain rfl : s.refclkEdge = u := Host.Outcome.next.inj h
    exact State.tick_of_refclkEdge hs h0 hl

end Sys2Proof.Machine
end

section
/-! Time advances, steps and primings of the schedule (O19, O20, O21). -/

namespace Sys2Proof.Machine

/-! ## The entries that an event reaches -/

theorem nodup_dueBy (es : Vector Entry 64) (t : Time) : (dueBy es t).Nodup := by
  obtain ⟨h, -⟩ := dueBy_spec es t
  refine h.imp fun {i j} hij he => ?_
  subst he
  unfold dueLt at hij
  rw [Fin.lt_def] at hij
  omega

/-- Two ascending lists with the same members are equal. -/
theorem eq_of_ascending {l m : List Index} (hl : l.Pairwise (· < ·)) (hm : m.Pairwise (· < ·)) (h : ∀ i, i ∈ l ↔ i ∈ m) :
    l = m :=
  List.Perm.eq_of_pairwise (le := (· < ·)) (fun a _ _ _ hab hba => absurd (hab.trans hba) (lt_irrefl a)) hl hm
    ((List.perm_ext_iff_of_nodup (hl.imp fun hab => ne_of_lt hab) (hm.imp fun hab => ne_of_lt hab)).2 h)

theorem pairwise_indexesWhere (es : Vector Entry 64) (f : Entry → Bool) : (indexesWhere es f).Pairwise (· < ·) :=
  (List.pairwise_lt_finRange 64).filter _

/-! ## Time advances and steps (R67, R78) -/

/-- A time advance fires the due entries for one occurrence each (R67, R73). -/
theorem State.timeAdvance_of_advance {s : State} {k : Nat} {T : Time} {rest : List TimeHandover}
    (hm : s.mail.toScu = .advance k T :: rest) : ∃ es : Vector Entry 64,
    s.timeAdvance = ({ s with mail := { s.mail with toScu := rest }, scu := { s.scu with now := T } } : State).afterEntries es
        ((dueBy s.scu.entries T).flatMap fun i => s.scu.entries[i].action.toList)
        ((dueBy s.scu.entries T).flatMap fun i => if s.scu.entries[i].scope = .nobody then []
          else [firePosted i s.scu.entries[i] 1 T .advance s.quality { turn := some k }])
      ∧ (∀ i ∈ dueBy s.scu.entries T, es[i] = s.scu.entries[i].consume 1)
      ∧ ∀ i, i ∉ dueBy s.scu.entries T → es[i] = s.scu.entries[i] := by
  unfold State.timeAdvance
  rw [hm]
  refine State.foldl_entries _ _ _ _ _ (nodup_dueBy ..) _ fun t i _ hq _ he => ?_
  rw [State.fire_after, he, hq]
  rfl

/-- A forward step treats the entries it passes, each for the occurrences it passes (R79, R80). -/
theorem State.stepHandover_of_forward {s : State} {k : Nat} {old new : Time} {rest : List TimeHandover}
    (hm : s.mail.toScu = .step k old new :: rest) (hlt : old < new) : ∃ es : Vector Entry 64,
    s.stepHandover = ({ s with mail := { s.mail with toScu := rest }, scu := { s.scu with now := new } } : State).afterEntries es
        ((dueBy s.scu.entries new).flatMap fun i => s.scu.entries[i].treatOps)
        ((dueBy s.scu.entries new).flatMap fun i =>
          s.scu.entries[i].treatRecords i (s.scu.entries[i].passed new) new .stepped s.quality { turn := some k })
      ∧ (∀ i ∈ dueBy s.scu.entries new, es[i] = s.scu.entries[i].consume (s.scu.entries[i].passed new))
      ∧ ∀ i, i ∉ dueBy s.scu.entries new → es[i] = s.scu.entries[i] := by
  unfold State.stepHandover
  rw [hm]
  dsimp only
  rw [if_pos hlt]
  refine State.foldl_entries _ _ _ _ _ (nodup_dueBy ..) _ fun t i _ hq _ he => ?_
  rw [State.treat_after, he, hq]
  rfl

/-- A step that does not go forward gives the SCU its time alone (R78). -/
theorem State.stepHandover_of_not_forward {s : State} {k : Nat} {old new : Time} {rest : List TimeHandover}
    (hm : s.mail.toScu = .step k old new :: rest) (hle : new ≤ old) :
    s.stepHandover = { s with scu := { s.scu with now := new }, mail := { s.mail with toScu := rest } } := by
  unfold State.stepHandover
  rw [hm]
  exact if_neg (Nat.not_lt.2 hle)

/-- Settles O19: the list that names the due entries in order is the one `State.timeAdvance` goes through. -/
theorem timeAdvanceFires : Obligations.TimeAdvanceFires := by
  intro s k T rest l hm hl
  obtain ⟨es, e, hin, hout⟩ := State.timeAdvance_of_advance hm
  rw [State.dueInOrder_eq hl] at e hin hout
  refine ⟨s.timeAdvance, rfl, ?_⟩
  rw [e]
  exact ⟨hin, hout, rfl⟩

/-- Settles O20, by the direction of the step. -/
theorem stepTreatsPassedEntries : Obligations.StepTreatsPassedEntries := by
  refine fun s k old new rest hm => ⟨fun hle => congrArg Host.Outcome.next (State.stepHandover_of_not_forward hm hle),
    fun l hlt hl => ?_⟩
  obtain ⟨es, e, hin, hout⟩ := State.stepHandover_of_forward hm hlt
  rw [State.dueInOrder_eq hl] at e hin hout
  refine ⟨s.stepHandover, rfl, ?_⟩
  rw [e]
  exact ⟨hin, hout, rfl⟩

/-! ## Primings (R58, R83) -/

theorem State.withEntry_after (s : State) (i : Index) (e : Entry) :
    s.withEntry i e = s.afterEntries (s.scu.entries.set i.val e) [] [] := by
  simp [State.withEntry, State.afterEntries]

theorem State.withEntry_entry (s : State) (i : Index) (e : Entry) : (s.withEntry i e).scu.entries[i] = e := by simp

/-- An event on an entry that was set before it overwrites it. -/
theorem State.withEntry_afterEntries (s : State) (i : Index) (e x : Entry) (ops : List Action) (records : List Posted) :
    (s.withEntry i e).afterEntries ((s.withEntry i e).scu.entries.set i.val x) ops records
      = s.afterEntries (s.scu.entries.set i.val x) ops records := by
  simp [State.withEntry, State.afterEntries]

/-- An entry that is set and treated at once leaves what its treatment leaves (R82, R83). -/
theorem State.withEntry_treat (s : State) (i : Index) (e : Entry) (t : Time) (cause : Cause) (links : Links) :
    (s.withEntry i e).treat i t cause links = s.afterEntries (s.scu.entries.set i.val (e.consume (e.passed t))) e.treatOps
      (e.treatRecords i (e.passed t) t cause s.quality links) := by
  rw [State.treat_after, State.withEntry_entry, State.withEntry_afterEntries]
  rfl

/-- The MISSED record of an entry whose due lies past the maximum at its priming (R83). -/
def overflowPosted (i : Index) (e : Entry) (now : Time) (quality : Quality) (links : Links) : Posted :=
  { producer := .scu, quality, time := now, links, body := .missed i e.generation e.label 0 0 .atArm true
    address := some { owner := e.owner, all := decide (e.scope = .all ∨ e.owner = none) } }

theorem State.primeOverflow_after (s : State) (i : Index) (links : Links) :
    s.primeOverflow i links = s.afterEntries (s.scu.entries.set i.val s.scu.entries[i].ended) []
      [overflowPosted i s.scu.entries[i] s.scu.now s.quality links] := by
  simp [State.primeOverflow, State.afterEntries, State.withEntry, overflowPosted, Entry.missAddress]

section
variable {s : State} {i : Index} {stamp D : Time} {links : Links}

/-- A due past the maximum ends the entry (R83). -/
theorem State.primeEntry_of_past_max (hD : D = stamp + (s.scu.entries[i].prime.map PrimeSpec.delay).getD 0)
    (h : Config.maxTime < D) : s.primeEntry stamp links i = s.primeOverflow i links := by
  subst hD
  exact if_pos h

/-- A due ahead stands (R58). -/
theorem State.primeEntry_of_ahead (hD : D = stamp + (s.scu.entries[i].prime.map PrimeSpec.delay).getD 0)
    (hm : D ≤ Config.maxTime) (h : s.scu.now < D) :
    s.primeEntry stamp links i = s.withEntry i { s.scu.entries[i] with state := .armed, due := some D } := by
  subst hD
  exact (if_neg (Nat.not_lt.2 hm)).trans (if_pos h)

/-- A past due of a one-shot entry is treated at once (R83). -/
theorem State.primeEntry_of_oneShot (hD : D = stamp + (s.scu.entries[i].prime.map PrimeSpec.delay).getD 0)
    (hm : D ≤ Config.maxTime) (h : D ≤ s.scu.now) (hp : s.scu.entries[i].period = none) :
    s.primeEntry stamp links i =
      (s.withEntry i { s.scu.entries[i] with state := .armed, due := some D }).treat i s.scu.now .atArm links := by
  subst hD
  unfold State.primeEntry
  dsimp only
  rw [if_neg (Nat.not_lt.2 hm), if_neg (Nat.not_lt.2 h), hp]

/-- A past due of a periodic entry moves to its first due ahead, which ends the entry if it lies past the maximum (R83). -/
theorem State.primeEntry_of_periodic (hD : D = stamp + (s.scu.entries[i].prime.map PrimeSpec.delay).getD 0)
    (hm : D ≤ Config.maxTime) (h : D ≤ s.scu.now) {P : Nat} (hp : s.scu.entries[i].period = some P) :
    s.primeEntry stamp links i = if Config.maxTime < advancePast D P s.scu.now then s.primeOverflow i links
      else s.withEntry i { s.scu.entries[i] with state := .armed, due := some (advancePast D P s.scu.now) } := by
  subst hD
  unfold State.primeEntry
  dsimp only
  rw [if_neg (Nat.not_lt.2 hm), if_neg (Nat.not_lt.2 h), hp]

end

/-- The end of a PRIMED entry: PRIMED again without a due, or FREE (R72). -/
theorem Entry.ended_of_primed {e : Entry} (h : e.state = .primed) : e.ended =
    if e.rearms = true then { e with due := none, remaining := e.initial } else Entry.free ((e.generation + 1) % 256) := by
  unfold Entry.ended
  rw [← h]
  rfl

/-- An edge arms the PRIMED entries of its input whose edge is its direction or ANY (R58). -/
theorem Entry.primedFor_iff (e : Entry) (edge : Priming) : e.primedFor edge = true ↔
    e.state = .primed ∧ ∃ q, e.prime = some q ∧ q.input = edge.input
      ∧ (q.edge = .any ∨ q.edge = .rise ∧ edge.direction = .rise ∨ q.edge = .fall ∧ edge.direction = .fall) := by
  have hdir (x : PrimeEdge) (y : Direction) :
      x.matchesDir y = true ↔ x = .any ∨ x = .rise ∧ y = .rise ∨ x = .fall ∧ y = .fall := by cases x <;> cases y <;> decide
  have hst : (e.state == .primed) = true ↔ e.state = .primed := by cases e.state <;> decide
  unfold Entry.primedFor
  rw [Bool.and_eq_true, hst]
  cases e.prime <;> simp [hdir]

/-- The oldest edge of an input is taken once the SCU has taken its tick (R58, R107, log 12). -/
theorem State.primingHandover_of_took {s : State} {edge : Priming} {before rest : List Priming}
    (hm : s.mail.primings = before ++ edge :: rest) (hb : ∀ e ∈ before, e.input ≠ edge.input)
    (ht : s.scuTook edge.turn = true) : s.primingHandover edge.input =
      (indexesWhere s.scu.entries (·.primedFor edge)).foldl (fun s i => s.primeEntry edge.stamp edge.links i)
        { s with mail := { s.mail with primings := before ++ rest } } := by
  unfold State.primingHandover
  rw [hm, takePriming_at hb]
  exact if_pos ht

/-- Settles O21: each matching entry goes by one of the four cases of its due. -/
theorem primingArmsMatchingEntries : Obligations.PrimingArmsMatchingEntries := by
  refine fun s edge before rest hm hb => ⟨fun ⟨h, hh, hle⟩ => ?_, ?_⟩
  · have ht : ¬ s.scuTook edge.turn = true := fun ht => absurd ((s.scuTook_iff edge.turn).1 ht h hh) (Nat.not_lt.2 hle)
    show Host.Outcome.next (s.primingHandover edge.input) = _
    unfold State.primingHandover
    rw [hm, takePriming_at hb]
    exact congrArg Host.Outcome.next (if_neg ht)
  intro l D armed ops posted links ht hlinks hl hmem hD hcase hper
  subst hlinks
  have hlist : indexesWhere s.scu.entries (·.primedFor edge) = l :=
    eq_of_ascending (pairwise_indexesWhere ..) hl fun i => by rw [mem_indexesWhere, Entry.primedFor_iff, hmem]
  have hact (t : State) (i : Index) (hi : i ∈ l) (hq : t.quality = s.quality) (hn : t.scu.now = s.scu.now)
      (he : t.scu.entries[i] = s.scu.entries[i]) : t.primeEntry edge.stamp edge.links i
        = t.afterEntries (t.scu.entries.set i.val (armed i)) (ops i) (posted i) := by
    obtain ⟨hst, q, hp, -⟩ := (hmem i).1 hi
    have hDi : D i = edge.stamp + (t.scu.entries[i].prime.map PrimeSpec.delay).getD 0 := by rw [he, hp, hD i q hp]; rfl
    obtain ⟨hahead, hshot, hnext, hover⟩ := hcase i hi _ rfl
    have overflow (h : Config.maxTime < D i ∨ D i ≤ s.scu.now ∧ ∃ P n, s.scu.entries[i].period = some P ∧ 1 ≤ n
        ∧ D i + (n - 1) * P ≤ s.scu.now ∧ s.scu.now < D i + n * P ∧ Config.maxTime < D i + n * P) :
        t.primeOverflow i edge.links = t.afterEntries (t.scu.entries.set i.val (armed i)) (ops i) (posted i) := by
      obtain ⟨e1, e2, e3⟩ := hover h
      rw [State.primeOverflow_after, e1, e2, e3, he, hn, hq, Entry.ended_of_primed hst]
      rfl
    rcases Nat.lt_or_ge Config.maxTime (D i) with hx | hx
    · rw [State.primeEntry_of_past_max hDi hx]
      exact overflow (.inl hx)
    rcases Nat.lt_or_ge s.scu.now (D i) with hy | hy
    · obtain ⟨e1, e2, e3⟩ := hahead hx hy
      rw [State.primeEntry_of_ahead hDi hx (hn.symm ▸ hy), State.withEntry_after, e1, e2, e3, he]
    cases hP : s.scu.entries[i].period with
    | none =>
      obtain ⟨e1, e2, e3⟩ := hshot hx hy hP
      rw [State.primeEntry_of_oneShot hDi hx (hn.symm ▸ hy) (by rw [he, hP]), State.withEntry_treat, e1, e2, e3, he, hn, hq]
      unfold Entry.passed
      simp only [hP]
      rfl
    | some P =>
      obtain ⟨n, h1, h2, h3⟩ := exists_occurrences (D i) P s.scu.now (hper i hi P hP) hy
      have hadv : advancePast (D i) P t.scu.now = D i + n * P := by rw [hn]; exact advancePast_eq h1 h2 h3
      rw [State.primeEntry_of_periodic hDi hx (hn.symm ▸ hy) (by rw [he, hP]), hadv]
      split
      next hz => exact overflow (.inr ⟨hy, P, n, hP, h1, h2, h3, hz⟩)
      next hz =>
        obtain ⟨e1, e2, e3⟩ := hnext P n hx hy hP h1 h2 h3 (Nat.le_of_not_lt hz)
        rw [State.withEntry_after, e1, e2, e3, he]
  obtain ⟨es, e, hin, hout⟩ := State.foldl_entries (fun s i => s.primeEntry edge.stamp edge.links i) armed ops posted l
    (hl.imp fun h => ne_of_lt h) { s with mail := { s.mail with primings := before ++ rest } } hact
  refine ⟨s.primingHandover edge.input, rfl, ?_⟩
  rw [State.primingHandover_of_took hm hb ((s.scuTook_iff _).2 ht), hlist, e]
  exact ⟨hin, hout, rfl⟩

end Sys2Proof.Machine
end

section
/-! The requests that name a handle, and LIST_ENTRIES (O25, O26, O27, O28). -/

namespace Sys2Proof.Machine

/-! ## The checks of a handle (R46, R48) -/

theorem indexOf_val (i : Index) : indexOf i.val = some i := dif_pos i.isLt

theorem index_byte (i : Index) : (BitVec.ofNat 8 i.val).toNat = i.val := toNat_ofNat_of_lt (by omega)

/-- The two fields of a handle, whatever follows it (R165). -/
theorem fieldNat_handle (b g : Byte) (tail : List Byte) :
    fieldNat ([b, g] ++ tail) 0 1 = b.toNat ∧ fieldNat ([b, g] ++ tail) 1 1 = g.toNat :=
  ⟨fieldNat_cons_zero .., (fieldNat_cons_succ ..).trans (fieldNat_cons_zero ..)⟩

section
variable {s : State} {p : Port} {l : List Byte} {k : Index → Reply} {i : Index}

theorem State.withHandle_of_range (ha : s.sau.sessions[p].attached = true) (h : 63 < fieldNat l 0 1) :
    s.withHandle p l k = s.refuse .range := by
  unfold State.withHandle
  rw [State.ifAttached_of_attached ha, indexOf_eq_none.2 h, State.ifInRange_none]

theorem State.withHandle_of_index (ha : s.sau.sessions[p].attached = true) (hi : fieldNat l 0 1 = i.val) :
    s.withHandle p l k =
      if s.scu.entries[i].state = .free ∨ s.scu.entries[i].generation ≠ fieldNat l 1 1 then s.refuse .staleHandle
      else match s.scu.entries[i].owner with
        | some q => if q = p then k i else s.refuse .notOwner
        | none => if s.sau.holder = some p then k i else s.refuse .notAuthority := by
  unfold State.withHandle
  rw [State.ifAttached_of_attached ha, hi, indexOf_val]
  rfl

/-- A current handle of an entry that the port owns, or that is detached while the port holds the authority, passes the checks. -/
theorem State.withHandle_of_valid (ha : s.sau.sessions[p].attached = true) (hi : fieldNat l 0 1 = i.val)
    (hs : s.scu.entries[i].state ≠ .free) (hg : s.scu.entries[i].generation = fieldNat l 1 1)
    (ho : s.scu.entries[i].owner = some p ∨ s.scu.entries[i].owner = none ∧ s.sau.holder = some p) :
    s.withHandle p l k = k i := by
  rw [State.withHandle_of_index ha hi, if_neg (not_or.2 ⟨hs, not_not.2 hg⟩)]
  rcases ho with ho | ⟨ho, hh⟩
  · rw [ho]
    exact if_pos rfl
  · rw [ho]
    exact if_pos hh

end

/-- A request that its service accepts by its handle is answered by what it does to the entry. -/
theorem State.serve_of_handle {s : State} {p : Port} {g : Byte} {d : Bool} {c : Code} {i : Index} {e : Entry} {tail : List Byte}
    {k : List Byte → Index → Reply} (h : s.asks p g d c ([BitVec.ofNat 8 i.val, BitVec.ofNat 8 e.generation] ++ tail))
    (ha : s.sau.sessions[p].attached = true) (he : e = s.scu.entries[i]) (hs : e.state ≠ .free) (hg : e.generation < 256)
    (ho : e.owner = some p ∨ e.owner = none ∧ s.sau.holder = some p) {r : Reply}
    (hr : k ([BitVec.ofNat 8 i.val, BitVec.ofNat 8 e.generation] ++ tail) i = r) (hk : r.state.hpu = s.hpu) :
    s.serve p c (fun l => s.withHandle p l (k l)) = r.state.answered p g d r.result r.payload := by
  subst he
  have ⟨h0, h1⟩ := fieldNat_handle (BitVec.ofNat 8 i.val) (BitVec.ofNat 8 s.scu.entries[i].generation) tail
  generalize [BitVec.ofNat 8 i.val, BitVec.ofNat 8 s.scu.entries[i].generation] ++ tail = l at *
  have hv : s.withHandle p l (k l) = r :=
    (State.withHandle_of_valid ha (h0.trans (index_byte i)) hs (h1.trans (toNat_ofNat_of_lt hg)).symm ho).trans hr
  rw [State.serve_of_asks h (by rw [hv]; exact hk), hv]

/-- Settles O25: the four commands make the same checks. -/
theorem handleChecks : Obligations.HandleChecks := by
  intro s p tag d index generation tail command code hc h
  obtain ⟨k, hk⟩ : ∃ k : List Byte → Index → Reply,
      exec command s = .next (s.serve p code fun l => s.withHandle p l (k l)) := by
    rcases hc with ⟨rfl, rfl⟩ | ⟨rfl, rfl⟩ | ⟨rfl, rfl⟩ | ⟨rfl, rfl⟩
    exacts [⟨fun _ => s.cancelAt, rfl⟩, ⟨fun _ => s.holdAt, rfl⟩, ⟨s.resumeAt, rfl⟩,
      ⟨fun _ i => s.report s.scu.entries[i].bytes, rfl⟩]
  have ⟨h0, h1⟩ := fieldNat_handle index generation tail
  generalize [index, generation] ++ tail = l at *
  have refused {r : Result} (hr : s.withHandle p l (k l) = s.refuse r) :
      exec command s = .next (s.answered p tag d r []) :=
    hk.trans (congrArg Host.Outcome.next (State.serve_of_refused h hr))
  refine ⟨fun hd => refused (State.ifAttached_of_detached hd), fun ha => ⟨fun hx => refused ?_, fun i hi => ?_⟩⟩
  · exact State.withHandle_of_range ha (by rw [h0]; exact hx)
  have hi' := h0.trans hi.symm
  refine ⟨fun hx => refused ?_, fun hs hg => ⟨fun q ho hq => refused ?_, fun ho hh => refused ?_⟩⟩
  · rw [State.withHandle_of_index ha hi', h1]
    exact if_pos hx
  · rw [State.withHandle_of_index ha hi', h1, if_neg (not_or.2 ⟨hs, not_not.2 hg⟩), ho]
    exact if_neg hq
  · rw [State.withHandle_of_index ha hi', h1, if_neg (not_or.2 ⟨hs, not_not.2 hg⟩), ho]
    exact if_neg hh

/-! ## CANCEL and HOLD (R59, R61) -/

/-- Settles O26: the checked handle comes to `State.cancelAt` and `State.holdAt`. -/
theorem cancelAndHold : Obligations.CancelAndHold := by
  intro s p tag d i e handle ha he hs hg ho hh
  subst hh
  refine ⟨fun h => ?_, fun D h hst hD => ?_, fun h hst => ?_⟩
  · have hk := State.serve_of_handle (k := fun _ => s.cancelAt) (tail := []) h ha he hs hg ho rfl rfl
    refine (congrArg Host.Outcome.next hk).trans ?_
    dsimp only [State.cancelAt]
    rw [← he]
    cases e.state <;> rfl
  · have hr : s.holdAt i =
        { state := s.withEntry i { e with state := .held }, result := .ok, payload := timeBytes D } := by
      unfold State.holdAt
      rw [← he]
      refine (if_pos hst).trans ?_
      rw [Entry.dueTime, hD]
      rfl
    exact congrArg Host.Outcome.next (State.serve_of_handle (k := fun _ => s.holdAt) (tail := []) h ha he hs hg ho hr rfl)
  · have hr : s.holdAt i = s.refuse .badState := by
      unfold State.holdAt
      rw [← he]
      exact if_neg hst
    exact congrArg Host.Outcome.next (State.serve_of_handle (k := fun _ => s.holdAt) (tail := []) h ha he hs hg ho hr rfl)

/-! ## RESUME (R60, R82) -/

theorem State.resumeAt_of_not_held {s : State} {i : Index} (l : List Byte) (h : s.scu.entries[i].state ≠ .held) :
    s.resumeAt l i = s.refuse .badState := if_neg h

theorem State.resumeAt_of_range {s : State} {i : Index} {l : List Byte} (h : s.scu.entries[i].state = .held)
    (hd : resumeDue l s.scu.entries[i].dueTime = none) : s.resumeAt l i = s.refuse .range := by
  unfold State.resumeAt
  dsimp only
  rw [if_pos h, hd, State.ifInRange_none]

/-- A due ahead makes a HELD entry ARMED (R60). -/
theorem State.resumeAt_of_ahead {s : State} {i : Index} {l : List Byte} {due : Time} (h : s.scu.entries[i].state = .held)
    (hd : resumeDue l s.scu.entries[i].dueTime = some due) (hn : s.scu.now < due) :
    s.resumeAt l i = {
      state := s.withEntry i { s.scu.entries[i] with state := .armed, due := some due }, result := .ok
      payload := [1] ++ timeBytes due ++ [0, 0, 0, 0] } := by
  unfold State.resumeAt
  dsimp only
  rw [if_pos h, hd, State.ifInRange_some, decide_eq_false (Nat.not_le.2 hn)]
  simp only [Bool.false_eq_true, if_false, State.withEntry_entry]
  rfl

/-- A due passed is treated at once, for the occurrences it covers (R82). -/
theorem State.resumeAt_of_late {s : State} {i : Index} {l : List Byte} {due : Time} {a : Entry}
    (h : s.scu.entries[i].state = .held) (hd : resumeDue l s.scu.entries[i].dueTime = some due)
    (ha : a = { s.scu.entries[i] with state := .armed, due := some due }) (hn : due ≤ s.scu.now) :
    let b := a.consume (a.passed s.scu.now)
    s.resumeAt l i = {
      state := s.afterEntries (s.scu.entries.set i.val b) a.treatOps
        (a.treatRecords i (a.passed s.scu.now) s.scu.now .resumed s.quality {})
      result := .ok
      payload := [b.state.code] ++ timeBytes (if b.state = .armed then b.dueTime else 0)
        ++ beBytes (min (a.passed s.scu.now) 4294967295) 4 } := by
  intro b
  unfold State.resumeAt
  dsimp only
  rw [if_pos h, hd, State.ifInRange_some, decide_eq_true hn, ← ha]
  simp only [if_true, State.withEntry_treat]
  have hb : (s.afterEntries (s.scu.entries.set i.val b) a.treatOps
      (a.treatRecords i (a.passed s.scu.now) s.scu.now .resumed s.quality {})).scu.entries[i] = b := by
    simp [State.afterEntries]
  rw [hb]

/-- The due that a RESUME names, and the one held where it names none (R60). -/
theorem resumeDue_of_fresh {b g : Byte} {l : List Byte} (h : l.length = 8) (held : Time) :
    resumeDue ([b, g] ++ l) held = fieldTime l 0 := by
  unfold resumeDue
  rw [if_pos (by simp [h])]
  exact fieldTime_append_at (k := 2) (offset := 0) rfl

theorem resumeDue_of_held (b g : Byte) (held : Time) : resumeDue ([b, g] ++ []) held = some held := if_neg (by simp)

/-- Settles O27: `State.resumeAt` by the state of the entry and the place of the due. -/
theorem resumeArmsOrTreats : Obligations.ResumeArmsOrTreats := by
  intro s p tag d i e due fresh handle ha he hg ho hh
  subst hh
  refine ⟨fun payload hst h => ?_, fun payload hst hl hf h => ?_, fun a hst hm hd h hea => ?_⟩
  · have hs : e.state ≠ .free ∧ e.state ≠ .held := by rcases hst with x | x <;> rw [x] <;> exact ⟨nofun, nofun⟩
    have hr := State.resumeAt_of_not_held ([BitVec.ofNat 8 i.val, BitVec.ofNat 8 e.generation] ++ payload)
      (he ▸ hs.2 : s.scu.entries[i].state ≠ .held)
    exact congrArg Host.Outcome.next (State.serve_of_handle (k := s.resumeAt) h ha he hs.1 hg ho hr rfl)
  · have hr := State.resumeAt_of_range (l := [BitVec.ofNat 8 i.val, BitVec.ofNat 8 e.generation] ++ payload)
      (he ▸ hst : s.scu.entries[i].state = .held) (by rw [resumeDue_of_fresh hl, fieldTime_eq_none]; exact hf)
    exact congrArg Host.Outcome.next (State.serve_of_handle (k := s.resumeAt) h ha he (by rw [hst]; nofun) hg ho hr rfl)
  have hst' : s.scu.entries[i].state = .held := he ▸ hst
  have hs : e.state ≠ .free := by rw [hst]; nofun
  have hdue : resumeDue ([BitVec.ofNat 8 i.val, BitVec.ofNat 8 e.generation] ++ if fresh = true then timeBytes due else [])
      s.scu.entries[i].dueTime = some due := by
    cases fresh with
    | true => exact (resumeDue_of_fresh (length_timeBytes due) _).trans (fieldTime_timeBytes hm)
    | false =>
      refine (resumeDue_of_held ..).trans ?_
      rw [← he, Entry.dueTime, hd rfl]
      rfl
  rw [he] at hea
  refine ⟨fun hn => ?_, fun k b hn hk hb => ?_⟩
  · have hr := State.resumeAt_of_ahead hst' hdue hn
    rw [hea]
    exact congrArg Host.Outcome.next (State.serve_of_handle (k := s.resumeAt) h ha he hs hg ho hr rfl)
  · have hr := State.resumeAt_of_late hst' hdue hea hn
    rw [← hk, ← hb] at hr
    refine (congrArg Host.Outcome.next (State.serve_of_handle (k := s.resumeAt) h ha he hs hg ho hr rfl)).trans ?_
    dsimp only
    cases b.state <;> rfl

end Sys2Proof.Machine
end

section
/-! The reports of the schedule table (O28). -/

namespace Sys2Proof.Machine

/-! ## QUERY_ENTRY (R62) -/

theorem EntryState.code_eq (x : EntryState) : x.code = match x with | .free => 0 | .armed => 1 | .primed => 2 | .held => 3 := by
  cases x <;> rfl

theorem LineOp.code_eq (x : LineOp) : x.code = match x with | .pulse => 0 | .set => 1 | .clear => 2 | .toggle => 3 := by
  cases x <;> rfl

theorem Scope.code_eq (x : Scope) : x.code = match x with | .nobody => 0 | .owner => 1 | .all => 2 := by cases x <;> rfl

theorem LatePolicy.code_eq (x : LatePolicy) : x.code = match x with | .catchup => 0 | .skip => 1 := by cases x <;> rfl

theorem PrimeEdge.code_eq (x : PrimeEdge) : x.code = match x with | .rise => 0 | .fall => 1 | .any => 2 := by cases x <;> rfl

/-- The presence bits of QUERY_ENTRY as a sum (10, packed bytes). -/
theorem flagByte_seven : ∀ a b c d e f g : Bool, flagByte [a, b, c, d, e, f, g] = BitVec.ofNat 8
    ((if a then 1 else 0) + (if b then 2 else 0) + (if c then 4 else 0) + (if d then 8 else 0) + (if e then 16 else 0)
      + (if f then 32 else 0) + (if g then 64 else 0)) := by decide

theorem Entry.presence_eq (e : Entry) :
    flagByte [e.owner.isNone, e.due.isSome, e.period.isSome, e.remaining.isSome, e.initial.isSome, e.action.isSome,
      e.prime.isSome] = BitVec.ofNat 8 ((if e.owner = none then 1 else 0) + (if e.due ≠ none then 2 else 0)
          + (if e.period ≠ none then 4 else 0) + (if e.remaining ≠ none then 8 else 0)
          + (if e.initial ≠ none then 16 else 0) + (if e.action ≠ none then 32 else 0)
          + (if e.prime ≠ none then 64 else 0)) := by
  rw [flagByte_seven]
  simp only [Option.isNone_iff_eq_none, Option.isSome_iff_ne_none]

/-! ## LIST_ENTRIES (R63) -/

theorem State.listable_iff (s : State) (p : Port) (e : Entry) : s.listable p e = true ↔
    e.state ≠ .free ∧ (e.owner = some p ∨ e.owner = none ∧ s.sau.holder = some p) := by
  have hst : (e.state != .free) = true ↔ e.state ≠ .free := by cases e.state <;> decide
  unfold State.listable
  rw [Bool.and_eq_true, hst]
  simp

/-- The entries that qualify from a start index, shown up to 32 of them. -/
theorem State.listReport_of {s : State} {p : Port} {start : Index} {shown more : List Index}
    (hl : (shown ++ more).Pairwise (· < ·))
    (hmem : ∀ i : Index, i ∈ shown ++ more ↔ start.val ≤ i.val ∧ s.scu.entries[i].state ≠ .free
      ∧ (s.scu.entries[i].owner = some p ∨ s.scu.entries[i].owner = none ∧ s.sau.holder = some p))
    (hn : shown.length = 32 ∨ shown.length < 32 ∧ more = []) :
    s.listReport p start = [BitVec.ofNat 8 shown.length, if more = [] then 0 else 1] ++ shown.flatMap fun i =>
      handleBytes i s.scu.entries[i].generation ++ [s.scu.entries[i].state.code] := by
  have hfound : ((indexesWhere s.scu.entries (s.listable p)).filter fun i => decide (start ≤ i)) = shown ++ more := by
    refine eq_of_ascending ((pairwise_indexesWhere ..).filter _) hl fun i => ?_
    rw [List.mem_filter, mem_indexesWhere, State.listable_iff, decide_eq_true_eq, hmem, and_comm, Fin.le_def]
  have hshown : (shown ++ more).take 32 = shown := by
    rcases hn with h | ⟨h, rfl⟩
    · rw [← h, List.take_left]
    · rw [List.append_nil, List.take_of_length_le (by omega)]
  have hmore : boolCode (decide (32 < (shown ++ more).length)) = if more = [] then 0 else 1 := by
    rw [List.length_append]
    rcases hn with h | ⟨h, rfl⟩
    · rw [h]
      cases more <;> simp [boolCode]
    · have : ¬ 32 < shown.length + ([] : List Index).length := by rw [List.length_nil]; omega
      rw [decide_eq_false this]
      rfl
  dsimp only [State.listReport]
  rw [hfound, hshown, hmore]

/-- Settles O28: the layout of `Entry.bytes` field by field, and the entries of `State.listReport`. -/
theorem entriesReported : Obligations.EntriesReported := by
  refine ⟨fun s p tag d i e h ha he hs hg ho => ?_, fun s p tag d start h => ⟨fun hd => ?_, fun ha hx => ?_,
    fun shown more ha hx hl hmem hn => ?_⟩⟩
  · have hk := State.serve_of_handle (k := fun _ i => s.report s.scu.entries[i].bytes) (tail := []) h ha he hs hg ho rfl rfl
    refine (congrArg Host.Outcome.next hk).trans ?_
    rw [← he]
    refine congrArg (fun l => Host.Outcome.next (s.answered p tag d .ok l)) ?_
    dsimp only [State.report, Entry.bytes]
    rw [Entry.presence_eq, EntryState.code_eq, Scope.code_eq, LatePolicy.code_eq]
    simp only [LineOp.code_eq, PrimeEdge.code_eq, List.append_assoc]
    unfold Entry.rearms
    cases e.action <;> cases e.prime <;> rfl
  · refine congrArg Host.Outcome.next (State.serve_of_refused h (State.ifAttached_of_detached hd))
  · refine congrArg Host.Outcome.next (State.serve_of_refused h ?_)
    rw [State.ifAttached_of_attached ha, indexOf_eq_none.2 (by rw [fieldNat_cons_zero]; exact hx), State.ifInRange_none]
  · have hi : indexOf (fieldNat [start] 0 1) = some (⟨start.toNat, by omega⟩ : Index) := by
      rw [fieldNat_cons_zero]
      exact dif_pos _
    have hf : (s.ifAttached p <| s.ifInRange (indexOf (fieldNat [start] 0 1)) fun start => s.report (s.listReport p start))
        = s.report (s.listReport p ⟨start.toNat, by omega⟩) := by
      rw [State.ifAttached_of_attached ha, hi, State.ifInRange_some]
    refine (congrArg Host.Outcome.next (State.serve_of_asks h (by rw [hf]; rfl))).trans ?_
    rw [hf, State.report_payload, State.listReport_of hl hmem hn]
    simp only [EntryState.code_eq]
    rfl

end Sys2Proof.Machine
end

section
/-! The requests that create entries (O22, O23, O24). -/

namespace Sys2Proof.Machine

/-! ## The detached flag of a creating request (R51) -/

theorem detachedFlag_armPayload (detached : Bool) (due : Time) (c : Creation) :
    detachedFlag (armPayload detached due c) = detached := by
  obtain ⟨h, -⟩ := flagOf_flags c detached
  exact h

theorem detachedFlag_primePayload (detached : Bool) (q : PrimeSpec) (c : Creation) :
    detachedFlag (primePayload detached q c) = detached := by
  obtain ⟨h, -⟩ := flagOf_flags c detached
  exact h

/-! ## ARM (R54 to R56) -/

/-- A one-shot entry that is set and fired at once leaves its index FREE (R55). -/
theorem State.withEntry_fire (s : State) (i : Index) (e : Entry) (k : Nat) (t : Time) (cause : Cause) (links : Links) :
    (s.withEntry i e).fire i k t cause links = s.afterEntries (s.scu.entries.set i.val (e.consume k)) e.action.toList
      (if e.scope = .nobody then [] else [firePosted i e k t cause s.quality links]) := by
  rw [State.fire_after, State.withEntry_entry, State.withEntry_afterEntries]
  rfl

theorem Entry.endsAfter_of_oneShot {e : Entry} (h : e.period = none) (k : Nat) : e.endsAfter k = true := by
  unfold Entry.endsAfter
  rw [h]

theorem Entry.consume_of_oneShot {e : Entry} (h : e.period = none) (hp : e.prime = none) (k : Nat) :
    e.consume k = Entry.free ((e.generation + 1) % 256) := by
  have hre : (e.counted k).rearms = false := by
    show e.prime.any _ = false
    rw [hp]
    rfl
  unfold Entry.consume Entry.ended
  rw [if_pos (Entry.endsAfter_of_oneShot h k), hre]
  rfl

section
variable {s : State} {i : Index} {owner : Option Port} {due : Time} {c : Creation}

/-- A due ahead makes an ARMED entry (R54). -/
theorem State.armAt_of_ahead (h : s.scu.now < due) : s.armAt i owner due c = {
    state := s.withEntry i (c.entry owner s.scu.entries[i].generation (some due) none), result := .ok
    payload := handleBytes i s.scu.entries[i].generation ++ timeBytes due ++ [0] } := if_pos h

/-- A past due of a one-shot CATCHUP entry fires at once (R55). -/
theorem State.armAt_of_catchup (h : due ≤ s.scu.now) (hp : c.period = none) (hc : c.policy = .catchup) :
    s.armAt i owner due c = {
      state := (s.withEntry i (c.entry owner s.scu.entries[i].generation (some due) none)).fire i 1 s.scu.now .atArm
      result := .ok
      payload := handleBytes i s.scu.entries[i].generation ++ timeBytes due ++ [1] } := by
  unfold State.armAt
  dsimp only
  rw [if_neg (Nat.not_lt.2 h), hp, hc]
  rfl

/-- A past due of a one-shot SKIP entry is refused (R55). -/
theorem State.armAt_of_skip (h : due ≤ s.scu.now) (hp : c.period = none) (hc : c.policy = .skip) :
    s.armAt i owner due c = s.refuse .past := by
  unfold State.armAt
  dsimp only
  rw [if_neg (Nat.not_lt.2 h), hp, hc]

/-- A past due of a periodic entry moves to its first due ahead, and is refused past the maximum (R56). -/
theorem State.armAt_of_periodic (h : due ≤ s.scu.now) {P : Nat} (hp : c.period = some P) : s.armAt i owner due c =
    if Config.maxTime < advancePast due P s.scu.now then s.refuse .range else {
      state := s.withEntry i (c.entry owner s.scu.entries[i].generation (some (advancePast due P s.scu.now)) none)
      result := .ok
      payload := handleBytes i s.scu.entries[i].generation ++ timeBytes (advancePast due P s.scu.now) ++ [2] } := by
  unfold State.armAt
  dsimp only
  rw [if_neg (Nat.not_lt.2 h), hp]
  rfl

end

/-- Settles O22: the checks passed, `State.armAt` by the place of the due and the kind of the entry. -/
theorem armCreatesEntry : Obligations.ArmCreatesEntry := by
  intro s p tag d detached i due c owner e handle h hc hdue hcr ho hh he
  have hcreate : s.creating p (armPayload detached due c) (armOperands (armPayload detached due c)) s.armAt
      = s.armAt i owner due c := by
    rw [State.creating_of_creates hcr (detachedFlag_armPayload ..) (armOperands_armPayload hc hdue), ho]
  have answered {r : Reply} (hr : s.armAt i owner due c = r) (hk : r.state.hpu = s.hpu) :
      exec (.arm p) s = .next (r.state.answered p tag d r.result r.payload) := by
    refine (congrArg Host.Outcome.next (State.serve_of_asks h ?_)).trans ?_ <;> rw [hcreate, hr]
    exact hk
  have hentry (x : Time) : c.entry owner s.scu.entries[i].generation (some x) none = { e with due := some x } := by
    rw [he]
    rfl
  subst hh
  refine ⟨fun hn => ?_, fun hn hp hpol => ?_, fun hn hp hpol => ?_, fun P n hn hp h1 h2 h3 => ⟨fun hm => ?_, fun hm => ?_⟩⟩
  · rw [he]
    exact answered (State.armAt_of_ahead hn) rfl
  · have hr := State.armAt_of_catchup (i := i) (owner := owner) hn hp hpol
    have hper : e.period = none := by rw [he]; exact hp
    have hsame : c.entry owner s.scu.entries[i].generation (some due) none = e := he.symm
    rw [hsame, State.withEntry_fire, Entry.consume_of_oneShot hper (by rw [he])] at hr
    refine (answered hr rfl).trans ?_
    unfold firePosted
    rw [Entry.endsAfter_of_oneShot hper, he]
    rfl
  · exact answered (State.armAt_of_skip hn hp hpol) rfl
  · have hr := State.armAt_of_periodic (i := i) (owner := owner) hn hp
    rw [advancePast_eq h1 h2 h3, if_neg (Nat.not_lt.2 hm), hentry] at hr
    exact answered hr rfl
  · have hr := State.armAt_of_periodic (i := i) (owner := owner) hn hp
    rw [advancePast_eq h1 h2 h3, if_pos hm] at hr
    exact answered hr rfl

/-- Settles O23: the checks passed, `State.primeAt` at the index found. -/
theorem primeCreatesEntry : Obligations.PrimeCreatesEntry := by
  intro s p tag d detached i q c h hc hq hcr
  have hcreate : s.creating p (primePayload detached q c) (primeOperands (primePayload detached q c)) s.primeAt
      = s.primeAt i (if detached = true then none else some p) q c :=
    State.creating_of_creates hcr (detachedFlag_primePayload ..) (primeOperands_primePayload hc hq)
  refine (congrArg Host.Outcome.next (State.serve_of_asks h ?_)).trans ?_ <;> rw [hcreate] <;> rfl

/-! ## Fields out of range (R43, R51, R166) -/

theorem periodOperand_eq_none {flags : Byte} {l : List Byte} {k : Nat} (hf : flagOf flags 1 = true)
    (h : 9999999 < fieldNat l (k + 5) 3 ∨ fieldNat l k 5 * 10000000 + fieldNat l (k + 5) 3 < 1000
      ∨ 10000000000000 < fieldNat l k 5 * 10000000 + fieldNat l (k + 5) 3) : periodOperand flags l k = none := by
  unfold periodOperand
  rw [if_pos hf, Option.map_eq_none_iff]
  rcases Nat.lt_or_ge 9999999 (fieldNat l (k + 5) 3) with hx | hx
  · rw [fieldTime_eq_none.2 hx, Option.bind_none]
  · rw [fieldTime_of hx, Option.bind_some, inRange_eq_none]
    exact h.resolve_left (Nat.not_lt.2 hx)

theorem remainingOperand_eq_none {flags : Byte} {l : List Byte} {k : Nat} (hf : flagOf flags 2 = true)
    (h : flagOf flags 1 = false ∨ fieldNat l k 2 = 0) : remainingOperand flags l k = none := by
  unfold remainingOperand
  rw [if_pos hf]
  rcases h with h | h
  · rw [h]
    rfl
  · rw [inRange_eq_none.2 (.inl (by omega)), Option.map_none, ite_self]

theorem actionOperand_eq_none {flags : Byte} {l : List Byte} {k : Nat} (hf : flagOf flags 3 = true)
    (h : 7 < fieldNat l k 1 ∨ 3 < fieldNat l (k + 1) 1) : actionOperand flags l k = none := by
  unfold actionOperand
  rw [if_pos hf]
  rcases h with h | h
  · rw [lineOf_eq_none.2 h, Option.bind_none]
  · rw [LineOp.ofCode_eq_none.2 h]
    cases lineOf (fieldNat l k 1) <;> rfl

theorem scopeOperand_eq_none {flags : Byte} {n : Nat} (h : 2 < n ∨ flagOf flags 0 = true ∧ n = 1) :
    scopeOperand flags n = none := by
  unfold scopeOperand
  rcases h with h | ⟨hf, rfl⟩
  · rw [Scope.ofCode_eq_none.2 h, Option.bind_none]
  · rw [hf]
    rfl

/-- One common field out of range puts the whole creation out of range. -/
theorem creationOperands_eq_none {l : List Byte} {k : Nat} {flag : Nat → Bool} (hf : ∀ b, flag b = (l.getD 0 0).getLsbD b)
    (h : (flag 1 = true ∧ (9999999 < fieldNat l (k + 5) 3
        ∨ fieldNat l k 5 * 10000000 + fieldNat l (k + 5) 3 < 1000
        ∨ 10000000000000 < fieldNat l k 5 * 10000000 + fieldNat l (k + 5) 3))
      ∨ (flag 2 = true ∧ (flag 1 = false ∨ fieldNat l (k + 8) 2 = 0))
      ∨ (flag 3 = true ∧ (7 < fieldNat l (k + 10) 1 ∨ 3 < fieldNat l (k + 11) 1))
      ∨ 2 < fieldNat l (k + 12) 1 ∨ (flag 0 = true ∧ fieldNat l (k + 12) 1 = 1)
      ∨ 1 < fieldNat l (k + 13) 1) : creationOperands l k = none := by
  obtain rfl : flag = flagOf (l.getD 0 0) := funext hf
  unfold creationOperands
  generalize l.getD 0 0 = flags at *
  rcases h with ⟨h1, h⟩ | ⟨h2, h⟩ | ⟨h3, h⟩ | h | h | h
  · simp [periodOperand_eq_none h1 h]
  · simp [remainingOperand_eq_none h2 h]
  · simp [actionOperand_eq_none h3 h]
  · simp [scopeOperand_eq_none (.inl h)]
  · simp [scopeOperand_eq_none (.inr h)]
  · simp [LatePolicy.ofCode_eq_none.2 h]

theorem armOperands_eq_none {l : List Byte} (h : 9999999 < fieldNat l 8 3 ∨ creationOperands l 11 = none) :
    armOperands l = none := by
  rcases h with h | h
  · simp [armOperands, fieldTime_eq_none.2 h]
  · simp [armOperands, h]

theorem primeOperands_eq_none {l : List Byte} (h : 7 < fieldNat l 3 1 ∨ 2 < fieldNat l 4 1 ∨ 100000000 < fieldNat l 5 4
    ∨ 1 < fieldNat l 9 1 ∨ creationOperands l 10 = none) : primeOperands l = none := by
  rcases h with h | h | h | h | h
  · simp [primeOperands, lineOf_eq_none.2 h]
  · simp [primeOperands, PrimeEdge.ofCode_eq_none.2 h]
  · have hd : inRange 0 Config.maxDelay (fieldNat l 5 4) = none := inRange_eq_none.2 (.inr h)
    simp [primeOperands, hd]
  · simp [primeOperands, boolOf_eq_none.2 h]
  · simp [primeOperands, h]

/-! ## Refusals (R49, R51 to R53) -/

/-- An owner may not drive a line that is bound to another port, and a detached entry none that is bound (R52). -/
theorem State.denies_iff (s : State) (p : Port) (d : Bool) (n : Line) : s.denies (if d then none else some p) n = true ↔
    s.tou.lines[n].binding ≠ none ∧ (d = true ∨ s.tou.lines[n].binding ≠ some p) := by
  unfold State.denies
  cases s.tou.lines[n].binding with
  | none => simp
  | some q => cases d <;> simp [eq_comm (a := p)]

section
variable {α : Type} {s : State} {p : Port} {l : List Byte} {o : Option (α × Creation)}
  {k : Index → Option Port → α → Creation → Reply} {d : Bool}

theorem State.creating_of_not_holder (ha : s.sau.sessions[p].attached = true) (hd : detachedFlag l = true)
    (hh : s.sau.holder ≠ some p) : s.creating p l o k = s.refuse .notAuthority := by
  unfold State.creating
  rw [State.ifAttached_of_attached ha, hd, decide_eq_true hh]
  rfl

/-- From a port that may ask for the entry the ranges are checked next (R51). -/
theorem State.creating_of_permitted (ha : s.sau.sessions[p].attached = true) (hd : detachedFlag l = d)
    (hh : d = true → s.sau.holder = some p) : s.creating p l o k = s.ifInRange o fun (a, c) =>
      if c.action.any (fun act => s.denies (if d then none else some p) act.line) then s.refuse .lineDenied
      else if !d && decide (s.scu.quota[p] ≤ s.scu.use p) then s.refuse .quota
      else match s.scu.firstFree with
        | none => s.refuse .tableFull
        | some i => k i (if d then none else some p) a c := by
  have hn : (d && decide (s.sau.holder ≠ some p)) = false := by
    cases d
    · rfl
    · rw [decide_eq_false (not_not.2 (hh rfl))]
      rfl
  unfold State.creating
  rw [State.ifAttached_of_attached ha, hd]
  dsimp only
  rw [hn]
  rfl

end

/-- With no FREE entry there is no index to give (R53). -/
theorem Scu.firstFree_of_full {c : Scu} (h : ∀ i : Index, c.entries[i].state ≠ .free) : c.firstFree = none := by
  unfold Scu.firstFree
  rw [List.head?_eq_none_iff, List.eq_nil_iff_forall_not_mem]
  intro i hi
  exact h i (beq_iff_eq.1 (mem_indexesWhere.1 hi))

/-- Settles O24: the checks of `State.creating` in their order. -/
theorem creationRefused : Obligations.CreationRefused := by
  have next {s : State} {p : Port} {g : Byte} {d : Bool} {c : Code} {l : List Byte} {f : List Byte → Reply} {r : Result}
      (h : s.asks p g d c l) (hf : f l = s.refuse r) :
      Host.Outcome.next (φ := Fault) (ρ := Refusal) (s.serve p c f) = .next (s.answered p g d r []) :=
    congrArg _ (State.serve_of_refused h hf)
  refine ⟨fun s p tag d l ha hd hh => ?_, fun s p tag d l flag common ha hflag hh hcommon => ⟨fun h hx => ?_, fun h hx => ?_⟩,
    fun s p tag d detached due q c command hcmd hc ha hh => ?_⟩
  · have hd' : detachedFlag l = true := by
      unfold detachedFlag flagOf
      rw [BitVec.getLsbD, Nat.testBit_zero, hd]
      rfl
    exact ⟨fun h => next h (State.creating_of_not_holder ha hd' hh), fun h => next h (State.creating_of_not_holder ha hd' hh)⟩
  · refine next h ((State.creating_of_permitted ha (hflag 0).symm hh).trans ?_)
    rw [armOperands_eq_none (hx.imp_right fun hx => creationOperands_eq_none hflag ((hcommon 11).1 hx)), State.ifInRange_none]
  · refine next h ((State.creating_of_permitted ha (hflag 0).symm hh).trans ?_)
    rw [primeOperands_eq_none (hx.imp_right (Or.imp_right (Or.imp_right (Or.imp_right fun hx =>
      creationOperands_eq_none hflag ((hcommon 10).1 hx))))), State.ifInRange_none]
  have refused {r : Result} (hr : ∀ {α : Type} (a : α) (k : Index → Option Port → α → Creation → Reply),
      s.ifInRange (some (a, c)) (fun (a, c) =>
        if c.action.any (fun act => s.denies (if detached then none else some p) act.line) then s.refuse .lineDenied
        else if !detached && decide (s.scu.quota[p] ≤ s.scu.use p) then s.refuse .quota
        else match s.scu.firstFree with
          | none => s.refuse .tableFull
          | some i => k i (if detached then none else some p) a c) = s.refuse r) :
      exec command s = .next (s.answered p tag d r []) := by
    rcases hcmd with ⟨rfl, h, hx⟩ | ⟨rfl, h, hx⟩
    · refine next h ((State.creating_of_permitted ha (detachedFlag_armPayload ..) hh).trans ?_)
      rw [armOperands_armPayload hc hx]
      exact hr _ _
    · refine next h ((State.creating_of_permitted ha (detachedFlag_primePayload ..) hh).trans ?_)
      rw [primeOperands_primePayload hc hx]
      exact hr _ _
  refine ⟨fun a hact hb hp => refused fun _ _ => if_pos ?_, fun hb => ⟨fun hd hq => refused fun _ _ => ?_,
    fun hq hfull => refused fun _ _ => ?_⟩⟩
  · rw [hact]
    exact (s.denies_iff p detached a.line).2 ⟨hb, hp⟩
  all_goals
    have hl : ¬ (c.action.any fun act => s.denies (if detached then none else some p) act.line) = true := by
      rw [Option.any_eq_true]
      rintro ⟨a, hact, hden⟩
      obtain ⟨h1, h2⟩ := (s.denies_iff p detached a.line).1 hden
      rcases hb a hact with h | ⟨h, h'⟩
      · exact h1 h
      · exact h2.elim (fun hd => nomatch hd.symm.trans h) fun hne => hne h'
    refine (if_neg hl).trans ?_
  · refine if_pos ?_
    rw [hd, decide_eq_true hq]
    rfl
  · have hu : ¬ (!detached && decide (s.scu.quota[p] ≤ s.scu.use p)) = true := by
      cases detached
      · simpa using hq rfl
      · exact Bool.false_ne_true
    refine (if_neg hu).trans ?_
    rw [Scu.firstFree_of_full hfull]

end Sys2Proof.Machine
end

section
/-! Session ends at the SCU and at the ELU (O29, O42). -/

namespace Sys2Proof.Machine

/-! ## The entries of the port (R64) -/

/-- Whether an entry in use is a port's own (R49). -/
theorem Entry.ownedBy_iff (e : Entry) (p : Port) :
    (e.state != .free && e.owner == some p) = true ↔ e.state ≠ .free ∧ e.owner = some p := by
  have hst : (e.state != .free) = true ↔ e.state ≠ .free := by cases e.state <;> decide
  rw [Bool.and_eq_true, hst, beq_iff_eq]

theorem Scu.freeOwned_entry (c : Scu) (p : Port) (i : Index) : (c.freeOwned p).entries[i] =
    if c.entries[i].state ≠ .free ∧ c.entries[i].owner = some p then c.entries[i].freed else c.entries[i] := by
  simp only [Scu.freeOwned, Fin.getElem_fin, Vector.getElem_map, Entry.ownedBy_iff]

/-- After a session end at the SCU the port has no entry in use (R64). -/
theorem Scu.use_freeOwned (c : Scu) (p : Port) : (c.freeOwned p).use p = 0 := by
  unfold Scu.use
  rw [List.length_eq_zero_iff, List.eq_nil_iff_forall_not_mem]
  intro i hi
  rw [mem_indexesWhere, Entry.ownedBy_iff, Scu.freeOwned_entry] at hi
  split at hi
  · exact hi.1 rfl
  next h => exact h hi

/-- Settles O29: `Scu.freeOwned`, entry by entry. -/
theorem sessionEndFreesEntries : Obligations.SessionEndFreesEntries := by
  intro s e he hp
  refine ⟨s.scuSessionEnd e.port, rfl, ?_⟩
  rw [State.scuSessionEnd_of_atScu he hp]
  refine ⟨fun i hs ho => ?_, fun i h => ?_, Scu.use_freeOwned .., rfl⟩
  · exact (Scu.freeOwned_entry ..).trans (if_pos ⟨hs, ho⟩)
  · refine (Scu.freeOwned_entry ..).trans (if_neg fun ⟨hs, ho⟩ => ?_)
    exact h.elim hs fun hne => hne ho

/-! ## The log and the session of the port (R132, R140) -/

theorem State.ownRecordsWait_iff (s : State) (p : Port) :
    s.ownRecordsWait p = true ↔ ∃ r ∈ s.mail.records, ∃ a, r.address = some a ∧ a.owner = some p := by
  simp [State.ownRecordsWait, Option.any_eq_true]

/-- Everything the session end can do at the ELU: nothing, or the removal of the port and the last steps (R132, R140). -/
theorem State.eluSessionEnd_cases (s : State) (p : Port) : s.eluSessionEnd p = s ∨
    ∃ e, s.sau.ending = some e ∧ e.port = p ∧ e.phase = .atElu ∧ s.installWaits p = false ∧ s.ownRecordsWait p = false
      ∧ s.eluSessionEnd p = ({ s with elu := s.elu.remove p } : State).finishEnd e := by
  unfold State.eluSessionEnd
  cases he : s.sau.ending with
  | none => exact .inl rfl
  | some e =>
    dsimp only
    by_cases h : e.port = p ∧ e.phase = .atElu ∧ !s.installWaits p ∧ !s.ownRecordsWait p
    · have ⟨h1, h2, h3, h4⟩ := h
      rw [Bool.not_eq_true'] at h3 h4
      exact .inr ⟨e, rfl, h1, h2, h3, h4, if_pos h⟩
    · exact .inl (if_neg h)

/-- The last steps of a session end, field by field (R140 steps 5 to 7). -/
theorem State.finishEnd_eq (s : State) (e : Ending) : s.finishEnd e =
    let u : State := { s with
      sau := { s.sau with ending := none, sessions := s.sau.sessions.set e.port.val (s.sau.sessions[e.port].close e.reason) }
      mail := { s.mail with records := s.mail.records ++ (e.bodies s.sau.sessions[e.port].limit).map fun body =>
        { producer := .sau, quality := s.quality, time := s.tbu.time, body := body, address := none } } }
    match e.reason with
    | .detached => u.withHpu e.port (·.answer .ok [BitVec.ofNat 8 e.freed])
    | .expired => u := by
  unfold State.finishEnd
  dsimp only
  rw [State.postAll_eq]
  rfl

theorem freeEmpty_eq (log : List Retained) :
    freeEmpty log = log.filter fun r => r.pending[0] || r.pending[1] || r.pending[2] || r.pending[3] :=
  List.filter_congr fun r _ => ne_emptySet r.pending

/-- Settles O42: while a record of the port's own entries waits nothing happens, and else `State.finishEnd` ends it. -/
theorem sessionEndCompletes : Obligations.SessionEndCompletes := by
  refine fun s e left t he hp => ⟨fun hw => congrArg Host.Outcome.next ?_, fun hw hi hleft ht => ?_⟩
  · rcases s.eluSessionEnd_cases e.port with h | ⟨-, -, -, -, -, h, -⟩
    · exact h
    · exact absurd ((s.ownRecordsWait_iff e.port).2 hw) (by rw [h]; nofun)
  have hown : s.ownRecordsWait e.port = false := Bool.eq_false_iff.2 fun h => by
    obtain ⟨r, hr, a, ha, ho⟩ := (s.ownRecordsWait_iff e.port).1 h
    exact hw r hr a ha ho
  have hrun : s.eluSessionEnd e.port = ({ s with elu := s.elu.remove e.port } : State).finishEnd e := by
    unfold State.eluSessionEnd
    rw [he]
    exact if_pos ⟨rfl, hp, by rw [State.installWaits_of_none hi]; rfl, by rw [hown]; rfl⟩
  have helu : s.elu.remove e.port = { s.elu with
      log := left, subs := s.elu.subs.set e.port.val none, dropped := s.elu.dropped.set e.port.val 0
      lost := s.elu.lost.set e.port.val 0 } := by
    unfold Elu.remove
    rw [freeEmpty_eq, hleft]
    rfl
  rw [helu, State.finishEnd_eq] at hrun
  unfold Ending.bodies at hrun
  refine ⟨fun hr => congrArg Host.Outcome.next ?_, fun tag d hr hs => congrArg Host.Outcome.next ?_⟩
  · rw [hr] at hrun
    rw [hrun, ht, hr]
    rfl
  · rw [hr] at hrun
    rw [hrun, ht, hr]
    simp only [State.withHpu, State.answered, Hpu.answer, hs]
    rfl

end Sys2Proof.Machine
end

section
/-! The laws of the schedule (O56): the part of the state that they speak of, and the entries that fit them. -/

namespace Sys2Proof.Machine

/-! ## The part of the state that the laws of the schedule speak of -/

/-- RST#, the time and the hand-overs on their way to the SCU, the table, and what ownership and permission ask of the sessions and
the lines. -/
structure Timetable where
  rst : Bool
  time : Time
  toScu : List TimeHandover
  scu : Scu
  attached : Port → Bool
  ending : Option (Port × EndPhase)
  binding : Line → Option Port

def State.timetable (s : State) : Timetable :=
  { rst := s.rst, time := s.tbu.time, toScu := s.mail.toScu, scu := s.scu
    attached := fun p => s.sau.sessions[p].attached
    ending := s.sau.ending.map fun e => (e.port, e.phase)
    binding := fun n => s.tou.lines[n].binding }

/-- The owner of an entry has a session, or one whose end the SCU has still to take, and its line is open to the owner (R44, R52). -/
structure Timetable.Permits (c : Timetable) (e : Entry) : Prop where
  owned : ∀ p, e.owner = some p → c.attached p = true ∨ c.ending = some (p, .atScu)
  line : ∀ a q, e.action = some a → c.binding a.line = some q → e.owner = some q

/-- An entry may stand in the table: it is in range, ahead of the time while ARMED, and permitted while in use (R43, R67). -/
structure Timetable.Fits (c : Timetable) (e : Entry) : Prop where
  ok : e.Ok
  ahead : e.state = .armed → c.scu.now < e.dueTime
  permits : e.state ≠ .free → c.Permits e

/-- The laws of the schedule, with those of an entry in one place. -/
structure Timetable.Ok (c : Timetable) : Prop where
  time_le : c.time ≤ Config.maxTime
  lead : handoversLead c.scu.now c.toScu c.time
  quota : ∀ p : Port, 1 ≤ c.scu.quota[p] ∧ c.scu.quota[p] ≤ 64
  fits : ∀ i : Index, c.Fits c.scu.entries[i]

theorem State.timetable_ending_iff (s : State) (p : Port) : s.timetable.ending = some (p, .atScu) ↔
    ∃ e, s.sau.ending = some e ∧ e.port = p ∧ e.phase = .atScu := by
  simp [State.timetable]

/-- The laws of the schedule are laws of the timetable. -/
theorem State.scheduleOk_iff (s : State) : s.ScheduleOk ↔ s.timetable.Ok := by
  constructor
  · rintro ⟨ht, hl, he, hq, ha, ho, hp⟩
    exact ⟨ht, hl, hq, fun i => ⟨he i, ha i, fun hi =>
      ⟨fun p hop => (ho i p hi hop).imp_right (s.timetable_ending_iff p).2, fun a q hx => hp i a q hi hx⟩⟩⟩
  · rintro ⟨ht, hl, hq, h⟩
    refine ⟨ht, hl, fun i => (h i).ok, hq, fun i => (h i).ahead, fun i p hi hop => ?_, fun i a q hi => ((h i).permits hi).line a q⟩
    exact (((h i).permits hi).owned p hop).imp_right (s.timetable_ending_iff p).1

/-- The passage from one state to another leaves RST# and keeps the laws of the schedule. -/
def State.ScheduleKept (s t : State) : Prop := t.rst = s.rst ∧ (s.timetable.Ok → t.timetable.Ok)

theorem State.ScheduleKept.refl (s : State) : s.ScheduleKept s := ⟨rfl, id⟩

theorem State.ScheduleKept.trans {s t u : State} (h : s.ScheduleKept t) (k : t.ScheduleKept u) : s.ScheduleKept u :=
  ⟨k.1.trans h.1, k.2 ∘ h.2⟩

theorem State.ScheduleKept.of_eq {s t : State} (h : t.timetable = s.timetable) : s.ScheduleKept t :=
  ⟨congrArg Timetable.rst h, fun hs => h ▸ hs⟩

/-- Events of which each keeps the laws keep them one after the other. -/
theorem State.foldl_scheduleKept {α : Type} {f : State → α → State} (h : ∀ (s : State) (a : α), s.ScheduleKept (f s a)) (l : List α)
    (s : State) : s.ScheduleKept (l.foldl f s) := by
  induction l generalizing s with
  | nil => exact .refl s
  | cons a l ih => exact (h s a).trans (ih _)

/-! ## Entries that stay in range (R43, R44, R71, R72) -/

theorem nextGeneration_lt (g : Nat) : nextGeneration g < 256 := Nat.mod_lt _ (by decide)

theorem Entry.freed_ok (e : Entry) : e.freed.Ok := Entry.free_ok (nextGeneration_lt _)

/-- An entry that becomes ARMED with a due in range. -/
theorem Entry.Ok.arm {e : Entry} (h : e.Ok) {d : Time} (hd : d ≤ Config.maxTime) :
    ({ e with state := .armed, due := some d } : Entry).Ok := by
  obtain ⟨hg, -, hl, hoc, -, -, hp, hr, hi, hri, hip, -, hq, hsc⟩ := h
  refine ⟨hg, nofun, hl, hoc, ⟨fun _ => rfl, fun _ => .inl rfl⟩, fun x hx => ?_, hp, hr, hi, hri, hip, nofun, hq, hsc⟩
  obtain rfl := Option.mem_some_iff.1 hx
  exact hd

theorem Entry.Ok.hold {e : Entry} (h : e.Ok) (hs : e.state = .armed) : ({ e with state := .held } : Entry).Ok := by
  obtain ⟨hg, -, hl, hoc, hst, hd, hp, hr, hi, hri, hip, -, hq, hsc⟩ := h
  exact ⟨hg, nofun, hl, hoc, ⟨fun _ => hst.1 (.inl hs), fun _ => .inr rfl⟩, hd, hp, hr, hi, hri, hip, nofun, hq, hsc⟩

theorem Entry.Ok.counted {e : Entry} (h : e.Ok) (hs : e.state ≠ .free) (k : Nat) : (e.counted k).Ok := by
  obtain ⟨hg, -, hl, -, hst, hd, hp, hr, hi, hri, hip, hpr, hq, hsc⟩ := h
  exact ⟨hg, fun hf => absurd hf hs, hl, Nat.min_le_right .., hst, hd, hp, hr, hi, hri, hip, hpr, hq, hsc⟩

theorem Entry.prime_of_rearms {e : Entry} (h : e.rearms = true) : e.prime.isSome = true := by
  unfold Entry.rearms at h
  cases hp : e.prime with
  | none => rw [hp] at h; cases h
  | some q => rfl

theorem Entry.Ok.ended {e : Entry} (h : e.Ok) : e.ended.Ok := by
  unfold Entry.ended
  split
  next hre =>
    obtain ⟨hg, -, hl, hoc, -, -, hp, -, hi, -, hip, -, hq, hsc⟩ := h
    exact ⟨hg, nofun, hl, hoc, ⟨fun hx => hx.elim nofun nofun, nofun⟩, nofun, hp, hi, hi, rfl, hip,
      fun _ => Entry.prime_of_rearms hre, hq, hsc⟩
  · exact e.freed_ok

/-- The end of an entry leaves it PRIMED or FREE, with its owner and its action while in use. -/
theorem Entry.ended_cases (e : Entry) : e.ended.state ≠ .armed
    ∧ (e.ended.state ≠ .free → e.ended.owner = e.owner ∧ e.ended.action = e.action) := by
  unfold Entry.ended
  split
  · exact ⟨nofun, fun _ => ⟨rfl, rfl⟩⟩
  · exact ⟨nofun, fun h => absurd rfl h⟩

/-- The next due of an entry that goes on lies within the maximum, and so does what remains of its count (R71). -/
theorem Entry.endsAfter_eq_false {e : Entry} {k : Nat} (h : e.endsAfter k = false) :
    ∃ P, e.period = some P ∧ e.dueTime + k * P ≤ Config.maxTime ∧ ∀ r ∈ e.remaining, k < r := by
  unfold Entry.endsAfter at h
  cases hp : e.period with
  | none => rw [hp] at h; cases h
  | some P =>
    rw [hp] at h
    simp only [Bool.or_eq_false_iff, decide_eq_false_iff_not, Nat.not_lt] at h
    refine ⟨P, rfl, h.2, fun r hr => ?_⟩
    rw [Option.mem_def.1 hr] at h
    simpa using h.1

theorem Entry.Ok.continued {e : Entry} (h : e.Ok) (hs : e.state = .armed) {k : Nat} (hk : e.endsAfter k = false) :
    (e.continued k).Ok := by
  obtain ⟨P, hP, hmax, hrem⟩ := Entry.endsAfter_eq_false hk
  obtain ⟨hg, -, hl, hoc, -, -, hp, hr, hi, hri, hip, hpr, hq, hsc⟩ := h
  refine ⟨hg, fun hf => absurd (hs.symm.trans hf) nofun, hl, hoc, ⟨fun _ => rfl, fun _ => .inl hs⟩, fun x hx => ?_, hp,
    fun r hx => ?_, hi, ?_, hip, hpr, hq, hsc⟩
  · obtain rfl := Option.mem_some_iff.1 hx
    rw [hP]
    exact hmax
  · obtain ⟨r', hr', rfl⟩ := Option.map_eq_some_iff.1 (Option.mem_def.1 hx)
    have := hrem r' hr'
    have := hr r' hr'
    omega
  · exact Option.isSome_map.trans hri

/-- An ARMED entry that fires or misses stays in range (R71, R72). -/
theorem Entry.Ok.consume {e : Entry} (h : e.Ok) (hs : e.state = .armed) (k : Nat) : (e.consume k).Ok := by
  have hc : (e.counted k).Ok := h.counted (by rw [hs]; nofun) k
  unfold Entry.consume
  split
  · exact hc.ended
  next hk => exact hc.continued hs (k := k) (Bool.not_eq_true _ ▸ hk)

/-- What is left of an entry that was treated lies ahead of a time that its next due lies ahead of. -/
theorem Timetable.fits_consume {c : Timetable} {e : Entry} {k : Nat} (h : e.Ok) (hs : e.state = .armed) (hp : c.Permits e)
    (hn : e.endsAfter k = false → ∀ P, e.period = some P → c.scu.now < e.dueTime + k * P) : c.Fits (e.consume k) := by
  refine ⟨h.consume hs k, ?_, ?_⟩ <;> unfold Entry.consume <;> split
  · exact fun ha => absurd ha (e.counted k).ended_cases.1
  next hk =>
    intro _
    obtain ⟨P, hP, -⟩ := Entry.endsAfter_eq_false (Bool.not_eq_true _ ▸ hk)
    show _ < e.dueTime + k * e.period.getD 0
    rw [hP]
    exact hn (Bool.not_eq_true _ ▸ hk) P hP
  · intro hu
    obtain ⟨ho, ha⟩ := (e.counted k).ended_cases.2 hu
    exact ⟨fun p hx => hp.owned p (ho.symm.trans hx), fun a q hx hb => ho.trans (hp.line a q (ha.symm.trans hx) hb)⟩
  · exact fun _ => ⟨hp.owned, hp.line⟩

/-- An entry that goes on after all the occurrences up to a time has its next one later (R74). -/
theorem Entry.lt_of_passed {e : Entry} {t : Time} {P : Nat} (hp : e.period = some P) (hP : 0 < P) (hd : e.dueTime ≤ t)
    (h : e.endsAfter (e.passed t) = false) : t < e.dueTime + e.passed t * P := by
  obtain ⟨_, -, -, hrem⟩ := Entry.endsAfter_eq_false h
  have hk : e.passed t = (t - e.dueTime) / P + 1 := by
    unfold Entry.passed at *
    rw [hp] at *
    dsimp only at *
    cases hr : e.remaining with
    | none => rfl
    | some r =>
      have := hrem r hr
      rw [hr] at this
      dsimp only at *
      omega
  obtain ⟨n, h1, h2, h3⟩ := exists_occurrences e.dueTime P t hP hd
  have := advancePast_eq h1 h2 h3
  unfold advancePast at this
  rw [hk, this]
  exact h3

end Sys2Proof.Machine
end

section
/-! The events that move the table, the time or the sessions keep the laws of the schedule (O56). -/

namespace Sys2Proof.Machine

/-! ## Entries set in the table -/

/-- An entry that a port does not use asks for no permission. -/
theorem Timetable.Fits.permitted {c : Timetable} {e : Entry} (h : c.Fits e) : c.Permits e := by
  by_cases hf : e.state = .free
  · obtain ⟨-, hfree, -⟩ := h.ok
    rw [hfree hf]
    exact ⟨nofun, nofun⟩
  · exact h.permits hf

theorem Timetable.fits_free (c : Timetable) {g : Nat} (hg : g < 256) : c.Fits (Entry.free g) :=
  ⟨Entry.free_ok hg, nofun, fun h => absurd rfl h⟩

theorem Timetable.Fits.ended {c : Timetable} {e : Entry} (h : c.Fits e) : c.Fits e.ended := by
  obtain ⟨hna, hu⟩ := e.ended_cases
  refine ⟨h.ok.ended, fun ha => absurd ha hna, fun hs => ?_⟩
  obtain ⟨ho, ha⟩ := hu hs
  exact ⟨fun p hx => h.permitted.owned p (ho.symm.trans hx), fun a q hx hb => ho.trans (h.permitted.line a q (ha.symm.trans hx) hb)⟩

/-- An entry that takes a due ahead (R54, R58, R60). -/
theorem Timetable.Fits.arm {c : Timetable} {e : Entry} (h : c.Fits e) {d : Time} (hd : d ≤ Config.maxTime)
    (hn : c.scu.now < d) : c.Fits { e with state := .armed, due := some d } :=
  ⟨h.ok.arm hd, fun _ => hn, fun _ => ⟨h.permitted.owned, h.permitted.line⟩⟩

theorem Entry.Ok.period_pos {e : Entry} (h : e.Ok) {P : Nat} (hP : e.period = some P) : 1000 ≤ P := by
  obtain ⟨-, -, -, -, -, -, hp, -⟩ := h
  exact (hp P hP).1

/-- An entry that takes a due passed and is treated for it (R82, R83). -/
theorem Timetable.Fits.treat {c : Timetable} {e a : Entry} (h : c.Fits e) {d : Time} (hd : d ≤ Config.maxTime)
    (ha : a = { e with state := .armed, due := some d }) (hn : d ≤ c.scu.now) :
    c.Fits (a.consume (a.passed c.scu.now)) := by
  subst ha
  refine Timetable.fits_consume (h.ok.arm hd) rfl ⟨h.permitted.owned, h.permitted.line⟩ fun hk P hP => ?_
  have := h.ok.period_pos hP
  exact Entry.lt_of_passed hP (by omega) hn hk

/-- An event on the entries keeps the laws if each entry may stand as it leaves it. -/
theorem State.afterEntries_scheduleKept {s : State} {es : Vector Entry 64} {ops : List Action} {records : List Posted}
    (h : s.timetable.Ok → ∀ i : Index, s.timetable.Fits es[i]) : s.ScheduleKept (s.afterEntries es ops records) :=
  ⟨rfl, fun hs => ⟨hs.time_le, hs.lead, hs.quota, fun i => ⟨(h hs i).ok, (h hs i).ahead, fun hu =>
    ⟨((h hs i).permits hu).owned, ((h hs i).permits hu).line⟩⟩⟩⟩

theorem getElem_set_entry {v : Vector Entry 64} {i j : Index} {e : Entry} :
    (v.set i.val e)[j] = if j = i then e else v[j] := by
  by_cases h : j = i
  · subst h
    simp
  · have : i.val ≠ j.val := fun x => h (Fin.ext x.symm)
    rw [if_neg h]
    simp [Vector.getElem_set_ne, this]

theorem State.setEntry_scheduleKept {s : State} {i : Index} {e : Entry} {ops : List Action} {records : List Posted}
    (h : s.timetable.Ok → s.timetable.Fits e) :
    s.ScheduleKept (s.afterEntries (s.scu.entries.set i.val e) ops records) := by
  refine State.afterEntries_scheduleKept fun hs j => ?_
  rw [getElem_set_entry]
  split
  · exact h hs
  · exact hs.fits j

theorem State.withEntry_scheduleKept {s : State} {i : Index} {e : Entry} (h : s.timetable.Ok → s.timetable.Fits e) :
    s.ScheduleKept (s.withEntry i e) := by
  rw [State.withEntry_after]
  exact State.setEntry_scheduleKept h

/-! ## Time advances and steps (R67, R78, R79) -/

/-- An event at a new time that treats the entries it reaches, each up to a next due later than that time. -/
theorem State.reached_scheduleKept {s : State} {T : Time} {rest : List TimeHandover} {es : Vector Entry 64} {ops : List Action}
    {records : List Posted} {k : Index → Nat}
    (hin : ∀ i ∈ dueBy s.scu.entries T, es[i] = s.scu.entries[i].consume (k i))
    (hout : ∀ i, i ∉ dueBy s.scu.entries T → es[i] = s.scu.entries[i])
    (hl : s.timetable.Ok → handoversLead T rest s.tbu.time)
    (hk : s.timetable.Ok → ∀ i ∈ dueBy s.scu.entries T, s.scu.entries[i].endsAfter (k i) = false →
      ∀ P, s.scu.entries[i].period = some P → T < s.scu.entries[i].dueTime + k i * P) :
    s.ScheduleKept (({ s with mail := { s.mail with toScu := rest }, scu := { s.scu with now := T } } : State).afterEntries
      es ops records) := by
  refine ⟨rfl, fun hs => ⟨hs.time_le, hl hs, hs.quota, fun i => ?_⟩⟩
  have he := hs.fits i
  have hmem := (dueBy_spec s.scu.entries T).2 i
  show Timetable.Fits _ es[i]
  by_cases hi : i ∈ dueBy s.scu.entries T
  · rw [hin i hi]
    exact Timetable.fits_consume he.ok (hmem.1 hi).1 ⟨he.permitted.owned, he.permitted.line⟩ (hk hs i hi)
  · rw [hout i hi]
    exact ⟨he.ok, fun ha => Nat.lt_of_not_le fun hle => hi (hmem.2 ⟨ha, hle⟩), fun hu => ⟨(he.permits hu).owned, (he.permits hu).line⟩⟩

/-- A due that an advance has just reached comes again no sooner than a period later. -/
theorem lt_next_due {now T due P : Nat} (h1 : now < due) (h2 : T ≤ now + 2) (h3 : 1000 ≤ P) : T < due + 1 * P := by omega

theorem State.timeAdvance_scheduleKept (s : State) : s.ScheduleKept s.timeAdvance := by
  cases hm : s.mail.toScu with
  | nil => exact .of_eq (by unfold State.timeAdvance; rw [hm])
  | cons h rest =>
    cases h with
    | step => exact .of_eq (by unfold State.timeAdvance; rw [hm])
    | advance k T =>
      have lead (hs : s.timetable.Ok) : s.scu.now ≤ T ∧ T ≤ s.scu.now + 2 ∧ handoversLead T rest s.tbu.time := by
        have hl : handoversLead s.scu.now s.mail.toScu s.tbu.time := hs.lead
        rw [hm] at hl
        exact hl
      obtain ⟨es, e, hin, hout⟩ := State.timeAdvance_of_advance hm
      rw [e]
      refine State.reached_scheduleKept hin hout (fun hs => (lead hs).2.2) fun hs i hi _ P hP => ?_
      obtain ⟨ha, -⟩ := ((dueBy_spec s.scu.entries T).2 i).1 hi
      exact lt_next_due ((hs.fits i).ahead ha) (lead hs).2.1 ((hs.fits i).ok.period_pos hP)

theorem State.stepHandover_scheduleKept (s : State) : s.ScheduleKept s.stepHandover := by
  cases hm : s.mail.toScu with
  | nil => exact .of_eq (by unfold State.stepHandover; rw [hm])
  | cons h rest =>
    cases h with
    | advance => exact .of_eq (by unfold State.stepHandover; rw [hm])
    | step k old new =>
      have lead (hs : s.timetable.Ok) : s.scu.now = old ∧ handoversLead new rest s.tbu.time := by
        have hl : handoversLead s.scu.now s.mail.toScu s.tbu.time := hs.lead
        rw [hm] at hl
        exact hl
      rcases Nat.lt_or_ge old new with hlt | hle
      · obtain ⟨es, e, hin, hout⟩ := State.stepHandover_of_forward hm hlt
        rw [e]
        refine State.reached_scheduleKept hin hout (fun hs => (lead hs).2) fun hs i hi hk P hP => ?_
        have hpos := (hs.fits i).ok.period_pos hP
        exact Entry.lt_of_passed hP (by omega) (((dueBy_spec s.scu.entries new).2 i).1 hi).2 hk
      · rw [State.stepHandover_of_not_forward hm hle]
        refine ⟨rfl, fun hs => ⟨hs.time_le, (lead hs).2, hs.quota, fun i => ⟨(hs.fits i).ok, fun ha => ?_, fun hu =>
          ⟨((hs.fits i).permits hu).owned, ((hs.fits i).permits hu).line⟩⟩⟩⟩
        have hn : s.scu.now < s.scu.entries[i].dueTime := (hs.fits i).ahead ha
        rw [(lead hs).1] at hn
        exact lt_of_le_of_lt hle hn

theorem State.scuTake_scheduleKept (s : State) (h : TimeHandover) : s.ScheduleKept (s.scuTake h) := by
  cases h with
  | advance => exact s.timeAdvance_scheduleKept
  | step => exact s.stepHandover_scheduleKept

/-! ## Primings (R58, R83) -/

theorem lt_advancePast {D P now : Nat} (hP : 0 < P) (h : D ≤ now) : now < advancePast D P now := by
  obtain ⟨n, h1, h2, h3⟩ := exists_occurrences D P now hP h
  rw [advancePast_eq h1 h2 h3]
  exact h3

theorem State.primeEntry_scheduleKept (stamp : Time) (links : Links) (s : State) (i : Index) :
    s.ScheduleKept (s.primeEntry stamp links i) := by
  have overflow : s.ScheduleKept (s.primeOverflow i links) := by
    rw [State.primeOverflow_after]
    exact State.setEntry_scheduleKept fun hs => (hs.fits i).ended
  obtain ⟨D, hD⟩ : ∃ D : Time, D = stamp + (s.scu.entries[i].prime.map PrimeSpec.delay).getD 0 := ⟨_, rfl⟩
  rcases Nat.lt_or_ge Config.maxTime D with hx | hx
  · rw [State.primeEntry_of_past_max hD hx]
    exact overflow
  rcases Nat.lt_or_ge s.scu.now D with hy | hy
  · rw [State.primeEntry_of_ahead hD hx hy]
    exact State.withEntry_scheduleKept fun hs => (hs.fits i).arm hx hy
  cases hp : s.scu.entries[i].period with
  | none =>
    rw [State.primeEntry_of_oneShot hD hx hy hp, State.withEntry_treat]
    exact State.setEntry_scheduleKept fun hs => (hs.fits i).treat hx rfl hy
  | some P =>
    rw [State.primeEntry_of_periodic hD hx hy hp]
    split
    · exact overflow
    next hz =>
      refine State.withEntry_scheduleKept fun hs => (hs.fits i).arm (Nat.le_of_not_lt hz) (lt_advancePast ?_ hy)
      have := (hs.fits i).ok.period_pos hp
      omega

theorem State.primingHandover_scheduleKept (s : State) (n : Line) : s.ScheduleKept (s.primingHandover n) := by
  unfold State.primingHandover
  split
  · exact .refl s
  next edge rest _ =>
    split
    · exact (State.ScheduleKept.of_eq (t := { s with mail := { s.mail with primings := rest } }) rfl).trans
        (State.foldl_scheduleKept (State.primeEntry_scheduleKept edge.stamp edge.links) _ _)
    · exact .refl s

/-! ## The time (R3, R8, R14) -/

/-- Hand-overs that lead on from where others end. -/
theorem handoversLead_append {l m : List TimeHandover} {now mid time : Time} (h : handoversLead now l mid)
    (k : handoversLead mid m time) : handoversLead now (l ++ m) time := by
  induction l generalizing now with
  | nil =>
    obtain rfl : now = mid := h
    exact k
  | cons x l ih =>
    cases x with
    | advance => exact ⟨h.1, h.2.1, ih h.2.2⟩
    | step => exact ⟨h.1, ih h.2⟩

/-- A new time in range, with its hand-over to the SCU, keeps the laws. -/
theorem State.ScheduleKept.of_time {s t : State} {time : Time} {l : List TimeHandover}
    (e : t.timetable = { s.timetable with time := time, toScu := s.mail.toScu ++ l })
    (h : s.tbu.time ≤ Config.maxTime → time ≤ Config.maxTime ∧ handoversLead s.tbu.time l time) : s.ScheduleKept t := by
  refine ⟨congrArg Timetable.rst e, fun hs => ?_⟩
  obtain ⟨hm, hl⟩ := h hs.time_le
  rw [e]
  exact ⟨hm, handoversLead_append hs.lead hl, hs.quota, fun i => ⟨(hs.fits i).ok, (hs.fits i).ahead,
    fun hu => ⟨((hs.fits i).permits hu).owned, ((hs.fits i).permits hu).line⟩⟩⟩

theorem State.applyStep_scheduleKept {s : State} {isStep : Bool} {new : Time} (h : new ≤ Config.maxTime) :
    s.ScheduleKept (s.applyStep isStep new) :=
  .of_time (l := [.step s.mail.turns s.tbu.time new]) rfl fun _ => ⟨h, rfl, rfl⟩

theorem Tbu.advance_time (t : Tbu) (src : Source) : ∃ n ≤ 2, (t.advance src).1.time = advanceTime t.time n := by
  have hc (a b : Option Sign) : (combine a b).1 ≤ 2 := by
    rcases a with _ | _ | _ <;> rcases b with _ | _ | _ <;> decide
  exact ⟨_, hc _ _, rfl⟩

theorem advanceTime_bounds {t n : Nat} (h : t ≤ Config.maxTime) (hn : n ≤ 2) :
    advanceTime t n ≤ Config.maxTime ∧ t ≤ advanceTime t n ∧ advanceTime t n ≤ t + 2 :=
  ⟨Nat.min_le_right .., Nat.le_min.2 ⟨Nat.le_add_right .., h⟩, (Nat.min_le_left ..).trans (Nat.add_le_add_left hn _)⟩

@[simp] theorem TrigLine.tick_binding (l : TrigLine) : l.tick.binding = l.binding := by
  unfold TrigLine.tick
  split
  · rfl
  · split
    · rfl
    · split <;> rfl

theorem State.tickOf_scheduleKept (s : State) (src : Source) : s.ScheduleKept (s.tickOf src) := by
  have hb : (fun n : Line => (s.tou.lines.map TrigLine.tick)[n].binding) = fun n => s.tou.lines[n].binding :=
    funext fun n => by simp
  rw [State.tickOf_eq]
  by_cases hm : s.tbu.time = Config.maxTime
  · rw [State.tbuTick_held _ _ hm]
    refine .of_eq ?_
    unfold State.timetable
    rw [← hb]
  · rw [State.tbuTick_moving _ _ hm]
    obtain ⟨n, hn, ht⟩ := s.tbu.advance_time src
    refine .of_time (time := (s.tbu.advance src).1.time) (l := [.advance s.mail.turns (s.tbu.advance src).1.time]) ?_ fun h => ?_
    · unfold State.timetable
      rw [← hb]
    · rw [ht]
      obtain ⟨h1, h2, h3⟩ := advanceTime_bounds h hn
      exact ⟨h1, h2, h3, rfl⟩

/-! ## Sessions (R136, R140) -/

/-- A session that is set as attached as it was. -/
theorem attached_set {v : Vector Session 4} {p : Port} {x : Session} (h : x.attached = v[p].attached) :
    (fun q : Port => (v.set p.val x)[q].attached) = fun q => v[q].attached := by
  funext q
  rw [getElem_set_session]
  split
  next hq => rw [h, hq]
  · rfl

theorem State.withSession_timetable (s : State) (p : Port) {f : Session → Session}
    (h : (f s.sau.sessions[p]).attached = s.sau.sessions[p].attached) : (s.withSession p f).timetable = s.timetable := by
  unfold State.timetable
  rw [← attached_set h]
  rfl

theorem Sau.setAuth_attached (u : Sau) (p : Port) :
    (fun q : Port => (u.setAuth p).sessions[q].attached) = fun q => u.sessions[q].attached := attached_set rfl

theorem Sau.passOn_attached (u : Sau) (p : Port) (event : AuthEvent) :
    (fun q : Port => (u.passOn p event).1.sessions[q].attached) = fun q => u.sessions[q].attached := by
  unfold Sau.passOn
  split
  · rfl
  · exact Sau.setAuth_attached _ _

theorem Sau.leave_attached (u : Sau) (p : Port) (reason : EndReason) :
    (fun q : Port => (u.leave p reason).1.sessions[q].attached) = fun q => u.sessions[q].attached := by
  unfold Sau.leave
  split
  · exact Sau.passOn_attached ..
  · rfl

theorem State.beginEnd_attached (s : State) (p : Port) (reason : EndReason) (q : Port) :
    (s.beginEnd p reason).sau.sessions[q].attached = if q = p then false else s.sau.sessions[q].attached := by
  have h := congrFun (Sau.leave_attached s.sau p reason) q
  refine (congrArg Session.attached getElem_set_session).trans ?_
  split
  · rfl
  · exact h

/-- With no session end in progress, one that begins keeps the entries of its port with the SCU (R140). -/
theorem State.beginEnd_scheduleKept {s : State} {p : Port} {reason : EndReason} (he : s.sau.ending = none) :
    s.ScheduleKept (s.beginEnd p reason) := by
  refine ⟨rfl, fun hs => ⟨hs.time_le, hs.lead, hs.quota, fun i => ⟨(hs.fits i).ok, (hs.fits i).ahead, fun hu =>
    ⟨fun q hq => ?_, ((hs.fits i).permits hu).line⟩⟩⟩⟩
  by_cases hqp : q = p
  · exact .inr (by rw [hqp]; rfl)
  · refine .inl ((s.beginEnd_attached p reason q).trans ?_)
    rw [if_neg hqp]
    refine (((hs.fits i).permits hu).owned q hq).resolve_right fun hx => ?_
    obtain ⟨e, hx, -⟩ := (s.timetable_ending_iff q).1 hx
    exact nomatch he.symm.trans hx

theorem State.idleExpiry_scheduleKept (s : State) (p : Port) : s.ScheduleKept (s.idleExpiry p) := by
  unfold State.idleExpiry
  split
  next h => exact State.beginEnd_scheduleKept (Option.isNone_iff_eq_none.1 h.1)
  · exact .refl s

theorem State.detach_scheduleKept {s : State} (p : Port) (he : s.sau.ending = none) : s.ScheduleKept (s.detach p) := by
  unfold State.detach
  split
  · exact (State.beginEnd_scheduleKept he).trans (.of_eq rfl)
  · exact .of_eq rfl

/-- The entries of the port are gone with its session (R64). -/
theorem State.scuSessionEnd_scheduleKept (s : State) (p : Port) : s.ScheduleKept (s.scuSessionEnd p) := by
  unfold State.scuSessionEnd
  split
  · exact .refl s
  next e he =>
    split
    next h =>
      obtain ⟨rfl, hp⟩ := h
      refine ⟨rfl, fun hs => ⟨hs.time_le, hs.lead, hs.quota, fun i => ?_⟩⟩
      show Timetable.Fits _ (s.scu.freeOwned e.port).entries[i]
      rw [Scu.freeOwned_entry]
      have hi := hs.fits i
      split
      · exact Timetable.fits_free _ (nextGeneration_lt _)
      next hno =>
        refine ⟨hi.ok, hi.ahead, fun hu => ⟨fun q hq => .inl (((hi.permits hu).owned q hq).resolve_right fun hx => ?_),
          (hi.permits hu).line⟩⟩
        obtain ⟨e', hx, hpe, -⟩ := (s.timetable_ending_iff q).1 hx
        obtain rfl := Option.some.inj (he.symm.trans hx)
        exact hno ⟨hu, hpe ▸ hq⟩
    · exact .refl s

theorem State.finishEnd_timetable (s : State) (e : Ending) : (s.finishEnd e).timetable = { s.timetable with ending := none } := by
  have ha : (fun q : Port => (s.sau.sessions.set e.port.val (s.sau.sessions[e.port].close e.reason))[q].attached)
      = fun q => s.sau.sessions[q].attached := attached_set rfl
  unfold State.timetable
  rw [State.finishEnd_eq, ← ha]
  cases e.reason <;> rfl

theorem State.eluSessionEnd_scheduleKept (s : State) (p : Port) : s.ScheduleKept (s.eluSessionEnd p) := by
  rcases s.eluSessionEnd_cases p with e | ⟨e, he, -, hp, -, -, eq⟩
  · rw [e]
    exact .refl s
  rw [eq]
  have ht := State.finishEnd_timetable { s with elu := s.elu.remove p } e
  refine ⟨congrArg Timetable.rst ht, fun hs => ?_⟩
  rw [ht]
  refine ⟨hs.time_le, hs.lead, hs.quota, fun i => ⟨(hs.fits i).ok, (hs.fits i).ahead, fun hu =>
    ⟨fun q hq => .inl ((((hs.fits i).permits hu).owned q hq).resolve_right fun hx => ?_), ((hs.fits i).permits hu).line⟩⟩⟩
  obtain ⟨e', hx, -, hphase⟩ := (s.timetable_ending_iff q).1 hx
  obtain rfl := Option.some.inj (he.symm.trans hx)
  exact nomatch hp.symm.trans hphase

end Sys2Proof.Machine
end

section
/-! Events beside the schedule, the lines and the ports: those of the TBU, the RSV and the ECU between two ticks (O56, O59). -/

namespace Sys2Proof.Machine

/-- An event touches the TBU but for its time, the RSV, the ECU but for the edge selects, and the hand-overs, but for those to the SCU,
the TOU and the SAU and the subscriptions: neither the laws of the schedule nor those of RST# see it. -/
def State.Aside (s t : State) : Prop :=
  ∃ (pins : Vector Level 8) (tbu : Tbu) (rsv : Rsv) (ecu : Ecu) (mail : Mail), t = { s with pins, tbu, rsv, ecu, mail }
    ∧ tbu.time = s.tbu.time ∧ (∀ n : Line, ecu.inputs[n].select = s.ecu.inputs[n].select) ∧ mail.toScu = s.mail.toScu
    ∧ mail.ops = s.mail.ops ∧ mail.installs = s.mail.installs ∧ mail.reports = s.mail.reports

theorem State.Aside.refl (s : State) : s.Aside s := ⟨_, _, _, _, _, rfl, rfl, fun _ => rfl, rfl, rfl, rfl, rfl⟩

theorem State.Aside.trans {s t u : State} (h : s.Aside t) (k : t.Aside u) : s.Aside u := by
  obtain ⟨_, _, _, _, _, rfl, h1, h2, h3, h4, h5, h6⟩ := h
  obtain ⟨_, _, _, _, _, rfl, k1, k2, k3, k4, k5, k6⟩ := k
  exact ⟨_, _, _, _, _, rfl, k1.trans h1, fun n => (k2 n).trans (h2 n), k3.trans h3, k4.trans h4, k5.trans h5, k6.trans h6⟩

theorem State.Aside.scheduleKept {s t : State} (h : s.Aside t) : s.ScheduleKept t := by
  obtain ⟨_, _, _, _, _, rfl, ht, -, hm, -⟩ := h
  refine .of_eq ?_
  unfold State.timetable
  rw [← ht, ← hm]

/-- Events beside the schedule, one after the other. -/
theorem State.foldl_aside {α : Type} {f : State → α → State} (h : ∀ (s : State) (a : α), s.Aside (f s a)) (l : List α)
    (s : State) : s.Aside (l.foldl f s) := by
  induction l generalizing s with
  | nil => exact .refl s
  | cons a l ih => exact (h s a).trans (ih _)

/-! ## The TBU and the RSV -/

theorem State.trimCorrectionDue_aside (s : State) : s.Aside s.trimCorrectionDue := by
  unfold State.trimCorrectionDue
  split
  · exact .refl s
  · split
    · exact .refl s
    · cases s.tickSource <;> exact ⟨_, _, _, _, _, rfl, rfl, fun _ => rfl, rfl, rfl, rfl, rfl⟩

theorem State.slewCorrectionDue_aside (s : State) : s.Aside s.slewCorrectionDue := by
  unfold State.slewCorrectionDue
  split
  · exact .refl s
  · split
    · exact ⟨_, _, _, _, _, rfl, rfl, fun _ => rfl, rfl, rfl, rfl, rfl⟩
    · exact .refl s

theorem State.disciplineSlew_aside (s : State) : s.Aside s.disciplineSlew := by
  unfold State.disciplineSlew
  split
  · exact .refl s
  · exact ⟨_, _, _, _, _, rfl, rfl, fun _ => rfl, rfl, rfl, rfl, rfl⟩

theorem State.SupervisionStep.aside {s t : State} (h : s.SupervisionStep t) : s.Aside t := by
  obtain ⟨_, _, -, rfl⟩ := h
  exact ⟨_, _, _, _, _, rfl, rfl, fun _ => rfl, rfl, rfl, rfl, rfl⟩

theorem State.windowClose_aside (s : State) : s.Aside s.windowClose := by
  unfold State.windowClose
  split
  · exact (State.SupervisionStep.of_classified ..).aside
  · exact .refl s

theorem State.missingDeclaration_aside (s : State) : s.Aside s.missingDeclaration := by
  unfold State.missingDeclaration
  split
  · exact (State.SupervisionStep.of_classified ..).aside
  · exact .refl s

theorem State.settleWindow_aside (s : State) : s.Aside s.settleWindow := by
  unfold State.settleWindow
  split
  · exact s.missingDeclaration_aside
  · exact s.windowClose_aside

theorem State.refclkEdge_aside (s : State) : s.Aside s.refclkEdge := by
  rw [State.refclkEdge_eq rfl]
  exact s.settleWindow_aside.trans ⟨_, _, _, _, _, rfl, rfl, fun _ => rfl, rfl, rfl, rfl, rfl⟩

theorem State.holdoverAgeIncrement_aside (s : State) : s.Aside s.holdoverAgeIncrement := by
  unfold State.holdoverAgeIncrement
  split
  · exact (State.SupervisionStep.of_expireIfAtLimit ..).aside
  · exact .refl s

theorem State.holdoverExpiry_aside (s : State) : s.Aside s.holdoverExpiry := by
  unfold State.holdoverExpiry
  split
  · exact (State.SupervisionStep.of_expireIfAtLimit ..).aside
  · exact (State.SupervisionStep.of_expireIfAtLimit s s.rsv).aside

theorem State.ppsEdgeHandover_aside (s : State) : s.Aside s.ppsEdgeHandover := by
  unfold State.ppsEdgeHandover
  split
  · exact .refl s
  · exact ⟨_, _, _, _, _, rfl, rfl, fun _ => rfl, rfl, rfl, rfl, rfl⟩

theorem State.settleDue_aside (s : State) : s.Aside s.settleDue := s.settleWindow_aside.trans (State.holdoverAgeIncrement_aside _)

theorem State.tickEdge_aside (s : State) : s.Aside s.tickEdge := by
  unfold State.tickEdge
  split
  · exact .refl s
  · dsimp only
    split
    · exact s.settleDue_aside.trans (State.refclkEdge_aside _)
    · exact s.settleDue_aside

/-- REF_CONFIG moves the RSV and posts at most a record. -/
theorem State.applyRefConfig_aside (s : State) (c : SupConfig) : s.Aside (s.applyRefConfig c) := by
  unfold State.applyRefConfig
  dsimp only
  split
  · split <;> exact ⟨_, _, _, _, _, rfl, rfl, fun _ => rfl, rfl, rfl, rfl, rfl⟩
  · exact ⟨_, _, _, _, _, rfl, rfl, fun _ => rfl, rfl, rfl, rfl, rfl⟩
  · exact ⟨_, _, _, _, _, rfl, rfl, fun _ => rfl, rfl, rfl, rfl, rfl⟩
  · exact (State.SupervisionStep.of_expireIfAtLimit ..).aside

/-! ## The ECU -/

/-- An input that is set with the edge select it had. -/
theorem select_set {v : Vector Input 8} {n : Line} {i : Input} (h : i.select = v[n].select) (m : Line) :
    (v.set n.val i)[m].select = v[m].select := by
  by_cases hm : m = n
  · subst hm
    simpa using h
  · have : n.val ≠ m.val := fun x => hm (Fin.ext x.symm)
    simp [Vector.getElem_set_ne, this]

theorem State.withInput_aside {s : State} {n : Line} {i : Input} (h : i.select = s.ecu.inputs[n].select) :
    s.Aside (s.withInput n i) := ⟨_, _, _, _, _, rfl, rfl, select_set h, rfl, rfl, rfl, rfl⟩

theorem State.capture_aside {s : State} {n : Line} {i : Input} (h : i.select = s.ecu.inputs[n].select) (q : QualifiedEdge)
    (turn : Nat) (t : Time) : s.Aside (s.capture n i q turn t) := by
  rw [State.capture_eq]
  split <;> exact ⟨_, _, _, _, _, rfl, rfl, select_set h, rfl, rfl, rfl, rfl⟩

theorem Input.filter_select (i : Input) (level : Level) (t : Time) : (i.filter level t).1.select = i.select := by
  have hl : (i.lengthen t).select = i.select := by
    unfold Input.lengthen
    split <;> rfl
  unfold Input.filter
  split
  · rfl
  · split
    · rfl
    · dsimp only
      split <;> exact hl

theorem State.judgeSample_aside (s : State) (n : Line) (level : Level) (turn : Nat) (t : Time) :
    s.Aside (s.judgeSample n level turn t) := by
  have h := Input.filter_select s.ecu.inputs[n] level t
  unfold State.judgeSample
  dsimp only
  split
  · exact State.withInput_aside h
  · split
    · exact State.withInput_aside h
    · split
      · exact State.capture_aside h ..
      · exact State.withInput_aside h

theorem State.inputSample_aside (s : State) (n : Line) (level : Level) : s.Aside (s.inputSample n level) := by
  unfold State.inputSample
  split
  · exact .refl s
  next turn t rest _ =>
    have h : s.Aside { s with mail := { s.mail with toEcu := rest }, pins := s.pins.set n.val level } :=
      ⟨_, _, _, _, _, rfl, rfl, fun _ => rfl, rfl, rfl, rfl, rfl⟩
    exact h.trans (State.judgeSample_aside ..)

@[simp] theorem Input.shift_select (i : Input) (turn : Nat) (old new : Time) : (i.shift turn old new).select = i.select := by
  unfold Input.shift
  split
  · rfl
  · split <;> rfl

theorem State.ecuStep_aside (s : State) : s.Aside s.ecuStep := by
  unfold State.ecuStep
  split
  · exact ⟨_, _, _, _, _, rfl, rfl, fun n => by simp, rfl, rfl, rfl, rfl⟩
  · exact .refl s

theorem State.ecuStepHandover_aside (s : State) : s.Aside s.ecuStepHandover := by
  rcases s.ecuStepHandover_cases with e | ⟨_, _, _, _, -, -, e⟩ <;> rw [e]
  · exact .refl s
  · exact s.ecuStep_aside

theorem State.ecuTake_aside (s : State) (h : EcuHandover) : s.Aside (s.ecuTake h) := by
  cases h with
  | sample => exact s.inputSample_aside _ _
  | step => exact s.ecuStepHandover_aside

/-- What the ECU takes at the assertion of RST# (R115), and the records of a session end in progress (R164). -/
theorem State.beforeReset_aside (s : State) : s.Aside s.stepsBeforeReset.closeEnding := by
  have h : s.Aside s.stepsBeforeReset := State.foldl_aside (fun s h => by
    split
    · cases h with
      | sample => exact s.inputSample_aside _ _
      | step => exact s.ecuStep_aside
    · exact .refl s) _ _
  refine h.trans ?_
  rw [State.closeEnding_frame]
  exact ⟨_, _, _, _, _, rfl, rfl, fun _ => rfl, rfl, rfl, rfl, rfl⟩

end Sys2Proof.Machine
end

section
/-! Every step keeps the laws of the schedule (O56). -/

namespace Sys2Proof.Machine

/-! ## Events that leave the timetable -/

@[simp] theorem State.post_timetable (s : State) (b : Block) (t : Time) (y : Body) (a : Option Address) (k : Links) :
    (s.post b t y a k).timetable = s.timetable := rfl

@[simp] theorem State.postAll_timetable (s : State) (b : Block) (t : Time) (ys : List Body) :
    (s.postAll b t ys).timetable = s.timetable := by
  rw [State.postAll_eq]
  rfl

theorem State.withLine_timetable (s : State) (n : Line) {f : TrigLine → TrigLine}
    (h : (f s.tou.lines[n]).binding = s.tou.lines[n].binding) : (s.withLine n f).timetable = s.timetable := by
  have hb : (fun m : Line => (s.tou.lines.set n.val (f s.tou.lines[n]))[m].binding) = fun m => s.tou.lines[m].binding := by
    funext m
    by_cases hm : m = n
    · subst hm
      simpa using h
    · have : n.val ≠ m.val := fun x => hm (Fin.ext x.symm)
      simp [Vector.getElem_set_ne, this]
  unfold State.timetable
  rw [← hb]
  rfl

theorem State.operate_timetable (s : State) (a : Action) : (s.operate a).timetable = s.timetable :=
  s.withLine_timetable _ (by cases a.op <;> rfl)

theorem State.lineOperation_timetable (s : State) : s.lineOperation.timetable = s.timetable := by
  unfold State.lineOperation
  split
  · rfl
  · exact State.operate_timetable ..

theorem State.pulseEnd_timetable (s : State) (n : Line) : (s.pulseEnd n).timetable = s.timetable := by
  unfold State.pulseEnd
  split
  · refine s.withLine_timetable n ?_
    unfold TrigLine.pulseEnd
    split <;> rfl
  · rfl

theorem State.recordTake_timetable (s : State) (b : Block) : (s.recordTake b).timetable = s.timetable := by
  rcases s.recordTake_cases b with e | ⟨_, _, -, -, e⟩ <;> rw [e]
  rfl

theorem State.subscriptionInstall_timetable (s : State) (p : Port) : (s.subscriptionInstall p).timetable = s.timetable := by
  unfold State.subscriptionInstall
  split
  · rfl
  · split <;> rfl

theorem Session.restart_attached (ses : Session) : ses.restart.attached = ses.attached := by
  unfold Session.restart
  split <;> rfl

theorem State.validFrameReport_timetable (s : State) (p : Port) : (s.validFrameReport p).timetable = s.timetable := by
  unfold State.validFrameReport
  split
  · exact State.withSession_timetable _ _ (Session.restart_attached _)
  · rfl

theorem State.frameBegin_timetable (s : State) (p : Port) : (s.frameBegin p).timetable = s.timetable := by
  unfold State.frameBegin
  dsimp only
  split <;> rfl

theorem State.frameEnd_timetable (s : State) (p : Port) (l : List Bool) : (s.frameEnd p l).timetable = s.timetable := by
  unfold State.frameEnd
  split
  · rfl
  · dsimp only
    split <;> rfl

theorem Session.cycle_attached (ses : Session) : ses.cycle.attached = ses.attached := by
  unfold Session.cycle
  split
  · split <;> rfl
  · rfl

theorem State.countCycle_timetable (s : State) : s.countCycle.timetable = s.timetable := by
  have ha : (fun p : Port => (s.sau.sessions.map Session.cycle)[p].attached) = fun p => s.sau.sessions[p].attached :=
    funext fun p => by simp [Session.cycle_attached]
  unfold State.timetable
  rw [← ha]
  rfl

/-- A change of the authority alone. -/
theorem State.withSau_timetable {s : State} {u : Sau} (ha : (fun q : Port => u.sessions[q].attached) = fun q => s.sau.sessions[q].attached)
    (he : u.ending = s.sau.ending) : ({ s with sau := u } : State).timetable = s.timetable := by
  unfold State.timetable
  rw [← ha, ← he]

theorem Sau.passOn_ending (u : Sau) (p : Port) (event : AuthEvent) : (u.passOn p event).1.ending = u.ending := by
  unfold Sau.passOn
  split <;> rfl

theorem Sau.takeOver_frame (u : Sau) (p : Port) :
    ((fun q : Port => (u.takeOver p).1.sessions[q].attached) = fun q => u.sessions[q].attached)
      ∧ (u.takeOver p).1.ending = u.ending := by
  unfold Sau.takeOver
  split
  · exact ⟨rfl, rfl⟩
  · split
    · exact ⟨rfl, rfl⟩
    · exact ⟨Sau.setAuth_attached _ _, rfl⟩

/-! ## Requests -/

section
variable {s : State} {p : Port} {c : Code} {f : List Byte → Reply}

theorem State.serve_scheduleKept (h : ∀ l, s.ScheduleKept (f l).state) : s.ScheduleKept (s.serve p c f) := by
  rcases s.serve_cases p c f with ⟨-, e⟩ | ⟨l, -, e⟩
  · rw [e]
    exact .refl s
  · rw [e]
    exact (h l).trans (.of_eq rfl)

theorem State.serveSau_scheduleKept (h : ∀ l, s.ScheduleKept (f l).state) : s.ScheduleKept (s.serveSau p c f) := by
  unfold State.serveSau
  split
  · exact .refl s
  · exact State.serve_scheduleKept h

end

theorem State.claim_scheduleKept (s : State) (p : Port) : s.ScheduleKept (s.claim p).state := by
  refine State.ifAttached_state (.refl s) ?_
  split
  · exact .refl s
  · split
    · exact .of_eq rfl
    · split
      · exact .refl s
      · split <;> exact .of_eq rfl

theorem State.release_scheduleKept (s : State) (p : Port) : s.ScheduleKept (s.release p).state := by
  refine State.ifAttached_state (.refl s) ?_
  split
  · exact .of_eq ((State.postAll_timetable ..).trans
      (State.withSau_timetable (Sau.passOn_attached ..) (Sau.passOn_ending ..)))
  · split <;> exact .of_eq rfl

theorem State.take_scheduleKept (s : State) (p : Port) : s.ScheduleKept (s.take p).state := by
  obtain ⟨ha, he⟩ := s.sau.takeOver_frame p
  refine State.ifAttached_state (.refl s) ?_
  split
  · exact .refl s
  · split
    · exact .refl s
    · exact .of_eq ((State.postAll_timetable ..).trans (State.withSau_timetable ha he))

/-- A new session leaves every owner with the one it has (R136). -/
theorem State.attach_scheduleKept (s : State) (p : Port) (l : List Byte) : s.ScheduleKept (s.attach p l).state := by
  unfold State.attach
  split
  · exact .refl s
  refine State.ifInRange_state (.refl s) fun (sub, mask) _ => ⟨rfl, fun hs => ⟨hs.time_le, hs.lead, hs.quota, fun i =>
    ⟨(hs.fits i).ok, (hs.fits i).ahead, fun hu => ⟨fun q hq => ?_, ((hs.fits i).permits hu).line⟩⟩⟩⟩
  refine (((hs.fits i).permits hu).owned q hq).imp_left fun ha => ?_
  refine (congrArg Session.attached getElem_set_session).trans ?_
  split
  · rfl
  · exact ha

theorem State.setTime_scheduleKept (s : State) (p : Port) (l : List Byte) : s.ScheduleKept (s.setTime p l).state :=
  State.ifHolder_state (.refl s) (State.ifInRange_state (.refl s) fun _ h => State.applyStep_scheduleKept (fieldTime_le h))

theorem State.stepTime_scheduleKept (s : State) (p : Port) (l : List Byte) : s.ScheduleKept (s.stepTime p l).state := by
  refine State.ifHolder_state (.refl s) ?_
  split
  · exact State.ifInRange_state (.refl s) fun _ h => State.applyStep_scheduleKept (addOffset_le h)
  · exact .refl s

theorem State.slewTime_scheduleKept (s : State) (p : Port) (l : List Byte) : s.ScheduleKept (s.slewTime p l).state := by
  refine State.ifHolder_state (.refl s) (State.ifInRange_state (.refl s) fun (offset, spacing) _ => ?_)
  dsimp only
  split <;> exact .of_eq rfl

theorem State.setTrim_scheduleKept (s : State) (p : Port) (l : List Byte) : s.ScheduleKept (s.setTrim p l).state :=
  State.ifHolder_state (.refl s) (State.ifInRange_state (.refl s) fun (src, trim) _ => .of_eq (by cases src <;> rfl))

theorem State.inputConfig_scheduleKept (s : State) (p : Port) (l : List Byte) : s.ScheduleKept (s.inputConfig p l).state :=
  State.ifHolder_state (.refl s) (State.ifInRange_state (.refl s) fun _ _ => .of_eq rfl)

theorem State.lineConfig_scheduleKept (s : State) (p : Port) (l : List Byte) : s.ScheduleKept (s.lineConfig p l).state :=
  State.ifHolder_state (.refl s) (State.ifInRange_state (.refl s) fun (n, _, _) _ => .of_eq (s.withLine_timetable n rfl))

theorem State.driveLine_scheduleKept (s : State) (p : Port) (l : List Byte) : s.ScheduleKept (s.driveLine p l).state := by
  refine State.ifAttached_state (.refl s) (State.ifInRange_state (.refl s) fun a _ => ?_)
  dsimp only
  split
  · exact .of_eq (s.operate_timetable a)
  · exact .refl s

theorem Scu.not_blocks_of_blocker {c : Scu} {n : Line} {q : Port} (h : c.blocker n (some q) = none) (i : Index) :
    c.entries[i].blocks n q = false := by
  unfold Scu.blocker at h
  rw [List.head?_eq_none_iff, List.filter_eq_nil_iff] at h
  exact Bool.eq_false_iff.2 (h i (List.mem_finRange i))

/-- A line is bound to a port while no entry of another owner acts on it (R93). -/
theorem State.bindLine_scheduleKept (s : State) (p : Port) (l : List Byte) : s.ScheduleKept (s.bindLine p l).state := by
  refine State.ifHolder_state (.refl s) (State.ifInRange_state (.refl s) fun (n, binding) _ => ?_)
  dsimp only
  split
  · exact .refl s
  next hb =>
    refine ⟨rfl, fun hs => ⟨hs.time_le, hs.lead, hs.quota, fun i => ⟨(hs.fits i).ok, (hs.fits i).ahead, fun hu =>
      ⟨((hs.fits i).permits hu).owned, fun a q ha hq => ?_⟩⟩⟩⟩
    change (s.tou.lines.set n.val { s.tou.lines[n] with binding })[a.line].binding = some q at hq
    by_cases hn : a.line = n
    · subst hn
      simp only [Fin.getElem_fin, Vector.getElem_set_self] at hq
      subst hq
      have hx := Scu.not_blocks_of_blocker hb i
      have hst : (s.scu.entries[i].state != .free) = true := bne_iff_ne.2 hu
      unfold Entry.blocks at hx
      rw [hst, show s.scu.entries[i].action = some a from ha] at hx
      have ho : s.scu.entries[i].owner = some q := by simpa using hx
      exact ho
    · have : n.val ≠ a.line.val := fun x => hn (Fin.ext x.symm)
      simp only [Fin.getElem_fin, Vector.getElem_set_ne _ _ this] at hq
      exact ((hs.fits i).permits hu).line a q ha hq

theorem quotaOperands_bounds {l : List Byte} {q : Port} {quota : Nat} (h : quotaOperands l = some (q, quota)) :
    1 ≤ quota ∧ quota ≤ 64 := by
  simp only [quotaOperands, Option.bind_eq_bind, Option.bind_eq_some_iff, Option.pure_def, Option.some.injEq, inRange_eq_some,
    Prod.mk.injEq] at h
  obtain ⟨_, -, _, ⟨hq, rfl⟩, -, rfl⟩ := h
  exact hq

theorem State.setQuota_scheduleKept (s : State) (p : Port) (l : List Byte) : s.ScheduleKept (s.setQuota p l).state := by
  refine State.ifHolder_state (.refl s) (State.ifInRange_state (.refl s) fun (q, quota) hq => ⟨rfl, fun hs =>
    ⟨hs.time_le, hs.lead, fun r => ?_, fun i => ⟨(hs.fits i).ok, (hs.fits i).ahead, fun hu =>
      ⟨((hs.fits i).permits hu).owned, ((hs.fits i).permits hu).line⟩⟩⟩⟩)
  show 1 ≤ (s.scu.quota.set q.val quota)[r] ∧ (s.scu.quota.set q.val quota)[r] ≤ 64
  by_cases hr : r = q
  · subst hr
    simpa using quotaOperands_bounds hq
  · have : q.val ≠ r.val := fun x => hr (Fin.ext x.symm)
    simp only [Fin.getElem_fin, Vector.getElem_set_ne _ _ this]
    exact hs.quota r

/-! ## Requests on a handle (R59 to R61) -/

theorem State.withHandle_scheduleKept {s : State} {p : Port} {l : List Byte} {k : Index → Reply}
    (h : ∀ i, s.ScheduleKept (k i).state) : s.ScheduleKept (s.withHandle p l k).state := by
  refine State.ifAttached_state (.refl s) (State.ifInRange_state (.refl s) fun i _ => ?_)
  dsimp only
  split
  · exact .refl s
  · split
    · split
      · exact h i
      · exact .refl s
    · split
      · exact h i
      · exact .refl s

theorem State.cancelAt_scheduleKept (s : State) (i : Index) : s.ScheduleKept (s.cancelAt i).state :=
  State.withEntry_scheduleKept fun _ => Timetable.fits_free _ (nextGeneration_lt _)

theorem State.holdAt_scheduleKept (s : State) (i : Index) : s.ScheduleKept (s.holdAt i).state := by
  unfold State.holdAt
  dsimp only
  split
  next ha =>
    exact State.withEntry_scheduleKept fun hs => ⟨(hs.fits i).ok.hold ha, nofun, fun _ =>
      ⟨(hs.fits i).permitted.owned, (hs.fits i).permitted.line⟩⟩
  · exact .refl s

theorem Entry.Ok.dueTime_le {e : Entry} (h : e.Ok) : e.dueTime ≤ Config.maxTime := by
  obtain ⟨-, -, -, -, -, hd, -⟩ := h
  unfold Entry.dueTime
  cases he : e.due with
  | none => exact Nat.zero_le _
  | some d => exact hd d he

theorem resumeDue_le {l : List Byte} {held due : Time} (hh : held ≤ Config.maxTime) (h : resumeDue l held = some due) :
    due ≤ Config.maxTime := by
  unfold resumeDue at h
  split at h
  · exact fieldTime_le h
  · exact Option.some.inj h ▸ hh

theorem State.resumeAt_scheduleKept (s : State) (l : List Byte) (i : Index) : s.ScheduleKept (s.resumeAt l i).state := by
  by_cases hst : s.scu.entries[i].state = .held
  · cases hd : resumeDue l s.scu.entries[i].dueTime with
    | none =>
      rw [State.resumeAt_of_range hst hd]
      exact .refl s
    | some due =>
      have hmax (hs : s.timetable.Ok) : due ≤ Config.maxTime := resumeDue_le (hs.fits i).ok.dueTime_le hd
      rcases Nat.lt_or_ge s.scu.now due with hn | hn
      · rw [State.resumeAt_of_ahead hst hd hn]
        exact State.withEntry_scheduleKept fun hs => (hs.fits i).arm (hmax hs) hn
      · rw [State.resumeAt_of_late hst hd rfl hn]
        exact State.setEntry_scheduleKept fun hs => (hs.fits i).treat (hmax hs) rfl hn
  · rw [State.resumeAt_of_not_held l hst]
    exact .refl s

/-! ## Creating requests (R51 to R57) -/

theorem periodOperand_bounds {flags : Byte} {l : List Byte} {k : Nat} {o : Option Nat} (h : periodOperand flags l k = some o) :
    (∀ d ∈ o, Config.minPeriod ≤ d ∧ d ≤ Config.maxPeriod) ∧ (flagOf flags 1 = true → o.isSome = true) := by
  unfold periodOperand at h
  split at h
  · simp only [Option.map_eq_some_iff, Option.bind_eq_some_iff, inRange_eq_some] at h
    obtain ⟨d, ⟨_, -, hd, rfl⟩, rfl⟩ := h
    exact ⟨fun x hx => Option.mem_some_iff.1 hx ▸ hd, fun _ => rfl⟩
  next hf =>
    obtain rfl := Option.some.inj h
    exact ⟨nofun, fun hf' => absurd hf' hf⟩

theorem remainingOperand_bounds {flags : Byte} {l : List Byte} {k : Nat} {o : Option Nat}
    (h : remainingOperand flags l k = some o) : (∀ r ∈ o, 1 ≤ r ∧ r ≤ 65535) ∧ (o.isSome = true → flagOf flags 1 = true) := by
  unfold remainingOperand at h
  split at h
  · split at h
    next hf =>
      simp only [Option.map_eq_some_iff, inRange_eq_some] at h
      obtain ⟨r, ⟨hr, rfl⟩, rfl⟩ := h
      exact ⟨fun x hx => Option.mem_some_iff.1 hx ▸ hr, fun _ => hf⟩
    · cases h
  · obtain rfl := Option.some.inj h
    exact ⟨nofun, nofun⟩

theorem scopeOperand_ne_owner {flags : Byte} {n : Nat} {sc : Scope} (h : scopeOperand flags n = some sc)
    (hf : flagOf flags 0 = true) : sc ≠ .owner := by
  rintro rfl
  simp only [scopeOperand, Option.bind_eq_some_iff, hf] at h
  obtain ⟨x, -, h⟩ := h
  cases x <;> cases h

/-- What the payload of a creating request decodes to lies in its ranges (R43, R51). -/
theorem creationOperands_ok {l : List Byte} {k : Nat} {c : Creation} (h : creationOperands l k = some c) :
    c.Ok (detachedFlag l) := by
  simp only [creationOperands, Option.bind_eq_bind, Option.bind_eq_some_iff, Option.pure_def, Option.some.injEq] at h
  obtain ⟨period, hp, remaining, hr, _, -, scope, hs, _, -, rfl⟩ := h
  obtain ⟨hp1, hp2⟩ := periodOperand_bounds hp
  obtain ⟨hr1, hr2⟩ := remainingOperand_bounds hr
  exact ⟨fieldNat_lt l 1 2, hp1, hr1, fun hx => hp2 (hr2 hx), fun hf => scopeOperand_ne_owner hs hf⟩

theorem armOperands_ok {l : List Byte} {due : Time} {c : Creation} (h : armOperands l = some (due, c)) :
    due ≤ Config.maxTime ∧ c.Ok (detachedFlag l) := by
  simp only [armOperands, Option.bind_eq_bind, Option.bind_eq_some_iff, Option.pure_def, Option.some.injEq, Prod.mk.injEq] at h
  obtain ⟨_, hd, _, hc, rfl, rfl⟩ := h
  exact ⟨fieldTime_le hd, creationOperands_ok hc⟩

theorem primeOperands_ok {l : List Byte} {q : PrimeSpec} {c : Creation} (h : primeOperands l = some (q, c)) :
    q.delay ≤ Config.maxDelay ∧ c.Ok (detachedFlag l) := by
  simp only [primeOperands, Option.bind_eq_bind, Option.bind_eq_some_iff, Option.pure_def, Option.some.injEq, Prod.mk.injEq,
    inRange_eq_some] at h
  obtain ⟨_, -, _, -, _, ⟨hd, rfl⟩, _, -, _, hc, rfl, rfl⟩ := h
  exact ⟨hd.2, creationOperands_ok hc⟩

/-- What holds of a creation behind its checks holds of the creating request (R51 to R53). -/
theorem State.creating_state {α : Type} {P : State → Prop} {s : State} {p : Port} {l : List Byte} {o : Option (α × Creation)}
    {k : Index → Option Port → α → Creation → Reply} (hs : P s)
    (hk : ∀ i a c, s.sau.sessions[p].attached = true → o = some (a, c) →
      (∀ act ∈ c.action, s.denies (if detachedFlag l then none else some p) act.line ≠ true) →
      P (k i (if detachedFlag l then none else some p) a c).state) : P (s.creating p l o k).state := by
  unfold State.creating State.ifAttached
  dsimp only
  generalize (if detachedFlag l then none else some p : Option Port) = owner at hk ⊢
  split
  next ha =>
    split
    · exact hs
    · refine State.ifInRange_state hs fun (a, c) ho => ?_
      dsimp only
      split
      · exact hs
      next hd =>
        split
        · exact hs
        · split
          · exact hs
          · exact hk _ a c ha ho fun act hact hden => hd ((Option.any_eq_true _ _).2 ⟨act, hact, hden⟩)
  · exact hs

/-- A new entry of an attached port, or a detached one, may stand with its due ahead, or PRIMED without one. -/
theorem Timetable.fits_creation {s : State} {p : Port} {d : Bool} {c : Creation} {i : Index} {due : Option Time}
    {prime : Option PrimeSpec} (hs : s.timetable.Ok) (hc : c.Ok d) (ha : s.sau.sessions[p].attached = true)
    (hden : ∀ act ∈ c.action, s.denies (if d then none else some p) act.line ≠ true)
    (hdue : ∀ x ∈ due, x ≤ Config.maxTime ∧ s.scu.now < x) (hprime : ∀ q ∈ prime, q.delay ≤ Config.maxDelay)
    (hsome : due = none → prime.isSome = true) :
    s.timetable.Fits (c.entry (if d then none else some p) s.scu.entries[i].generation due prime) := by
  obtain ⟨hg, -⟩ := (hs.fits i).ok
  obtain ⟨hl, hp, hr, hrp, hsc⟩ := hc
  have hst : (due.isSome = true → (c.entry (if d then none else some p) s.scu.entries[i].generation due prime).state = .armed)
      ∧ (due = none → (c.entry (if d then none else some p) s.scu.entries[i].generation due prime).state = .primed) := by
    constructor
    · exact fun h => if_pos h
    · rintro rfl
      rfl
  refine ⟨⟨hg, ?_, hl, Nat.zero_le _, ?_, fun x hx => (hdue x hx).1, hp, hr, hr, rfl, hrp, ?_, hprime, ?_⟩, ?_, fun _ => ⟨?_, ?_⟩⟩
  · intro hf
    cases due with
    | none => exact nomatch (hst.2 rfl).symm.trans hf
    | some x => exact nomatch (hst.1 rfl).symm.trans hf
  · cases due with
    | none => rw [hst.2 rfl]; exact ⟨fun h => h.elim nofun nofun, nofun⟩
    | some x => exact ⟨fun _ => rfl, fun _ => .inl rfl⟩
  · intro hf
    cases due with
    | none => exact hsome rfl
    | some x => exact nomatch (hst.1 rfl).symm.trans hf
  · intro ho
    cases d with
    | true => exact hsc rfl
    | false => cases ho
  · intro hf
    cases due with
    | none => exact nomatch (hst.2 rfl).symm.trans hf
    | some x => exact (hdue x rfl).2
  · intro q hq
    cases d with
    | true => cases hq
    | false =>
      obtain rfl := Option.some.inj hq
      exact .inl ha
  · intro a q hact hb
    have hn := mt (s.denies_iff p d a.line).2 (hden a hact)
    have hb' : s.tou.lines[a.line].binding = some q := hb
    rw [hb'] at hn
    cases d with
    | true => exact absurd ⟨nofun, .inl rfl⟩ hn
    | false =>
      by_contra hne
      exact hn ⟨nofun, .inr fun hx => hne hx.symm⟩

theorem State.armAt_scheduleKept {s : State} {p : Port} {d : Bool} {i : Index} {due : Time} {c : Creation}
    (hmax : due ≤ Config.maxTime) (hc : c.Ok d) (ha : s.sau.sessions[p].attached = true)
    (hden : ∀ act ∈ c.action, s.denies (if d then none else some p) act.line ≠ true) :
    s.ScheduleKept (s.armAt i (if d then none else some p) due c).state := by
  have created {x : Time} (hx : x ≤ Config.maxTime) (hn : s.scu.now < x) :
      s.ScheduleKept (s.withEntry i (c.entry (if d then none else some p) s.scu.entries[i].generation (some x) none)) :=
    State.withEntry_scheduleKept fun hs => Timetable.fits_creation hs hc ha hden
      (fun y hy => Option.mem_some_iff.1 hy ▸ ⟨hx, hn⟩) nofun nofun
  rcases Nat.lt_or_ge s.scu.now due with hn | hn
  · rw [State.armAt_of_ahead hn]
    exact created hmax hn
  cases hp : c.period with
  | none =>
    cases hpol : c.policy with
    | catchup =>
      rw [State.armAt_of_catchup hn hp hpol, State.withEntry_fire]
      refine State.setEntry_scheduleKept fun _ => ?_
      rw [Entry.consume_of_oneShot (by exact hp) rfl]
      exact Timetable.fits_free _ (nextGeneration_lt _)
    | skip =>
      rw [State.armAt_of_skip hn hp hpol]
      exact .refl s
  | some P =>
    rw [State.armAt_of_periodic hn hp]
    split
    · exact .refl s
    next hz =>
      obtain ⟨-, hper, -⟩ := hc
      obtain ⟨hpos, -⟩ := hper P hp
      exact created (Nat.le_of_not_lt hz) (lt_advancePast (Nat.lt_of_lt_of_le (by decide) hpos) hn)

theorem State.arm_scheduleKept (s : State) (p : Port) (l : List Byte) :
    s.ScheduleKept (s.creating p l (armOperands l) s.armAt).state :=
  State.creating_state (.refl s) fun _ _ _ ha ho hden => State.armAt_scheduleKept (armOperands_ok ho).1 (armOperands_ok ho).2 ha hden

theorem State.prime_scheduleKept (s : State) (p : Port) (l : List Byte) :
    s.ScheduleKept (s.creating p l (primeOperands l) s.primeAt).state :=
  State.creating_state (.refl s) fun _ _ _ ha ho hden => State.withEntry_scheduleKept fun hs =>
    Timetable.fits_creation hs (primeOperands_ok ho).2 ha hden nofun
      (fun _ hq => Option.mem_some_iff.1 hq ▸ (primeOperands_ok ho).1) fun _ => rfl

/-! ## The tick (R2, R29) -/

theorem State.catchUp_scheduleKept (s : State) : s.ScheduleKept s.catchUp := by
  have h1 : s.ScheduleKept s.scuCatchUp := State.foldl_scheduleKept State.scuTake_scheduleKept _ _
  have h2 : s.scuCatchUp.ScheduleKept s.scuCatchUp.touCatchUp :=
    State.foldl_scheduleKept (fun s _ => .of_eq s.lineOperation_timetable) _ _
  have h3 : s.scuCatchUp.touCatchUp.Aside s.scuCatchUp.touCatchUp.ecuCatchUp := State.foldl_aside State.ecuTake_aside _ _
  exact (h1.trans h2).trans h3.scheduleKept

theorem State.advanceEnd_scheduleKept (s : State) : s.ScheduleKept s.advanceEnd := by
  rcases s.advanceEnd_cases with ⟨-, e⟩ | ⟨_, -, e⟩ <;> rw [e]
  · exact .refl s
  · exact (s.scuSessionEnd_scheduleKept _).trans (State.eluSessionEnd_scheduleKept _ _)

theorem State.expireDue_scheduleKept (s : State) (p : Port) : s.ScheduleKept (s.expireDue p) := by
  rcases s.expireDue_cases p with ⟨-, e⟩ | ⟨-, -, e⟩ | ⟨-, -, e⟩ <;> rw [e]
  · exact .refl s
  · exact s.advanceEnd_scheduleKept.trans (State.idleExpiry_scheduleKept _ p)
  · exact s.advanceEnd_scheduleKept.trans (.of_eq (State.withSession_timetable _ _ rfl))

theorem State.settleSessions_scheduleKept (s : State) : s.ScheduleKept s.settleSessions := by
  have h : s.ScheduleKept s.takeReports :=
    State.foldl_scheduleKept (fun s (r : Report) => .of_eq (s.validFrameReport_timetable r.port)) _ _
  exact h.trans (State.foldl_scheduleKept State.expireDue_scheduleKept _ _)

theorem State.takeTick_scheduleKept (s : State) : s.ScheduleKept s.takeTick := by
  unfold State.takeTick
  split
  · exact (State.ScheduleKept.of_eq (t := { s with mail := { s.mail with refTicks := s.mail.refTicks - 1 } }) rfl).trans
      (State.tickOf_scheduleKept _ _)
  · exact (s.tickOf_scheduleKept _).trans (.of_eq (State.countCycle_timetable _))

theorem State.tick_scheduleKept (s : State) : s.ScheduleKept s.tick :=
  ((s.catchUp_scheduleKept.trans (State.settleSessions_scheduleKept _)).trans (State.tickEdge_aside _).scheduleKept).trans
    (State.takeTick_scheduleKept _)

theorem State.internalCycle_scheduleKept (s : State) : s.ScheduleKept s.internalCycle := by
  unfold State.internalCycle
  split
  · exact s.tick_scheduleKept
  · exact .of_eq s.countCycle_timetable

/-! ## Power-on and RST# -/

theorem Timetable.Ok.of_rst {c : Timetable} (h : c.Ok) (b : Bool) : ({ c with rst := b } : Timetable).Ok :=
  ⟨h.time_le, h.lead, h.quota, fun i => ⟨(h.fits i).ok, (h.fits i).ahead, fun hu =>
    ⟨((h.fits i).permits hu).owned, ((h.fits i).permits hu).line⟩⟩⟩

theorem State.powerOn_timetableOk (s : State) : s.powerOn.timetable.Ok :=
  ((State.scheduleOk_iff _).1 State.reset_scheduleOk).of_rst true

/-- The device reset leaves a table of FREE entries and quotas of 16, and the hand-overs to the SCU (R65, R87). -/
theorem State.resetAssert_timetableOk {s : State} (hs : s.timetable.Ok) : s.resetAssert.timetable.Ok := by
  unfold State.resetAssert
  split
  · exact hs
  have hu := s.beforeReset_aside.scheduleKept.2 hs
  generalize s.stepsBeforeReset.closeEnding = u at hu
  refine ⟨hu.time_le, hu.lead, fun p => ?_, fun i => ?_⟩
  · show 1 ≤ (Vector.replicate 4 Config.defaultQuota)[p] ∧ (Vector.replicate 4 Config.defaultQuota)[p] ≤ 64
    simp [Config.defaultQuota]
  · show Timetable.Fits _ u.scu.resetTable.entries[i]
    rw [Scu.resetTable_entry]
    split
    next hf =>
      obtain ⟨hg, hfree, -⟩ := (hu.fits i).ok
      have he : u.scu.entries[i] = Entry.free u.scu.entries[i].generation := hfree hf
      rw [he]
      exact Timetable.fits_free _ hg
    · exact Timetable.fits_free _ (nextGeneration_lt _)

/-! ## Every command -/

/-- The commands that move RST# (R22, R145, R164). -/
def movesReset : Instr → Bool
  | .powerOn | .resetAssert | .resetRelease .. => true
  | _ => false

/-- Every command but those that move RST# leaves RST# and keeps the laws of the schedule. -/
theorem exec_scheduleKept {c : Instr} (s : State) (hc : movesReset c = false) : ∃ t, exec c s = .next t ∧ s.ScheduleKept t := by
  have same {t : State} (h : t.timetable = s.timetable) : ∃ t', Host.Outcome.next (φ := Fault) (ρ := Refusal) t = .next t'
      ∧ s.ScheduleKept t' := ⟨t, rfl, .of_eq h⟩
  have aside {t : State} (h : s.Aside t) : ∃ t', Host.Outcome.next (φ := Fault) (ρ := Refusal) t = .next t'
      ∧ s.ScheduleKept t' := ⟨t, rfl, h.scheduleKept⟩
  cases c with
  | powerOn | resetAssert | resetRelease => cases hc
  | tick => exact ⟨_, rfl, s.tick_scheduleKept⟩
  | trimCorrectionDue => exact aside s.trimCorrectionDue_aside
  | slewCorrectionDue => exact aside s.slewCorrectionDue_aside
  | timeAdvance => exact ⟨_, rfl, s.timeAdvance_scheduleKept⟩
  | stepHandover => exact ⟨_, rfl, s.stepHandover_scheduleKept⟩
  | primingHandover n => exact ⟨_, rfl, s.primingHandover_scheduleKept n⟩
  | lineOperation => exact same s.lineOperation_timetable
  | pulseEnd n => exact same (s.pulseEnd_timetable n)
  | inputSample n l => exact aside (s.inputSample_aside n l)
  | ecuStepHandover => exact aside s.ecuStepHandover_aside
  | windowClose => exact aside s.windowClose_aside
  | missingDeclaration => exact aside s.missingDeclaration_aside
  | holdoverAgeIncrement => exact aside s.holdoverAgeIncrement_aside
  | holdoverExpiry => exact aside s.holdoverExpiry_aside
  | ppsEdgeHandover => exact aside s.ppsEdgeHandover_aside
  | disciplineSlew => exact aside s.disciplineSlew_aside
  | recordTake b => exact same (s.recordTake_timetable b)
  | subscriptionInstall p => exact same (s.subscriptionInstall_timetable p)
  | scuSessionEnd p => exact ⟨_, rfl, s.scuSessionEnd_scheduleKept p⟩
  | eluSessionEnd p => exact ⟨_, rfl, s.eluSessionEnd_scheduleKept p⟩
  | idleExpiry p => exact ⟨_, rfl, s.idleExpiry_scheduleKept p⟩
  | validFrameReport p => exact same (s.validFrameReport_timetable p)
  | frameBegin p => exact same (s.frameBegin_timetable p)
  | frameEnd p l => exact same (s.frameEnd_timetable p l)
  | requestCompletion p => exact same rfl
  | attach p => exact ⟨_, rfl, State.serveSau_scheduleKept (s.attach_scheduleKept p)⟩
  | detach p =>
    refine ⟨_, rfl, ?_⟩
    split
    · exact .refl s
    next h => exact s.detach_scheduleKept p (Option.not_isSome_iff_eq_none.1 fun he => h (.inl he))
  | getStatus p => exact ⟨_, rfl, State.serveSau_scheduleKept fun _ => .of_eq (State.withSession_timetable _ _ rfl)⟩
  | claim p => exact ⟨_, rfl, State.serveSau_scheduleKept fun _ => s.claim_scheduleKept p⟩
  | release p => exact ⟨_, rfl, State.serveSau_scheduleKept fun _ => s.release_scheduleKept p⟩
  | take p => exact ⟨_, rfl, State.serveSau_scheduleKept fun _ => s.take_scheduleKept p⟩
  | readTime p => exact ⟨_, rfl, State.serve_scheduleKept fun _ => .refl s⟩
  | readTimebase p => exact ⟨_, rfl, State.serve_scheduleKept fun _ => State.ifAttached_state (.refl s) (.refl s)⟩
  | setTime p => exact ⟨_, rfl, State.serve_scheduleKept (s.setTime_scheduleKept p)⟩
  | stepTime p => exact ⟨_, rfl, State.serve_scheduleKept (s.stepTime_scheduleKept p)⟩
  | slewTime p => exact ⟨_, rfl, State.serve_scheduleKept (s.slewTime_scheduleKept p)⟩
  | setTrim p => exact ⟨_, rfl, State.serve_scheduleKept (s.setTrim_scheduleKept p)⟩
  | readRef p => exact ⟨_, rfl, State.serve_scheduleKept fun _ => State.ifAttached_state (.refl s) (.refl s)⟩
  | refConfig p =>
    exact ⟨_, rfl, State.serve_scheduleKept fun _ => State.ifHolder_state (.refl s) (State.ifInRange_state (.refl s)
      fun c _ => (s.applyRefConfig_aside c).scheduleKept)⟩
  | ppsConfig p =>
    exact ⟨_, rfl, State.serve_scheduleKept fun _ => State.ifHolder_state (.refl s) (State.ifInRange_state (.refl s)
      fun _ _ => .of_eq rfl)⟩
  | arm p => exact ⟨_, rfl, State.serve_scheduleKept (s.arm_scheduleKept p)⟩
  | prime p => exact ⟨_, rfl, State.serve_scheduleKept (s.prime_scheduleKept p)⟩
  | cancel p => exact ⟨_, rfl, State.serve_scheduleKept fun _ => State.withHandle_scheduleKept s.cancelAt_scheduleKept⟩
  | hold p => exact ⟨_, rfl, State.serve_scheduleKept fun _ => State.withHandle_scheduleKept s.holdAt_scheduleKept⟩
  | resume p => exact ⟨_, rfl, State.serve_scheduleKept fun l => State.withHandle_scheduleKept (s.resumeAt_scheduleKept l)⟩
  | queryEntry p => exact ⟨_, rfl, State.serve_scheduleKept fun _ => State.withHandle_scheduleKept fun _ => .refl s⟩
  | listEntries p =>
    exact ⟨_, rfl, State.serve_scheduleKept fun _ => State.ifAttached_state (.refl s) (State.ifInRange_state (.refl s)
      fun _ _ => .refl s)⟩
  | setQuota p => exact ⟨_, rfl, State.serve_scheduleKept (s.setQuota_scheduleKept p)⟩
  | bindLine p => exact ⟨_, rfl, State.serve_scheduleKept (s.bindLine_scheduleKept p)⟩
  | lineConfig p => exact ⟨_, rfl, State.serve_scheduleKept (s.lineConfig_scheduleKept p)⟩
  | driveLine p => exact ⟨_, rfl, State.serve_scheduleKept (s.driveLine_scheduleKept p)⟩
  | readLines p => exact ⟨_, rfl, State.serve_scheduleKept fun _ => State.ifAttached_state (.refl s) (.refl s)⟩
  | inputConfig p => exact ⟨_, rfl, State.serve_scheduleKept (s.inputConfig_scheduleKept p)⟩
  | readInputs p => exact ⟨_, rfl, State.serve_scheduleKept fun _ => State.ifAttached_state (.refl s) (.refl s)⟩
  | subscribe p =>
    refine ⟨_, rfl, ?_⟩
    split
    · exact .refl s
    · exact State.serve_scheduleKept fun _ => State.ifAttached_state (.refl s) (State.ifInRange_state (.refl s)
        fun _ _ => .of_eq (State.withSession_timetable _ _ rfl))
  | readLog p =>
    exact ⟨_, rfl, State.serve_scheduleKept fun _ => State.ifAttached_state (.refl s) (State.ifInRange_state (.refl s)
      fun _ _ => .refl s)⟩
  | ackLog p =>
    exact ⟨_, rfl, State.serve_scheduleKept fun _ => State.ifAttached_state (.refl s) (by split <;> exact .of_eq rfl)⟩
  | logPolicy p =>
    exact ⟨_, rfl, State.serve_scheduleKept fun _ => State.ifHolder_state (.refl s) (State.ifInRange_state (.refl s)
      fun _ _ => .of_eq rfl)⟩
  | refclkEdge => exact aside s.refclkEdge_aside

/-- Every command answers a next state, in which the laws of the schedule hold if they held before it. -/
theorem exec_timetableOk (c : Instr) (s : State) : ∃ t, exec c s = .next t ∧ (s.timetable.Ok → t.timetable.Ok) := by
  cases hc : movesReset c with
  | false =>
    obtain ⟨t, e, h⟩ := exec_scheduleKept s hc
    exact ⟨t, e, h.2⟩
  | true =>
    cases c with
    | powerOn => exact ⟨_, rfl, fun _ => s.powerOn_timetableOk⟩
    | resetAssert => exact ⟨_, rfl, State.resetAssert_timetableOk⟩
    | resetRelease sen1 sen0 =>
      refine ⟨_, rfl, fun hs => ?_⟩
      unfold State.resetRelease
      split
      · exact hs.of_rst false
      · exact hs
    | _ => cases hc

/-- Settles O56: every step keeps the laws of the schedule, command by command. -/
theorem scheduleLawKept : Obligations.ScheduleLawKept := by
  intro s t hs ht
  rw [State.scheduleOk_iff] at hs ⊢
  have run (c : Instr) {u : State} (hu : u.timetable.Ok) (h : exec c u = .next t) : t.timetable.Ok := by
    obtain ⟨t', e, hk⟩ := exec_timetableOk c u
    cases e.symm.trans h
    exact hk hu
  unfold step at ht
  split at ht
  next c rest _ => exact run c (u := { s with pending := rest }) hs ht
  · split at ht
    · exact run _ hs ht
    · cases ht
      exact s.internalCycle_scheduleKept.2 hs

end Sys2Proof.Machine
end

section
/-! Every step keeps the part quiet while RST# is asserted (O59): nothing waits that could end the quiet. -/

namespace Sys2Proof.Machine

/-- A trigger line at its reset values but for the mark of PULSE_END (R99). -/
structure TrigLine.Still (l : TrigLine) : Prop where
  active : l.active = false
  remaining : l.remaining = 0
  binding : l.binding = none
  idle : l.idle = .low

/-- What `State.QuietInReset` says of a part with RST# asserted, field by field. -/
structure State.Quiet (s : State) : Prop where
  hpu : ∀ p : Port, s.hpu[p].slot = .free ∧ s.hpu[p].link = .idle ∧ s.hpu[p].staged = none ∧ s.hpu[p].refusal = none
  ports : ∀ p : Port, s.sau.sessions[p].attached = false ∧ s.elu.subs[p] = none
  holder : s.sau.holder = none
  queue : s.sau.queue = []
  ending : s.sau.ending = none
  log : s.elu.log = []
  free : ∀ i : Index, s.scu.entries[i].state = .free
  lines : ∀ n : Line, s.tou.lines[n].Still
  select : ∀ n : Line, s.ecu.inputs[n].select = .off
  ops : s.mail.ops = []
  installs : s.mail.installs = []
  reports : s.mail.reports = []

theorem TrigLine.still_iff (l : TrigLine) :
    l.Still ↔ l.active = false ∧ l.remaining = 0 ∧ l.binding = none ∧ l.idle = .low :=
  ⟨fun h => ⟨h.active, h.remaining, h.binding, h.idle⟩, fun ⟨h1, h2, h3, h4⟩ => ⟨h1, h2, h3, h4⟩⟩

theorem State.quietInReset_iff (s : State) : s.QuietInReset ↔ (s.rst = true → s.Quiet) := by
  refine imp_congr_right fun _ => ⟨?_, ?_⟩
  · rintro ⟨h1, h2, h3, h4, h5, h6, h7, h8, h9, h10, h11, h12⟩
    exact ⟨h1, h2, h3, h4, h5, h6, h7, fun n => (TrigLine.still_iff _).2 (h8 n), h9, h10, h11, h12⟩
  · rintro ⟨h1, h2, h3, h4, h5, h6, h7, h8, h9, h10, h11, h12⟩
    exact ⟨h1, h2, h3, h4, h5, h6, h7, fun n => (TrigLine.still_iff _).1 (h8 n), h9, h10, h11, h12⟩

namespace State.Quiet
variable {s : State} (h : s.Quiet)
include h

/-! ## Events that find nothing to do -/

theorem request?_eq_none (p : Port) (c : Code) : s.request? p c = none := by
  obtain ⟨hslot, -⟩ := h.hpu p
  unfold State.request?
  rw [hslot]

theorem withHpu_complete_eq (p : Port) : s.withHpu p Hpu.complete = s := by
  obtain ⟨hslot, -⟩ := h.hpu p
  have hc : s.hpu[p].complete = s.hpu[p] := by
    unfold Hpu.complete
    rw [hslot]
  have hv : s.hpu.set p.val s.hpu[p].complete = s.hpu := by
    rw [hc]
    exact Vector.set_getElem_self _
  unfold State.withHpu
  rw [hv]

theorem frameEnd_eq (p : Port) (l : List Bool) : s.frameEnd p l = s := by
  obtain ⟨-, hlink, -⟩ := h.hpu p
  unfold State.frameEnd
  rw [hlink]

theorem lineOperation_eq : s.lineOperation = s := by
  unfold State.lineOperation
  rw [h.ops]

theorem subscriptionInstall_eq (p : Port) : s.subscriptionInstall p = s := by
  unfold State.subscriptionInstall
  rw [h.installs]
  exact ite_self s

theorem scuSessionEnd_eq (p : Port) : s.scuSessionEnd p = s := by
  unfold State.scuSessionEnd
  rw [h.ending]

theorem eluSessionEnd_eq (p : Port) : s.eluSessionEnd p = s := by
  unfold State.eluSessionEnd
  rw [h.ending]

theorem validFrameReport_eq (p : Port) : s.validFrameReport p = s := by
  unfold State.validFrameReport
  rw [h.reports]
  rfl

theorem not_atLimit (p : Port) : ¬ s.sau.sessions[p].atLimit := fun ⟨ha, _⟩ => by
  obtain ⟨hd, -⟩ := h.ports p
  exact Bool.false_ne_true (hd.symm.trans ha)

theorem idleExpiry_eq (p : Port) : s.idleExpiry p = s :=
  if_neg fun ⟨_, ht⟩ => h.not_atLimit p ((Session.timedOut_iff _).1 ht)

theorem settleSessions_eq : s.settleSessions = s := by
  have hr : s.takeReports = s := by
    unfold State.takeReports
    rw [h.reports]
    rfl
  unfold State.settleSessions
  rw [hr]
  refine List.foldlRecOn (motive := (· = s)) _ _ rfl fun t ht p _ => ?_
  subst ht
  rcases t.expireDue_cases p with ⟨-, e⟩ | ⟨hl, -⟩ | ⟨hl, -⟩
  · exact e
  all_goals exact absurd hl (h.not_atLimit p)

theorem touCatchUp_eq : s.touCatchUp = s := by
  unfold State.touCatchUp
  rw [h.ops]
  rfl

/-! ## Events that leave what is quiet -/

theorem of_aside {t : State} (k : s.Aside t) : t.Quiet := by
  obtain ⟨_, _, _, _, _, rfl, -, hsel, -, hops, hin, hrep⟩ := k
  exact ⟨h.hpu, h.ports, h.holder, h.queue, h.ending, h.log, h.free, h.lines, fun n => (hsel n).trans (h.select n),
    hops.trans h.ops, hin.trans h.installs, hrep.trans h.reports⟩

/-- The SCU's time and the hand-overs of time and of captures to it are no part of the quiet. -/
theorem of_handover (now : Time) (toScu : List TimeHandover) (primings : List Priming) :
    ({ s with scu := { s.scu with now }, mail := { s.mail with toScu, primings } } : State).Quiet :=
  ⟨h.hpu, h.ports, h.holder, h.queue, h.ending, h.log, h.free, h.lines, h.select, h.ops, h.installs, h.reports⟩

theorem of_pending (l : List Instr) : ({ s with pending := l } : State).Quiet :=
  ⟨h.hpu, h.ports, h.holder, h.queue, h.ending, h.log, h.free, h.lines, h.select, h.ops, h.installs, h.reports⟩

theorem dueBy_eq (t : Time) : dueBy s.scu.entries t = [] := by
  obtain ⟨-, hmem⟩ := dueBy_spec s.scu.entries t
  refine List.eq_nil_iff_forall_not_mem.2 fun i hi => ?_
  obtain ⟨ha, -⟩ := (hmem i).1 hi
  exact nomatch (h.free i).symm.trans ha

theorem timeAdvance : s.timeAdvance.Quiet := by
  unfold State.timeAdvance
  split
  next t rest _ =>
    dsimp only
    rw [h.dueBy_eq]
    exact h.of_handover t rest s.mail.primings
  · exact h

theorem stepHandover : s.stepHandover.Quiet := by
  cases hm : s.mail.toScu with
  | nil =>
    unfold State.stepHandover
    rw [hm]
    exact h
  | cons x rest =>
    cases x with
    | advance =>
      unfold State.stepHandover
      rw [hm]
      exact h
    | step k old new =>
      rw [State.stepHandover_of_free h.free hm]
      exact h.of_handover new rest s.mail.primings

theorem scuTake (x : TimeHandover) : (s.scuTake x).Quiet := by
  cases x with
  | advance => exact h.timeAdvance
  | step => exact h.stepHandover

/-- No FREE entry is primed for an edge (R58). -/
theorem primingHandover (n : Line) : (s.primingHandover n).Quiet := by
  unfold State.primingHandover
  split
  · exact h
  next edge rest _ =>
    split
    · have hnil : indexesWhere s.scu.entries (·.primedFor edge) = [] := by
        refine List.eq_nil_iff_forall_not_mem.2 fun i hi => ?_
        obtain ⟨hp, -⟩ := (Entry.primedFor_iff _ _).1 (mem_indexesWhere.1 hi)
        exact nomatch (h.free i).symm.trans hp
      dsimp only
      rw [hnil]
      exact h.of_handover s.scu.now s.mail.toScu rest
    · exact h

/-- A record taken with no subscription leaves no trace but its seq (R120). -/
theorem recordTake (b : Block) : (s.recordTake b).Quiet := by
  rcases s.recordTake_cases b with e | ⟨r, rest, -, -, e⟩ <;> rw [e]
  · exact h
  · have hnone : s.elu.pendingSet r = emptySet := by
      have hsub (p : Port) : s.elu.subs[p] = none := (h.ports p).2
      unfold Elu.pendingSet perPort
      simp only [hsub, Option.any_none]
      rfl
    rcases s.elu.takeRecord_cases r with ⟨-, e⟩ | ⟨hne, -⟩ | ⟨hne, -⟩ | ⟨hne, -⟩
    · rw [e]
      exact ⟨h.hpu, h.ports, h.holder, h.queue, h.ending, h.log, h.free, h.lines, h.select, h.ops, h.installs, h.reports⟩
    all_goals exact absurd hnone hne

theorem countCycle : s.countCycle.Quiet := by
  refine ⟨h.hpu, fun p => ⟨?_, (h.ports p).2⟩, h.holder, h.queue, h.ending, h.log, h.free, h.lines, h.select, h.ops, h.installs,
    h.reports⟩
  obtain ⟨hd, -⟩ := h.ports p
  simpa [State.countCycle, Session.cycle_attached] using hd

end State.Quiet

/-! ## The tick (R90, R101) -/

theorem TrigLine.Still.tick {l : TrigLine} (h : l.Still) : l.tick.Still := by
  unfold TrigLine.tick
  split
  · exact ⟨h.active, h.remaining, h.binding, h.idle⟩
  · rw [if_pos h.remaining]
    exact h

theorem TrigLine.Still.pulseEnd_eq {l : TrigLine} (h : l.Still) : l.pulseEnd = l :=
  if_neg fun ⟨_, h1⟩ => nomatch h.remaining.symm.trans h1

namespace State.Quiet
variable {s : State} (h : s.Quiet)
include h

theorem of_lines {v : Vector TrigLine 8} (hv : ∀ n : Line, v[n].Still) : ({ s with tou := { lines := v } } : State).Quiet :=
  ⟨h.hpu, h.ports, h.holder, h.queue, h.ending, h.log, h.free, hv, h.select, h.ops, h.installs, h.reports⟩

theorem pulseEnd (n : Line) : (s.pulseEnd n).Quiet := by
  unfold State.pulseEnd
  split
  · refine h.of_lines fun m => ?_
    rw [(h.lines n).pulseEnd_eq]
    by_cases hm : m = n
    · subst hm
      simpa using h.lines m
    · have : n.val ≠ m.val := fun x => hm (Fin.ext x.symm)
      simpa [Vector.getElem_set_ne, this] using h.lines m
  · exact h

theorem tickOf (src : Source) : (s.tickOf src).Quiet := by
  rw [State.tickOf_eq]
  refine ⟨h.hpu, h.ports, h.holder, h.queue, h.ending, h.log, h.free, fun n => ?_, fun n => ?_, h.ops, h.installs, h.reports⟩
  · simpa using (h.lines n).tick
  · simpa [Input.tick] using h.select n

theorem takeTick : s.takeTick.Quiet := by
  unfold State.takeTick
  split
  · exact (h.of_aside (t := { s with mail := { s.mail with refTicks := s.mail.refTicks - 1 } })
      ⟨_, _, _, _, _, rfl, rfl, fun _ => rfl, rfl, rfl, rfl, rfl⟩).tickOf _
  · exact (h.tickOf _).countCycle

theorem catchUp : s.catchUp.Quiet := by
  have hscu : s.scuCatchUp.Quiet := List.foldlRecOn (motive := State.Quiet) _ _ h fun _ ht x _ => ht.scuTake x
  unfold State.catchUp
  rw [hscu.touCatchUp_eq]
  exact hscu.of_aside (State.foldl_aside State.ecuTake_aside _ _)

theorem tick : s.tick.Quiet := by
  unfold State.tick
  rw [h.catchUp.settleSessions_eq]
  exact (h.catchUp.of_aside (State.tickEdge_aside _)).takeTick

theorem internalCycle : s.internalCycle.Quiet := by
  unfold State.internalCycle
  split
  · exact h.tick
  · exact h.countCycle

end State.Quiet

/-! ## Power-on and RST# -/

theorem State.reset_quiet : State.reset.Quiet := by
  refine ⟨fun p => ?_, fun p => ⟨?_, State.reset_sub p⟩, rfl, rfl, rfl, rfl, fun i => ?_, fun n => ?_, fun n => ?_, rfl, rfl, rfl⟩
  · rw [State.reset_hpu]
    exact ⟨rfl, rfl, rfl, rfl⟩
  · rw [State.reset_session]
    rfl
  · rw [State.reset_entry]
    rfl
  · rw [State.reset_line]
    exact ⟨rfl, rfl, rfl, rfl⟩
  · rw [State.reset_input]
    rfl

theorem State.powerOn_quiet (s : State) : s.powerOn.Quiet :=
  have h := State.reset_quiet
  ⟨h.hpu, h.ports, h.holder, h.queue, h.ending, h.log, h.free, h.lines, h.select, h.ops, h.installs, h.reports⟩

/-- RST# leaves every block but the TBU and the RSV at its reset values (R65, R99, R115, R135, R152, R164). -/
theorem State.resetAssert_quiet {s : State} (hr : s.rst = false) : s.resetAssert.Quiet := by
  unfold State.resetAssert
  rw [if_neg (by simp [hr])]
  generalize s.stepsBeforeReset.closeEnding = u
  refine ⟨fun p => ?_, fun p => ?_, rfl, rfl, rfl, rfl, fun i => ?_, fun n => ?_, fun n => ?_, rfl, rfl, rfl⟩
  · simp [Hpu.initial]
  · simp [Sau.initial, Session.initial, Elu.initial]
  · show u.scu.resetTable.entries[i].state = .free
    rw [Scu.resetTable_entry]
    split
    next hf => exact hf
    · rfl
  · exact (TrigLine.still_iff _).2 (by simp [TrigLine.initial])
  · simp [Ecu.initial, Input.initial]

/-! ## Every command -/

/-- Every command but those that move RST# leaves a quiet part quiet while RST# is asserted. -/
theorem exec_quiet {c : Instr} {s : State} (hc : movesReset c = false) (hr : s.rst = true) (h : s.Quiet) :
    ∃ t, exec c s = .next t ∧ t.Quiet := by
  have same {t : State} (e : t = s) : ∃ t', Host.Outcome.next (φ := Fault) (ρ := Refusal) t = .next t' ∧ t'.Quiet :=
    ⟨t, rfl, e ▸ h⟩
  have aside {t : State} (k : s.Aside t) : ∃ t', Host.Outcome.next (φ := Fault) (ρ := Refusal) t = .next t' ∧ t'.Quiet :=
    ⟨t, rfl, h.of_aside k⟩
  have request (c : Code) (p : Port) : ∃ t, exec (c.command p) s = .next t ∧ t.Quiet :=
    ⟨s, exec_of_no_request (h.request?_eq_none p c), h⟩
  cases c with
  | powerOn | resetAssert | resetRelease => cases hc
  | tick => exact ⟨_, rfl, h.tick⟩
  | timeAdvance => exact ⟨_, rfl, h.timeAdvance⟩
  | stepHandover => exact ⟨_, rfl, h.stepHandover⟩
  | primingHandover n => exact ⟨_, rfl, h.primingHandover n⟩
  | pulseEnd n => exact ⟨_, rfl, h.pulseEnd n⟩
  | recordTake b => exact ⟨_, rfl, h.recordTake b⟩
  | trimCorrectionDue => exact aside s.trimCorrectionDue_aside
  | slewCorrectionDue => exact aside s.slewCorrectionDue_aside
  | inputSample n l => exact aside (s.inputSample_aside n l)
  | ecuStepHandover => exact aside s.ecuStepHandover_aside
  | windowClose => exact aside s.windowClose_aside
  | missingDeclaration => exact aside s.missingDeclaration_aside
  | holdoverAgeIncrement => exact aside s.holdoverAgeIncrement_aside
  | holdoverExpiry => exact aside s.holdoverExpiry_aside
  | ppsEdgeHandover => exact aside s.ppsEdgeHandover_aside
  | disciplineSlew => exact aside s.disciplineSlew_aside
  | refclkEdge => exact aside s.refclkEdge_aside
  | lineOperation => exact same h.lineOperation_eq
  | subscriptionInstall p => exact same (h.subscriptionInstall_eq p)
  | scuSessionEnd p => exact same (h.scuSessionEnd_eq p)
  | eluSessionEnd p => exact same (h.eluSessionEnd_eq p)
  | idleExpiry p => exact same (h.idleExpiry_eq p)
  | validFrameReport p => exact same (h.validFrameReport_eq p)
  | frameBegin p => exact same (if_pos (.inl hr))
  | frameEnd p l => exact same (h.frameEnd_eq p l)
  | requestCompletion p => exact same (h.withHpu_complete_eq p)
  | attach p => exact request .attach p
  | detach p => exact request .detach p
  | getStatus p => exact request .getStatus p
  | claim p => exact request .claim p
  | release p => exact request .release p
  | take p => exact request .take p
  | readTime p => exact request .readTime p
  | readTimebase p => exact request .readTimebase p
  | setTime p => exact request .setTime p
  | stepTime p => exact request .stepTime p
  | slewTime p => exact request .slewTime p
  | setTrim p => exact request .setTrim p
  | readRef p => exact request .readRef p
  | refConfig p => exact request .refConfig p
  | ppsConfig p => exact request .ppsConfig p
  | arm p => exact request .arm p
  | prime p => exact request .prime p
  | cancel p => exact request .cancel p
  | hold p => exact request .hold p
  | resume p => exact request .resume p
  | queryEntry p => exact request .queryEntry p
  | listEntries p => exact request .listEntries p
  | setQuota p => exact request .setQuota p
  | bindLine p => exact request .bindLine p
  | lineConfig p => exact request .lineConfig p
  | driveLine p => exact request .driveLine p
  | readLines p => exact request .readLines p
  | inputConfig p => exact request .inputConfig p
  | readInputs p => exact request .readInputs p
  | subscribe p => exact request .subscribe p
  | readLog p => exact request .readLog p
  | ackLog p => exact request .ackLog p
  | logPolicy p => exact request .logPolicy p

theorem exec_quietInReset (c : Instr) {s : State} (h : s.rst = true → s.Quiet) :
    ∃ t, exec c s = .next t ∧ (t.rst = true → t.Quiet) := by
  cases hc : movesReset c with
  | false =>
    cases hr : s.rst with
    | false =>
      obtain ⟨t, e, ht, -⟩ := exec_scheduleKept s hc
      exact ⟨t, e, fun hx => nomatch hr.symm.trans (ht.symm.trans hx)⟩
    | true =>
      obtain ⟨t, e, ht⟩ := exec_quiet hc hr (h hr)
      exact ⟨t, e, fun _ => ht⟩
  | true =>
    cases c with
    | powerOn => exact ⟨_, rfl, fun _ => s.powerOn_quiet⟩
    | resetAssert =>
      refine ⟨_, rfl, fun _ => ?_⟩
      cases hr : s.rst with
      | false => exact State.resetAssert_quiet hr
      | true =>
        unfold State.resetAssert
        rw [if_pos hr]
        exact h hr
    | resetRelease sen1 sen0 =>
      refine ⟨_, rfl, ?_⟩
      unfold State.resetRelease
      split
      · exact nofun
      · exact h
    | _ => cases hc

/-- Settles O59: a part that is quiet under RST# finds nothing to do, command by command. -/
theorem resetQuietKept : Obligations.ResetQuietKept := by
  intro s t hs ht
  rw [State.quietInReset_iff] at hs ⊢
  have run (c : Instr) {u : State} (hu : u.rst = true → u.Quiet) (e : exec c u = .next t) : t.rst = true → t.Quiet := by
    obtain ⟨t', e', hk⟩ := exec_quietInReset c hu
    cases e'.symm.trans e
    exact hk
  unfold step at ht
  split at ht
  next c rest _ => exact run c (u := { s with pending := rest }) (fun hr => (hs hr).of_pending rest) ht
  · split at ht
    · exact run _ hs ht
    · cases ht
      obtain ⟨hr, -⟩ := s.internalCycle_scheduleKept
      exact fun hx => (hs (hr ▸ hx)).internalCycle

end Sys2Proof.Machine
end

section
/-! What an entry becomes after k occurrences, and how many occurrences a time value passes (O18). -/

namespace Sys2Proof.Machine

/-! ## The end of an entry (R71, R72) -/

/-- A periodic entry ends where its count runs out or its next due passes the maximum (R71). -/
theorem Entry.endsAfter_of_periodic {e : Entry} {P : Nat} (h : e.period = some P) (k : Nat) :
    e.endsAfter k = true ↔ (∃ r, e.remaining = some r ∧ r ≤ k) ∨ Config.maxTime < e.dueTime + k * P := by
  unfold Entry.endsAfter
  rw [h]
  simp [Option.any_eq_true]

theorem Entry.endsAfter_iff (e : Entry) (k : Nat) : e.endsAfter k = true ↔ e.period = none
    ∨ (∃ r, e.period.isSome = true ∧ e.remaining = some r ∧ r ≤ k)
    ∨ ∃ P, e.period = some P ∧ Config.maxTime < e.dueTime + k * P := by
  cases h : e.period with
  | none => simp [Entry.endsAfter_of_oneShot h]
  | some P => simp [Entry.endsAfter_of_periodic h]

theorem Entry.rearms_eq_false {e : Entry} (h : ∀ q, e.prime = some q → q.rearm = false) : e.rearms = false := by
  unfold Entry.rearms
  cases hp : e.prime with
  | none => rfl
  | some q => exact h q hp

theorem Entry.rearms_of_prime {e : Entry} {q : PrimeSpec} (hp : e.prime = some q) (hr : q.rearm = true) :
    e.rearms = true := by
  unfold Entry.rearms
  rw [hp]
  exact hr

/-- An entry that ends without rearm is FREE with the next generation (R45, R72). -/
theorem Entry.consume_of_freed {e : Entry} {k : Nat} (h : e.endsAfter k = true) (hr : e.rearms = false) :
    e.consume k = Entry.free ((e.generation + 1) % 256) := by
  unfold Entry.consume Entry.ended
  rw [if_pos h, if_neg (Bool.eq_false_iff.1 (show (e.counted k).rearms = false from hr))]
  rfl

/-- An entry that ends with rearm is PRIMED again with its initial count (R72). -/
theorem Entry.consume_of_rearmed {e : Entry} {k : Nat} (h : e.endsAfter k = true) (hr : e.rearms = true) :
    e.consume k = { e with
      state := .primed, due := none, remaining := e.initial, occurrence := min (e.occurrence + k) 65535 } := by
  unfold Entry.consume Entry.ended
  rw [if_pos h, if_pos (show (e.counted k).rearms = true from hr)]
  rfl

/-- A periodic entry that goes on has its due, its count and its occurrence number moved by k (R71, R74). -/
theorem Entry.consume_of_continued {e : Entry} {k P : Nat} (h : e.endsAfter k = false) (hp : e.period = some P) :
    e.consume k = { e with
      due := some (e.dueTime + k * P), remaining := e.remaining.map fun r => r - k
      occurrence := min (e.occurrence + k) 65535 } := by
  obtain rfl : e.period.getD 0 = P := by rw [hp]; rfl
  unfold Entry.consume
  rw [if_neg (Bool.eq_false_iff.1 h)]
  rfl

/-! ## Passed occurrences (R74) -/

/-- The dues at or before a time are counted by the whole periods since the first (R74). -/
theorem periods_since_eq {D P n t : Nat} (hP : 0 < P) (h1 : 1 ≤ n) (h2 : D + (n - 1) * P ≤ t) (h3 : t < D + n * P) :
    (t - D) / P + 1 = n :=
  Nat.eq_of_mul_eq_mul_right hP (Nat.add_left_cancel (advancePast_eq h1 h2 h3))

theorem Entry.passed_of_oneShot {e : Entry} (h : e.period = none) (t : Time) : e.passed t = 1 := by
  unfold Entry.passed
  rw [h]

theorem Entry.passed_of_periodic {e : Entry} {P : Nat} (h : e.period = some P) (t : Time) :
    e.passed t = e.remaining.elim ((t - e.dueTime) / P + 1) (min ((t - e.dueTime) / P + 1)) := by
  unfold Entry.passed
  rw [h]
  cases e.remaining <;> rfl

/-- Settles O18: ends and continuations by the branches of `Entry.consume`, and the count by the number of the first due
later than the time. -/
theorem occurrencesConsumed : Obligations.OccurrencesConsumed := by
  intro e D hD
  have hdue : e.dueTime = D := by rw [Entry.dueTime, hD]; rfl
  subst hdue
  refine ⟨fun k => ⟨e.endsAfter_iff k, ?freed, ?rearmed, ?continued⟩,
    fun T hT => ⟨fun hp => Entry.passed_of_oneShot hp T, fun P hp hP => ?_⟩⟩
  case freed => exact fun h hq => Entry.consume_of_freed h (Entry.rearms_eq_false hq)
  case rearmed => exact fun q h hp hr => Entry.consume_of_rearmed h (Entry.rearms_of_prime hp hr)
  case continued => exact fun P h hp => Entry.consume_of_continued h hp
  obtain ⟨n, h1, h2, h3⟩ := exists_occurrences e.dueTime P T hP hT
  refine ⟨n, h1, h2, h3, ?_⟩
  rw [Entry.passed_of_periodic hp, periods_since_eq hP h1 h2 h3]
  cases e.remaining <;> rfl

end Sys2Proof.Machine
end

section
/-! The laws of the lines, the inputs and the host ports (O58): the part of the state that they speak of, one line, one input and one
port at a time. -/

namespace Sys2Proof.Machine

/-! ## The part of the state that the laws of the pins and the ports speak of -/

/-- What the laws see of one port: its HPU, whether the report of its request waits, and whether its DETACH is in progress. -/
structure PortView where
  hpu : Hpu
  reported : Bool
  detaching : Bool

def State.portView (s : State) (p : Port) : PortView :=
  { hpu := s.hpu[p], reported := s.reportWaits p
    detaching := s.sau.ending.any fun e => e.port == p && decide (e.reason = .detached) }

/-- The laws of one port. -/
structure PortView.Ok (v : PortView) : Prop where
  hpu : v.hpu.Ok
  waiting : v.reported = true → v.hpu.slot.isWaiting = true
  taken : v.hpu.slot.isTaken = v.detaching

/-- The laws of the ports are laws of each of them. -/
theorem State.portsOk_iff (s : State) : s.PortsOk ↔ ∀ p, (s.portView p).Ok := by
  constructor
  · rintro ⟨hh, hr, ht⟩ p
    exact ⟨hh p, fun h => hr _ ((s.reportWaits_iff p).1 h) rfl, ht p⟩
  · intro h
    refine ⟨fun p => (h p).hpu, fun r hr hq => ?_, fun p => (h p).taken⟩
    obtain ⟨p, _⟩ := r
    subst hq
    exact (h p).waiting ((s.reportWaits_iff p).2 hr)

/-- The lines, the inputs and the ports. -/
structure Periphery where
  tou : Tou
  ecu : Ecu
  port : Port → PortView

def State.periphery (s : State) : Periphery := { tou := s.tou, ecu := s.ecu, port := s.portView }

/-- The passage from one state to another keeps the laws of every line, every input and every port, each by itself. -/
structure State.PeripheryKept (s t : State) : Prop where
  line : ∀ n : Line, s.tou.lines[n].Ok → t.tou.lines[n].Ok
  input : ∀ n : Line, s.ecu.inputs[n].Ok → t.ecu.inputs[n].Ok
  port : ∀ p : Port, (s.portView p).Ok → (t.portView p).Ok

theorem State.PeripheryKept.refl (s : State) : s.PeripheryKept s := ⟨fun _ => id, fun _ => id, fun _ => id⟩

theorem State.PeripheryKept.trans {s t u : State} (h : s.PeripheryKept t) (k : t.PeripheryKept u) : s.PeripheryKept u :=
  ⟨fun n => k.line n ∘ h.line n, fun n => k.input n ∘ h.input n, fun p => k.port p ∘ h.port p⟩

theorem State.PeripheryKept.of_eq {s t : State} (h : t.periphery = s.periphery) : s.PeripheryKept t := by
  have ht : t.tou = s.tou := congrArg Periphery.tou h
  have he : t.ecu = s.ecu := congrArg Periphery.ecu h
  have hp : t.portView = s.portView := congrArg Periphery.port h
  exact ⟨fun n => by rw [ht]; exact id, fun n => by rw [he]; exact id, fun p => by rw [hp]; exact id⟩

theorem State.PeripheryKept.pinsOk {s t : State} (h : s.PeripheryKept t) : s.PinsOk → t.PinsOk :=
  fun ⟨hl, hi⟩ => ⟨fun n => h.line n (hl n), fun n => h.input n (hi n)⟩

theorem State.PeripheryKept.portsOk {s t : State} (h : s.PeripheryKept t) (hs : s.PortsOk) : t.PortsOk :=
  t.portsOk_iff.2 fun p => h.port p (s.portsOk_iff.1 hs p)

/-- Events of which each keeps the laws keep them one after the other. -/
theorem State.foldl_peripheryKept {α : Type} {f : State → α → State} (h : ∀ (s : State) (a : α), s.PeripheryKept (f s a))
    (l : List α) (s : State) : s.PeripheryKept (l.foldl f s) := by
  induction l generalizing s with
  | nil => exact .refl s
  | cons a l ih => exact (h s a).trans (ih _)

/-! ## Events that leave the lines, the inputs and the ports -/

@[simp] theorem State.post_periphery (s : State) (b : Block) (t : Time) (y : Body) (a : Option Address) (k : Links) :
    (s.post b t y a k).periphery = s.periphery := rfl

@[simp] theorem State.postAll_periphery (s : State) (b : Block) (t : Time) (ys : List Body) :
    (s.postAll b t ys).periphery = s.periphery := by
  rw [State.postAll_eq]
  rfl

@[simp] theorem State.withEntry_periphery (s : State) (i : Index) (e : Entry) : (s.withEntry i e).periphery = s.periphery := rfl

@[simp] theorem State.fire_periphery (s : State) (i : Index) (k : Nat) (t : Time) (cause : Cause) (links : Links) :
    (s.fire i k t cause links).periphery = s.periphery := by
  rw [State.fire_after]
  rfl

@[simp] theorem State.treat_periphery (s : State) (i : Index) (t : Time) (cause : Cause) (links : Links) :
    (s.treat i t cause links).periphery = s.periphery := by
  rw [State.treat_after]
  rfl

@[simp] theorem State.timeAdvance_periphery (s : State) : s.timeAdvance.periphery = s.periphery := by
  unfold State.timeAdvance
  split
  · exact State.foldl_keeps (g := State.periphery) (fun s i => s.fire_periphery ..) _ _
  · rfl

@[simp] theorem State.stepHandover_periphery (s : State) : s.stepHandover.periphery = s.periphery := by
  unfold State.stepHandover
  split
  · dsimp only
    split
    · exact State.foldl_keeps (g := State.periphery) (fun s i => s.treat_periphery ..) _ _
    · rfl
  · rfl

theorem State.scuTake_periphery (s : State) (h : TimeHandover) : (s.scuTake h).periphery = s.periphery := by
  cases h with
  | advance => exact s.timeAdvance_periphery
  | step => exact s.stepHandover_periphery

theorem State.primeEntry_periphery (s : State) (t : Time) (k : Links) (i : Index) :
    (s.primeEntry t k i).periphery = s.periphery := by
  unfold State.primeEntry
  dsimp only
  split
  · rfl
  · split
    · rfl
    · split
      · rw [State.treat_periphery, State.withEntry_periphery]
      · split <;> rfl

theorem State.primingHandover_periphery (s : State) (n : Line) : (s.primingHandover n).periphery = s.periphery := by
  unfold State.primingHandover
  split
  · rfl
  · split
    · exact State.foldl_keeps (g := State.periphery) (fun s i => s.primeEntry_periphery ..) _ _
    · rfl

theorem State.trimCorrectionDue_periphery (s : State) : s.trimCorrectionDue.periphery = s.periphery := by
  unfold State.trimCorrectionDue
  split
  · rfl
  · split <;> rfl

theorem State.slewCorrectionDue_periphery (s : State) : s.slewCorrectionDue.periphery = s.periphery := by
  unfold State.slewCorrectionDue
  split
  · rfl
  · split <;> rfl

theorem State.disciplineSlew_periphery (s : State) : s.disciplineSlew.periphery = s.periphery := by
  unfold State.disciplineSlew
  split <;> rfl

theorem State.SupervisionStep.periphery_eq {s t : State} (h : s.SupervisionStep t) : t.periphery = s.periphery := by
  obtain ⟨_, _, -, rfl⟩ := h
  rfl

theorem State.windowClose_periphery (s : State) : s.windowClose.periphery = s.periphery := by
  unfold State.windowClose
  split
  · exact (State.SupervisionStep.of_classified ..).periphery_eq
  · rfl

theorem State.missingDeclaration_periphery (s : State) : s.missingDeclaration.periphery = s.periphery := by
  unfold State.missingDeclaration
  split
  · exact (State.SupervisionStep.of_classified ..).periphery_eq
  · rfl

theorem State.settleWindow_periphery (s : State) : s.settleWindow.periphery = s.periphery := by
  unfold State.settleWindow
  split
  · exact s.missingDeclaration_periphery
  · exact s.windowClose_periphery

theorem State.refclkEdge_periphery (s : State) : s.refclkEdge.periphery = s.periphery := by
  rw [State.refclkEdge_eq rfl]
  exact s.settleWindow_periphery

theorem State.holdoverAgeIncrement_periphery (s : State) : s.holdoverAgeIncrement.periphery = s.periphery := by
  unfold State.holdoverAgeIncrement
  split
  · exact (State.SupervisionStep.of_expireIfAtLimit ..).periphery_eq
  · rfl

theorem State.holdoverExpiry_periphery (s : State) : s.holdoverExpiry.periphery = s.periphery := by
  unfold State.holdoverExpiry
  split
  · exact (State.SupervisionStep.of_expireIfAtLimit ..).periphery_eq
  · exact (State.SupervisionStep.of_expireIfAtLimit s s.rsv).periphery_eq

theorem State.ppsEdgeHandover_periphery (s : State) : s.ppsEdgeHandover.periphery = s.periphery := by
  unfold State.ppsEdgeHandover
  split <;> rfl

theorem State.tickEdge_periphery (s : State) : s.tickEdge.periphery = s.periphery := by
  have hd : s.settleDue.periphery = s.periphery := (State.holdoverAgeIncrement_periphery _).trans s.settleWindow_periphery
  unfold State.tickEdge
  split
  · rfl
  · dsimp only
    split
    · exact (State.refclkEdge_periphery _).trans hd
    · exact hd

theorem State.applyRefConfig_periphery (s : State) (c : SupConfig) : (s.applyRefConfig c).periphery = s.periphery := by
  unfold State.applyRefConfig
  dsimp only
  split
  · split <;> rfl
  · rfl
  · rfl
  · exact (State.SupervisionStep.of_expireIfAtLimit ..).periphery_eq

theorem State.recordTake_periphery (s : State) (b : Block) : (s.recordTake b).periphery = s.periphery := by
  rcases s.recordTake_cases b with e | ⟨_, _, -, -, e⟩ <;> rw [e]
  rfl

theorem State.subscriptionInstall_periphery (s : State) (p : Port) : (s.subscriptionInstall p).periphery = s.periphery := by
  unfold State.subscriptionInstall
  split
  · rfl
  · split <;> rfl

/-! ## Lines (R88 to R90) -/

theorem TrigLine.Ok.apply {l : TrigLine} (h : l.Ok) (op : LineOp) : (l.apply op).Ok := by
  obtain ⟨h1, h2, -, -⟩ := h
  cases op with
  | pulse => exact ⟨h1, h2, h2, fun _ => rfl⟩
  | set | clear | toggle => exact ⟨h1, h2, Nat.zero_le _, fun h0 => absurd rfl h0⟩

theorem TrigLine.Ok.pulseEnd {l : TrigLine} (h : l.Ok) : l.pulseEnd.Ok := by
  obtain ⟨h1, h2, -, -⟩ := id h
  unfold TrigLine.pulseEnd
  split
  · exact ⟨h1, h2, Nat.zero_le _, fun h0 => absurd rfl h0⟩
  · exact h

theorem TrigLine.Ok.tick {l : TrigLine} (h : l.Ok) : l.tick.Ok := by
  obtain ⟨h1, h2, h3, h4⟩ := id h
  unfold TrigLine.tick
  split
  · exact ⟨h1, h2, h3, h4⟩
  · split
    · exact h
    next h0 =>
      split
      · exact ⟨h1, h2, Nat.zero_le _, fun h0 => absurd rfl h0⟩
      · exact ⟨h1, h2, (Nat.sub_le ..).trans h3, fun _ => h4 h0⟩

/-- A place of a vector of numbered things after one of them is set. -/
theorem getElem_set_fin {α : Type} {k : Nat} {v : Vector α k} {n m : Fin k} {x : α} :
    (v.set n.val x)[m] = if m = n then x else v[m] := by
  simp only [Fin.getElem_fin, Vector.getElem_set, Fin.ext_iff, eq_comm]

/-- An event on one line keeps the laws if it keeps those of the line. -/
theorem State.withLine_peripheryKept {s : State} {n : Line} {f : TrigLine → TrigLine}
    (h : s.tou.lines[n].Ok → (f s.tou.lines[n]).Ok) : s.PeripheryKept (s.withLine n f) := by
  refine ⟨fun m hm => ?_, fun _ => id, fun _ => id⟩
  rw [State.withLine_tou, getElem_set_fin]
  split
  next e => exact h (e ▸ hm)
  · exact hm

theorem State.operate_peripheryKept (s : State) (a : Action) : s.PeripheryKept (s.operate a) :=
  State.withLine_peripheryKept fun h => h.apply a.op

theorem State.lineOperation_peripheryKept (s : State) : s.PeripheryKept s.lineOperation := by
  cases hm : s.mail.ops with
  | nil => exact .of_eq (by unfold State.lineOperation; rw [hm])
  | cons a rest =>
    rw [State.lineOperation_of_cons hm]
    have h := State.operate_peripheryKept { s with mail := { s.mail with ops := rest } } a
    exact ⟨h.line, h.input, h.port⟩

theorem State.pulseEnd_peripheryKept (s : State) (n : Line) : s.PeripheryKept (s.pulseEnd n) := by
  unfold State.pulseEnd
  split
  · exact State.withLine_peripheryKept TrigLine.Ok.pulseEnd
  · exact .refl s

/-! ## Inputs (R101 to R108, R111) -/

/-- The laws ask no more of the dead time remaining and the suppressed count than their ranges (R104). -/
theorem Input.Ok.with_dead {i : Input} (h : i.Ok) {left suppressed : Nat} (hl : left ≤ i.dead) (hs : suppressed ≤ 255) :
    ({ i with deadLeft := left, suppressed } : Input).Ok := by
  obtain ⟨hd, hq1, hq, hdead, hph, hr, hc, h0, hcl, hst, -, -⟩ := h
  exact ⟨hd, hq1, hq, hdead, hph, hr, hc, h0, hcl, hst, hl, hs⟩

theorem Input.Ok.tickDead {i : Input} (h : i.Ok) : i.tickDead.Ok := by
  obtain ⟨-, -, -, -, -, -, -, -, -, -, hl, hs⟩ := id h
  exact h.with_dead ((Nat.sub_le ..).trans hl) hs

theorem Input.Ok.suppress {i : Input} (h : i.Ok) : i.suppress.Ok := by
  obtain ⟨-, -, -, -, -, -, -, -, -, -, hl, -⟩ := id h
  exact h.with_dead hl (Nat.min_le_right ..)

theorem Input.Ok.noRun {i : Input} (h : i.Ok) : i.noRun.Ok := by
  obtain ⟨hd, hq1, hq, hdead, hph, -, -, -, -, -, hl, hs⟩ := h
  exact ⟨hd, hq1, hq, hdead, hph, hq1, ⟨fun _ => rfl, fun _ => rfl⟩, fun _ => ⟨rfl, rfl, rfl⟩, nofun, fun _ => rfl, hl, hs⟩

/-- A known stable level asks nothing of an input. -/
theorem Input.Ok.with_stable {i : Input} (h : i.Ok) (level : Level) : ({ i with stable := some level } : Input).Ok := by
  obtain ⟨hd, hq1, hq, hdead, hph, hr, hc, h0, hcl, -, hl, hs⟩ := h
  exact ⟨hd, hq1, hq, hdead, hph, hr, hc, h0, hcl, nofun, hl, hs⟩

@[simp] theorem Input.lengthen_qualify (i : Input) (t : Time) : (i.lengthen t).qualify = i.qualify := by
  unfold Input.lengthen
  split <;> rfl

theorem Input.lengthen_noRun (i : Input) (t : Time) : (i.lengthen t).noRun = i.noRun := by
  unfold Input.lengthen
  split <;> rfl

/-- A run that stays below the qualify count (R102). -/
theorem Input.Ok.lengthen {i : Input} (h : i.Ok) {level : Level} (hst : i.stable = some level) {t : Time}
    (hrun : (i.lengthen t).run < i.qualify) : (i.lengthen t).Ok := by
  obtain ⟨hd, hq1, hq, hdead, hph, -, hc, h0, hcl, -, hl, hs⟩ := h
  unfold Input.lengthen at hrun ⊢
  split at hrun
  next hr =>
    rw [if_pos hr]
    exact ⟨hd, hq1, hq, hdead, hph, hrun, ⟨nofun, nofun⟩, nofun, nofun, fun hn => (nomatch hst.symm.trans hn), hl, hs⟩
  next hr =>
    rw [if_neg hr]
    exact ⟨hd, hq1, hq, hdead, hph, hrun, ⟨nofun, fun hn => absurd (hc.2 hn) hr⟩, nofun, hcl,
      fun hn => (nomatch hst.symm.trans hn), hl, hs⟩

/-- Every judgement of a sample keeps the laws of the input (R102). -/
theorem Input.Ok.filter {i : Input} (h : i.Ok) (level : Level) (t : Time) : (i.filter level t).1.Ok := by
  unfold Input.filter
  split
  · exact h.with_stable level
  next stable hst =>
    split
    · exact h.noRun
    · dsimp only
      split
      · rw [Input.lengthen_noRun]
        exact h.noRun.with_stable level
      next hq => exact h.lengthen hst (by simpa using hq)

theorem Input.Ok.shift {i : Input} (h : i.Ok) (turn : Nat) (old new : Time) : (i.shift turn old new).Ok := by
  unfold Input.shift
  split
  · exact h
  · split
    · exact h
    next hn =>
      obtain ⟨hd, hq1, hq, hdead, hph, hr, -, -, -, hst, hl, hs⟩ := h
      have hrun : i.run ≠ 0 := fun hx => hn (.inl hx)
      exact ⟨hd, hq1, hq, hdead, hph, hr, ⟨fun hx => absurd hx hrun, nofun⟩, fun hx => absurd hx hrun, fun _ => rfl, hst, hl, hs⟩

theorem Input.Ok.tick {i : Input} (h : i.Ok) : i.tick.Ok := by
  obtain ⟨hd, hq1, hq, hdead, -, hr, hc, h0, hcl, hst, hl, hs⟩ := h
  have hph : i.tick.phase < i.divider := by
    unfold Input.tick Input.sampleDue
    simp only [decide_eq_true_eq]
    split <;> omega
  exact ⟨hd, hq1, hq, hdead, hph, hr, hc, h0, hcl, hst, hl, hs⟩

theorem inputOperands_bounds {l : List Byte} {n : Line} {c : InputConfig} (h : inputOperands l = some (n, c)) :
    (c.divider = 1 ∨ c.divider = 4 ∨ c.divider = 16 ∨ c.divider = 64) ∧ 1 ≤ c.qualify ∧ c.qualify ≤ 15 ∧ c.dead ≤ 65535 := by
  simp only [inputOperands, Option.bind_eq_bind, Option.bind_eq_some_iff, Option.pure_def, Option.some.injEq, inRange_eq_some,
    Prod.mk.injEq] at h
  obtain ⟨_, -, _, -, divider, hd, qualify, ⟨hq, rfl⟩, -, rfl⟩ := h
  refine ⟨?_, hq.1, hq.2, Nat.le_of_lt_succ (fieldNat_lt l 4 2)⟩
  by_contra hx
  simp only [not_or] at hx
  unfold dividerOf at hd
  split at hd <;> simp_all

/-- A new configuration in range, with a phase below its divider (R111, R112). -/
theorem Input.Ok.configure {i : Input} (h : i.Ok) {c : InputConfig} {phase : Nat}
    (hd : c.divider = 1 ∨ c.divider = 4 ∨ c.divider = 16 ∨ c.divider = 64) (hq1 : 1 ≤ c.qualify) (hq : c.qualify ≤ 15)
    (hdead : c.dead ≤ 65535) (hph : phase < c.divider) : (i.configure c phase).Ok := by
  obtain ⟨-, -, -, -, -, -, -, -, -, -, -, hs⟩ := h
  exact ⟨hd, hq1, hq, hdead, hph, hq1, ⟨fun _ => rfl, fun _ => rfl⟩, fun _ => ⟨rfl, rfl, rfl⟩, nofun, fun _ => rfl,
    Nat.zero_le _, hs⟩

theorem Input.ok_set {v : Vector Input 8} {n : Line} {i : Input} (h : v[n].Ok → i.Ok) (m : Line) (hm : v[m].Ok) :
    (v.set n.val i)[m].Ok := by
  rw [getElem_set_fin]
  split
  next e => exact h (e ▸ hm)
  · exact hm

/-- An event of the ECU leaves the lines and the ports. -/
theorem State.Aside.peripheryKept {s t : State} (h : s.Aside t) (hi : ∀ n : Line, s.ecu.inputs[n].Ok → t.ecu.inputs[n].Ok) :
    s.PeripheryKept t := by
  refine ⟨?_, hi, ?_⟩ <;> obtain ⟨_, _, _, _, _, rfl, -, -, -, -, -, hr⟩ := h
  · exact fun _ => id
  · intro p hp
    unfold State.portView State.reportWaits at *
    rw [hr]
    exact hp

/-- A sample moves its own input alone, and keeps its laws (R102 to R105). -/
theorem State.judgeSample_input (s : State) (n : Line) (level : Level) (turn : Nat) (t : Time) :
    ∃ i : Input, (s.judgeSample n level turn t).ecu.inputs = s.ecu.inputs.set n.val i ∧ (s.ecu.inputs[n].Ok → i.Ok) := by
  unfold State.judgeSample
  dsimp only
  split
  · exact ⟨_, rfl, fun h => (h.filter level t).tickDead⟩
  · split
    · exact ⟨_, rfl, fun h => (h.filter level t).tickDead⟩
    · split
      · rw [State.capture_eq]
        split <;> exact ⟨_, rfl, fun h => (h.filter level t).with_dead (Nat.le_refl _) (Nat.zero_le _)⟩
      · exact ⟨_, rfl, fun h => (h.filter level t).suppress.tickDead⟩

theorem State.inputSample_peripheryKept (s : State) (n : Line) (level : Level) : s.PeripheryKept (s.inputSample n level) := by
  refine (s.inputSample_aside n level).peripheryKept ?_
  unfold State.inputSample
  split
  · exact fun _ => id
  next turn t rest _ =>
    obtain ⟨i, hi, hok⟩ := State.judgeSample_input
      { s with mail := { s.mail with toEcu := rest }, pins := s.pins.set n.val level } n level turn t
    rw [hi]
    exact Input.ok_set hok

theorem State.ecuStep_peripheryKept (s : State) : s.PeripheryKept s.ecuStep := by
  refine s.ecuStep_aside.peripheryKept fun n h => ?_
  unfold State.ecuStep
  split
  · simpa using h.shift _ _ _
  · exact h

theorem State.ecuStepHandover_peripheryKept (s : State) : s.PeripheryKept s.ecuStepHandover := by
  rcases s.ecuStepHandover_cases with e | ⟨_, _, _, _, -, -, e⟩ <;> rw [e]
  · exact .refl s
  · exact s.ecuStep_peripheryKept

theorem State.ecuTake_peripheryKept (s : State) (h : EcuHandover) : s.PeripheryKept (s.ecuTake h) := by
  cases h with
  | sample => exact s.inputSample_peripheryKept _ _
  | step => exact s.ecuStepHandover_peripheryKept

end Sys2Proof.Machine
end

section
/-! The laws of one host port: frames, completions and session ends (O58). -/

namespace Sys2Proof.Machine

/-! ## Setting one port -/

theorem State.withHpu_portView (s : State) (p : Port) (f : Hpu → Hpu) (q : Port) :
    (s.withHpu p f).portView q = if q = p then { s.portView p with hpu := f s.hpu[p] } else s.portView q := by
  unfold State.portView
  rw [State.withHpu_hpu, getElem_set_fin]
  split
  next h =>
    subst h
    rfl
  · rfl

/-- An event on one HPU keeps the laws if it keeps those of its port. -/
theorem State.withHpu_peripheryKept {s : State} {p : Port} {f : Hpu → Hpu}
    (h : (s.portView p).Ok → ({ s.portView p with hpu := f s.hpu[p] } : PortView).Ok) : s.PeripheryKept (s.withHpu p f) := by
  refine ⟨fun _ => id, fun _ => id, fun q hq => ?_⟩
  rw [State.withHpu_portView]
  split
  next e => exact h (e ▸ hq)
  · exact hq

/-! ## Answers and completions (R158, R160) -/

/-- A response is staged only while the slot is FREE (R158). -/
theorem Hpu.Ok.staged_eq_none {h : Hpu} (hs : h.Ok) (hne : h.slot ≠ .free) : h.staged = none := by
  obtain ⟨hf, -⟩ := hs
  exact Option.not_isSome_iff_eq_none.1 fun hx => hne (hf hx)

/-- A request in the slot may be at any stage whose payload fits. -/
theorem Hpu.Ok.with_slot {h : Hpu} (hs : h.Ok) (hne : h.slot ≠ .free) {x : Slot} (hx : x.payloadOk) :
    ({ h with slot := x } : Hpu).Ok := by
  have hn := hs.staged_eq_none hne
  obtain ⟨-, -, hl, hi⟩ := hs
  exact ⟨fun hy => (nomatch (hn ▸ hy : (none : Option Response).isSome = true)), hx, hl, hi⟩

/-- A request is answered once it is neither reported nor the DETACH in progress any more (R139, R160). -/
theorem PortView.Ok.answer {v : PortView} (h : v.Ok) {g : Byte} {d : Bool} {x : Progress} (hs : v.hpu.slot = .executing g d x)
    {reported detaching : Bool} (hr : reported = false) (hd : detaching = false) (r : Result) {l : List Byte}
    (hl : l.length ≤ 120) : ({ hpu := v.hpu.answer r l, reported, detaching } : PortView).Ok := by
  have ha : v.hpu.answer r l = { v.hpu with slot := .executing g d (.answered r l) } := by
    unfold Hpu.answer
    rw [hs]
  rw [ha, hr, hd]
  exact ⟨h.hpu.with_slot (by rw [hs]; nofun) hl, nofun, rfl⟩

theorem Hpu.complete_of_answered {h : Hpu} {g : Byte} {d : Bool} {r : Result} {l : List Byte}
    (hs : h.slot = .executing g d (.answered r l)) :
    h.complete = { h with slot := .free, staged := if d then h.staged else some { result := r, tag := g, payload := l } } := by
  unfold Hpu.complete
  rw [hs]

/-- A completed request leaves its response alone, or nothing under the discard mark (R160, R161). -/
theorem PortView.Ok.complete {v : PortView} (h : v.Ok) : ({ v with hpu := v.hpu.complete } : PortView).Ok := by
  by_cases ha : ∃ g d r l, v.hpu.slot = .executing g d (.answered r l)
  · obtain ⟨g, d, r, l, hs⟩ := ha
    have hn := h.hpu.staged_eq_none (by rw [hs]; nofun)
    obtain ⟨-, hp, hl, hi⟩ := h.hpu
    have hpay : l.length ≤ 120 := by
      rw [hs] at hp
      exact hp
    rw [Hpu.complete_of_answered hs, hn]
    refine ⟨⟨fun _ => rfl, trivial, fun x hx => ?_, ?_⟩, fun hr => ?_, ?_⟩
    · cases d with
      | true => cases hx
      | false =>
        obtain rfl := Option.some.inj hx
        exact hpay
    · unfold Hpu.imageOk at hi ⊢
      dsimp only
      split
      · trivial
      next m hm =>
        rw [hm, hn] at hi
        obtain ⟨hm1, hm2⟩ := hi
        exact ⟨fun x hx => (nomatch hm1 x hx), hm2⟩
    · have hw := h.waiting hr
      rw [hs] at hw
      cases hw
    · have ht := h.taken
      rw [hs] at ht
      exact ht
  · have he : v.hpu.complete = v.hpu := by
      unfold Hpu.complete
      split
      next g d r l hs => exact absurd ⟨g, d, r, l, hs⟩ ha
      · rfl
    rw [he]
    exact h

/-! ## The end of a frame (R156 to R161) -/

/-- The laws of an HPU but for its frame image. -/
def Hpu.OkApart (h : Hpu) : Prop :=
  (h.staged.isSome = true → h.slot = .free) ∧ h.slot.payloadOk ∧ ∀ r ∈ h.staged, r.payload.length ≤ 120

/-- What a frame's end may make of an HPU: its laws stand, a request in the slot stays what it is, and one that is new there
waits. -/
structure Hpu.Concludes (h k : Hpu) : Prop where
  ok : h.OkApart → k.OkApart
  taken : k.slot.isTaken = h.slot.isTaken
  waiting : h.slot.isWaiting = true → k.slot.isWaiting = true
  passed : h.slot = .free → k.slot ≠ .free → k.slot.isWaiting = true

/-- A frame that leaves the slot and stages nothing new. -/
theorem Hpu.Concludes.of_slot {h k : Hpu} (hs : k.slot = h.slot) (hg : k.staged = h.staged ∨ k.staged = none) :
    h.Concludes k := by
  refine ⟨fun ⟨h1, h2, h3⟩ => ?_, by rw [hs], by rw [hs]; exact id, fun hf hk => absurd (hs.trans hf) hk⟩
  unfold Hpu.OkApart
  rw [hs]
  rcases hg with hg | hg <;> rw [hg]
  · exact ⟨h1, h2, h3⟩
  · exact ⟨nofun, h2, nofun⟩

theorem Hpu.Concludes.trans {h k m : Hpu} (a : h.Concludes k) (b : k.Concludes m) : h.Concludes m := by
  refine ⟨b.ok ∘ a.ok, b.taken.trans a.taken, b.waiting ∘ a.waiting, fun hf hm => ?_⟩
  by_cases hk : k.slot = .free
  · exact b.passed hk hm
  · exact b.waiting (a.passed hf hk)

theorem Hpu.settle_concludes (h : Hpu) (m : Image) (n : Nat) : h.Concludes (h.settle m n) := by
  refine .of_slot rfl ?_
  unfold Hpu.settle
  dsimp only
  split
  · exact .inr rfl
  · exact .inl rfl

theorem Hpu.linkBreak_concludes (h : Hpu) : h.Concludes h.linkBreak := by
  obtain ⟨link, edges, slot, staged, refusal⟩ := h
  rcases slot with _ | ⟨g, d, x⟩
  · exact .of_slot rfl (.inr rfl)
  · cases x <;> exact ⟨fun ⟨_, hp, _⟩ => ⟨nofun, hp, nofun⟩, rfl, id, nofun⟩

/-- A request that the HPU completes itself, in a FREE slot. -/
theorem Hpu.stage_concludes {h : Hpu} (hf : h.slot = .free) (r : Result) (g : Byte) : h.Concludes (h.stage r g) :=
  ⟨fun ⟨_, hp, _⟩ => ⟨fun _ => hf, hp, fun _ hx => Option.some.inj hx ▸ Nat.zero_le _⟩, rfl, id, fun _ hk => absurd hf hk⟩

theorem Hpu.accept_concludes {h : Hpu} (hf : h.slot = .free) (hn : h.staged = none) (code g : Byte) (l : List Byte) :
    h.Concludes (h.accept code g l) := by
  unfold Hpu.accept
  split
  · exact Hpu.stage_concludes hf ..
  · split
    next hl =>
      exact ⟨fun _ => ⟨fun hx => (nomatch (hn ▸ hx : (none : Option Response).isSome = true)), hl, fun x hx => (nomatch hn ▸ hx)⟩,
        by rw [hf]; rfl, fun _ => rfl, fun _ _ => rfl⟩
    · exact Hpu.stage_concludes hf ..

theorem Hpu.conclude_concludes (h : Hpu) (cls : FrameClass) : h.Concludes (h.conclude cls) := by
  cases cls with
  | linkBreak => exact h.linkBreak_concludes
  | refused | nop => exact .of_slot rfl (.inl rfl)
  | request code g l =>
    show h.Concludes (h.judge code g l)
    unfold Hpu.judge
    split
    · exact .of_slot rfl (.inl rfl)
    next hf =>
      split
      · exact .of_slot rfl (.inl rfl)
      next hn => exact Hpu.accept_concludes (not_not.1 hf) (Option.not_isSome_iff_eq_none.1 hn) code g l

theorem Hpu.passedOn_iff (h k : Hpu) : h.passedOn k = true ↔ h.slot = .free ∧ k.slot ≠ .free := by
  simp [Hpu.passedOn]

/-- A port at the end of its frame, with the report of a request that the frame brought. -/
theorem PortView.Ok.conclude {v : PortView} (h : v.Ok) {k : Hpu} (hk : v.hpu.Concludes k) {edges : Nat} {r : Bool}
    (hr : r = true → v.reported = true ∨ v.hpu.passedOn k = true) :
    ({ v with hpu := { k with link := .idle, edges }, reported := r } : PortView).Ok := by
  obtain ⟨h1, h2, h3, -⟩ := h.hpu
  obtain ⟨k1, k2, k3⟩ := hk.ok ⟨h1, h2, h3⟩
  refine ⟨⟨k1, k2, k3, trivial⟩, fun hx => ?_, hk.taken.trans h.taken⟩
  rcases hr hx with hr | hp
  · exact hk.waiting (h.waiting hr)
  · obtain ⟨hf, hne⟩ := (v.hpu.passedOn_iff k).1 hp
    exact hk.passed hf hne

theorem State.portView_of_report (s : State) (r : Report) (q : Port) :
    ({ s with mail := { s.mail with reports := s.mail.reports ++ [r] } } : State).portView q
      = { s.portView q with reported := s.reportWaits q || (r.port == q && r.request) } := by
  unfold State.portView State.reportWaits
  simp

theorem State.frameEnd_peripheryKept (s : State) (p : Port) (bits : List Bool) : s.PeripheryKept (s.frameEnd p bits) := by
  cases hl : s.hpu[p].link with
  | idle => exact .of_eq (by unfold State.frameEnd; rw [hl])
  | inFrame m =>
    unfold State.frameEnd
    rw [hl]
    dsimp only
    have hk := (s.hpu[p].settle_concludes m (frameBytes bits).length).trans
      (Hpu.conclude_concludes _ (classify bits.length (frameBytes bits)))
    generalize (s.hpu[p].settle m (frameBytes bits).length).conclude (classify bits.length (frameBytes bits)) = k at hk ⊢
    split
    · refine ⟨fun _ => id, fun _ => id, fun q hq => ?_⟩
      rw [State.portView_of_report, State.withHpu_portView]
      split
      next e =>
        subst e
        exact hq.conclude hk fun hx => (Bool.or_eq_true_iff.1 hx).imp_right fun hy => (Bool.and_eq_true_iff.1 hy).2
      next hne =>
        have : (p == q) = false := beq_eq_false_iff_ne.2 (Ne.symm hne)
        rw [this, Bool.false_and, Bool.or_false]
        exact hq
    · exact State.withHpu_peripheryKept fun hq => hq.conclude hk .inl

theorem State.frameBegin_peripheryKept (s : State) (p : Port) : s.PeripheryKept (s.frameBegin p) := by
  unfold State.frameBegin
  dsimp only
  split
  · exact .refl s
  · refine State.withHpu_peripheryKept fun hv => ?_
    obtain ⟨h1, h2, h3, -⟩ := hv.hpu
    exact ⟨⟨h1, h2, h3, fun _ hr => hr, rfl⟩, hv.waiting, hv.taken⟩

/-- A report that is taken leaves no more reports than it found (R138). -/
theorem State.validFrameReport_peripheryKept (s : State) (p : Port) : s.PeripheryKept (s.validFrameReport p) := by
  unfold State.validFrameReport
  split
  · refine ⟨fun _ => id, fun _ => id, fun q hq => ⟨hq.hpu, fun hr => hq.waiting ?_, hq.taken⟩⟩
    rw [State.portView, State.reportWaits_iff] at hr ⊢
    exact List.eraseP_subset hr
  · exact .refl s

/-! ## Session ends (R139, R140) -/

theorem Sau.leave_ending (u : Sau) (p : Port) (reason : EndReason) : (u.leave p reason).1.ending = u.ending := by
  unfold Sau.leave
  split
  · exact Sau.passOn_ending ..
  · rfl

/-- With no session end in progress no port is detaching. -/
theorem State.portView_of_idle {s : State} (he : s.sau.ending = none) (p : Port) :
    s.portView p = { hpu := s.hpu[p], reported := s.reportWaits p, detaching := false } := by
  unfold State.portView
  rw [he]
  rfl

/-- A session end that begins is the DETACH of its port, or one that no port asked for (R138, R139). -/
theorem State.beginEnd_portView {s : State} (he : s.sau.ending = none) (p : Port) (reason : EndReason) (q : Port) :
    (s.beginEnd p reason).portView q
      = if q = p then { s.portView p with detaching := decide (reason = .detached) } else s.portView q := by
  rw [State.portView_of_idle he, State.portView_of_idle he]
  show ({ hpu := s.hpu[q], reported := s.reportWaits q, detaching := p == q && decide (reason = .detached) } : PortView) = _
  split
  next h =>
    subst h
    simp
  next h =>
    have : (p == q) = false := beq_eq_false_iff_ne.2 (Ne.symm h)
    rw [this]
    rfl

theorem State.idleExpiry_peripheryKept (s : State) (p : Port) : s.PeripheryKept (s.idleExpiry p) := by
  unfold State.idleExpiry
  split
  next h =>
    have he := Option.isNone_iff_eq_none.1 h.1
    refine ⟨fun _ => id, fun _ => id, fun q hq => ?_⟩
    rw [State.beginEnd_portView he]
    split
    next e =>
      subst e
      rw [State.portView_of_idle he] at hq ⊢
      exact hq
    · exact hq
  · exact .refl s

theorem State.scuSessionEnd_periphery (s : State) (p : Port) : (s.scuSessionEnd p).periphery = s.periphery := by
  unfold State.scuSessionEnd
  split
  · rfl
  next e he =>
    split
    · unfold State.periphery State.portView
      rw [he]
      rfl
    · rfl

theorem Slot.isTaken_iff (x : Slot) : x.isTaken = true ↔ ∃ g d, x = .executing g d .taken := by
  rcases x with _ | ⟨g, d, _ | _ | _⟩ <;> simp [Slot.isTaken]

/-- The DETACH in progress is answered as its session end completes, and no other slot moves (R139, R140). -/
theorem State.finishEnd_portView (s : State) (e : Ending) (q : Port) :
    (s.finishEnd e).portView q = { s.portView q with
      detaching := false
      hpu := if q = e.port ∧ e.reason = .detached then s.hpu[q].answer .ok [BitVec.ofNat 8 e.freed] else s.hpu[q] } := by
  rw [State.finishEnd_eq]
  cases hr : e.reason with
  | expired =>
    rw [if_neg fun h => (nomatch h.2)]
    rfl
  | detached =>
    dsimp only
    rw [State.withHpu_portView]
    by_cases hq : q = e.port
    · rw [if_pos hq, if_pos ⟨hq, rfl⟩, hq]
      rfl
    · rw [if_neg hq, if_neg fun h => hq h.1]
      rfl

theorem State.finishEnd_peripheryKept {s : State} {e : Ending} (he : s.sau.ending = some e) :
    s.PeripheryKept (s.finishEnd e) := by
  have hdet (q : Port) : (s.portView q).detaching = (e.port == q && decide (e.reason = .detached)) := by
    unfold State.portView
    rw [he]
    rfl
  refine ⟨?_, ?_, fun q hq => ?_⟩
  · rw [State.finishEnd_eq]
    cases e.reason <;> exact fun _ => id
  · rw [State.finishEnd_eq]
    cases e.reason <;> exact fun _ => id
  rw [State.finishEnd_portView]
  split
  next h =>
    obtain ⟨rfl, hr⟩ := h
    have ht : s.hpu[e.port].slot.isTaken = true := hq.taken.trans ((hdet _).trans (by simp [hr]))
    obtain ⟨g, d, hs⟩ := (Slot.isTaken_iff _).1 ht
    have hrep : (s.portView e.port).reported = false := Bool.eq_false_iff.2 fun hx => by
      have hw : s.hpu[e.port].slot.isWaiting = true := hq.waiting hx
      rw [hs] at hw
      cases hw
    exact hq.answer hs hrep rfl .ok (by simp)
  next h =>
    refine ⟨hq.hpu, hq.waiting, hq.taken.trans ((hdet q).trans (Bool.eq_false_iff.2 fun hx => h ?_))⟩
    obtain ⟨hp, hr⟩ := Bool.and_eq_true_iff.1 hx
    exact ⟨(beq_iff_eq.1 hp).symm, of_decide_eq_true hr⟩

theorem State.eluSessionEnd_peripheryKept (s : State) (p : Port) : s.PeripheryKept (s.eluSessionEnd p) := by
  rcases s.eluSessionEnd_cases p with e | ⟨e, he, -, -, -, -, eq⟩
  · rw [e]
    exact .refl s
  · rw [eq]
    have h := State.finishEnd_peripheryKept (s := { s with elu := s.elu.remove p }) he
    exact ⟨h.line, h.input, h.port⟩

/-- A request that its block may take waits in the slot, is reported no more, and is no DETACH in progress (R163). -/
theorem PortView.Ok.of_request {s : State} {p : Port} {c : Code} {l : List Byte} (hv : (s.portView p).Ok)
    (h : s.request? p c = some l) : ∃ g d, (s.portView p).hpu.slot = .executing g d (.waiting c l) ∧ (s.portView p).reported = false
      ∧ (s.portView p).detaching = false := by
  obtain ⟨g, d, hs, hr, -⟩ := State.asks_of_request? h
  refine ⟨g, d, hs, Bool.eq_false_iff.2 fun hx => hr ((s.reportWaits_iff p).1 hx), hv.taken.symm.trans ?_⟩
  show s.hpu[p].slot.isTaken = false
  rw [hs]
  rfl

/-- DETACH of an attached port stays taken while its session ends; a detached port is answered (R137, R139). -/
theorem State.detach_peripheryKept {s : State} {p : Port} {l : List Byte} (he : s.sau.ending = none)
    (h : s.request? p .detach = some l) : s.PeripheryKept (s.detach p) := by
  unfold State.detach
  split
  · refine ⟨fun _ => id, fun _ => id, fun q hq => ?_⟩
    rw [State.withHpu_portView]
    split
    next e =>
      subst e
      obtain ⟨g, d, hs, hr, -⟩ := hq.of_request h
      have hslot : (s.beginEnd q .detached).hpu[q].slot = .executing g d (.waiting .detach l) := hs
      rw [State.beginEnd_portView he, if_pos rfl, hslot]
      exact ⟨hq.hpu.with_slot (x := .executing g d .taken) (by rw [hs]; nofun) trivial,
        fun hx => (nomatch hr.symm.trans hx), rfl⟩
    next hne =>
      rw [State.beginEnd_portView he, if_neg hne]
      exact hq
  · refine State.withHpu_peripheryKept fun hv => ?_
    obtain ⟨g, d, hs, hr, hd⟩ := hv.of_request h
    exact hv.answer hs hr hd .notAttached (Nat.zero_le _)

end Sys2Proof.Machine
end

section
/-! The requests keep the laws of the lines, the inputs and the ports, and their answers fit a response (O58). -/

namespace Sys2Proof.Machine

/-! ## Services and their checks -/

/-- A service keeps the laws of the lines and the inputs, leaves the ports to the answer, and its payload fits a response (R167). -/
structure State.Serves (s : State) (r : Reply) : Prop where
  kept : s.PeripheryKept r.state
  port : r.state.portView = s.portView
  fits : r.payload.length ≤ 120

theorem State.Serves.of_eq {s : State} {r : Reply} (h : r.state.periphery = s.periphery) (hl : r.payload.length ≤ 120) :
    s.Serves r := ⟨.of_eq h, congrArg Periphery.port h, hl⟩

theorem State.serves_refuse (s : State) (r : Result) : s.Serves (s.refuse r) := .of_eq rfl (Nat.zero_le _)

theorem State.serves_report {s : State} {l : List Byte} (h : l.length ≤ 120) : s.Serves (s.report l) := .of_eq rfl h

section
variable {s : State} {p : Port} {c : Code} {f : List Byte → Reply} {k : Reply}

/-- A request keeps the laws if its service does (R159, R160). -/
theorem State.serve_peripheryKept (h : ∀ l, s.Serves (f l)) : s.PeripheryKept (s.serve p c f) := by
  rcases s.serve_cases p c f with ⟨-, e⟩ | ⟨l, hq, e⟩ <;> rw [e]
  · exact .refl s
  have hp : (f l).state.portView p = s.portView p := congrFun (h l).port p
  refine (h l).kept.trans (State.withHpu_peripheryKept fun hv => ?_)
  obtain ⟨g, d, hs, hr, hd⟩ := (hp ▸ hv).of_request hq
  exact hv.answer (hp ▸ hs) (hp ▸ hr) (hp ▸ hd) _ (h l).fits

theorem State.serveSau_peripheryKept (h : ∀ l, s.Serves (f l)) : s.PeripheryKept (s.serveSau p c f) := by
  unfold State.serveSau
  split
  · exact .refl s
  · exact State.serve_peripheryKept h

theorem State.serves_ifAttached (h : s.Serves k) : s.Serves (s.ifAttached p k) := by
  unfold State.ifAttached
  split
  · exact h
  · exact s.serves_refuse _

theorem State.serves_ifHolder (h : s.Serves k) : s.Serves (s.ifHolder p k) := by
  refine State.serves_ifAttached ?_
  split
  · exact h
  · exact s.serves_refuse _

theorem State.serves_ifInRange {α : Type} {o : Option α} {k : α → Reply} (h : ∀ a, o = some a → s.Serves (k a)) :
    s.Serves (s.ifInRange o k) := by
  cases o with
  | none => exact s.serves_refuse _
  | some a => exact h a rfl

theorem State.serves_withHandle {l : List Byte} {k : Index → Reply} (h : ∀ i, s.Serves (k i)) :
    s.Serves (s.withHandle p l k) := by
  refine State.serves_ifAttached (State.serves_ifInRange fun i _ => ?_)
  dsimp only
  split
  · exact s.serves_refuse _
  · split
    · split
      · exact h i
      · exact s.serves_refuse _
    · split
      · exact h i
      · exact s.serves_refuse _

theorem State.serves_creating {α : Type} {l : List Byte} {o : Option (α × Creation)}
    {k : Index → Option Port → α → Creation → Reply} (h : ∀ i w a c, s.Serves (k i w a c)) : s.Serves (s.creating p l o k) := by
  refine State.serves_ifAttached ?_
  generalize (if detachedFlag l then none else some p) = owner
  split
  · exact s.serves_refuse _
  · refine State.serves_ifInRange fun a _ => ?_
    dsimp only
    split
    · exact s.serves_refuse _
    · split
      · exact s.serves_refuse _
      · split
        · exact s.serves_refuse _
        · exact h ..

end

/-! ## Lengths of payloads (chapter 10) -/

/-- Pieces of one length. -/
theorem length_flatMap_eq {α : Type} {f : α → List Byte} {k : Nat} {l : List α} (h : ∀ a ∈ l, (f a).length = k) :
    (l.flatMap f).length = l.length * k := by
  rw [List.length_flatMap, List.map_congr_left h, List.map_const', List.sum_replicate_nat]

theorem length_slewReport (w : Option Slew) : (slewReport w).length = 14 := by cases w <;> simp [slewReport]

theorem PpsConfig.length_bytes (c : PpsConfig) : c.bytes.length = 8 := by simp [PpsConfig.bytes]

theorem Entry.length_bytes (e : Entry) : e.bytes.length = 39 := by simp [Entry.bytes]

theorem TrigLine.length_bytes (l : TrigLine) : l.bytes.length = 6 := by simp [TrigLine.bytes]

theorem Input.length_bytes (i : Input) (pps : Bool) : (i.bytes pps).length = 15 := by simp [Input.bytes]

theorem Body.length_bytes (b : Body) : b.bytes.length = 10 := by cases b <;> simp [Body.bytes, magnitude3]

theorem Record.length_bytes (r : Record) : r.bytes.length = 24 := by simp [Record.bytes, Body.length_bytes]

theorem State.length_listReport (s : State) (p : Port) (start : Index) : (s.listReport p start).length ≤ 98 := by
  unfold State.listReport
  generalize ((indexesWhere s.scu.entries (s.listable p)).filter fun i => decide (start ≤ i)) = found
  dsimp only
  rw [List.length_append, length_flatMap_eq (k := 3) fun _ _ => by simp [handleBytes], List.length_take]
  simp
  omega

theorem State.length_logReport (s : State) (p : Port) {n : Nat} (hn : n ≤ 4) : (s.logReport p n).length ≤ 102 := by
  unfold State.logReport
  generalize (s.elu.log.filter fun r => r.pending[p]) = shown
  dsimp only
  rw [List.length_append, length_flatMap_eq (k := 24) fun r _ => r.record.length_bytes, List.length_take]
  simp
  omega

end Sys2Proof.Machine
end

section
/-! Every request of the sessions, the timebase, the reference, the schedule, the lines, the inputs and the log (O58). -/

namespace Sys2Proof.Machine

theorem lineConfigOperands_bounds {l : List Byte} {n : Line} {idle : Level} {width : Nat}
    (h : lineConfigOperands l = some (n, idle, width)) : 1 ≤ width ∧ width ≤ 65535 := by
  simp only [lineConfigOperands, Option.bind_eq_bind, Option.bind_eq_some_iff, Option.pure_def, Option.some.injEq,
    inRange_eq_some, Prod.mk.injEq] at h
  obtain ⟨_, -, _, -, _, ⟨hw, rfl⟩, -, -, rfl⟩ := h
  exact hw

variable (s : State) (p : Port) (l : List Byte)

/-! ## Sessions and authority -/

/-- A change of the authority alone. -/
theorem State.withSau_periphery {u : Sau} (h : u.ending = s.sau.ending) :
    ({ s with sau := u } : State).periphery = s.periphery := by
  unfold State.periphery State.portView
  rw [← h]
  rfl

theorem State.claim_serves : s.Serves (s.claim p) := by
  refine State.serves_ifAttached ?_
  split
  · exact s.serves_refuse _
  · split
    · exact .of_eq rfl (by simp)
    · split
      · exact .of_eq rfl (by simp)
      · split <;> exact .of_eq rfl (by simp)

theorem State.release_serves : s.Serves (s.release p) := by
  refine State.serves_ifAttached ?_
  split
  · exact .of_eq ((State.postAll_periphery ..).trans (s.withSau_periphery (Sau.passOn_ending ..))) (by simp)
  · split
    · exact .of_eq rfl (by simp)
    · exact s.serves_refuse _

theorem State.take_serves : s.Serves (s.take p) := by
  obtain ⟨-, he⟩ := s.sau.takeOver_frame p
  refine State.serves_ifAttached ?_
  split
  · exact s.serves_refuse _
  · split
    · exact s.serves_refuse _
    · exact .of_eq ((State.postAll_periphery ..).trans (s.withSau_periphery he)) (by simp)

theorem State.attach_serves : s.Serves (s.attach p l) := by
  unfold State.attach
  split
  · exact s.serves_refuse _
  · exact State.serves_ifInRange fun _ _ => .of_eq rfl (by simp)

theorem State.getStatus_serves : s.Serves (s.getStatus p) := .of_eq rfl (by simp [State.getStatus, State.statusReport])

/-! ## Timebase and reference -/

theorem State.setTime_serves : s.Serves (s.setTime p l) :=
  State.serves_ifHolder (State.serves_ifInRange fun _ _ => .of_eq rfl (by simp))

theorem State.stepTime_serves : s.Serves (s.stepTime p l) := by
  refine State.serves_ifHolder ?_
  split
  · exact State.serves_ifInRange fun _ _ => .of_eq rfl (by simp)
  · exact s.serves_refuse _

theorem State.slewTime_serves : s.Serves (s.slewTime p l) := by
  refine State.serves_ifHolder (State.serves_ifInRange fun (offset, spacing) _ => ?_)
  dsimp only
  split
  · exact s.serves_refuse _
  · exact .of_eq rfl (by simp)

theorem State.setTrim_serves : s.Serves (s.setTrim p l) :=
  State.serves_ifHolder (State.serves_ifInRange fun _ _ => .of_eq rfl (by simp))

theorem State.timebaseReport_serves : s.Serves (s.ifAttached p (s.report s.timebaseReport)) :=
  State.serves_ifAttached (State.serves_report (by simp [State.timebaseReport, length_slewReport]))

theorem State.refReport_serves : s.Serves (s.ifAttached p (s.report s.refReport)) :=
  State.serves_ifAttached (State.serves_report (by simp [State.refReport, PpsConfig.length_bytes]))

theorem State.refConfig_serves : s.Serves (s.refConfig p l) :=
  State.serves_ifHolder (State.serves_ifInRange fun c _ => .of_eq (s.applyRefConfig_periphery c) (by simp))

theorem State.ppsConfig_serves : s.Serves (s.ppsConfig p l) :=
  State.serves_ifHolder (State.serves_ifInRange fun _ _ => .of_eq rfl (by simp [PpsConfig.length_bytes]))

/-! ## The schedule -/

theorem State.armAt_serves (i : Index) (w : Option Port) (due : Time) (c : Creation) : s.Serves (s.armAt i w due c) := by
  unfold State.armAt
  dsimp only
  split
  · exact .of_eq rfl (by simp [handleBytes])
  · split
    · split
      · exact .of_eq (State.fire_periphery ..) (by simp [handleBytes])
      · exact s.serves_refuse _
    · split
      · exact s.serves_refuse _
      · exact .of_eq rfl (by simp [handleBytes])

theorem State.holdAt_serves (i : Index) : s.Serves (s.holdAt i) := by
  unfold State.holdAt
  dsimp only
  split
  · exact .of_eq rfl (by simp)
  · exact s.serves_refuse _

theorem State.resumeAt_serves (i : Index) : s.Serves (s.resumeAt l i) := by
  unfold State.resumeAt
  dsimp only
  split
  · refine State.serves_ifInRange fun due _ => ?_
    split
    · exact .of_eq (State.treat_periphery ..) (by simp)
    · exact .of_eq rfl (by simp)
  · exact s.serves_refuse _

theorem State.setQuota_serves : s.Serves (s.setQuota p l) :=
  State.serves_ifHolder (State.serves_ifInRange fun _ _ => .of_eq rfl (by simp))

/-! ## Lines and inputs -/

theorem State.bindLine_serves : s.Serves (s.bindLine p l) := by
  refine State.serves_ifHolder (State.serves_ifInRange fun (n, binding) _ => ?_)
  dsimp only
  split
  · exact .of_eq rfl (by simp)
  · exact ⟨State.withLine_peripheryKept (s := s) (n := n) (f := fun x => { x with binding }) id, rfl, by simp⟩

theorem State.lineConfig_serves : s.Serves (s.lineConfig p l) := by
  refine State.serves_ifHolder (State.serves_ifInRange fun (n, idle, width) hw => ?_)
  obtain ⟨h1, h2⟩ := lineConfigOperands_bounds hw
  have kept : s.PeripheryKept (s.withLine n fun x => { x with idle, width }) :=
    State.withLine_peripheryKept fun ⟨_, _, hr, ha⟩ => ⟨h1, h2, hr, ha⟩
  exact ⟨kept, rfl, by simp⟩

theorem State.driveLine_serves : s.Serves (s.driveLine p l) := by
  refine State.serves_ifAttached (State.serves_ifInRange fun a _ => ?_)
  dsimp only
  split
  · exact ⟨s.operate_peripheryKept a, rfl, by simp⟩
  · exact s.serves_refuse _

theorem State.readLines_serves : s.Serves (s.ifAttached p (s.report (s.tou.lines.toList.flatMap TrigLine.bytes))) := by
  refine State.serves_ifAttached (State.serves_report ?_)
  rw [length_flatMap_eq (k := 6) fun x _ => x.length_bytes]
  simp

/-- A phase of 1 is set only under a divider above 1 (R112). -/
theorem State.inputConfig_serves : s.Serves (s.inputConfig p l) := by
  refine State.serves_ifHolder (State.serves_ifInRange fun (n, c) hc => ?_)
  obtain ⟨hd, hq1, hq, hdead⟩ := inputOperands_bounds hc
  refine ⟨⟨fun _ => id, Input.ok_set fun h => h.configure hd hq1 hq hdead ?_, fun _ => id⟩, rfl, by simp⟩
  split
  next hw =>
    have : c.divider ≠ 1 := by simpa using (Bool.and_eq_true_iff.1 hw).1
    omega
  · omega

theorem State.readInputs_serves : s.Serves (s.ifAttached p (s.report s.inputReport)) := by
  refine State.serves_ifAttached (State.serves_report ?_)
  unfold State.inputReport
  rw [length_flatMap_eq (k := 15) fun n _ => Input.length_bytes ..]
  simp

/-! ## The log -/

theorem State.subscribe_serves : s.Serves (s.subscribe p l) :=
  State.serves_ifAttached (State.serves_ifInRange fun _ _ => .of_eq rfl (by simp))

theorem State.readLog_serves :
    s.Serves (s.ifAttached p (s.ifInRange (inRange 1 4 (fieldNat l 0 1)) fun n => s.report (s.logReport p n))) := by
  refine State.serves_ifAttached (State.serves_ifInRange fun n hn => State.serves_report ?_)
  obtain ⟨⟨-, h4⟩, rfl⟩ := inRange_eq_some.1 hn
  exact (s.length_logReport p h4).trans (by decide)

theorem State.ackLog_serves : s.Serves (s.ackLog p l) := by
  refine State.serves_ifAttached ?_
  split
  · exact .of_eq rfl (by simp)
  · exact s.serves_refuse _

theorem State.logPolicy_serves : s.Serves (s.logPolicy p l) :=
  State.serves_ifHolder (State.serves_ifInRange fun _ _ => .of_eq rfl (by simp))

end Sys2Proof.Machine
end

section
/-! Every step keeps the laws of the lines, the inputs and the host ports (O58). -/

namespace Sys2Proof.Machine

/-! ## The tick (R90, R101) -/

theorem State.catchUp_peripheryKept (s : State) : s.PeripheryKept s.catchUp :=
  ((State.foldl_peripheryKept (fun s h => .of_eq (s.scuTake_periphery h)) _ s).trans
    (State.foldl_peripheryKept (fun s _ => s.lineOperation_peripheryKept) _ _)).trans
    (State.foldl_peripheryKept State.ecuTake_peripheryKept _ _)

theorem State.advanceEnd_peripheryKept (s : State) : s.PeripheryKept s.advanceEnd := by
  rcases s.advanceEnd_cases with ⟨-, e⟩ | ⟨_, -, e⟩ <;> rw [e]
  · exact .refl s
  · exact (State.PeripheryKept.of_eq (s.scuSessionEnd_periphery _)).trans (State.eluSessionEnd_peripheryKept _ _)

theorem State.expireDue_peripheryKept (s : State) (p : Port) : s.PeripheryKept (s.expireDue p) := by
  rcases s.expireDue_cases p with ⟨-, e⟩ | ⟨-, -, e⟩ | ⟨-, -, e⟩ <;> rw [e]
  · exact .refl s
  · exact s.advanceEnd_peripheryKept.trans (State.idleExpiry_peripheryKept _ p)
  · have h := s.advanceEnd_peripheryKept
    exact ⟨h.line, h.input, h.port⟩

theorem State.settleSessions_peripheryKept (s : State) : s.PeripheryKept s.settleSessions := by
  have h : s.PeripheryKept s.takeReports :=
    State.foldl_peripheryKept (fun s (r : Report) => s.validFrameReport_peripheryKept r.port) _ _
  exact h.trans (State.foldl_peripheryKept State.expireDue_peripheryKept _ _)

theorem State.tickOf_peripheryKept (s : State) (src : Source) : s.PeripheryKept (s.tickOf src) := by
  rw [State.tickOf_eq]
  refine ⟨fun n h => ?_, fun n h => ?_, fun _ => id⟩
  · simpa using h.tick
  · simpa using h.tick

theorem State.takeTick_peripheryKept (s : State) : s.PeripheryKept s.takeTick := by
  unfold State.takeTick
  split
  · have h := State.tickOf_peripheryKept { s with mail := { s.mail with refTicks := s.mail.refTicks - 1 } } .refclk
    exact ⟨h.line, h.input, h.port⟩
  · have h := s.tickOf_peripheryKept .internal
    exact ⟨h.line, h.input, h.port⟩

theorem State.tick_peripheryKept (s : State) : s.PeripheryKept s.tick :=
  ((s.catchUp_peripheryKept.trans (State.settleSessions_peripheryKept _)).trans (.of_eq (State.tickEdge_periphery _))).trans
    (State.takeTick_peripheryKept _)

theorem State.internalCycle_peripheryKept (s : State) : s.PeripheryKept s.internalCycle := by
  unfold State.internalCycle
  split
  · exact s.tick_peripheryKept
  · exact .of_eq rfl

/-! ## Power-on and RST# -/

/-- An idle port with no request, no report and no DETACH. -/
theorem PortView.initial_ok : ({ hpu := Hpu.initial, reported := false, detaching := false } : PortView).Ok :=
  ⟨Hpu.initial_ok, nofun, rfl⟩

theorem State.powerOn_peripheryKept (s : State) : s.PeripheryKept s.powerOn := by
  refine ⟨fun n _ => ?_, fun n _ => ?_, fun p _ => State.reset.portsOk_iff.1 State.reset_portsOk p⟩
  · exact State.reset_line n ▸ TrigLine.initial_ok
  · exact State.reset_input n ▸ Input.initial_ok

/-- The device reset sets the lines, the inputs and the ports to their reset values (R99, R115, R164). -/
theorem State.resetAssert_peripheryKept (s : State) : s.PeripheryKept s.resetAssert := by
  unfold State.resetAssert
  split
  · exact .refl s
  generalize s.stepsBeforeReset.closeEnding = u
  refine ⟨fun n _ => ?_, fun n _ => ?_, fun p _ => ?_⟩
  · simp only [Fin.getElem_fin, Vector.getElem_map]
    exact TrigLine.initial_ok
  · simpa [Ecu.initial] using Input.initial_ok
  · show PortView.Ok { hpu := (Vector.replicate 4 Hpu.initial)[p], reported := false, detaching := false }
    simpa using PortView.initial_ok

/-! ## Every command -/

/-- Every command answers a next state (log 30) and keeps the laws of the lines, the inputs and the ports. -/
theorem exec_peripheryKept (c : Instr) (s : State) : ∃ t, exec c s = .next t ∧ s.PeripheryKept t := by
  have same {t : State} (h : t.periphery = s.periphery) : ∃ t', Host.Outcome.next (φ := Fault) (ρ := Refusal) t = .next t'
      ∧ s.PeripheryKept t' := ⟨t, rfl, .of_eq h⟩
  have request {p : Port} {c : Code} {f : List Byte → Reply} (h : ∀ l, s.Serves (f l)) :
      ∃ t, Host.Outcome.next (φ := Fault) (ρ := Refusal) (s.serve p c f) = .next t ∧ s.PeripheryKept t :=
    ⟨_, rfl, State.serve_peripheryKept h⟩
  have requestSau {p : Port} {c : Code} {f : List Byte → Reply} (h : ∀ l, s.Serves (f l)) :
      ∃ t, Host.Outcome.next (φ := Fault) (ρ := Refusal) (s.serveSau p c f) = .next t ∧ s.PeripheryKept t :=
    ⟨_, rfl, State.serveSau_peripheryKept h⟩
  cases c with
  | powerOn => exact ⟨_, rfl, s.powerOn_peripheryKept⟩
  | resetAssert => exact ⟨_, rfl, s.resetAssert_peripheryKept⟩
  | resetRelease a b => exact same (by unfold State.resetRelease; split <;> rfl)
  | tick => exact ⟨_, rfl, s.tick_peripheryKept⟩
  | trimCorrectionDue => exact same s.trimCorrectionDue_periphery
  | slewCorrectionDue => exact same s.slewCorrectionDue_periphery
  | timeAdvance => exact same s.timeAdvance_periphery
  | stepHandover => exact same s.stepHandover_periphery
  | primingHandover n => exact same (s.primingHandover_periphery n)
  | lineOperation => exact ⟨_, rfl, s.lineOperation_peripheryKept⟩
  | pulseEnd n => exact ⟨_, rfl, s.pulseEnd_peripheryKept n⟩
  | inputSample n l => exact ⟨_, rfl, s.inputSample_peripheryKept n l⟩
  | ecuStepHandover => exact ⟨_, rfl, s.ecuStepHandover_peripheryKept⟩
  | windowClose => exact same s.windowClose_periphery
  | missingDeclaration => exact same s.missingDeclaration_periphery
  | holdoverAgeIncrement => exact same s.holdoverAgeIncrement_periphery
  | holdoverExpiry => exact same s.holdoverExpiry_periphery
  | ppsEdgeHandover => exact same s.ppsEdgeHandover_periphery
  | disciplineSlew => exact same s.disciplineSlew_periphery
  | recordTake b => exact same (s.recordTake_periphery b)
  | subscriptionInstall p => exact same (s.subscriptionInstall_periphery p)
  | scuSessionEnd p => exact same (s.scuSessionEnd_periphery p)
  | eluSessionEnd p => exact ⟨_, rfl, s.eluSessionEnd_peripheryKept p⟩
  | idleExpiry p => exact ⟨_, rfl, s.idleExpiry_peripheryKept p⟩
  | validFrameReport p => exact ⟨_, rfl, s.validFrameReport_peripheryKept p⟩
  | frameBegin p => exact ⟨_, rfl, s.frameBegin_peripheryKept p⟩
  | frameEnd p l => exact ⟨_, rfl, s.frameEnd_peripheryKept p l⟩
  | requestCompletion p => exact ⟨_, rfl, State.withHpu_peripheryKept PortView.Ok.complete⟩
  | detach p =>
    refine ⟨_, rfl, ?_⟩
    split
    · exact .refl s
    next h =>
      rw [not_or, Option.not_isSome_iff_eq_none] at h
      obtain ⟨l, hl⟩ := Option.ne_none_iff_exists'.1 h.2
      exact State.detach_peripheryKept h.1 hl
  | attach p => exact requestSau (s.attach_serves p)
  | getStatus p => exact requestSau fun _ => s.getStatus_serves p
  | claim p => exact requestSau fun _ => s.claim_serves p
  | release p => exact requestSau fun _ => s.release_serves p
  | take p => exact requestSau fun _ => s.take_serves p
  | readTime p => exact request fun _ => State.serves_report (by simp [State.timeReport])
  | readTimebase p => exact request fun _ => s.timebaseReport_serves p
  | setTime p => exact request (s.setTime_serves p)
  | stepTime p => exact request (s.stepTime_serves p)
  | slewTime p => exact request (s.slewTime_serves p)
  | setTrim p => exact request (s.setTrim_serves p)
  | readRef p => exact request fun _ => s.refReport_serves p
  | refConfig p => exact request (s.refConfig_serves p)
  | ppsConfig p => exact request (s.ppsConfig_serves p)
  | arm p => exact request fun _ => State.serves_creating s.armAt_serves
  | prime p => exact request fun _ => State.serves_creating fun _ _ _ _ => .of_eq rfl (by simp [State.primeAt, handleBytes])
  | cancel p => exact request fun _ => State.serves_withHandle fun _ => .of_eq rfl (by simp [State.cancelAt])
  | hold p => exact request fun _ => State.serves_withHandle s.holdAt_serves
  | resume p => exact request fun l => State.serves_withHandle (s.resumeAt_serves l)
  | queryEntry p =>
    exact request fun _ => State.serves_withHandle fun _ => State.serves_report (by simp [Entry.length_bytes])
  | listEntries p =>
    exact request fun _ => State.serves_ifAttached (State.serves_ifInRange fun _ _ =>
      State.serves_report ((s.length_listReport p _).trans (by decide)))
  | setQuota p => exact request (s.setQuota_serves p)
  | bindLine p => exact request (s.bindLine_serves p)
  | lineConfig p => exact request (s.lineConfig_serves p)
  | driveLine p => exact request (s.driveLine_serves p)
  | readLines p => exact request fun _ => s.readLines_serves p
  | inputConfig p => exact request (s.inputConfig_serves p)
  | readInputs p => exact request fun _ => s.readInputs_serves p
  | subscribe p =>
    refine ⟨_, rfl, ?_⟩
    split
    · exact .refl s
    · exact State.serve_peripheryKept (s.subscribe_serves p)
  | readLog p => exact request (s.readLog_serves p)
  | ackLog p => exact request (s.ackLog_serves p)
  | logPolicy p => exact request (s.logPolicy_serves p)
  | refclkEdge => exact same s.refclkEdge_periphery

theorem step_peripheryKept {s t : State} (h : step s = .next t) : s.PeripheryKept t := by
  have run (c : Instr) {u : State} (e : exec c u = .next t) : u.PeripheryKept t := by
    obtain ⟨t', e', hk⟩ := exec_peripheryKept c u
    cases e'.symm.trans e
    exact hk
  unfold step at h
  split at h
  · have hk := run _ h
    exact ⟨hk.line, hk.input, hk.port⟩
  · split at h
    · exact run _ h
    · cases h
      exact s.internalCycle_peripheryKept

/-- Settles O58: each line, each input and each port keeps its laws at every step, command by command. -/
theorem pinAndPortLawsKept : Obligations.PinAndPortLawsKept :=
  ⟨fun _ _ hs h => (step_peripheryKept h).pinsOk hs, fun _ _ hs h => (step_peripheryKept h).portsOk hs⟩

end Sys2Proof.Machine
end

section
/-! Operations on lines, their bindings, and the reports of the lines and the inputs (O30, O31, O36). -/

namespace Sys2Proof.Machine

/-- A request that waits is answered by its service, where that leaves the slots (R160). -/
theorem State.serve_of_reply {s : State} {p : Port} {g : Byte} {d : Bool} {c : Code} {l : List Byte} {f : List Byte → Reply}
    {r : Reply} (h : s.asks p g d c l) (hf : f l = r) (hr : r.state.hpu = s.hpu) :
    s.serve p c f = r.state.answered p g d r.result r.payload := by
  subst hf
  exact State.serve_of_asks h hr

/-! ## The effect of an operation (R89, R91, R92) -/

/-- The table of R89 names the line that each operation leaves. -/
theorem TrigLine.apply_eq {l m : TrigLine} {op : LineOp} (hpulse : op = .pulse → m = { l with active := true, remaining := l.width })
    (hset : op = .set → m = { l with active := true, remaining := 0 })
    (hclear : op = .clear → m = { l with active := false, remaining := 0 })
    (htoggle : op = .toggle → m = { l with active := !l.active, remaining := 0 }) : l.apply op = m := by
  cases op with
  | pulse => exact (hpulse rfl).symm
  | set => exact (hset rfl).symm
  | clear => exact (hclear rfl).symm
  | toggle => exact (htoggle rfl).symm

theorem driveOperands_eq_none {line code : Byte} (h : 7 < line.toNat ∨ 3 < code.toNat) : driveOperands [line, code] = none := by
  have h0 : fieldNat [line, code] 0 1 = line.toNat := fieldNat_cons_zero ..
  have h1 : fieldNat [line, code] 1 1 = code.toNat := fieldNat_cons_zero ..
  unfold driveOperands
  rw [h0, h1]
  rcases h with h | h
  · simp [lineOf_eq_none.2 h]
  · simp [LineOp.ofCode_eq_none.2 h]

theorem driveOperands_of {n : Line} {op : LineOp} {code : Byte}
    (hc : code = (match op with | .pulse => 0 | .set => 1 | .clear => 2 | .toggle => 3)) :
    driveOperands [BitVec.ofNat 8 n.val, code] = some { line := n, op } := by
  have h0 : fieldNat [BitVec.ofNat 8 n.val, code] 0 1 = n.val := (fieldNat_cons_zero ..).trans (line_byte n)
  have h1 : fieldNat [BitVec.ofNat 8 n.val, code] 1 1 = code.toNat := fieldNat_cons_zero ..
  unfold driveOperands
  rw [h0, h1, lineOf_val, hc]
  cases op <;> rfl

section
variable {s : State} {p : Port} {l : List Byte} {a : Action}

/-- DRIVE_LINE on a line that is SHARED or bound to the port (R92). -/
theorem State.driveLine_of_allowed (ha : s.sau.sessions[p].attached = true) (ho : driveOperands l = some a)
    (hb : s.tou.lines[a.line].binding = none ∨ s.tou.lines[a.line].binding = some p) :
    s.driveLine p l = {
      state := s.operate a, result := .ok
      payload := [boolCode (s.tou.lines[a.line].apply a.op).active]
        ++ beBytes (s.tou.lines[a.line].apply a.op).remaining 2 } := by
  unfold State.driveLine
  rw [State.ifAttached_of_attached ha, ho, State.ifInRange_some, if_pos hb]
  simp [State.operate, State.withLine]

/-- DRIVE_LINE on a line bound to another port (R92). -/
theorem State.driveLine_of_denied (ha : s.sau.sessions[p].attached = true) (ho : driveOperands l = some a) {q : Port}
    (hb : s.tou.lines[a.line].binding = some q) (hq : q ≠ p) : s.driveLine p l = s.refuse .lineDenied := by
  unfold State.driveLine
  rw [State.ifAttached_of_attached ha, ho, State.ifInRange_some, hb]
  exact if_neg (by simpa using hq)

end

/-- Settles O30: the table of R89 by operation, reached through LINE_OPERATION and through DRIVE_LINE. -/
theorem lineOperationsApply : Obligations.LineOperationsApply := by
  refine ⟨fun s p tag line code d h ha hr => ?_, fun s n op l h1 h2 h3 h4 => ?_⟩
  · refine congrArg Host.Outcome.next (State.serve_of_refused h ?_)
    unfold State.driveLine
    rw [State.ifAttached_of_attached ha, driveOperands_eq_none hr, State.ifInRange_none]
  obtain rfl := TrigLine.apply_eq h1 h2 h3 h4
  refine ⟨fun rest hm => ?_, fun p tag code d hc h ha => ⟨fun hb => ?_, fun q hb hq => ?_⟩⟩
  · exact congrArg Host.Outcome.next (State.lineOperation_of_cons hm)
  · exact congrArg Host.Outcome.next (State.serve_of_reply h (State.driveLine_of_allowed ha (driveOperands_of hc) hb) rfl)
  · exact congrArg Host.Outcome.next (State.serve_of_refused h (State.driveLine_of_denied ha (driveOperands_of hc) hb hq))

/-! ## Bindings (R93, R94) -/

theorem bindOperands_of {n : Line} {binding : Option Port} {b : Byte}
    (hb : b = (match binding with | none => 0x80 | some q => BitVec.ofNat 8 q.val)) :
    bindOperands [BitVec.ofNat 8 n.val, b] = some (n, binding) := by
  have h0 : fieldNat [BitVec.ofNat 8 n.val, b] 0 1 = n.val := (fieldNat_cons_zero ..).trans (line_byte n)
  have h1 : fieldNat [BitVec.ofNat 8 n.val, b] 1 1 = b.toNat := fieldNat_cons_zero ..
  have hof : bindingOf b.toNat = some binding := by
    rw [hb]
    cases binding with
    | none => rfl
    | some q =>
      dsimp only
      unfold bindingOf
      rw [port_byte, if_neg (by omega), portOf_val]
      rfl
  unfold bindOperands
  rw [h0, h1, lineOf_val, hof]
  rfl

/-- An entry in use that acts on the line and is not owned by the port blocks its binding (R93). -/
theorem Entry.blocks_iff (e : Entry) (n : Line) (q : Port) :
    e.blocks n q = true ↔ e.state ≠ .free ∧ e.owner ≠ some q ∧ ∃ a, e.action = some a ∧ a.line = n := by
  simp [Entry.blocks, and_assoc, Option.any_eq_true]

/-- The first of all indexes with a property is the lowest one. -/
theorem head?_filter_finRange {n : Nat} {f : Fin n → Bool} {i : Fin n} (hi : f i = true) (hlt : ∀ j < i, f j = false) :
    ((List.finRange n).filter f).head? = some i := by
  rw [List.head?_filter, List.find?_eq_some_iff_getElem]
  exact ⟨hi, i.val, by simp, by simp, fun j hj => by simpa using hlt ⟨j, hj.trans i.isLt⟩ hj⟩

theorem Scu.blocker_of_lowest {c : Scu} {n : Line} {q : Port} {i : Index} (hi : c.entries[i].blocks n q = true)
    (hlt : ∀ j : Index, j < i → c.entries[j].blocks n q = false) : c.blocker n (some q) = some i :=
  head?_filter_finRange hi hlt

theorem Scu.blocker_eq_none {c : Scu} {n : Line} {binding : Option Port}
    (h : ∀ q, binding = some q → ∀ i : Index, c.entries[i].blocks n q = false) : c.blocker n binding = none := by
  cases binding with
  | none => rfl
  | some q =>
    unfold Scu.blocker
    rw [List.head?_eq_none_iff, List.filter_eq_nil_iff]
    exact fun i _ => Bool.eq_false_iff.1 (h q rfl i)

section
variable {s : State} {p : Port} {l : List Byte} {n : Line} {binding : Option Port}

theorem State.bindLine_of_blocked (ha : s.sau.sessions[p].attached = true) (hh : s.sau.holder = some p)
    (ho : bindOperands l = some (n, binding)) {i : Index} (hb : s.scu.blocker n binding = some i) :
    s.bindLine p l = { state := s, result := .lineInUse, payload := [BitVec.ofNat 8 i.val] } := by
  unfold State.bindLine
  rw [State.ifHolder_of_holder ha hh, ho, State.ifInRange_some]
  dsimp only
  rw [hb]

theorem State.bindLine_of_open (ha : s.sau.sessions[p].attached = true) (hh : s.sau.holder = some p)
    (ho : bindOperands l = some (n, binding)) (hb : s.scu.blocker n binding = none) :
    s.bindLine p l = {
      state := s.withLine n fun x => { x with binding }, result := .ok
      payload := [bindingCode s.tou.lines[n].binding] } := by
  unfold State.bindLine
  rw [State.ifHolder_of_holder ha hh, ho, State.ifInRange_some]
  dsimp only
  rw [hb]

end

/-- Settles O31: the blocker is the lowest entry that blocks, and without one the binding is replaced. -/
theorem bindLineChecksTable : Obligations.BindLineChecksTable := by
  intro s p tag d n binding blocks h ha hh hblocks
  have hmodel (q : Port) (hq : binding = some q) (i : Index) : blocks i ↔ s.scu.entries[i].blocks n q = true := by
    subst hq
    rw [hblocks, Entry.blocks_iff]
    exact and_iff_right nofun
  refine ⟨fun i hi hlt => ?_, fun hno => ?_⟩
  · obtain ⟨q, hq⟩ := Option.ne_none_iff_exists'.1 ((hblocks i).1 hi).1
    have hb : s.scu.blocker n binding = some i := hq ▸ Scu.blocker_of_lowest ((hmodel q hq i).1 hi)
      fun j hj => Bool.eq_false_iff.2 fun hx => hlt j hj ((hmodel q hq j).2 hx)
    exact congrArg Host.Outcome.next (State.serve_of_reply h (State.bindLine_of_blocked ha hh (bindOperands_of rfl) hb) rfl)
  · have hb : s.scu.blocker n binding = none :=
      Scu.blocker_eq_none fun q hq i => Bool.eq_false_iff.2 fun hx => hno i ((hmodel q hq i).2 hx)
    refine (congrArg Host.Outcome.next
      (State.serve_of_reply h (State.bindLine_of_open ha hh (bindOperands_of rfl) hb) rfl)).trans ?_
    dsimp only
    cases s.tou.lines[n].binding <;> rfl

/-! ## Reports (R97, R113) -/

/-- The flags of a line: idle level, current level and pin level (R97). -/
theorem TrigLine.flags_eq (l : TrigLine) : flagByte [l.idle == .high, l.active, l.pin == .high]
    = BitVec.ofNat 8 ((if l.idle = .high then 1 else 0) + (if l.active = true then 2 else 0)
        + (if (l.idle = .high ↔ l.active = true) then 0 else 4)) := by
  obtain ⟨_, idle, _, active, _, _⟩ := l
  cases idle <;> cases active <;> rfl

theorem mul_bitNat (k : Nat) (b : Bool) : k * bitNat b = if b = true then k else 0 := by cases b <;> simp [bitNat]

/-- A report that an attached port asks for is answered, and nothing but the slot changes. -/
theorem State.serve_of_report {s : State} {p : Port} {g : Byte} {d : Bool} {c : Code} {l m : List Byte} (h : s.asks p g d c l)
    (ha : s.sau.sessions[p].attached = true) :
    s.serve p c (fun _ => s.ifAttached p (s.report m)) = s.answered p g d .ok m :=
  State.serve_of_reply (r := s.report m) h (State.ifAttached_of_attached ha) rfl

/-- Settles O36: the bytes of each line and each input, as chapter 10 spells them. -/
theorem linesAndInputsReported : Obligations.LinesAndInputsReported := by
  refine fun s p tag d => ⟨fun ha => ⟨fun h => ?_, fun h => ?_⟩, fun ha h => ?_, fun ha h => ?_⟩
  · exact congrArg Host.Outcome.next (State.serve_of_refused h (State.ifAttached_of_detached ha))
  · exact congrArg Host.Outcome.next (State.serve_of_refused h (State.ifAttached_of_detached ha))
  · refine congrArg Host.Outcome.next ((State.serve_of_report h ha).trans (congrArg (s.answered p tag d .ok) ?_))
    refine congrArg (List.flatMap · _) (funext fun l => ?_)
    unfold TrigLine.bytes
    rw [TrigLine.flags_eq]
    cases l.binding <;> rfl
  · refine congrArg Host.Outcome.next ((State.serve_of_report h ha).trans (congrArg (s.answered p tag d .ok) ?_))
    refine congrArg (List.flatMap · _) (funext fun n => ?_)
    have hpps : s.inPpsRole n = true ↔ n = 7 ∧ s.rsv.pps.role = true := by simp [State.inPpsRole]
    unfold Input.bytes Input.configByte dividerCode
    simp only [mul_bitNat, hpps]
    cases s.ecu.inputs[n].select <;> rcases s.ecu.inputs[n].stable with _ | _ | _ <;> rfl

end Sys2Proof.Machine
end

section
/-! Samples that capture and samples that do not, and the steps that meet a run (O33, O34, O35). -/

namespace Sys2Proof.Machine

/-! ## The filter, judgement by judgement (R102) -/

/-- The edge that a run makes when the sample on the tick of time t completes it (R102). -/
def Input.completedEdge (i : Input) (level : Level) (t : Time) : QualifiedEdge := {
  direction := levelDirection level, stamp := (i.lengthen t).candidate.getD t, adjusted := (i.lengthen t).adjusted
  clamped := (i.lengthen t).clamped, shifts := (i.lengthen t).shifts }

@[simp] theorem Input.lengthen_run (i : Input) (t : Time) : (i.lengthen t).run = i.run + 1 := by
  unfold Input.lengthen
  split
  next h => exact congrArg (· + 1) h.symm
  · rfl

@[simp] theorem Input.lengthen_deadLeft (i : Input) (t : Time) : (i.lengthen t).deadLeft = i.deadLeft := by
  unfold Input.lengthen
  split <;> rfl

section
variable {i : Input} {level stable : Level} {t : Time}

theorem Input.filter_of_unknown (h : i.stable = none) : i.filter level t = ({ i with stable := some level }, none) := by
  unfold Input.filter
  rw [h]

theorem Input.filter_of_stable (h : i.stable = some level) : i.filter level t = (i.noRun, none) := by
  unfold Input.filter
  rw [h]
  exact if_pos rfl

theorem Input.filter_of_short (h : i.stable = some stable) (hl : stable ≠ level) (hq : i.run + 1 < i.qualify) :
    i.filter level t = (i.lengthen t, none) := by
  unfold Input.filter
  rw [h]
  dsimp only
  rw [if_neg hl.symm, if_neg (by simpa using hq)]

theorem Input.filter_of_qualified (h : i.stable = some stable) (hl : stable ≠ level) (hq : i.qualify ≤ i.run + 1) :
    i.filter level t = ({ i.noRun with stable := some level }, some (i.completedEdge level t)) := by
  unfold Input.filter
  rw [h]
  dsimp only
  rw [if_neg hl.symm, if_pos (by simpa using hq), Input.lengthen_noRun]
  rfl

/-- A run that one sample completes is stamped with the time of that sample (R102). -/
theorem Input.completedEdge_of_first (h : i.run = 0) : i.completedEdge level t = {
    direction := levelDirection level, stamp := t, adjusted := false, clamped := false, shifts := [] } := by
  unfold Input.completedEdge Input.lengthen
  rw [if_pos h]
  rfl

/-- A longer run is stamped with its candidate, under the marks of the steps within it (R102, R108). -/
theorem Input.completedEdge_of_later (h : i.run ≠ 0) {stamp : Time} (hc : i.candidate = some stamp) :
    i.completedEdge level t = {
      direction := levelDirection level, stamp, adjusted := i.adjusted, clamped := i.clamped, shifts := i.shifts } := by
  unfold Input.completedEdge Input.lengthen
  rw [if_neg h]
  dsimp only
  rw [hc]
  rfl

end

/-! ## Edge selection (R103) -/

theorem EdgeSelect.matchesDir_levelDirection (x : EdgeSelect) (level : Level) :
    x.matchesDir (levelDirection level) = true ↔ x = .both ∨ x = .rise ∧ level = .high ∨ x = .fall ∧ level = .low := by
  cases x <;> cases level <;> decide

theorem EdgeSelect.not_matchesDir_levelDirection (x : EdgeSelect) (level : Level) :
    x.matchesDir (levelDirection level) = false ↔ x = .off ∨ x = .rise ∧ level = .low ∨ x = .fall ∧ level = .high := by
  cases x <;> cases level <;> decide

theorem State.inPpsRole_iff (s : State) (n : Line) : s.inPpsRole n = true ↔ n = 7 ∧ s.rsv.pps.role = true := by
  simp [State.inPpsRole]

theorem State.effectiveSelect_eq (s : State) (n : Line) :
    s.effectiveSelect n = if n = 7 ∧ s.rsv.pps.role = true then .rise else s.ecu.inputs[n].select := by
  unfold State.effectiveSelect
  simp only [State.inPpsRole_iff]

/-! ## The judgement of a sample (R102 to R105) -/

section
variable {s : State} {n : Line} {level : Level} {turn : Nat} {t : Time} {i : Input} {q : QualifiedEdge}

theorem State.judgeSample_of_no_edge (h : s.ecu.inputs[n].filter level t = (i, none)) :
    s.judgeSample n level turn t = s.withInput n i.tickDead := by
  unfold State.judgeSample
  rw [h]

theorem State.judgeSample_of_unselected (h : s.ecu.inputs[n].filter level t = (i, some q))
    (hm : (s.effectiveSelect n).matchesDir q.direction = false) :
    s.judgeSample n level turn t = s.withInput n i.tickDead := by
  unfold State.judgeSample
  rw [h]
  dsimp only
  rw [hm]
  rfl

theorem State.judgeSample_of_dead (h : s.ecu.inputs[n].filter level t = (i, some q))
    (hm : (s.effectiveSelect n).matchesDir q.direction = true) (hd : 1 ≤ i.deadLeft) :
    s.judgeSample n level turn t = s.withInput n i.suppress.tickDead := by
  unfold State.judgeSample
  rw [h]
  dsimp only
  rw [hm]
  exact if_neg (Nat.one_le_iff_ne_zero.1 hd)

theorem State.judgeSample_of_capture (h : s.ecu.inputs[n].filter level t = (i, some q))
    (hm : (s.effectiveSelect n).matchesDir q.direction = true) (hd : i.deadLeft = 0) :
    s.judgeSample n level turn t = s.capture n i q turn t := by
  unfold State.judgeSample
  rw [h]
  dsimp only
  rw [hm]
  exact if_pos hd

end

/-! ## INPUT_SAMPLE (R101) -/

/-- The state in which the sample taken from the list is judged: the list without it, and the pin at the level sampled (log 13,
log 14). -/
def State.sampled (s : State) (n : Line) (level : Level) (due : List EcuHandover) : State :=
  { s with mail := { s.mail with toEcu := due }, pins := s.pins.set n.val level }

section
variable {s : State} {n : Line} {level : Level} {k : Nat} {t : Time} {before rest : List EcuHandover}

theorem exec_inputSample_of_due (hm : s.mail.toEcu = before ++ .sample k n t :: rest)
    (hb : ∀ h ∈ before, ∃ j m u, h = .sample j m u ∧ m ≠ n) :
    exec (.inputSample n level) s = .next ((s.sampled n level (before ++ rest)).judgeSample n level k t) := by
  have ht : takeSample n s.mail.toEcu = some (k, t, before ++ rest) := by rw [hm, takeSample_at hb]
  show Host.Outcome.next (s.inputSample n level) = _
  unfold State.inputSample
  rw [ht]
  rfl

/-- The filter judges the input as it stood before the sample was taken from the list. -/
theorem State.sampled_filter {i : Input} {x : Option QualifiedEdge} {due : List EcuHandover}
    (h : s.ecu.inputs[n].filter level t = (i, x)) : (s.sampled n level due).ecu.inputs[n].filter level t = (i, x) := h

end

/-- Settles O33: each judgement of the filter ends in one input written back with its dead time counted down. -/
theorem sampleWithoutCapture : Obligations.SampleWithoutCapture := by
  rintro s n level stable k t before rest i next hm hb rfl j rfl
  rw [exec_inputSample_of_due hm hb]
  refine ⟨fun hs hj => congrArg _ ?unknown, fun hs hj => congrArg _ ?stable, fun hs hl hq hj => congrArg _ ?short,
    fun select hs hl hq hsel hx hj => congrArg _ ?unselected,
    fun select hs hl hq hsel hx hd hj => congrArg _ ?dead⟩ <;> subst hj
  case unknown => exact State.judgeSample_of_no_edge (State.sampled_filter (Input.filter_of_unknown hs))
  case stable => exact State.judgeSample_of_no_edge (State.sampled_filter (Input.filter_of_stable hs))
  case short =>
    refine (State.judgeSample_of_no_edge (State.sampled_filter (Input.filter_of_short hs hl hq))).trans ?_
    unfold Input.tickDead
    rw [Input.lengthen_deadLeft]
    rfl
  case unselected =>
    rw [← EdgeSelect.not_matchesDir_levelDirection, hsel, ← State.effectiveSelect_eq] at hx
    exact State.judgeSample_of_unselected (State.sampled_filter (Input.filter_of_qualified hs hl hq)) hx
  case dead =>
    rw [← EdgeSelect.matchesDir_levelDirection, hsel, ← State.effectiveSelect_eq] at hx
    exact State.judgeSample_of_dead (State.sampled_filter (Input.filter_of_qualified hs hl hq)) hx hd

/-- Settles O34: the run's edge, then its capture for the RSV or for the log. -/
theorem sampleCaptures : Obligations.SampleCaptures := by
  rintro s n level stable k t stamp before rest i adjusted clamped pps shifts direction select hm hb rfl hs hl hq hd hpps hsel hx
    hdir hfirst hlater
  have hedge : s.ecu.inputs[n].completedEdge level t = { direction, stamp, adjusted, clamped, shifts } := by
    obtain rfl : levelDirection level = direction := hdir ▸ by cases level <;> rfl
    by_cases hr : s.ecu.inputs[n].run = 0
    · obtain ⟨rfl, rfl, rfl, rfl⟩ := hfirst hr
      exact Input.completedEdge_of_first hr
    · obtain ⟨hc, rfl, rfl, rfl⟩ := hlater hr
      exact Input.completedEdge_of_later hr hc
  have hrole : (s.sampled n level (before ++ rest)).inPpsRole n = pps :=
    Bool.eq_iff_iff.2 ((State.inPpsRole_iff ..).trans hpps.symm)
  have hmatch : ((s.sampled n level (before ++ rest)).effectiveSelect n).matchesDir (levelDirection level) = true := by
    unfold State.effectiveSelect
    rw [hrole]
    rw [hsel] at hx
    exact (EdgeSelect.matchesDir_levelDirection ..).2 hx
  have hfilter := State.sampled_filter (due := before ++ rest) (Input.filter_of_qualified (t := t) hs hl hq)
  rw [exec_inputSample_of_due hm hb, State.judgeSample_of_capture hfilter hmatch hd, hedge, State.capture_eq, hrole]
  refine congrArg Host.Outcome.next ?_
  cases pps
  case true =>
    simp only [if_true, List.append_nil]
    rfl
  case false =>
    simp only [Bool.false_eq_true, if_false, List.append_nil]
    rfl

/-! ## Steps during a run (R108) -/

section
variable {i : Input} {turn : Nat} {old new : Time}

theorem Input.shift_of_still (h : i.run = 0 ∨ i.candidate = none ∨ old = new) : i.shift turn old new = i := by
  unfold Input.shift
  split
  · rfl
  next c hc => exact if_pos (h.imp_right fun h => h.resolve_left (by rw [hc]; nofun))

theorem Input.shift_of_run {c : Time} (hr : i.run ≠ 0) (hc : i.candidate = some c) (hn : old ≠ new) :
    i.shift turn old new = { i with
      candidate := some (shiftStamp c old new).toNat, adjusted := true
      clamped := i.clamped || decide (shiftStamp c old new < 0), shifts := i.shifts ++ [turn] } := by
  unfold Input.shift
  rw [hc]
  exact if_neg (not_or.2 ⟨hr, hn⟩)

end

/-- Settles O35: the step waits for the SCU, and then shifts input by input. -/
theorem stepShiftsRuns : Obligations.StepShiftsRuns := by
  intro s k old new rest hm
  have hexec : exec .ecuStepHandover s = .next (if s.scuTook k then s.ecuStep else s) := by
    show Host.Outcome.next s.ecuStepHandover = _
    unfold State.ecuStepHandover
    rw [hm]
  refine ⟨fun ⟨h, hmem, hle⟩ => ?_, fun hscu => ⟨_,
    by rw [hexec, if_pos ((s.scuTook_iff k).2 hscu), State.ecuStep_of_step hm], rfl,
    fun n hn => ?_, fun n c moved hr hc hne hmoved => ?_⟩⟩
  · have hwait : ¬ s.scuTook k = true := fun ht => Nat.not_lt.2 hle ((s.scuTook_iff k).1 ht h hmem)
    rw [hexec, if_neg hwait]
  · simpa using Input.shift_of_still hn
  · obtain rfl : shiftStamp c old new = moved := by rw [hmoved]; unfold shiftStamp; omega
    have hshift := Input.shift_of_run (turn := k) hr hc hne
    simp only [Fin.getElem_fin, Vector.getElem_map] at hshift ⊢
    rw [hshift]
    refine ⟨fun h => ?_, fun h => ?_⟩
    · simp [Int.not_lt.2 h]
    · simp [h, Int.toNat_of_nonpos h.le]

end Sys2Proof.Machine
end

section
/-! The laws of the log (O57): every retained record is pending for a port, and only for ports with a subscription, and a port without
one has no counters. -/

namespace Sys2Proof.Machine

/-! ## Pending sets and counters, port by port (R120, R121, R123, R124) -/

theorem perPort_getElem {α : Type} (f : Port → α) (p : Port) : (perPort f)[p] = f p := by
  fin_cases p <;> rfl

theorem Elu.pendingSet_getElem (e : Elu) (r : Posted) (p : Port) : (e.pendingSet r)[p] = e.subs[p].any (r.inScope p) :=
  perPort_getElem _ p

theorem eq_emptySet_iff (v : Vector Bool 4) : v = emptySet ↔ ∀ p : Port, v[p] = false := by
  constructor
  · rintro rfl p
    simp [emptySet]
  · intro h
    refine Vector.ext fun i hi => (h ⟨i, hi⟩).trans ?_
    simp [emptySet]

theorem bump_getElem (counters : Vector Nat 4) (set : Vector Bool 4) (p : Port) :
    (bump counters set)[p] = if set[p] = true then min (counters[p] + 1) 65535 else counters[p] := by
  simp [bump]

theorem Retained.without_pending (r : Retained) (p q : Port) :
    (r.without p).pending[q] = if q = p then false else r.pending[q] := getElem_set_fin

theorem mem_freeEmpty {log : List Retained} {r : Retained} : r ∈ freeEmpty log ↔ r ∈ log ∧ r.pending ≠ emptySet := by
  simp [freeEmpty]

/-- An acknowledgement leaves each record as it is, or without the port (R128). -/
theorem mem_ackUpTo {p : Port} {seq : Nat} {log : List Retained} {r : Retained} (h : r ∈ ackUpTo p seq log) :
    ∃ x ∈ log, r = x ∨ r = x.without p := by
  induction log with
  | nil => cases h
  | cons x rest ih =>
    unfold ackUpTo at h
    split at h
    · rcases List.mem_cons.1 h with h | h
      · exact ⟨x, List.mem_cons_self .., .inr h⟩
      · exact ⟨r, List.mem_cons_of_mem _ h, .inl rfl⟩
    · rcases List.mem_cons.1 h with h | h
      · exact ⟨x, List.mem_cons_self .., .inr h⟩
      · obtain ⟨y, hy, e⟩ := ih h
        exact ⟨y, List.mem_cons_of_mem _ hy, e⟩

theorem length_ackUpTo (p : Port) (seq : Nat) (log : List Retained) : (ackUpTo p seq log).length = log.length := by
  induction log with
  | nil => rfl
  | cons x rest ih =>
    unfold ackUpTo
    split
    · rfl
    · exact congrArg Nat.succ ih

theorem length_freeEmpty_le (log : List Retained) : (freeEmpty log).length ≤ log.length := List.length_filter_le ..

/-! ## The laws of the log, record by record and counter by counter -/

/-- The laws of one retained record, under the subscriptions of the ports (R117, R120, R121). -/
structure Retained.Ok (r : Retained) (subs : Vector (Option Subscription) 4) : Prop where
  pending : r.pending ≠ emptySet
  subscribed : ∀ p : Port, r.pending[p] = true → subs[p].isSome = true
  seq_pos : 1 ≤ r.record.seq
  seq_le : r.record.seq ≤ Config.maxSeq

/-- The law of one counter of each port: in range, and 0 for a port without a subscription (R123 to R125). -/
def CountsOk (subs : Vector (Option Subscription) 4) (counters : Vector Nat 4) : Prop :=
  ∀ p : Port, counters[p] ≤ 65535 ∧ (subs[p].isSome = false → counters[p] = 0)

/-- The laws of the log, with those of a record and those of a counter in one place. -/
structure Elu.Lawful (e : Elu) : Prop where
  length_le : e.log.length ≤ Config.logSlots
  seq_pos : 1 ≤ e.nextSeq
  seq_le : e.nextSeq ≤ Config.maxSeq
  record : ∀ r ∈ e.log, r.Ok e.subs
  dropped : CountsOk e.subs e.dropped
  lost : CountsOk e.subs e.lost

theorem Elu.ok_iff (e : Elu) : e.Ok ↔ e.Lawful := by
  constructor
  · rintro ⟨hlen, h1, hmax, hlog, hcount⟩
    refine ⟨hlen, h1, hmax, fun r hr => ?_, fun p => ?_, fun p => ?_⟩
    · obtain ⟨hp, hs, hr1, hr2⟩ := hlog r hr
      exact ⟨hp, hs, hr1, hr2⟩
    · obtain ⟨hd, -, h0⟩ := hcount p
      exact ⟨hd, fun h => (h0 h).1⟩
    · obtain ⟨-, hl, h0⟩ := hcount p
      exact ⟨hl, fun h => (h0 h).2⟩
  · intro h
    refine ⟨h.length_le, h.seq_pos, h.seq_le, fun r hr => ?_, fun p => ?_⟩
    · exact ⟨(h.record r hr).pending, (h.record r hr).subscribed, (h.record r hr).seq_pos, (h.record r hr).seq_le⟩
    · exact ⟨(h.dropped p).1, (h.lost p).1, fun hs => ⟨(h.dropped p).2 hs, (h.lost p).2 hs⟩⟩

/-- A record that is pending for no more ports than before, each with a subscription. -/
theorem Retained.Ok.without {r : Retained} {subs : Vector (Option Subscription) 4} (h : r.Ok subs) (p : Port)
    (hne : (r.without p).pending ≠ emptySet) : (r.without p).Ok subs := by
  refine ⟨hne, fun q hq => h.subscribed q ?_, h.seq_pos, h.seq_le⟩
  rw [Retained.without_pending] at hq
  split at hq
  · cases hq
  · exact hq

/-- Subscriptions stand or change for ports that the record is not pending for. -/
theorem Retained.Ok.of_subs {r : Retained} {subs subs' : Vector (Option Subscription) 4} (h : r.Ok subs)
    (hs : ∀ p : Port, r.pending[p] = true → subs[p].isSome = true → subs'[p].isSome = true) : r.Ok subs' :=
  ⟨h.pending, fun p hp => hs p hp (h.subscribed p hp), h.seq_pos, h.seq_le⟩

/-- A port's counter is cleared; its subscription may change with it. -/
theorem CountsOk.clear {subs subs' : Vector (Option Subscription) 4} {counters : Vector Nat 4} (h : CountsOk subs counters) {p : Port}
    (hs : ∀ q, q ≠ p → subs'[q] = subs[q]) : CountsOk subs' (counters.set p.val 0) := by
  intro q
  rw [getElem_set_fin]
  split
  · exact ⟨Nat.zero_le _, fun _ => rfl⟩
  next hq =>
    rw [hs q hq]
    exact h q

/-- The counters of ports with subscriptions rise and saturate. -/
theorem CountsOk.bump {subs : Vector (Option Subscription) 4} {counters : Vector Nat 4} (h : CountsOk subs counters)
    {set : Vector Bool 4} (hset : ∀ p : Port, set[p] = true → subs[p].isSome = true) : CountsOk subs (bump counters set) := by
  intro p
  rw [bump_getElem]
  split
  next hp => exact ⟨Nat.min_le_right .., fun hn => (nomatch hn.symm.trans (hset p hp))⟩
  · exact h p

/-- A port that receives a subscription keeps the others' counters. -/
theorem CountsOk.subscribe {subs : Vector (Option Subscription) 4} {counters : Vector Nat 4} (h : CountsOk subs counters) (p : Port)
    (sub : Subscription) : CountsOk (subs.set p.val (some sub)) counters := by
  intro q
  refine ⟨(h q).1, fun hn => (h q).2 ?_⟩
  rw [getElem_set_fin] at hn
  split at hn
  · cases hn
  · exact hn

theorem isSome_set_subscription {subs : Vector (Option Subscription) 4} {p q : Port} {sub : Subscription}
    (h : subs[q].isSome = true) : (subs.set p.val (some sub))[q].isSome = true := by
  rw [getElem_set_fin]
  split
  · rfl
  · exact h

/-! ## The events of the log keep its laws -/

theorem nextSeqAfter_bounds (n : Nat) : 1 ≤ nextSeqAfter n ∧ nextSeqAfter n ≤ Config.maxSeq := by
  unfold nextSeqAfter
  split
  · decide
  · omega

theorem Elu.subscribed_of_pendingSet {e : Elu} {r : Posted} {p : Port} (h : (e.pendingSet r)[p] = true) :
    e.subs[p].isSome = true := by
  rw [Elu.pendingSet_getElem] at h
  obtain ⟨b, hb, -⟩ := (Option.any_eq_true _ _).1 h
  exact Option.isSome_of_mem hb

/-- A record left out, stored, dropped or stored over the oldest leaves a lawful log (R117, R120, R123, R124). -/
theorem Elu.Lawful.takeRecord {e : Elu} (h : e.Lawful) (r : Posted) : (e.takeRecord r).Lawful := by
  obtain ⟨hseq1, hseq⟩ := nextSeqAfter_bounds e.nextSeq
  have hset (p : Port) (hp : (e.pendingSet r)[p] = true) : e.subs[p].isSome = true := Elu.subscribed_of_pendingSet hp
  rcases e.takeRecord_cases r with ⟨-, eq⟩ | ⟨hne, hl, eq⟩ | ⟨-, -, -, eq⟩ | ⟨hne, -, -, oldest, rest, hlog, eq⟩ <;> rw [eq]
  · exact ⟨h.length_le, hseq1, hseq, h.record, h.dropped, h.lost⟩
  · refine ⟨?_, hseq1, hseq, fun x hx => ?_, h.dropped, h.lost⟩
    · rw [List.length_append]
      exact hl
    · rcases List.mem_append.1 hx with hx | hx
      · exact h.record x hx
      · obtain rfl := List.mem_singleton.1 hx
        exact ⟨hne, hset, h.seq_pos, h.seq_le⟩
  · exact ⟨h.length_le, hseq1, hseq, h.record, h.dropped.bump hset, h.lost⟩
  · have hlen := h.length_le
    have hrec := h.record
    rw [hlog] at hlen hrec
    refine ⟨?_, hseq1, hseq, fun x hx => ?_, h.dropped, h.lost.bump (hrec oldest (List.mem_cons_self ..)).subscribed⟩
    · rw [List.length_append]
      exact hlen
    · rcases List.mem_append.1 hx with hx | hx
      · exact hrec x (List.mem_cons_of_mem _ hx)
      · obtain rfl := List.mem_singleton.1 hx
        exact ⟨hne, hset, h.seq_pos, h.seq_le⟩

/-- A new subscription with its counters at 0 (R119, R125). -/
theorem Elu.Lawful.install {e : Elu} (h : e.Lawful) (p : Port) (sub : Subscription) :
    ({ e with
      subs := e.subs.set p.val (some sub), dropped := e.dropped.set p.val 0, lost := e.lost.set p.val 0 } : Elu).Lawful := by
  have hs (q : Port) (hq : q ≠ p) : (e.subs.set p.val (some sub))[q] = e.subs[q] := by rw [getElem_set_fin, if_neg hq]
  exact ⟨h.length_le, h.seq_pos, h.seq_le, fun r hr => (h.record r hr).of_subs fun _ _ => isSome_set_subscription,
    h.dropped.clear hs, h.lost.clear hs⟩

/-- SUBSCRIBE replaces the masks and leaves the counters (R130). -/
theorem Elu.Lawful.subscribe {e : Elu} (h : e.Lawful) (p : Port) (sub : Subscription) :
    ({ e with subs := e.subs.set p.val (some sub) } : Elu).Lawful :=
  ⟨h.length_le, h.seq_pos, h.seq_le, fun r hr => (h.record r hr).of_subs fun _ _ => isSome_set_subscription,
    h.dropped.subscribe p sub, h.lost.subscribe p sub⟩

/-- A port that leaves every pending set may leave its subscription (R132). -/
theorem Elu.Lawful.remove {e : Elu} (h : e.Lawful) (p : Port) : (e.remove p).Lawful := by
  have hs (q : Port) (hq : q ≠ p) : (e.subs.set p.val none)[q] = e.subs[q] := by rw [getElem_set_fin, if_neg hq]
  refine ⟨?_, h.seq_pos, h.seq_le, fun r hr => ?_, h.dropped.clear hs, h.lost.clear hs⟩
  · refine (length_freeEmpty_le _).trans ?_
    rw [List.length_map]
    exact h.length_le
  · obtain ⟨hr, hne⟩ := mem_freeEmpty.1 hr
    obtain ⟨x, hx, rfl⟩ := List.mem_map.1 hr
    refine ((h.record x hx).without p hne).of_subs fun q hq hsome => ?_
    rw [Retained.without_pending] at hq
    split at hq
    · cases hq
    next hqp =>
      show (e.subs.set p.val none)[q].isSome = true
      rw [hs q hqp]
      exact hsome

/-- An acknowledgement frees what it leaves with no port, and may clear the port's counters (R121, R128). -/
theorem Elu.Lawful.acknowledge {e : Elu} (h : e.Lawful) (p : Port) (seq : Nat) (clear : Bool) :
    (e.acknowledge p seq clear).Lawful := by
  have hlog : ({ e with log := freeEmpty (ackUpTo p seq e.log) } : Elu).Lawful := by
    refine ⟨?_, h.seq_pos, h.seq_le, fun r hr => ?_, h.dropped, h.lost⟩
    · refine (length_freeEmpty_le _).trans ?_
      rw [length_ackUpTo]
      exact h.length_le
    · obtain ⟨hr, hne⟩ := mem_freeEmpty.1 hr
      obtain ⟨x, hx, rfl | rfl⟩ := mem_ackUpTo hr
      · exact h.record r hx
      · exact (h.record x hx).without p hne
  have hseq : (if seq = 0 then e else { e with log := freeEmpty (ackUpTo p seq e.log) }).Lawful := by
    split
    · exact h
    · exact hlog
  unfold Elu.acknowledge
  dsimp only
  generalize (if seq = 0 then e else { e with log := freeEmpty (ackUpTo p seq e.log) }) = x at hseq
  split
  · exact ⟨hseq.length_le, hseq.seq_pos, hseq.seq_le, hseq.record, hseq.dropped.clear fun _ _ => rfl,
      hseq.lost.clear fun _ _ => rfl⟩
  · exact hseq

theorem Elu.acknowledge_subs (e : Elu) (p : Port) (seq : Nat) (clear : Bool) : (e.acknowledge p seq clear).subs = e.subs := by
  unfold Elu.acknowledge
  dsimp only
  split <;> split <;> rfl

/-- The log after RST#, which keeps the seq (R135). -/
theorem Elu.Lawful.reset {e : Elu} (h : e.Lawful) : ({ Elu.initial with nextSeq := e.nextSeq } : Elu).Lawful := by
  have h0 := (Elu.ok_iff _).1 Elu.initial_ok
  exact ⟨h0.length_le, h.seq_pos, h.seq_le, h0.record, h0.dropped, h0.lost⟩

end Sys2Proof.Machine
end

section
/-! The laws of the sessions and the authority (O57): what they see of one port, and who may hold the authority or wait for it. -/

namespace Sys2Proof.Machine

/-! ## The part of the state that the laws of the log and the sessions speak of -/

/-- The log, the sessions and the authority, and the subscriptions on their way to the log. -/
structure Roster where
  elu : Elu
  sau : Sau
  installs : List Install

def State.roster (s : State) : Roster := { elu := s.elu, sau := s.sau, installs := s.mail.installs }

/-- What the laws see of one port: its session, whether its session end is in progress, how many of its subscriptions are on their way
to the log, and whether the log has one. -/
structure Membership where
  session : Session
  ending : Bool
  waiting : Nat
  subscribed : Bool

def Roster.membership (r : Roster) (p : Port) : Membership :=
  { session := r.sau.sessions[p], ending := r.sau.ending.any fun e => e.port == p
    waiting := (r.installs.filter fun i => i.port == p).length, subscribed := r.elu.subs[p].isSome }

/-- The laws of a session (R138, R140, R150). -/
structure Session.Ok (x : Session) (ending : Bool) : Prop where
  limit_le : x.limit ≤ 255
  seconds_le : x.seconds ≤ x.limit
  cycles_lt : x.cycles < Config.secondCycles
  auth : x.attached = false → x.auth = false
  detached : x.attached = false → ending = false → x.limit = 0 ∧ x.cycles = 0 ∧ x.mask = 4
  ending : ending = true → x.attached = false
  overdue : x.overdue = true → x.atLimit

/-- The laws of one port: those of its session, and a subscription that is on its way, at the log, or with neither session nor session
end (R119, R136, R140). -/
structure Membership.Ok (m : Membership) : Prop where
  session : m.session.Ok m.ending
  waiting_le : m.waiting ≤ 1
  waiting : m.waiting ≠ 0 → m.subscribed = false ∧ (m.session.attached = true ∨ m.ending = true)
  subscribed : m.subscribed = true → m.session.attached = true ∨ m.ending = true
  attached : m.session.attached = true → m.subscribed = true ∨ m.waiting ≠ 0

/-- The laws of the log, the authority and every port. -/
structure Roster.Ok (r : Roster) : Prop where
  log : r.elu.Lawful
  authority : r.sau.AuthorityOk
  member : ∀ p, (r.membership p).Ok

theorem State.endingPort_eq_iff (s : State) (p : Port) :
    s.endingPort = some p ↔ (s.roster.membership p).ending = true := by
  simp [State.endingPort, Roster.membership, State.roster, Option.any_eq_true]

theorem State.installWaits_iff (s : State) (p : Port) :
    s.installWaits p = true ↔ (s.roster.membership p).waiting ≠ 0 := by
  show (s.mail.installs.any fun i => i.port == p) = true ↔ (s.mail.installs.filter fun i => i.port == p).length ≠ 0
  rw [List.any_eq_true, ← Nat.pos_iff_ne_zero, List.length_pos_iff_exists_mem]
  simp only [List.mem_filter]

theorem State.membership_ok_iff (s : State) (p : Port) : (s.roster.membership p).Ok ↔ s.sessionOk p ∧ s.subscriptionOk p := by
  have he := s.endingPort_eq_iff p
  have hn : s.endingPort ≠ some p ↔ (s.roster.membership p).ending = false := by rw [Ne, he, Bool.not_eq_true]
  have hsub : s.elu.subs[p] = none ↔ (s.roster.membership p).subscribed = false := 
    Option.isNone_iff_eq_none.symm.trans Option.isSome_eq_false_iff.symm
  unfold State.sessionOk State.subscriptionOk
  rw [State.installWaits_iff, hsub, he, hn]
  constructor
  · intro h
    exact ⟨⟨h.session.limit_le, h.session.seconds_le, h.session.cycles_lt, h.session.auth, h.session.detached, h.session.ending,
      h.session.overdue⟩, h.waiting_le, h.waiting, h.subscribed, h.attached⟩
  · rintro ⟨⟨h1, h2, h3, h4, h5, h6, h7⟩, k1, k2, k3, k4⟩
    exact ⟨⟨h1, h2, h3, h4, h5, h6, h7⟩, k1, k2, k3, k4⟩

/-- The laws of the log, the sessions and the authority are laws of the roster. -/
theorem State.sessionsOk_iff (s : State) : s.SessionsOk ↔ s.roster.Ok := by
  unfold State.SessionsOk
  rw [← forall_and, Elu.ok_iff]
  simp only [← State.membership_ok_iff]
  exact ⟨fun ⟨hl, ha, hm⟩ => ⟨hl, ha, hm⟩, fun h => ⟨h.log, h.authority, h.member⟩⟩

/-- The passage from one state to another keeps the laws of the log, the sessions and the authority. -/
def State.RosterKept (s t : State) : Prop := s.roster.Ok → t.roster.Ok

theorem State.RosterKept.refl (s : State) : s.RosterKept s := id

theorem State.RosterKept.trans {s t u : State} (h : s.RosterKept t) (k : t.RosterKept u) : s.RosterKept u := k ∘ h

theorem State.RosterKept.of_eq {s t : State} (h : t.roster = s.roster) : s.RosterKept t := fun hs => h ▸ hs

/-- Events of which each keeps the laws keep them one after the other. -/
theorem State.foldl_rosterKept {α : Type} {f : State → α → State} (h : ∀ (s : State) (a : α), s.RosterKept (f s a)) (l : List α)
    (s : State) : s.RosterKept (l.foldl f s) := by
  induction l generalizing s with
  | nil => exact .refl s
  | cons a l ih => exact (h s a).trans (ih _)

/-! ## What happens to one session (R138, R140, R150) -/

theorem secondCycles_pos : 0 < Config.secondCycles := by decide

theorem Session.Ok.not_overdue {x : Session} {ending : Bool} (h : x.Ok ending) (ha : x.attached = false) : x.overdue = false :=
  Bool.eq_false_iff.2 fun ho => by
    obtain ⟨hx, -⟩ := h.overdue ho
    exact nomatch ha.symm.trans hx

/-- The report of a frame sets the timer of an attached port to 0 where no expiry waits. -/
theorem Session.Ok.restart {x : Session} {ending : Bool} (h : x.Ok ending) : x.restart.Ok ending := by
  unfold Session.restart
  split
  next hx =>
    obtain ⟨ha, ho⟩ := Bool.and_eq_true_iff.1 hx
    exact ⟨h.limit_le, Nat.zero_le _, secondCycles_pos, h.auth, fun hn => (nomatch ha.symm.trans hn), h.ending,
      fun hy => (nomatch (Bool.not_eq_true' _ ▸ ho : x.overdue = false).symm.trans hy)⟩
  · exact h

/-- The timer runs below the limit of an attached port alone. -/
theorem Session.Ok.cycle {x : Session} {ending : Bool} (h : x.Ok ending) : x.cycle.Ok ending := by
  unfold Session.cycle
  split
  next hx =>
    obtain ⟨ha, -, hlt⟩ := hx
    have hov : x.overdue = true → False := fun ho => by
      obtain ⟨-, -, hle⟩ := h.overdue ho
      omega
    have hdet : x.attached = false → False := fun hn => nomatch ha.symm.trans hn
    split
    · exact ⟨h.limit_le, hlt, secondCycles_pos, h.auth, fun hn => (hdet hn).elim, h.ending, fun ho => (hov ho).elim⟩
    next hc =>
      exact ⟨h.limit_le, h.seconds_le, Nat.lt_of_not_le hc, h.auth, fun hn => (hdet hn).elim, h.ending, fun ho => (hov ho).elim⟩
  · exact h

/-- GET_STATUS clears the sticky reasons (R151). -/
theorem Session.Ok.read {x : Session} {ending : Bool} (h : x.Ok ending) :
    ({ x with auth := false, sessionEnded := false } : Session).Ok ending :=
  ⟨h.limit_le, h.seconds_le, h.cycles_lt, fun _ => rfl, h.detached, h.ending, h.overdue⟩

/-- An expiry waits under its mark at the limit (R138). -/
theorem Session.Ok.mark {x : Session} {ending : Bool} (h : x.Ok ending) (hx : x.atLimit) :
    ({ x with overdue := true } : Session).Ok ending :=
  ⟨h.limit_le, h.seconds_le, h.cycles_lt, h.auth, h.detached, h.ending, fun _ => hx⟩

/-- An attached port may be given the AUTH reason (R150). -/
theorem Session.Ok.notify {x : Session} {ending : Bool} (h : x.Ok ending) (ha : x.attached = true) :
    ({ x with auth := true } : Session).Ok ending :=
  ⟨h.limit_le, h.seconds_le, h.cycles_lt, fun hn => (nomatch ha.symm.trans hn), h.detached, h.ending, h.overdue⟩

/-- An attached port may replace its ATN mask (R130). -/
theorem Session.Ok.with_mask {x : Session} {ending : Bool} (h : x.Ok ending) (ha : x.attached = true) (mask : BitVec 3) :
    ({ x with mask } : Session).Ok ending :=
  ⟨h.limit_le, h.seconds_le, h.cycles_lt, h.auth, fun hn => (nomatch ha.symm.trans hn), h.ending, h.overdue⟩

/-! ## What happens to one port -/

/-- The subscription of a port asks of its session no more than whether it is attached. -/
theorem Membership.Ok.with_session {m : Membership} (h : m.Ok) {x : Session} (hx : x.Ok m.ending)
    (ha : x.attached = m.session.attached) : ({ m with session := x } : Membership).Ok := by
  refine ⟨hx, h.waiting_le, fun hw => ?_, fun hs => ?_, fun hn => h.attached (ha.symm.trans hn)⟩
  · exact ⟨(h.waiting hw).1, (h.waiting hw).2.imp_left ha.trans⟩
  · exact (h.subscribed hs).imp_left ha.trans

/-- ATTACH opens a session and sends a subscription to the log (R136). -/
theorem Membership.Ok.attach {m : Membership} (h : m.Ok) (ha : m.session.attached = false) (he : m.ending = false) {limit : Nat}
    (hl : limit ≤ 255) (mask : BitVec 3) :
    ({ m with session := m.session.attach limit mask, waiting := m.waiting + 1 } : Membership).Ok := by
  have hno : ¬ (m.session.attached = true ∨ m.ending = true) := by rw [ha, he]; nofun
  have hw : m.waiting = 0 := by_contra fun hw => hno (h.waiting hw).2
  have hs : m.subscribed = false := Bool.eq_false_iff.2 fun hs => hno (h.subscribed hs)
  exact ⟨⟨hl, Nat.zero_le _, secondCycles_pos, nofun, nofun, fun hx => (nomatch he.symm.trans hx), nofun⟩,
    by rw [hw], fun _ => ⟨hs, .inl rfl⟩, fun _ => .inl rfl, fun _ => .inr (Nat.succ_ne_zero _)⟩

/-- The subscription arrives at the log (R119). -/
theorem Membership.Ok.install {m : Membership} (h : m.Ok) (hw : m.waiting ≠ 0) :
    ({ m with waiting := m.waiting - 1, subscribed := true } : Membership).Ok := by
  have h1 := h.waiting_le
  have h0 : m.waiting - 1 = 0 := by omega
  exact ⟨h.session, by rw [h0]; exact Nat.zero_le 1, fun hx => absurd h0 hx, fun _ => (h.waiting hw).2, fun _ => .inl rfl⟩

/-- A session end begins (R140 steps 1 and 2). -/
theorem Membership.Ok.beginEnd {m : Membership} (h : m.Ok) :
    ({ m with session := { m.session with attached := false, auth := false, overdue := false }, ending := true } : Membership).Ok :=
  ⟨⟨h.session.limit_le, h.session.seconds_le, h.session.cycles_lt, fun _ => rfl, nofun, fun _ => rfl, nofun⟩,
    h.waiting_le, fun hw => ⟨(h.waiting hw).1, .inr rfl⟩, fun _ => .inr rfl, nofun⟩

/-- A session end completes, with no subscription of the port on its way (R132, R140 steps 4 to 7). -/
theorem Membership.Ok.finishEnd {m : Membership} (h : m.Ok) (he : m.ending = true) (hw : m.waiting = 0) (reason : EndReason) :
    ({ m with session := m.session.close reason, ending := false, subscribed := false } : Membership).Ok := by
  have ha := h.session.ending he
  have ho := h.session.not_overdue ha
  exact ⟨⟨Nat.zero_le _, Nat.le_refl _, secondCycles_pos, h.session.auth, fun _ _ => ⟨rfl, rfl, rfl⟩, nofun,
      fun hx => (nomatch ho.symm.trans hx)⟩,
    h.waiting_le, fun hx => absurd hw hx, nofun, fun hx => (nomatch ha.symm.trans hx)⟩

/-! ## Who may hold the authority or wait for it (R142) -/

/-- A port that may hold the authority: attached and with an idle limit. -/
def Session.Eligible (x : Session) : Prop := x.attached = true ∧ x.limit ≠ 0

/-- A port that holds the authority or waits for it. -/
def Sau.Involves (u : Sau) (p : Port) : Prop := u.holder = some p ∨ p ∈ u.queue

theorem Sau.AuthorityOk.eligible {u : Sau} (h : u.AuthorityOk) {p : Port} (hp : u.Involves p) : u.sessions[p].Eligible := by
  obtain ⟨hh, hq, -⟩ := h
  rcases hp with hp | hp
  · exact hh p hp
  · obtain ⟨ha, hl, -⟩ := hq p hp
    exact ⟨ha, hl⟩

/-- The authority stands while those who hold it or wait for it stay eligible. -/
theorem Sau.AuthorityOk.of_sessions {u v : Sau} (h : u.AuthorityOk) (hh : v.holder = u.holder) (hq : v.queue = u.queue)
    (he : ∀ p, u.Involves p → v.sessions[p].Eligible) : v.AuthorityOk := by
  obtain ⟨-, hqueue, hnodup, hlen, hempty⟩ := h
  unfold Sau.AuthorityOk
  rw [hh, hq]
  refine ⟨fun p hp => he p (.inl hp), fun p hp => ?_, hnodup, hlen, hempty⟩
  obtain ⟨-, -, hne⟩ := hqueue p hp
  exact ⟨(he p (.inr hp)).1, (he p (.inr hp)).2, hne⟩

/-- Of the four ports, those that wait while another holds the authority are at most three. -/
theorem length_queue_le {queue : List Port} {h : Port} (hn : queue.Nodup) (hh : h ∉ queue) : queue.length ≤ 3 :=
  Nat.le_of_lt_succ (List.Nodup.length_le_card (List.nodup_cons.2 ⟨hh, hn⟩))

/-- A detached port has no part in the authority. -/
theorem Sau.AuthorityOk.not_involves {u : Sau} (h : u.AuthorityOk) {p : Port} (ha : u.sessions[p].attached = false) :
    ¬ u.Involves p := fun hp => nomatch ha.symm.trans (h.eligible hp).1

/-- The session of a port that has no part in the authority may change with a session end in progress. -/
theorem Sau.AuthorityOk.set_session {u : Sau} (h : u.AuthorityOk) {p : Port} (hp : ¬ u.Involves p) (x : Session)
    (ending : Option Ending) : ({ u with sessions := u.sessions.set p.val x, ending } : Sau).AuthorityOk := by
  refine h.of_sessions rfl rfl fun q hq => ?_
  have hne : q ≠ p := fun e => hp (e ▸ hq)
  show (u.sessions.set p.val x)[q].Eligible
  rw [getElem_set_session, if_neg hne]
  exact h.eligible hq

/-- The authority changes hands: the laws of it hold, and no session changes but for the AUTH reason of attached ports. -/
structure Sau.Handed (u v : Sau) : Prop where
  authority : v.AuthorityOk
  ending : v.ending = u.ending
  session : ∀ p : Port, v.sessions[p] = u.sessions[p]
    ∨ u.sessions[p].attached = true ∧ v.sessions[p] = { u.sessions[p] with auth := true }

theorem Sau.setAuth_session (u : Sau) {p : Port} (hp : u.sessions[p].attached = true) (q : Port) :
    (u.setAuth p).sessions[q] = u.sessions[q]
      ∨ u.sessions[q].attached = true ∧ (u.setAuth p).sessions[q] = { u.sessions[q] with auth := true } := by
  have he : (u.setAuth p).sessions[q] = _ := getElem_set_session
  rw [he]
  split
  next hq =>
    subst hq
    exact .inr ⟨hp, rfl⟩
  · exact .inl rfl

theorem Sau.setAuth_eligible (u : Sau) (p q : Port) : (u.setAuth p).sessions[q].Eligible ↔ u.sessions[q].Eligible := by
  have he : (u.setAuth p).sessions[q] = _ := getElem_set_session
  rw [he]
  split
  next hq =>
    subst hq
    rfl
  · rfl

/-- AUTH of a port does not touch the authority. -/
theorem Sau.AuthorityOk.setAuth {u : Sau} (h : u.AuthorityOk) (p : Port) : (u.setAuth p).AuthorityOk :=
  h.of_sessions rfl rfl fun q hq => (u.setAuth_eligible p q).2 (h.eligible hq)

/-- A port leaves the claim queue. -/
theorem Sau.AuthorityOk.unqueue {u : Sau} (h : u.AuthorityOk) (p : Port) : (u.unqueue p).AuthorityOk := by
  obtain ⟨hh, hq, hnodup, hlen, hempty⟩ := h
  refine ⟨hh, fun q hm => hq q (List.mem_of_mem_filter hm), hnodup.filter _, (List.length_filter_le ..).trans hlen, fun hn => ?_⟩
  show u.queue.filter _ = []
  rw [hempty hn]
  rfl

theorem Sau.not_mem_unqueue (u : Sau) (p : Port) : p ∉ (u.unqueue p).queue := by simp [Sau.unqueue]

/-- The head of the queue takes over from the holder, or nobody does (R144). -/
theorem Sau.AuthorityOk.passOn {u : Sau} (h : u.AuthorityOk) {p : Port} (hp : u.holder = some p) (event : AuthEvent) :
    u.Handed (u.passOn p event).1 ∧ ¬ (u.passOn p event).1.Involves p := by
  obtain ⟨-, hq, hnodup, hlen, -⟩ := id h
  unfold Sau.passOn
  split
  next hnil =>
    refine ⟨⟨⟨nofun, ?_, ?_, ?_, fun _ => hnil⟩, rfl, fun _ => .inl rfl⟩, ?_⟩
    · simp [hnil]
    · simp [hnil]
    · simp [hnil]
    · simp [Sau.Involves, hnil]
  next x rest hcons =>
    rw [hcons] at hq hnodup hlen
    obtain ⟨hx, hrest⟩ := List.nodup_cons.1 hnodup
    obtain ⟨hxa, hxl, hxp⟩ := hq x (List.mem_cons_self ..)
    have hnext : ({ u with holder := some x, queue := rest } : Sau).AuthorityOk := by
      refine ⟨fun y hy => Option.some.inj hy ▸ ⟨hxa, hxl⟩, fun q hm => ?_, hrest, Nat.le_of_succ_le hlen,
        fun hn => (Option.some_ne_none _ hn).elim⟩
      obtain ⟨hqa, hql, -⟩ := hq q (List.mem_cons_of_mem _ hm)
      exact ⟨hqa, hql, fun he => hx (Option.some.inj he ▸ hm)⟩
    refine ⟨⟨hnext.setAuth x, rfl, Sau.setAuth_session _ hxa⟩, ?_⟩
    · rintro (he | hm)
      · exact hxp (hp.trans he.symm)
      · obtain ⟨-, -, hne⟩ := hq p (List.mem_cons_of_mem _ hm)
        exact hne hp

/-- A port whose session ends neither holds the authority nor waits for it any more (R140 step 2). -/
theorem Sau.AuthorityOk.leave {u : Sau} (h : u.AuthorityOk) (p : Port) (reason : EndReason) :
    u.Handed (u.leave p reason).1 ∧ ¬ (u.leave p reason).1.Involves p := by
  unfold Sau.leave
  split
  next hp => exact h.passOn hp _
  next hp => exact ⟨⟨h.unqueue p, rfl, fun _ => .inl rfl⟩, fun hx => hx.elim hp (u.not_mem_unqueue p)⟩

/-- The senior port takes the authority over, from a holder or from nobody (R146). -/
theorem Sau.AuthorityOk.takeOver {u : Sau} (h : u.AuthorityOk) {p : Port} (hp : u.sessions[p].Eligible) :
    u.Handed (u.takeOver p).1 := by
  obtain ⟨hh, -, -, -, hempty⟩ := id h
  unfold Sau.takeOver
  split
  next hn =>
    refine ⟨⟨fun y hy => Option.some.inj hy ▸ hp, ?_, ?_, ?_, nofun⟩, rfl, fun _ => .inl rfl⟩
    · simp [hempty hn]
    · simp [hempty hn]
    · simp [hempty hn]
  next q hq =>
    split
    · exact ⟨h, rfl, fun _ => .inl rfl⟩
    · obtain ⟨-, hqueue, hnodup, hlen, -⟩ := h.unqueue p
      have hnext : ({ u.unqueue p with holder := some p } : Sau).AuthorityOk := by
        refine ⟨fun y hy => Option.some.inj hy ▸ hp, fun x hx => ?_, hnodup, hlen, fun hn => (Option.some_ne_none _ hn).elim⟩
        obtain ⟨hxa, hxl, -⟩ := hqueue x hx
        exact ⟨hxa, hxl, fun he => u.not_mem_unqueue p (Option.some.inj he ▸ hx)⟩
      exact ⟨hnext.setAuth q, rfl, Sau.setAuth_session _ (hh q hq).1⟩

/-- A CLAIM that finds no holder is granted (R143). -/
theorem Sau.AuthorityOk.grant {u : Sau} (h : u.AuthorityOk) {p : Port} (hp : u.sessions[p].Eligible) (hn : u.holder = none) :
    u.Handed { u with holder := some p } := by
  have ht := h.takeOver hp
  unfold Sau.takeOver at ht
  rw [hn] at ht
  exact ht

/-- A CLAIM that finds another holder joins the queue (R143). -/
theorem Sau.AuthorityOk.enqueue {u : Sau} (h : u.AuthorityOk) {p x : Port} (hp : u.sessions[p].Eligible) (hx : u.holder = some x)
    (hne : x ≠ p) (hq : p ∉ u.queue) : u.Handed { u with queue := u.queue ++ [p] } := by
  obtain ⟨hh, hqueue, hnodup, -⟩ := h
  have hnd : (u.queue ++ [p]).Nodup := by
    refine hnodup.append (List.nodup_singleton p) ?_
    simpa using hq
  have hmem : ∀ q ∈ u.queue ++ [p], u.sessions[q].attached = true ∧ u.sessions[q].limit ≠ 0 ∧ u.holder ≠ some q := by
    intro q hm
    rcases List.mem_append.1 hm with hm | hm
    · exact hqueue q hm
    · obtain rfl := List.mem_singleton.1 hm
      exact ⟨hp.1, hp.2, fun he => hne (Option.some.inj (hx.symm.trans he))⟩
  have hout : x ∉ u.queue ++ [p] := fun hm => by
    obtain ⟨-, -, hheld⟩ := hmem x hm
    exact hheld hx
  exact ⟨⟨hh, hmem, hnd, length_queue_le hnd hout, fun hn => (nomatch hx.symm.trans hn)⟩, rfl, fun _ => .inl rfl⟩

end Sys2Proof.Machine
end

section
/-! The events of the log, the sessions and the authority keep their laws (O57). -/

namespace Sys2Proof.Machine

/-! ## One session (R138, R150, R151) -/

theorem State.withSession_membership (s : State) (p : Port) (f : Session → Session) (q : Port) :
    (s.withSession p f).roster.membership q
      = if q = p then { s.roster.membership p with session := f s.sau.sessions[p] } else s.roster.membership q := by
  unfold Roster.membership
  show Membership.mk (s.sau.sessions.set p.val (f s.sau.sessions[p]))[q] _ _ _ = _
  rw [getElem_set_session]
  split
  next h =>
    subst h
    rfl
  · rfl

/-- A session changes, but neither whether it is attached nor its idle limit. -/
theorem State.withSession_rosterKept {s : State} {p : Port} {f : Session → Session}
    (ha : (f s.sau.sessions[p]).attached = s.sau.sessions[p].attached) (hl : (f s.sau.sessions[p]).limit = s.sau.sessions[p].limit)
    (hf : ∀ ending, s.sau.sessions[p].Ok ending → (f s.sau.sessions[p]).Ok ending) : s.RosterKept (s.withSession p f) := by
  refine fun hs => ⟨hs.log, hs.authority.of_sessions rfl rfl fun q hq => ?_, fun q => ?_⟩
  · show (s.sau.sessions.set p.val (f s.sau.sessions[p]))[q].Eligible
    have he : s.sau.sessions[q].Eligible := hs.authority.eligible hq
    rw [getElem_set_session]
    split
    next h =>
      subst h
      exact ⟨ha.trans he.1, hl.trans_ne he.2⟩
    · exact he
  · rw [State.withSession_membership]
    split
    · exact (hs.member p).with_session (hf _ (hs.member p).session) ha
    · exact hs.member q

theorem Session.restart_limit (ses : Session) : ses.restart.limit = ses.limit := by
  unfold Session.restart
  split <;> rfl

theorem Session.cycle_limit (ses : Session) : ses.cycle.limit = ses.limit := by
  unfold Session.cycle
  split
  · split <;> rfl
  · rfl

theorem State.validFrameReport_rosterKept (s : State) (p : Port) : s.RosterKept (s.validFrameReport p) := by
  unfold State.validFrameReport
  split
  · refine .trans (t := { s with mail := { s.mail with reports := s.mail.reports.eraseP fun r => r.port == p } }) (.of_eq rfl) ?_
    exact State.withSession_rosterKept (Session.restart_attached _) (Session.restart_limit _) fun _ => Session.Ok.restart
  · exact .refl s

/-- One internal cycle of every idle timer (R138). -/
theorem State.countCycle_rosterKept (s : State) : s.RosterKept s.countCycle := by
  have hses (q : Port) : s.countCycle.sau.sessions[q] = s.sau.sessions[q].cycle := by simp [State.countCycle]
  refine fun hs => ⟨hs.log, hs.authority.of_sessions rfl rfl fun q hq => ?_, fun q => ?_⟩
  · have he : s.sau.sessions[q].Eligible := hs.authority.eligible hq
    show s.countCycle.sau.sessions[q].Eligible
    rw [hses]
    exact ⟨(Session.cycle_attached _).trans he.1, (Session.cycle_limit _).trans_ne he.2⟩
  · have hm : s.countCycle.roster.membership q = { s.roster.membership q with session := s.sau.sessions[q].cycle } := by
      rw [← hses]
      rfl
    rw [hm]
    exact (hs.member q).with_session (hs.member q).session.cycle (Session.cycle_attached _)

theorem State.getStatus_rosterKept (s : State) (p : Port) : s.RosterKept (s.getStatus p).state :=
  State.withSession_rosterKept rfl rfl fun _ => Session.Ok.read

/-! ## The log (R117 to R130) -/

/-- An event of the log that leaves every subscription. -/
theorem State.withElu_rosterKept {s : State} {e : Elu} (hs : e.subs = s.elu.subs) (he : s.elu.Lawful → e.Lawful) :
    s.RosterKept { s with elu := e } := by
  refine fun h => ⟨he h.log, h.authority, fun p => ?_⟩
  have hm : ({ s with elu := e } : State).roster.membership p = s.roster.membership p := by
    unfold Roster.membership State.roster
    rw [hs]
  rw [hm]
  exact h.member p

theorem Elu.takeRecord_subs (e : Elu) (r : Posted) : (e.takeRecord r).subs = e.subs := by
  rcases e.takeRecord_cases r with ⟨-, eq⟩ | ⟨-, -, eq⟩ | ⟨-, -, -, eq⟩ | ⟨-, -, -, _, _, -, eq⟩ <;> rw [eq]

theorem State.recordTake_rosterKept (s : State) (b : Block) : s.RosterKept (s.recordTake b) := by
  rcases s.recordTake_cases b with e | ⟨r, rest, -, -, e⟩ <;> rw [e]
  · exact .refl s
  · exact (State.withElu_rosterKept (s.elu.takeRecord_subs r) fun h => h.takeRecord r).trans (.of_eq rfl)

theorem State.ackLog_rosterKept (s : State) (p : Port) (l : List Byte) : s.RosterKept (s.ackLog p l).state := by
  refine State.ifAttached_state (.refl s) ?_
  split
  · exact State.withElu_rosterKept (Elu.acknowledge_subs ..) fun h => h.acknowledge ..
  · exact .refl s

theorem State.logPolicy_rosterKept (s : State) (p : Port) (l : List Byte) : s.RosterKept (s.logPolicy p l).state :=
  State.ifHolder_state (.refl s) (State.ifInRange_state (.refl s) fun _ _ => State.withElu_rosterKept rfl fun h =>
    ⟨h.length_le, h.seq_pos, h.seq_le, h.record, h.dropped, h.lost⟩)

/-- What an install is taken out of. -/
theorem takeInstall_eq_some {p : Port} {l rest : List Install} {sub : Subscription} (h : takeInstall p l = some (sub, rest)) :
    ∃ before after, l = before ++ { port := p, sub } :: after ∧ rest = before ++ after := by
  induction l generalizing rest with
  | nil => cases h
  | cons i l ih =>
    unfold takeInstall at h
    split at h
    next hp =>
      cases h
      exact ⟨[], l, by rw [← hp]; rfl, rfl⟩
    · obtain ⟨⟨sub', m⟩, hm, he⟩ := Option.map_eq_some_iff.1 h
      cases he
      obtain ⟨before, after, rfl, rfl⟩ := ih hm
      exact ⟨i :: before, after, rfl, rfl⟩

/-- The subscription of one port arrives at the log (R119). -/
theorem State.subscriptionInstall_rosterKept (s : State) (p : Port) : s.RosterKept (s.subscriptionInstall p) := by
  unfold State.subscriptionInstall
  split
  · exact .refl s
  · split
    · exact .refl s
    next sub rest hm =>
      obtain ⟨before, after, hi, rfl⟩ := takeInstall_eq_some hm
      refine fun hs => ⟨hs.log.install p sub, hs.authority, fun q => ?_⟩
      unfold Roster.membership State.roster
      dsimp only
      rw [getElem_set_fin]
      have hq := hs.member q
      unfold Roster.membership State.roster at hq
      rw [hi] at hq
      by_cases h : q = p
      · subst h
        rw [if_pos rfl]
        have hn : ((before ++ { port := q, sub } :: after).filter fun i => i.port == q).length
            = ((before ++ after).filter fun i => i.port == q).length + 1 := by simp [Nat.add_assoc]
        rw [hn] at hq
        exact hq.install (Nat.succ_ne_zero _)
      · have hne : (p == q) = false := beq_eq_false_iff_ne.2 (Ne.symm h)
        rw [if_neg h]
        have hn : ((before ++ { port := p, sub } :: after).filter fun i => i.port == q) = (before ++ after).filter fun i => i.port == q := by
          simp [hne]
        rw [hn] at hq
        exact hq

/-- SUBSCRIBE is taken after the install of the port's own subscription, so it replaces one (R130, log 26). -/
theorem State.subscribe_rosterKept {s : State} {p : Port} (hw : s.installWaits p = false) (l : List Byte) :
    s.RosterKept (s.subscribe p l).state := by
  unfold State.subscribe State.ifAttached
  split
  next ha =>
    refine State.ifInRange_state (.refl s) fun (sub, mask) _ => .trans (t := { s with elu := { s.elu with subs := s.elu.subs.set p.val (some sub) } }) ?_
      (State.withSession_rosterKept rfl rfl fun _ h => h.with_mask ha mask)
    refine fun hs => ⟨hs.log.subscribe p sub, hs.authority, fun q => ?_⟩
    have hm : ({ s with elu := { s.elu with subs := s.elu.subs.set p.val (some sub) } } : State).roster.membership q
        = s.roster.membership q := by
      unfold Roster.membership State.roster
      dsimp only
      rw [getElem_set_fin]
      split
      next h =>
        subst h
        have hw0 : ¬ (s.roster.membership q).waiting ≠ 0 := fun hx => Bool.false_ne_true (hw.symm.trans ((s.installWaits_iff q).2 hx))
        have hsub : s.elu.subs[q].isSome = true := ((hs.member q).attached ha).resolve_right hw0
        rw [hsub]
        rfl
      · rfl
    rw [hm]
    exact hs.member q
  · exact .refl s

/-! ## The authority (R143 to R146) -/

/-- A session with the AUTH reason given to it where it is attached. -/
theorem Membership.Ok.handed {m : Membership} (h : m.Ok) {x : Session}
    (hx : x = m.session ∨ m.session.attached = true ∧ x = { m.session with auth := true }) :
    ({ m with session := x } : Membership).Ok := by
  rcases hx with rfl | ⟨ha, rfl⟩
  · exact h
  · exact h.with_session (h.session.notify ha) rfl

theorem State.withSau_member {s : State} {u : Sau} (hu : s.sau.Handed u) (hs : s.roster.Ok) (q : Port) :
    (({ s with sau := u } : State).roster.membership q).Ok := by
  have hm : ({ s with sau := u } : State).roster.membership q = { s.roster.membership q with session := u.sessions[q] } := by
    unfold Roster.membership State.roster
    rw [hu.ending]
  rw [hm]
  exact (hs.member q).handed (hu.session q)

theorem State.withSau_rosterKept {s : State} {u : Sau} (hu : s.sau.AuthorityOk → s.sau.Handed u) :
    s.RosterKept { s with sau := u } :=
  fun hs => ⟨hs.log, (hu hs.authority).authority, State.withSau_member (hu hs.authority) hs⟩

theorem State.postAll_roster (s : State) (b : Block) (t : Time) (ys : List Body) : (s.postAll b t ys).roster = s.roster := by
  rw [State.postAll_eq]
  rfl

/-- What holds of the state as it is and, where the port is attached, of the state a request leaves holds behind the check. -/
theorem State.ifAttached_state_of {P : State → Prop} {s : State} {p : Port} {k : Reply} (hs : P s)
    (hk : s.sau.sessions[p].attached = true → P k.state) : P (s.ifAttached p k).state := by
  unfold State.ifAttached
  split
  next ha => exact hk ha
  · exact hs

theorem State.claim_rosterKept (s : State) (p : Port) : s.RosterKept (s.claim p).state := by
  refine State.ifAttached_state_of (.refl s) fun ha => ?_
  split
  · exact .refl s
  next hl =>
    split
    next hn =>
      have h : s.RosterKept { s with sau := { s.sau with holder := some p } } :=
        State.withSau_rosterKept fun h => h.grant ⟨ha, hl⟩ hn
      exact h.trans (.of_eq rfl)
    next x hx =>
      split
      · exact .refl s
      next hne =>
        split
        · exact .refl s
        next hq => exact State.withSau_rosterKept fun h => h.enqueue ⟨ha, hl⟩ hx hne hq

theorem State.release_rosterKept (s : State) (p : Port) : s.RosterKept (s.release p).state := by
  refine State.ifAttached_state (.refl s) ?_
  split
  next hp =>
    have h : s.RosterKept { s with sau := (s.sau.passOn p .released).1 } :=
      State.withSau_rosterKept fun h => (h.passOn hp .released).1
    exact h.trans (.of_eq (State.postAll_roster ..))
  · split
    · exact State.withSau_rosterKept fun h => ⟨h.unqueue p, rfl, fun _ => .inl rfl⟩
    · exact .refl s

theorem State.take_rosterKept (s : State) (p : Port) : s.RosterKept (s.take p).state := by
  refine State.ifAttached_state_of (.refl s) fun ha => ?_
  split
  · exact .refl s
  · split
    · exact .refl s
    next hl =>
      have h : s.RosterKept { s with sau := (s.sau.takeOver p).1 } :=
        State.withSau_rosterKept fun h => h.takeOver ⟨ha, hl⟩
      exact h.trans (.of_eq (State.postAll_roster ..))

/-! ## Sessions that open and end (R136, R140) -/

theorem Roster.ending_of_none {r : Roster} (h : r.sau.ending = none) (p : Port) : (r.membership p).ending = false := by
  unfold Roster.membership
  rw [h]
  rfl

/-- A session that opens has no part in the authority yet, and sends its subscription to the log (R136). -/
theorem Roster.Ok.attach {r : Roster} (h : r.Ok) {p : Port} (ha : r.sau.sessions[p].attached = false) (he : r.sau.ending = none)
    {limit : Nat} (hl : limit ≤ 255) (mask : BitVec 3) (sub : Subscription) :
    ({ r with
      sau := { r.sau with sessions := r.sau.sessions.set p.val (r.sau.sessions[p].attach limit mask) }
      installs := r.installs ++ [{ port := p, sub }] } : Roster).Ok := by
  refine ⟨h.log, h.authority.set_session (h.authority.not_involves ha) _ _, fun q => ?_⟩
  have hq := h.member q
  unfold Roster.membership at hq ⊢
  dsimp only
  rw [getElem_set_session, List.filter_append, List.length_append]
  split
  next e =>
    subst e
    simp only [List.filter_singleton, beq_self_eq_true, cond_true]
    exact hq.attach ha (Roster.ending_of_none he q) hl mask
  next e =>
    have hne : (p == q) = false := beq_eq_false_iff_ne.2 (Ne.symm e)
    simp only [List.filter_singleton, hne, cond_false]
    exact hq

/-- A session end begins with the port out of the authority (R140 steps 1 and 2). -/
theorem Roster.Ok.beginEnd {r : Roster} (h : r.Ok) {u : Sau} (hu : r.sau.Handed u) {p : Port} (hp : ¬ u.Involves p)
    (he : r.sau.ending = none) {e : Ending} (hep : e.port = p) :
    ({ r with sau := { u with
      sessions := u.sessions.set p.val { u.sessions[p] with attached := false, auth := false, overdue := false }
      ending := some e } } : Roster).Ok := by
  refine ⟨h.log, hu.authority.set_session hp _ _, fun q => ?_⟩
  have hq := (h.member q).handed (hu.session q)
  have hend := Roster.ending_of_none he q
  unfold Roster.membership at hq hend ⊢
  dsimp only at hend ⊢
  rw [hend] at hq
  rw [getElem_set_session, Option.any_some, hep]
  split
  next e =>
    subst e
    rw [beq_self_eq_true]
    exact hq.beginEnd
  next e =>
    rw [beq_eq_false_iff_ne.2 (Ne.symm e)]
    exact hq

/-- A session end completes with the port out of the log (R132, R140 steps 4 to 7). -/
theorem Roster.Ok.finishEnd {r : Roster} (h : r.Ok) {e : Ending} (he : r.sau.ending = some e)
    (hw : (r.membership e.port).waiting = 0) :
    ({ r with
      elu := r.elu.remove e.port
      sau := { r.sau with
        sessions := r.sau.sessions.set e.port.val (r.sau.sessions[e.port].close e.reason), ending := none } } : Roster).Ok := by
  have hend : (r.membership e.port).ending = true := by
    unfold Roster.membership
    rw [he]
    exact beq_self_eq_true e.port
  have ha : r.sau.sessions[e.port].attached = false := (h.member e.port).session.ending hend
  refine ⟨h.log.remove e.port, h.authority.set_session (h.authority.not_involves ha) _ _, fun q => ?_⟩
  have hq := h.member q
  show Membership.Ok {
    session := (r.sau.sessions.set e.port.val (r.sau.sessions[e.port].close e.reason))[q], ending := false
    waiting := _, subscribed := (r.elu.subs.set e.port.val none)[q].isSome }
  rw [getElem_set_session, getElem_set_fin]
  split
  next hqe =>
    subst hqe
    exact hq.finishEnd hend hw e.reason
  next hqe =>
    unfold Roster.membership at hq
    rw [he, Option.any_some, beq_eq_false_iff_ne.2 (Ne.symm hqe)] at hq
    exact hq

theorem State.attach_rosterKept {s : State} (he : s.sau.ending = none) (p : Port) (l : List Byte) :
    s.RosterKept (s.attach p l).state := by
  unfold State.attach
  split
  · exact .refl s
  next hna =>
    have ha : s.sau.sessions[p].attached = false := Bool.not_eq_true _ ▸ hna
    have hlimit : fieldNat l 0 1 ≤ 255 := Nat.le_of_lt_succ (fieldNat_lt l 0 1)
    exact State.ifInRange_state (.refl s) fun (sub, mask) _ hs => hs.attach ha he hlimit mask sub

theorem State.beginEnd_rosterKept {s : State} (he : s.sau.ending = none) (p : Port) (reason : EndReason) :
    s.RosterKept (s.beginEnd p reason) := by
  intro hs
  obtain ⟨hu, hp⟩ := hs.authority.leave p reason
  exact hs.beginEnd hu hp he rfl

theorem State.idleExpiry_rosterKept (s : State) (p : Port) : s.RosterKept (s.idleExpiry p) := by
  unfold State.idleExpiry
  split
  next h => exact State.beginEnd_rosterKept (Option.isNone_iff_eq_none.1 h.1) p .expired
  · exact .refl s

theorem State.detach_rosterKept {s : State} (he : s.sau.ending = none) (p : Port) : s.RosterKept (s.detach p) := by
  unfold State.detach
  split
  · exact (State.beginEnd_rosterKept he p .detached).trans (.of_eq rfl)
  · exact .of_eq rfl

/-- The SCU's part of a session end hands it on with the same port (R140 step 3). -/
theorem State.scuSessionEnd_rosterKept (s : State) (p : Port) : s.RosterKept (s.scuSessionEnd p) := by
  unfold State.scuSessionEnd
  split
  · exact .refl s
  next e he =>
    split
    · refine fun hs => ⟨hs.log, hs.authority, fun q => ?_⟩
      have hq := hs.member q
      unfold Roster.membership State.roster at hq
      rw [he] at hq
      exact hq
    · exact .refl s

theorem State.finishEnd_roster (s : State) (e : Ending) : (s.finishEnd e).roster = { s.roster with
    sau := { s.sau with sessions := s.sau.sessions.set e.port.val (s.sau.sessions[e.port].close e.reason), ending := none } } := by
  rw [State.finishEnd_eq]
  cases e.reason <;> rfl

theorem State.eluSessionEnd_rosterKept (s : State) (p : Port) : s.RosterKept (s.eluSessionEnd p) := by
  rcases s.eluSessionEnd_cases p with eq | ⟨e, he, rfl, -, hw, -, eq⟩
  · rw [eq]
    exact .refl s
  intro hs
  have hw0 : (s.roster.membership e.port).waiting = 0 := by_contra fun hx =>
    Bool.false_ne_true (hw.symm.trans ((s.installWaits_iff e.port).2 hx))
  rw [eq, State.finishEnd_roster]
  exact hs.finishEnd he hw0

end Sys2Proof.Machine
end

section
/-! Every step keeps the laws of the log, the sessions and the authority (O57). -/

namespace Sys2Proof.Machine

/-! ## Events that leave the log, the sessions and the authority -/

theorem State.Aside.roster_eq {s t : State} (h : s.Aside t) : t.roster = s.roster := by
  obtain ⟨_, _, _, _, _, rfl, -, -, -, -, hi, -⟩ := h
  unfold State.roster
  rw [← hi]

theorem State.Aside.rosterKept {s t : State} (h : s.Aside t) : s.RosterKept t := .of_eq h.roster_eq

theorem State.fire_roster (s : State) (i : Index) (k : Nat) (t : Time) (cause : Cause) (links : Links) :
    (s.fire i k t cause links).roster = s.roster := by
  rw [State.fire_after]
  rfl

theorem State.treat_roster (s : State) (i : Index) (t : Time) (cause : Cause) (links : Links) :
    (s.treat i t cause links).roster = s.roster := by
  rw [State.treat_after]
  rfl

theorem State.timeAdvance_roster (s : State) : s.timeAdvance.roster = s.roster := by
  unfold State.timeAdvance
  split
  · exact State.foldl_keeps (g := State.roster) (fun s i => s.fire_roster ..) _ _
  · rfl

theorem State.stepHandover_roster (s : State) : s.stepHandover.roster = s.roster := by
  unfold State.stepHandover
  split
  · dsimp only
    split
    · exact State.foldl_keeps (g := State.roster) (fun s i => s.treat_roster ..) _ _
    · rfl
  · rfl

theorem State.scuTake_roster (s : State) (h : TimeHandover) : (s.scuTake h).roster = s.roster := by
  cases h with
  | advance => exact s.timeAdvance_roster
  | step => exact s.stepHandover_roster

theorem State.primeEntry_roster (s : State) (t : Time) (k : Links) (i : Index) : (s.primeEntry t k i).roster = s.roster := by
  unfold State.primeEntry
  dsimp only
  split
  · rfl
  · split
    · rfl
    · split
      · rw [State.treat_roster]
        rfl
      · split <;> rfl

theorem State.primingHandover_roster (s : State) (n : Line) : (s.primingHandover n).roster = s.roster := by
  unfold State.primingHandover
  split
  · rfl
  · split
    · exact State.foldl_keeps (g := State.roster) (fun s i => s.primeEntry_roster ..) _ _
    · rfl

theorem State.lineOperation_roster (s : State) : s.lineOperation.roster = s.roster := by
  unfold State.lineOperation
  split <;> rfl

theorem State.pulseEnd_roster (s : State) (n : Line) : (s.pulseEnd n).roster = s.roster := by
  unfold State.pulseEnd
  split <;> rfl

theorem State.frameBegin_roster (s : State) (p : Port) : (s.frameBegin p).roster = s.roster := by
  unfold State.frameBegin
  dsimp only
  split <;> rfl

theorem State.frameEnd_roster (s : State) (p : Port) (l : List Bool) : (s.frameEnd p l).roster = s.roster := by
  unfold State.frameEnd
  split
  · rfl
  · dsimp only
    split <;> rfl

theorem State.tickOf_roster (s : State) (src : Source) : (s.tickOf src).roster = s.roster := by
  rw [State.tickOf_eq]
  rfl

/-! ## Requests -/

section
variable {s : State} {p : Port} {c : Code} {f : List Byte → Reply}

/-- The answer of a request goes to its slot (R160). -/
theorem State.serve_rosterKept (h : ∀ l, s.RosterKept (f l).state) : s.RosterKept (s.serve p c f) := by
  rcases s.serve_cases p c f with ⟨-, e⟩ | ⟨l, -, e⟩ <;> rw [e]
  · exact .refl s
  · exact (h l).trans (.of_eq rfl)

theorem State.serveSau_rosterKept (h : s.sau.ending = none → ∀ l, s.RosterKept (f l).state) : s.RosterKept (s.serveSau p c f) := by
  cases he : s.sau.ending with
  | some e =>
    rw [State.serveSau_of_ending he]
    exact .refl s
  | none =>
    rw [State.serveSau_of_idle he]
    exact State.serve_rosterKept (h he)

/-- What holds of the state as it is and of what a request does to each entry holds behind the checks of its handle. -/
theorem State.withHandle_state {P : State → Prop} {l : List Byte} {k : Index → Reply} (hs : P s) (hk : ∀ i, P (k i).state) :
    P (s.withHandle p l k).state := by
  refine State.ifAttached_state hs (State.ifInRange_state hs fun i _ => ?_)
  dsimp only
  split
  · exact hs
  · split
    · split
      · exact hk i
      · exact hs
    · split
      · exact hk i
      · exact hs

end

theorem State.stepTime_rosterKept (s : State) (p : Port) (l : List Byte) : s.RosterKept (s.stepTime p l).state := by
  refine State.ifHolder_state (.refl s) ?_
  split
  · exact State.ifInRange_state (.refl s) fun _ _ => .of_eq rfl
  · exact .refl s

theorem State.slewTime_rosterKept (s : State) (p : Port) (l : List Byte) : s.RosterKept (s.slewTime p l).state := by
  refine State.ifHolder_state (.refl s) (State.ifInRange_state (.refl s) fun (offset, spacing) _ => ?_)
  dsimp only
  split <;> exact .of_eq rfl

theorem State.armAt_rosterKept (s : State) (i : Index) (w : Option Port) (due : Time) (c : Creation) :
    s.RosterKept (s.armAt i w due c).state := by
  unfold State.armAt
  dsimp only
  split
  · exact .of_eq rfl
  · split
    · split
      · exact .of_eq (State.fire_roster ..)
      · exact .refl s
    · split <;> exact .of_eq rfl

theorem State.holdAt_rosterKept (s : State) (i : Index) : s.RosterKept (s.holdAt i).state := by
  unfold State.holdAt
  dsimp only
  split <;> exact .of_eq rfl

theorem State.resumeAt_rosterKept (s : State) (l : List Byte) (i : Index) : s.RosterKept (s.resumeAt l i).state := by
  unfold State.resumeAt
  dsimp only
  split
  · refine State.ifInRange_state (.refl s) fun due _ => ?_
    dsimp only
    split
    · exact .of_eq (State.treat_roster ..)
    · exact .of_eq rfl
  · exact .refl s

theorem State.bindLine_rosterKept (s : State) (p : Port) (l : List Byte) : s.RosterKept (s.bindLine p l).state := by
  refine State.ifHolder_state (.refl s) (State.ifInRange_state (.refl s) fun (n, binding) _ => ?_)
  dsimp only
  split <;> exact .of_eq rfl

theorem State.driveLine_rosterKept (s : State) (p : Port) (l : List Byte) : s.RosterKept (s.driveLine p l).state := by
  refine State.ifAttached_state (.refl s) (State.ifInRange_state (.refl s) fun a _ => ?_)
  dsimp only
  split <;> exact .of_eq rfl

/-! ## The tick (R138) -/

theorem State.catchUp_roster (s : State) : s.catchUp.roster = s.roster := by
  have h1 : s.scuCatchUp.roster = s.roster := State.foldl_keeps (g := State.roster) State.scuTake_roster _ _
  have h2 : s.scuCatchUp.touCatchUp.roster = s.scuCatchUp.roster :=
    State.foldl_keeps (g := State.roster) (fun s _ => s.lineOperation_roster) _ _
  have h3 : s.scuCatchUp.touCatchUp.Aside s.scuCatchUp.touCatchUp.ecuCatchUp := State.foldl_aside State.ecuTake_aside _ _
  exact h3.roster_eq.trans (h2.trans h1)

theorem State.advanceEnd_rosterKept (s : State) : s.RosterKept s.advanceEnd := by
  rcases s.advanceEnd_cases with ⟨-, e⟩ | ⟨_, -, e⟩ <;> rw [e]
  · exact .refl s
  · exact (s.scuSessionEnd_rosterKept _).trans (State.eluSessionEnd_rosterKept _ _)

theorem State.scuSessionEnd_sessions (s : State) (p : Port) : (s.scuSessionEnd p).sau.sessions = s.sau.sessions := by
  unfold State.scuSessionEnd
  split
  · rfl
  · split <;> rfl

/-- A session end that the ELU has not completed has left every session as it was (R140). -/
theorem State.advanceEnd_sessions {s : State} (h : s.advanceEnd.sau.ending ≠ none) : s.advanceEnd.sau.sessions = s.sau.sessions := by
  rcases s.advanceEnd_cases with ⟨-, e⟩ | ⟨e', -, e⟩ <;> rw [e] at h ⊢
  rcases (s.scuSessionEnd e'.port).eluSessionEnd_cases e'.port with eq | ⟨e'', -, -, -, -, -, eq⟩ <;> rw [eq] at h ⊢
  · exact s.scuSessionEnd_sessions _
  · exact absurd (congrArg (fun r => r.sau.ending) (State.finishEnd_roster _ e'')) h

theorem State.expireDue_rosterKept (s : State) (p : Port) : s.RosterKept (s.expireDue p) := by
  rcases s.expireDue_cases p with ⟨-, e⟩ | ⟨-, -, e⟩ | ⟨ha, he, e⟩ <;> rw [e]
  · exact .refl s
  · exact s.advanceEnd_rosterKept.trans (State.idleExpiry_rosterKept _ p)
  · have hses := State.advanceEnd_sessions (Option.isSome_iff_ne_none.1 he)
    exact s.advanceEnd_rosterKept.trans (State.withSession_rosterKept rfl rfl fun _ h => h.mark (hses ▸ ha))

theorem State.settleSessions_rosterKept (s : State) : s.RosterKept s.settleSessions := by
  have h : s.RosterKept s.takeReports :=
    State.foldl_rosterKept (fun s (r : Report) => s.validFrameReport_rosterKept r.port) _ _
  exact h.trans (State.foldl_rosterKept State.expireDue_rosterKept _ _)

theorem State.takeTick_rosterKept (s : State) : s.RosterKept s.takeTick := by
  unfold State.takeTick
  split
  · exact .of_eq (State.tickOf_roster ..)
  · exact (State.RosterKept.of_eq (s.tickOf_roster .internal)).trans (State.countCycle_rosterKept _)

theorem State.tick_rosterKept (s : State) : s.RosterKept s.tick :=
  (((State.RosterKept.of_eq s.catchUp_roster).trans (State.settleSessions_rosterKept _)).trans
    (State.tickEdge_aside _).rosterKept).trans (State.takeTick_rosterKept _)

theorem State.internalCycle_rosterKept (s : State) : s.RosterKept s.internalCycle := by
  unfold State.internalCycle
  split
  · exact s.tick_rosterKept
  · exact s.countCycle_rosterKept

/-! ## Power-on and RST# (R135, R145, R152) -/

theorem State.reset_rosterOk : State.reset.roster.Ok := (State.sessionsOk_iff _).1 State.reset_sessionsOk

/-- The device reset leaves the seq of the log and the senior port, and of the rest its reset values. -/
theorem State.resetAssert_rosterKept (s : State) : s.RosterKept s.resetAssert := by
  unfold State.resetAssert
  split
  · exact .refl s
  refine s.beforeReset_aside.rosterKept.trans ?_
  generalize s.stepsBeforeReset.closeEnding = u
  exact fun hu => ⟨hu.log.reset, State.reset_rosterOk.authority, State.reset_rosterOk.member⟩

theorem State.resetRelease_rosterKept (s : State) (sen1 sen0 : Level) : s.RosterKept (s.resetRelease sen1 sen0) := by
  unfold State.resetRelease
  split
  · exact fun hs => ⟨hs.log, hs.authority, hs.member⟩
  · exact .refl s

/-! ## Every command -/

/-- Every command answers a next state (log 30) and keeps the laws of the log, the sessions and the authority. -/
theorem exec_rosterKept (c : Instr) (s : State) : ∃ t, exec c s = .next t ∧ s.RosterKept t := by
  have same {t : State} (h : t.roster = s.roster) : ∃ t', Host.Outcome.next (φ := Fault) (ρ := Refusal) t = .next t'
      ∧ s.RosterKept t' := ⟨t, rfl, .of_eq h⟩
  have aside {t : State} (h : s.Aside t) : ∃ t', Host.Outcome.next (φ := Fault) (ρ := Refusal) t = .next t'
      ∧ s.RosterKept t' := ⟨t, rfl, h.rosterKept⟩
  have request {p : Port} {c : Code} {f : List Byte → Reply} (h : ∀ l, s.RosterKept (f l).state) :
      ∃ t, Host.Outcome.next (φ := Fault) (ρ := Refusal) (s.serve p c f) = .next t ∧ s.RosterKept t :=
    ⟨_, rfl, State.serve_rosterKept h⟩
  have requestSau {p : Port} {c : Code} {f : List Byte → Reply} (h : s.sau.ending = none → ∀ l, s.RosterKept (f l).state) :
      ∃ t, Host.Outcome.next (φ := Fault) (ρ := Refusal) (s.serveSau p c f) = .next t ∧ s.RosterKept t :=
    ⟨_, rfl, State.serveSau_rosterKept h⟩
  have report {p : Port} {l : List Byte} : s.RosterKept (s.ifAttached p (s.report l)).state :=
    State.ifAttached_state (.refl s) (.refl s)
  cases c with
  | powerOn => exact ⟨_, rfl, fun _ => State.reset_rosterOk⟩
  | resetAssert => exact ⟨_, rfl, s.resetAssert_rosterKept⟩
  | resetRelease a b => exact ⟨_, rfl, s.resetRelease_rosterKept a b⟩
  | tick => exact ⟨_, rfl, s.tick_rosterKept⟩
  | trimCorrectionDue => exact aside s.trimCorrectionDue_aside
  | slewCorrectionDue => exact aside s.slewCorrectionDue_aside
  | timeAdvance => exact same s.timeAdvance_roster
  | stepHandover => exact same s.stepHandover_roster
  | primingHandover n => exact same (s.primingHandover_roster n)
  | lineOperation => exact same s.lineOperation_roster
  | pulseEnd n => exact same (s.pulseEnd_roster n)
  | inputSample n l => exact aside (s.inputSample_aside n l)
  | ecuStepHandover => exact aside s.ecuStepHandover_aside
  | windowClose => exact aside s.windowClose_aside
  | missingDeclaration => exact aside s.missingDeclaration_aside
  | holdoverAgeIncrement => exact aside s.holdoverAgeIncrement_aside
  | holdoverExpiry => exact aside s.holdoverExpiry_aside
  | ppsEdgeHandover => exact aside s.ppsEdgeHandover_aside
  | disciplineSlew => exact aside s.disciplineSlew_aside
  | refclkEdge => exact aside s.refclkEdge_aside
  | recordTake b => exact ⟨_, rfl, s.recordTake_rosterKept b⟩
  | subscriptionInstall p => exact ⟨_, rfl, s.subscriptionInstall_rosterKept p⟩
  | scuSessionEnd p => exact ⟨_, rfl, s.scuSessionEnd_rosterKept p⟩
  | eluSessionEnd p => exact ⟨_, rfl, s.eluSessionEnd_rosterKept p⟩
  | idleExpiry p => exact ⟨_, rfl, s.idleExpiry_rosterKept p⟩
  | validFrameReport p => exact ⟨_, rfl, s.validFrameReport_rosterKept p⟩
  | frameBegin p => exact same (s.frameBegin_roster p)
  | frameEnd p l => exact same (s.frameEnd_roster p l)
  | requestCompletion p => exact same rfl
  | attach p => exact requestSau fun he l => State.attach_rosterKept he p l
  | detach p =>
    refine ⟨_, rfl, ?_⟩
    split
    · exact .refl s
    next h => exact State.detach_rosterKept (Option.not_isSome_iff_eq_none.1 fun he => h (.inl he)) p
  | getStatus p => exact requestSau fun _ _ => s.getStatus_rosterKept p
  | claim p => exact requestSau fun _ _ => s.claim_rosterKept p
  | release p => exact requestSau fun _ _ => s.release_rosterKept p
  | take p => exact requestSau fun _ _ => s.take_rosterKept p
  | readTime p => exact request fun _ => .refl s
  | setTime p =>
    exact request fun _ => State.ifHolder_state (.refl s) (State.ifInRange_state (.refl s) fun _ _ => .of_eq rfl)
  | stepTime p => exact request (s.stepTime_rosterKept p)
  | slewTime p => exact request (s.slewTime_rosterKept p)
  | setTrim p | ppsConfig p | setQuota p | lineConfig p | inputConfig p =>
    exact request fun _ => State.ifHolder_state (.refl s) (State.ifInRange_state (.refl s) fun _ _ => .of_eq rfl)
  | refConfig p =>
    exact request fun _ => State.ifHolder_state (.refl s) (State.ifInRange_state (.refl s)
      fun c _ => (s.applyRefConfig_aside c).rosterKept)
  | readTimebase p | readRef p | readLines p | readInputs p => exact request fun _ => report
  | listEntries p | readLog p =>
    exact request fun _ => State.ifAttached_state (.refl s) (State.ifInRange_state (.refl s) fun _ _ => .refl s)
  | arm p => exact request fun _ => State.creating_state (.refl s) fun i a c _ _ _ => s.armAt_rosterKept i _ a c
  | prime p => exact request fun _ => State.creating_state (.refl s) fun _ _ _ _ _ _ => .of_eq rfl
  | cancel p => exact request fun _ => State.withHandle_state (.refl s) fun _ => .of_eq rfl
  | hold p => exact request fun _ => State.withHandle_state (.refl s) s.holdAt_rosterKept
  | resume p => exact request fun l => State.withHandle_state (.refl s) (s.resumeAt_rosterKept l)
  | queryEntry p => exact request fun _ => State.withHandle_state (.refl s) fun _ => .refl s
  | bindLine p => exact request (s.bindLine_rosterKept p)
  | driveLine p => exact request (s.driveLine_rosterKept p)
  | subscribe p =>
    refine ⟨_, rfl, ?_⟩
    split
    · exact .refl s
    next hw => exact State.serve_rosterKept (State.subscribe_rosterKept (Bool.not_eq_true _ ▸ hw))
  | ackLog p => exact request (s.ackLog_rosterKept p)
  | logPolicy p => exact request (s.logPolicy_rosterKept p)

/-- Settles O57: every step keeps the laws of the log, of the authority and of each port, command by command. -/
theorem sessionLawsKept : Obligations.SessionLawsKept := by
  intro s t hs ht
  rw [State.sessionsOk_iff] at hs ⊢
  have run (c : Instr) {u : State} (hu : u.roster.Ok) (h : exec c u = .next t) : t.roster.Ok := by
    obtain ⟨t', e, hk⟩ := exec_rosterKept c u
    cases e.symm.trans h
    exact hk hu
  unfold step at ht
  split at ht
  next c rest _ => exact run c (u := { s with pending := rest }) hs ht
  · split at ht
    · exact run _ hs ht
    · cases ht
      exact s.internalCycle_rosterKept hs

end Sys2Proof.Machine
end

section
/-! The pending set of a record, and its way into the log (O37, O38). -/

namespace Sys2Proof.Machine

/-! ## The scope of a record (R119, R120) -/

/-- A port with a subscription is in the pending set of a record in whose scope it lies. -/
theorem Elu.pendingSet_of_subscribed {e : Elu} {p : Port} {b : Subscription} (h : e.subs[p] = some b) (r : Posted) :
    (e.pendingSet r)[p] = r.inScope p b := by
  rw [Elu.pendingSet_getElem, h]
  rfl

/-- The scope of a FIRE or MISSED record: the owner, and those with SCHEDULE for a detached entry or the scope ALL. -/
theorem inEntryScope_iff (a : Address) (p : Port) (b : Subscription) : inEntryScope (some a) p b = true ↔
    a.owner = some p ∨ a.owner = none ∧ b.kinds[1] = true ∨ a.all = true ∧ b.kinds[1] = true := by
  have hk : b.schedule = b.kinds[1] := rfl
  obtain ⟨owner, all⟩ := a
  cases owner with
  | none =>
    show b.schedule = true ↔ _
    simp only [hk, reduceCtorEq, false_or, true_and]
    exact ⟨.inl, fun h => h.elim id And.right⟩
  | some q =>
    show (p == q || (all && b.schedule)) = true ↔ _
    simp only [hk, Bool.or_eq_true, Bool.and_eq_true, beq_iff_eq, Option.some.injEq, reduceCtorEq, false_and, false_or]
    exact or_congr_left eq_comm

/-- Settles O37: `Posted.inScope`, kind by kind. -/
theorem scopesByKind : Obligations.ScopesByKind := by
  refine fun e r p => ⟨fun hn => by rw [Elu.pendingSet_getElem, hn]; rfl, fun b hb => ?_⟩
  rw [Elu.pendingSet_of_subscribed hb]
  unfold Posted.inScope
  refine ⟨fun n _ _ _ _ _ hr => ?_, fun a hr ha => ?_, fun hr => ?_, fun hr => ?_, fun q _ _ _ _ hr => ?_, fun q _ _ _ hr => ?_⟩
  · rw [hr]
    exact Bool.and_eq_true_iff
  · rw [← inEntryScope_iff, ← ha]
    rcases hr with ⟨_, _, _, _, _, _, _, _, hr⟩ | ⟨_, _, _, _, _, _, _, hr⟩ <;> rw [hr]
  · rcases hr with ⟨_, _, _, _, hr⟩ | ⟨_, _, _, hr⟩ <;> rw [hr] <;> rfl
  · rcases hr with ⟨_, _, _, _, _, hr⟩ | ⟨_, _, _, _, _, _, _, _, hr⟩ <;> rw [hr] <;> rfl
  · rw [hr]
    simp [Subscription.session, BitVec.getLsbD_eq_getElem]
  · rw [hr]
    simp [Subscription.session, BitVec.getLsbD_eq_getElem]

/-! ## RECORD_TAKE (R117, R118, R122 to R124) -/

theorem nextSeqAfter_eq (n : Nat) : nextSeqAfter n = if n < 4294967295 then n + 1 else 1 := by
  unfold nextSeqAfter Config.maxSeq
  split <;> split <;> omega

theorem Elu.takeRecord_frame (e : Elu) (r : Posted) :
    (e.takeRecord r).nextSeq = nextSeqAfter e.nextSeq ∧ (e.takeRecord r).policy = e.policy := by
  rcases e.takeRecord_cases r with ⟨-, eq⟩ | ⟨-, -, eq⟩ | ⟨-, -, -, eq⟩ | ⟨-, -, -, _, _, -, eq⟩ <;> rw [eq] <;> exact ⟨rfl, rfl⟩

/-- The record as the log stores it. -/
def Elu.stored (e : Elu) (r : Posted) : Retained :=
  { record := { seq := e.nextSeq, quality := r.quality, time := r.time, body := r.body }, pending := e.pendingSet r }

section
variable {e : Elu} {r : Posted}

theorem Elu.takeRecord_of_unscoped (h : e.pendingSet r = emptySet) :
    e.takeRecord r = { e with nextSeq := nextSeqAfter e.nextSeq } := by
  unfold Elu.takeRecord
  exact if_pos h

theorem Elu.takeRecord_of_room (h : e.pendingSet r ≠ emptySet) (hl : e.log.length < 128) :
    e.takeRecord r = { e with nextSeq := nextSeqAfter e.nextSeq, log := e.log ++ [e.stored r] } := by
  unfold Elu.takeRecord
  exact (if_neg h).trans (if_pos hl)

theorem Elu.takeRecord_of_hold (h : e.pendingSet r ≠ emptySet) (hl : 128 ≤ e.log.length) (hp : e.policy = .hold) :
    e.takeRecord r = { e with nextSeq := nextSeqAfter e.nextSeq, dropped := bump e.dropped (e.pendingSet r) } := by
  unfold Elu.takeRecord
  refine (if_neg h).trans ((if_neg (Nat.not_lt.2 hl)).trans ?_)
  simp only [hp]

theorem Elu.takeRecord_of_overwrite (h : e.pendingSet r ≠ emptySet) (hl : 128 ≤ e.log.length) (hp : e.policy = .overwrite)
    {oldest : Retained} {others : List Retained} (ho : e.log = oldest :: others) :
    e.takeRecord r = { e with
      nextSeq := nextSeqAfter e.nextSeq, log := others ++ [e.stored r], lost := bump e.lost oldest.pending } := by
  unfold Elu.takeRecord
  refine (if_neg h).trans ((if_neg (Nat.not_lt.2 hl)).trans ?_)
  simp only [hp, ho]
  rfl

end

theorem State.recordTake_of_mustWait {s : State} {r : Posted} {rest : List Posted}
    (ht : takePosted r.producer s.mail.records = some (r, rest)) (hw : s.mustWait r) : s.recordTake r.producer = s := by
  unfold State.recordTake
  rw [ht]
  exact if_pos ((s.holdsBack_iff r).2 hw)

theorem State.recordTake_of_not_mustWait {s : State} {r : Posted} {rest : List Posted}
    (ht : takePosted r.producer s.mail.records = some (r, rest)) (hw : ¬ s.mustWait r) :
    s.recordTake r.producer = { s with elu := s.elu.takeRecord r, mail := { s.mail with records := rest } } := by
  unfold State.recordTake
  rw [ht]
  exact if_neg fun hb => hw ((s.holdsBack_iff r).1 hb)

/-- Settles O38: the record waits its turn, or the log takes it in the one way that its pending set, the room and the policy leave. -/
theorem recordTakenIntoLog : Obligations.RecordTakenIntoLog := by
  rintro s r before rest seq set kept hm hb rfl rfl rfl
  have htake : takePosted r.producer s.mail.records = some (r, before ++ rest) := by rw [hm]; exact takePosted_at rfl hb
  refine ⟨fun hw => congrArg Host.Outcome.next (State.recordTake_of_mustWait htake hw), fun hw =>
    ⟨_, congrArg Host.Outcome.next (State.recordTake_of_not_mustWait htake hw), rfl, ?_, (s.elu.takeRecord_frame r).2,
      s.elu.takeRecord_subs r, fun hempty => ?_, fun p hp => ?_⟩⟩
  · rw [← nextSeqAfter_eq]
    exact (s.elu.takeRecord_frame r).1
  · dsimp only
    rw [Elu.takeRecord_of_unscoped ((eq_emptySet_iff _).2 hempty)]
    exact ⟨rfl, rfl, rfl⟩
  · have hne : s.elu.pendingSet r ≠ emptySet := fun h => Bool.false_ne_true (((eq_emptySet_iff _).1 h p).symm.trans hp)
    dsimp only
    refine ⟨fun hl => ?_, fun hl hpol => ?_, fun oldest others hl hpol ho => ?_⟩
    · rw [Elu.takeRecord_of_room hne hl]
      exact ⟨rfl, rfl, rfl⟩
    · rw [Elu.takeRecord_of_hold hne hl hpol]
      exact ⟨rfl, rfl, bump_getElem _ _⟩
    · rw [Elu.takeRecord_of_overwrite hne hl hpol ho]
      exact ⟨rfl, rfl, bump_getElem _ _⟩

end Sys2Proof.Machine
end

section
/-! The requests of the log and the install of a subscription (O39, O40, O41). -/

namespace Sys2Proof.Machine

/-! ## Subscriptions (R119, R125, R130) -/

theorem Body.ends_iff (y : Body) (p : Port) : y.ends p = true ↔ ∃ reason limit freed, y = .session p (some reason) limit freed := by
  constructor
  · intro h
    unfold Body.ends at h
    split at h
    · obtain rfl := beq_iff_eq.1 h
      exact ⟨_, _, _, rfl⟩
    · cases h
  · rintro ⟨_, _, _, rfl⟩
    exact beq_self_eq_true p

theorem State.endRecordsWait_iff (s : State) (p : Port) : s.endRecordsWait p = true ↔
    ∃ r ∈ s.mail.records, ∃ reason limit freed, r.body = .session p (some reason) limit freed := by
  simp only [State.endRecordsWait, List.any_eq_true, Body.ends_iff]

theorem State.subscriptionInstall_of_endRecords {s : State} {p : Port} (h : s.endRecordsWait p = true) :
    s.subscriptionInstall p = s := by
  unfold State.subscriptionInstall
  exact if_pos h

theorem State.subscriptionInstall_of_oldest {s : State} {p : Port} {sub : Subscription} {rest : List Install}
    (h : s.endRecordsWait p = false) (ht : takeInstall p s.mail.installs = some (sub, rest)) :
    s.subscriptionInstall p = { s with
      elu := { s.elu with
        subs := s.elu.subs.set p.val (some sub), dropped := s.elu.dropped.set p.val 0, lost := s.elu.lost.set p.val 0 }
      mail := { s.mail with installs := rest } } := by
  unfold State.subscriptionInstall
  rw [h, ht]
  rfl

theorem maskOperands_of {kinds lines mask : Byte} (hk : kinds.toNat < 32) (hm : mask.toNat < 8) :
    maskOperands [kinds, lines, mask] 0 = some ({ kinds := kinds.setWidth 5, lines }, mask.setWidth 3) := by
  have h0 : fieldNat [kinds, lines, mask] 0 1 = kinds.toNat := fieldNat_cons_zero ..
  have h2 : fieldNat [kinds, lines, mask] 2 1 = mask.toNat := fieldNat_cons_zero ..
  unfold maskOperands kindMaskOf atnMaskOf
  rw [Nat.zero_add, h0, h2, if_pos hk, if_pos hm, BitVec.ofNat_toNat, BitVec.ofNat_toNat]
  rfl

theorem maskOperands_eq_none {kinds lines mask : Byte} (h : 32 ≤ kinds.toNat ∨ 8 ≤ mask.toNat) :
    maskOperands [kinds, lines, mask] 0 = none := by
  have h0 : fieldNat [kinds, lines, mask] 0 1 = kinds.toNat := fieldNat_cons_zero ..
  have h2 : fieldNat [kinds, lines, mask] 2 1 = mask.toNat := fieldNat_cons_zero ..
  unfold maskOperands
  rw [Nat.zero_add, h0, h2, bind_eq_none']
  rcases h with h | h
  · exact .inl (if_neg (Nat.not_lt.2 h))
  · refine .inr fun _ _ => bind_eq_none'.2 (.inl (if_neg (Nat.not_lt.2 h)))

theorem exec_subscribe_of_installed {s : State} {p : Port} (h : ∀ i ∈ s.mail.installs, i.port ≠ p) :
    exec (.subscribe p) s = .next (s.serve p .subscribe (s.subscribe p)) := by
  refine congrArg Host.Outcome.next (if_neg ?_)
  rw [State.installWaits_of_none h]
  nofun

theorem State.subscribe_of_inRange {s : State} {p : Port} {l : List Byte} {sub : Subscription} {mask : BitVec 3}
    (ha : s.sau.sessions[p].attached = true) (ho : maskOperands l 0 = some (sub, mask)) : s.subscribe p l = {
      state := ({ s with elu := { s.elu with subs := s.elu.subs.set p.val (some sub) } } : State).withSession p
        fun ses => { ses with mask }
      result := .ok
      payload := [BitVec.ofNat 8 ((s.elu.subs[p].map fun b => b.kinds.toNat).getD 0),
        (s.elu.subs[p].map Subscription.lines).getD 0] } := by
  refine (State.ifAttached_of_attached ha).trans ?_
  rw [ho]
  rfl

/-- Settles O39: the oldest install of the port, and SUBSCRIBE by its operands. -/
theorem subscriptionsReplaced : Obligations.SubscriptionsReplaced := by
  refine ⟨fun s p sub before rest hm hb => ⟨fun hw => ?_, fun hw => ?_⟩, fun s p tag d kinds lines mask h ha hi =>
    ⟨fun hk hmask => ?_, fun hrange => ?_⟩⟩
  · exact congrArg Host.Outcome.next (State.subscriptionInstall_of_endRecords ((s.endRecordsWait_iff p).2 hw))
  · have hno : s.endRecordsWait p = false := Bool.eq_false_iff.2 fun hx => by
      obtain ⟨r, hr, reason, limit, freed, hbody⟩ := (s.endRecordsWait_iff p).1 hx
      exact hw r hr reason limit freed hbody
    exact congrArg Host.Outcome.next (State.subscriptionInstall_of_oldest hno (by rw [hm]; exact takeInstall_at hb))
  · have hserve := State.serve_of_reply h (State.subscribe_of_inRange ha (maskOperands_of hk hmask)) rfl
    refine ⟨({ s with elu := { s.elu with subs := s.elu.subs.set p.val (some { kinds := kinds.setWidth 5, lines }) } }
      : State).withSession p fun ses => { ses with mask := mask.setWidth 3 }, rfl, rfl, rfl,
      (exec_subscribe_of_installed hi).trans (congrArg Host.Outcome.next (hserve.trans (congrArg (State.answered _ p tag d .ok) ?_)))⟩
    cases s.elu.subs[p] with
    | none => rfl
    | some b => exact congrArg (· :: [b.lines]) (BitVec.ofNat_toNat ..)
  · have hf : s.subscribe p [kinds, lines, mask] = s.refuse .range :=
      (State.ifAttached_of_attached ha).trans (congrArg (s.ifInRange · _) (maskOperands_eq_none hrange))
    exact (exec_subscribe_of_installed hi).trans (congrArg Host.Outcome.next (State.serve_of_refused h hf))

/-! ## READ_LOG (R127) -/

/-- The records shown are those the limit leaves of the port's. -/
theorem take_of_append {α : Type} {shown later : List α} {n : Nat} (h : shown.length = n ∨ shown.length < n ∧ later = []) :
    (shown ++ later).take n = shown := by
  rcases h with rfl | ⟨hl, rfl⟩
  · exact List.take_left
  · rw [List.append_nil]
    exact List.take_of_length_le hl.le

theorem State.logReport_eq {s : State} {p : Port} {n : Nat} {mine shown later : List Retained}
    (hm : mine = s.elu.log.filter fun r => r.pending[p]) (hs : mine = shown ++ later)
    (hn : shown.length = n ∨ shown.length < n ∧ later = []) :
    s.logReport p n = [BitVec.ofNat 8 mine.length] ++ beBytes s.elu.dropped[p] 2 ++ beBytes s.elu.lost[p] 2
      ++ [BitVec.ofNat 8 shown.length] ++ shown.flatMap fun r => r.record.layout := by
  unfold State.logReport Elu.pendingCount
  rw [← hm, hs, take_of_append hn]
  simp only [Record.layout_eq]

/-- Settles O40: READ_LOG by its attachment and its limit. -/
theorem logRead : Obligations.LogRead := by
  intro s p tag d limit h
  have hlimit : fieldNat [limit] 0 1 = limit.toNat := fieldNat_cons_zero ..
  refine ⟨fun ha => ?_, fun ha hr => ?_, fun mine shown later ha h1 h4 hm hs hn => ?_⟩ <;> refine congrArg Host.Outcome.next ?_
  · exact State.serve_of_refused h (State.ifAttached_of_detached ha)
  · refine State.serve_of_refused h ((State.ifAttached_of_attached ha).trans ?_)
    have ho : inRange 1 4 (fieldNat [limit] 0 1) = none := if_neg (by omega)
    rw [ho]
    rfl
  · have ho : inRange 1 4 (fieldNat [limit] 0 1) = some limit.toNat := by rw [hlimit]; exact if_pos ⟨h1, h4⟩
    refine (State.serve_of_reply (r := s.report (s.logReport p limit.toNat)) h ((State.ifAttached_of_attached ha).trans ?_)
      rfl).trans (congrArg (s.answered p tag d .ok) (State.logReport_eq hm hs hn))
    rw [ho]
    rfl

/-! ## ACK_LOG (R121, R128) -/

theorem Elu.pendingCount_append {e : Elu} {left new : List Retained} (h : e.log = left ++ new) (p : Port) :
    e.pendingCount p = (left.filter fun r => r.pending[p]).length + (new.filter fun r => r.pending[p]).length := by
  unfold Elu.pendingCount
  rw [h, List.filter_append, List.length_append]

/-- Records that a port has left are pending for it no more. -/
theorem filter_pending_without (log : List Retained) (p : Port) :
    ((freeEmpty (log.map fun r => r.without p)).filter fun r => r.pending[p]) = [] := by
  rw [List.filter_eq_nil_iff]
  intro r hr
  obtain ⟨x, -, rfl⟩ := List.mem_map.1 (mem_freeEmpty.1 hr).1
  rw [Retained.without_pending, if_pos rfl]
  nofun

theorem freeEmpty_of_pending {log : List Retained} (h : ∀ r ∈ log, ∃ q : Port, r.pending[q] = true) : freeEmpty log = log := by
  refine List.filter_eq_self.2 fun r hr => ?_
  obtain ⟨q, hq⟩ := h r hr
  rw [bne_iff_ne]
  exact fun he => Bool.false_ne_true (((eq_emptySet_iff _).1 he q).symm.trans hq)

theorem freeEmpty_append (l₁ l₂ : List Retained) : freeEmpty (l₁ ++ l₂) = freeEmpty l₁ ++ freeEmpty l₂ :=
  List.filter_append ..

/-- What an acknowledgement does to a log: the port leaves an older part, and nothing of it where the seq is 0. -/
theorem Elu.acknowledge_eq {e : Elu} {p : Port} {seq : Nat} {clear : Bool} {old new : List Retained} (hlog : e.log = old ++ new)
    (hseq : seq = 0 ∧ old = [] ∨ seq ≠ 0 ∧ ∃ older r, old = older ++ [r] ∧ r.record.seq = seq ∧ r.pending[p] = true
      ∧ ∀ x ∈ older, x.record.seq = seq → x.pending[p] = false)
    (hnew : ∀ r ∈ new, ∃ q : Port, r.pending[q] = true) :
    e.acknowledge p seq clear = { e with
      log := freeEmpty (old.map fun r => r.without p) ++ new
      dropped := if clear = true then e.dropped.set p.val 0 else e.dropped
      lost := if clear = true then e.lost.set p.val 0 else e.lost } := by
  have hkept : (if seq = 0 then e else { e with log := freeEmpty (ackUpTo p seq e.log) })
      = { e with log := freeEmpty (old.map fun r => r.without p) ++ new } := by
    rcases hseq with ⟨h0, rfl⟩ | ⟨h0, older, r, rfl, h1, h2, h3⟩
    · rw [if_pos h0]
      show e = { e with log := [] ++ new }
      rw [← hlog]
    · rw [if_neg h0, hlog, ackUpTo_at h1 h2 h3, freeEmpty_append, freeEmpty_of_pending hnew]
  unfold Elu.acknowledge
  dsimp only
  rw [hkept]
  cases clear <;> rfl

theorem State.ackLog_of_found {s : State} {p : Port} {l : List Byte} (ha : s.sau.sessions[p].attached = true)
    (hf : fieldNat l 0 4 = 0 ∨ ∃ r ∈ s.elu.log, r.record.seq = fieldNat l 0 4 ∧ r.pending[p] = true) :
    s.ackLog p l = {
      state := { s with elu := s.elu.acknowledge p (fieldNat l 0 4) (flagOf (l.getD 4 0) 0) }
      result := .ok
      payload := [
        BitVec.ofNat 8 (s.elu.pendingCount p
          - (s.elu.acknowledge p (fieldNat l 0 4) (flagOf (l.getD 4 0) 0)).pendingCount p),
        BitVec.ofNat 8 ((s.elu.acknowledge p (fieldNat l 0 4) (flagOf (l.getD 4 0) 0)).pendingCount p)] } := by
  refine (State.ifAttached_of_attached ha).trans (if_pos (hf.imp_right ?_))
  rintro ⟨r, hr, hs, hp⟩
  refine List.any_eq_true.2 ⟨r, hr, ?_⟩
  unfold Retained.isFor
  rw [hs, hp, beq_self_eq_true]
  rfl

theorem State.ackLog_of_not_found {s : State} {p : Port} {l : List Byte} (ha : s.sau.sessions[p].attached = true)
    (h0 : fieldNat l 0 4 ≠ 0) (hf : ∀ r ∈ s.elu.log, r.record.seq = fieldNat l 0 4 → r.pending[p] = false) :
    s.ackLog p l = s.refuse .notFound := by
  refine (State.ifAttached_of_attached ha).trans (if_neg (not_or.2 ⟨h0, fun hx => ?_⟩))
  obtain ⟨r, hr, hfor⟩ := List.any_eq_true.1 hx
  obtain ⟨hs, hp⟩ := Bool.and_eq_true_iff.1 hfor
  exact Bool.false_ne_true ((hf r hr (beq_iff_eq.1 hs)).symm.trans hp)

/-- Settles O41: ACK_LOG by its seq, with the older part of the log that it reaches. -/
theorem logAcknowledged : Obligations.LogAcknowledged := by
  intro s p tag flags d seq hlt h
  have hseq : fieldNat (beBytes seq 4 ++ [flags]) 0 4 = seq :=
    (fieldNat_append_within (by simp)).trans (fieldNat_beBytes (by omega))
  have hflags : flagOf ((beBytes seq 4 ++ [flags]).getD 4 0) 0 = flags[0] := rfl
  refine ⟨fun ha => ?_, fun ha h0 hf => ?_, fun old new left acknowledged ha hlog hold hnew hleft hack => ?_⟩ <;>
    refine congrArg Host.Outcome.next ?_
  · exact State.serve_of_refused h (State.ifAttached_of_detached ha)
  · exact State.serve_of_refused h (State.ackLog_of_not_found ha (by rwa [hseq]) (by rwa [hseq]))
  · have hfound : fieldNat (beBytes seq 4 ++ [flags]) 0 4 = 0
        ∨ ∃ r ∈ s.elu.log, r.record.seq = fieldNat (beBytes seq 4 ++ [flags]) 0 4 ∧ r.pending[p] = true := by
      rw [hseq, hlog]
      rcases hold with ⟨h0, -⟩ | ⟨-, older, r, rfl, h1, h2, -⟩
      · exact .inl h0
      · exact .inr ⟨r, by simp, h1, h2⟩
    have hleft' : left = freeEmpty (old.map fun r => r.without p) := by
      rw [freeEmpty_eq]
      exact hleft
    have hnone : (left.filter fun r => r.pending[p]).length = 0 := by rw [hleft', filter_pending_without]; rfl
    have hreply := State.ackLog_of_found ha hfound
    rw [hseq, hflags, Elu.acknowledge_eq hlog hold hnew, ← hleft', Elu.pendingCount_append hlog, Elu.pendingCount_append rfl,
      hnone, ← hack, Nat.zero_add, Nat.add_sub_cancel] at hreply
    exact State.serve_of_reply h hreply rfl

end Sys2Proof.Machine
end

section
/-! How a session is attached and how its end begins, and the time authority (O43 to O47). -/

namespace Sys2Proof.Machine

/-- A request to the SAU, with no session end in progress, is answered by its service (R160, log 10). -/
theorem State.serveSau_of_reply {s : State} {p : Port} {g : Byte} {d : Bool} {c : Code} {l : List Byte} {f : List Byte → Reply}
    {r : Reply} (he : s.sau.ending = none) (h : s.asks p g d c l) (hf : f l = r) (hr : r.state.hpu = s.hpu) :
    s.serveSau p c f = r.state.answered p g d r.result r.payload := by
  rw [State.serveSau_of_idle he, State.serve_of_reply h hf hr]

/-! ## ATTACH (R136) -/

theorem maskOperands_cons (b : Byte) (l : List Byte) (k : Nat) : maskOperands (b :: l) (k + 1) = maskOperands l k := rfl

section

variable {s : State} {p : Port}

theorem State.attach_of_attached {l : List Byte} (ha : s.sau.sessions[p].attached = true) :
    s.attach p l = s.refuse .alreadyAttached := if_pos ha

theorem State.attach_of_detached {l : List Byte} (ha : s.sau.sessions[p].attached = false) :
    s.attach p l = s.ifInRange (maskOperands l 1) fun (sub, mask) =>
      { state := ({ s.withSession p (·.attach (fieldNat l 0 1) mask) with
          mail := { s.mail with installs := s.mail.installs ++ [{ port := p, sub }] } } : State).posted .sau s.quality
            s.tbu.time (.session p none (fieldNat l 0 1) 0) none
        result := .ok
        payload := [BitVec.ofNat 8 (fieldNat l 0 1), portCode s.sau.holder, BitVec.ofNat 8 s.sau.queue.length,
          BitVec.ofNat 8 s.sau.senior.val] } :=
  if_neg (Bool.eq_false_iff.1 ha)

end

/-- Settles O43: ATTACH by the session it finds and by its masks. -/
theorem attachOpensSession : Obligations.AttachOpensSession := by
  intro s p tag d limit kinds lines mask h he
  refine ⟨fun ha => ?_, fun ha hr => ?_, fun ha hk hm => ?_⟩ <;> refine congrArg Host.Outcome.next ?_
  · exact State.serveSau_of_refused he h (State.attach_of_attached ha)
  · refine State.serveSau_of_refused he h ((State.attach_of_detached ha).trans ?_)
    rw [maskOperands_cons, maskOperands_eq_none hr, State.ifInRange_none]
  · have hlimit : fieldNat [limit, kinds, lines, mask] 0 1 = limit.toNat := fieldNat_cons_zero ..
    have hreply := State.attach_of_detached (l := [limit, kinds, lines, mask]) ha
    rw [maskOperands_cons, maskOperands_of hk hm, State.ifInRange_some, hlimit, BitVec.ofNat_toNat] at hreply
    exact State.serveSau_of_reply he h hreply rfl

/-! ## The authority passes on (R144) -/

theorem Sau.passOn_of_empty {u : Sau} (hq : u.queue = []) (p : Port) (event : AuthEvent) :
    u.passOn p event = ({ u with holder := none }, [.authority p event .nothing none 0]) := by
  unfold Sau.passOn
  rw [hq]

theorem Sau.passOn_of_head {u : Sau} {head : Port} {others : List Port} (hq : u.queue = head :: others) (p : Port)
    (event : AuthEvent) : u.passOn p event = (({ u with holder := some head, queue := others } : Sau).setAuth head,
      [.authority p event .nothing (some head) others.length, .authority head .granted .queue (some p) others.length]) := by
  unfold Sau.passOn
  rw [hq]

theorem Sau.leave_of_holder {u : Sau} {p : Port} (hh : u.holder = some p) (reason : EndReason) :
    u.leave p reason = u.passOn p reason.event := if_pos hh

theorem Sau.leave_of_not_holder {u : Sau} {p : Port} (hh : u.holder ≠ some p) (reason : EndReason) :
    u.leave p reason = (u.unqueue p, []) := if_neg hh

/-! ## Session ends begin (R138 to R140) -/

section

variable {s : State} {p : Port}

/-- Step 1 of a session end, on what step 2 leaves of the SAU (R140). -/
theorem State.beginEnd_of_leave {u : Sau} {bodies : List Body} {reason : EndReason} (h : s.sau.leave p reason = (u, bodies)) :
    s.beginEnd p reason = { s with sau := { u with
      sessions := u.sessions.set p.val { u.sessions[p] with attached := false, auth := false, overdue := false }
      ending := some { port := p, reason, phase := .atScu, freed := 0, records := bodies } } } := by
  unfold State.beginEnd
  rw [h]

/-- A DETACH that waits is taken while no session end is in progress (log 10). -/
theorem exec_detach_of_asks {g : Byte} {d : Bool} {l : List Byte} (he : s.sau.ending = none) (h : s.asks p g d .detach l) :
    exec (.detach p) s = .next (s.detach p) :=
  congrArg Host.Outcome.next (if_neg (by simp [he, State.request?_of_asks h]))

/-- DETACH of an attached port: its answer follows when the session end is complete (R139). -/
theorem State.detach_of_attached {g : Byte} {d : Bool} {l : List Byte} (h : s.asks p g d .detach l)
    (ha : s.sau.sessions[p].attached = true) : s.detach p = { s.beginEnd p .detached with
      hpu := s.hpu.set p.val { s.hpu[p] with slot := .executing g d .taken } } := by
  obtain ⟨hs, -⟩ := h
  have hslot : (s.beginEnd p .detached).hpu[p].slot = .executing g d (.waiting .detach l) := hs
  unfold State.detach State.attached State.withHpu
  rw [if_pos ha]
  simp only [hslot]
  rfl

theorem State.idleExpiry_of_atLimit (he : s.sau.ending = none) (h : s.sau.sessions[p].atLimit) :
    s.idleExpiry p = s.beginEnd p .expired :=
  if_pos ⟨Option.isNone_iff_eq_none.2 he, (Session.timedOut_iff _).2 h⟩

end

/-- Settles O44: the beginning by who holds the authority and who waits for it, reached through DETACH and IDLE_EXPIRY. -/
theorem sessionEndBegins : Obligations.SessionEndBegins := by
  intro s p ses reason event begun he ha hses hevent hout hlast hpass hself
  have hevent : event = reason.event := hevent
  have hbegun : s.beginEnd p reason = begun := by
    subst hses hevent
    by_cases hh : s.sau.holder = some p
    · cases hq : s.sau.queue with
      | nil =>
        rw [hlast hh hq, State.beginEnd_of_leave ((Sau.leave_of_holder hh reason).trans (Sau.passOn_of_empty hq ..))]
      | cons head others =>
        have hne : p ≠ head := fun e => hself hh (by rw [hq, e]; exact List.mem_cons_self)
        rw [hpass head others hh hq hne.symm,
          State.beginEnd_of_leave ((Sau.leave_of_holder hh reason).trans (Sau.passOn_of_head hq ..))]
        unfold Sau.setAuth
        dsimp only
        rw [getElem_set_session, if_neg hne]
    · rw [hout hh, State.beginEnd_of_leave (Sau.leave_of_not_holder hh reason)]
      rfl
  refine ⟨fun tag d hr h => ?_, fun hr hl hle => ?_, fun q tag d h hq => ?_⟩
  · subst hr
    rw [exec_detach_of_asks he h, State.detach_of_attached h ha, hbegun]
  · subst hr
    exact congrArg Host.Outcome.next ((State.idleExpiry_of_atLimit he ⟨ha, hl, hle⟩).trans hbegun)
  · rw [exec_detach_of_asks he h, State.detach_of_detached h hq]

/-! ## CLAIM (R142, R143) -/

theorem Sau.position_of_queued {u : Sau} {p : Port} {ahead behind : List Port} (hq : u.queue = ahead ++ p :: behind)
    (hp : p ∉ ahead) : u.position p = ahead.length + 1 := by
  unfold Sau.position
  rw [hq, if_pos (by simp), List.idxOf_append_of_notMem hp, List.idxOf_cons_self, Nat.add_zero]

theorem Sau.position_of_not_queued {u : Sau} {p : Port} (hp : p ∉ u.queue) : u.position p = 0 := if_neg hp

section

variable {s : State} {p : Port}

theorem State.claim_of_no_limit (ha : s.sau.sessions[p].attached = true) (hl : s.sau.sessions[p].limit = 0) :
    s.claim p = s.refuse .needLimit := (State.ifAttached_of_attached ha).trans (if_pos hl)

theorem State.claim_of_unheld (ha : s.sau.sessions[p].attached = true) (hl : s.sau.sessions[p].limit ≠ 0)
    (hh : s.sau.holder = none) : s.claim p = {
      state := ({ s with sau := { s.sau with holder := some p } } : State).posted .sau s.quality s.tbu.time
        (.authority p .granted .claim none s.sau.queue.length) none
      result := .granted, payload := [0] } := by
  unfold State.claim
  rw [State.ifAttached_of_attached ha, if_neg hl, hh]
  rfl

/-- A claim while the authority is held: the holder has it, a queued port keeps its place, and another joins the queue (R143). -/
theorem State.claim_of_held {h : Port} (ha : s.sau.sessions[p].attached = true) (hl : s.sau.sessions[p].limit ≠ 0)
    (hh : s.sau.holder = some h) : s.claim p =
      let joined : Sau := { s.sau with queue := s.sau.queue ++ [p] }
      if h = p then { state := s, result := .granted, payload := [0] }
      else if p ∈ s.sau.queue then { state := s, result := .queued, payload := [BitVec.ofNat 8 (s.sau.position p)] }
      else { state := { s with sau := joined }, result := .queued, payload := [BitVec.ofNat 8 (joined.position p)] } := by
  unfold State.claim
  rw [State.ifAttached_of_attached ha, if_neg hl, hh]

end

/-- Settles O45: CLAIM by its checks, then by the holder and the queue. -/
theorem claimGrantsOrQueues : Obligations.ClaimGrantsOrQueues := by
  intro s p tag d h he
  have answered {r : Reply} (hr : s.claim p = r) (hk : r.state.hpu = s.hpu) :
      exec (.claim p) s = .next (r.state.answered p tag d r.result r.payload) :=
    congrArg Host.Outcome.next (State.serveSau_of_reply he h hr hk)
  refine ⟨fun ha => ?_, fun ha hl => ?_, fun ha hl => ⟨fun hn => ?_, fun hh => ?_, fun q hh hne =>
    ⟨fun ahead behind hq hp => ?_, fun hp => ?_⟩⟩⟩
  · exact answered (State.ifAttached_of_detached ha) rfl
  · exact answered (State.claim_of_no_limit ha hl) rfl
  · exact answered (State.claim_of_unheld ha hl hn) rfl
  · exact answered ((State.claim_of_held ha hl hh).trans (if_pos rfl)) rfl
  · rw [answered ((State.claim_of_held ha hl hh).trans ((if_neg hne).trans (if_pos (by simp [hq])))) rfl,
      Sau.position_of_queued hq hp]
  · rw [answered ((State.claim_of_held ha hl hh).trans ((if_neg hne).trans (if_neg hp))) rfl,
      Sau.position_of_queued rfl hp]

/-! ## RELEASE (R144) -/

section

variable {s : State} {p : Port}

theorem State.release_of_holder {u : Sau} {bodies : List Body} (ha : s.sau.sessions[p].attached = true)
    (hh : s.sau.holder = some p) (hu : s.sau.passOn p .released = (u, bodies)) : s.release p = {
      state := ({ s with sau := u } : State).postAll .sau s.tbu.time bodies
      result := .ok, payload := [portCode u.holder] } := by
  unfold State.release
  rw [State.ifAttached_of_attached ha, if_pos hh, hu]

theorem State.release_of_queued (ha : s.sau.sessions[p].attached = true) (hh : s.sau.holder ≠ some p) (hp : p ∈ s.sau.queue) :
    s.release p = { state := { s with sau := s.sau.unqueue p }, result := .ok, payload := [portCode s.sau.holder] } :=
  (State.ifAttached_of_attached ha).trans ((if_neg hh).trans (if_pos hp))

theorem State.release_of_neither (ha : s.sau.sessions[p].attached = true) (hh : s.sau.holder ≠ some p) (hp : p ∉ s.sau.queue) :
    s.release p = s.refuse .badState := (State.ifAttached_of_attached ha).trans ((if_neg hh).trans (if_neg hp))

end

/-- Settles O46: RELEASE by the part that the port has in the authority. -/
theorem releasePassesAuthority : Obligations.ReleasePassesAuthority := by
  intro s p tag d h he
  have answered {r : Reply} (hr : s.release p = r) (hk : r.state.hpu = s.hpu) :
      exec (.release p) s = .next (r.state.answered p tag d r.result r.payload) :=
    congrArg Host.Outcome.next (State.serveSau_of_reply he h hr hk)
  refine ⟨fun ha => ?_, fun ha => ⟨fun head others hh hq => ?_, fun hh hq => ?_, fun hh hp => ?_, fun hh hp => ?_⟩⟩
  · exact answered (State.ifAttached_of_detached ha) rfl
  · exact answered (State.release_of_holder ha hh (Sau.passOn_of_head hq ..)) rfl
  · exact answered (State.release_of_holder ha hh (Sau.passOn_of_empty hq ..)) rfl
  · exact answered (State.release_of_queued ha hh hp) rfl
  · exact answered (State.release_of_neither ha hh hp) rfl

/-! ## TAKE (R146) -/

theorem Sau.takeOver_of_unheld {u : Sau} {p : Port} (hh : u.holder = none) :
    u.takeOver p = ({ u with holder := some p }, [.authority p .granted .take none u.queue.length]) := by
  unfold Sau.takeOver
  rw [hh]

theorem Sau.takeOver_of_holder {u : Sau} {p : Port} (hh : u.holder = some p) : u.takeOver p = (u, []) := by
  unfold Sau.takeOver
  rw [hh]
  exact if_pos rfl

theorem Sau.takeOver_of_other {u : Sau} {p q : Port} (hh : u.holder = some q) (hne : q ≠ p) : u.takeOver p =
    (({ u.unqueue p with holder := some p } : Sau).setAuth q,
      [.authority q .revoked .nothing (some p) (u.unqueue p).queue.length,
        .authority p .granted .take (some q) (u.unqueue p).queue.length]) := by
  unfold Sau.takeOver
  rw [hh]
  exact if_neg hne

section

variable {s : State} {p : Port}

theorem State.take_of_not_senior (ha : s.sau.sessions[p].attached = true) (hs : s.sau.senior ≠ p) :
    s.take p = s.refuse .notSenior := (State.ifAttached_of_attached ha).trans (if_pos hs)

theorem State.take_of_no_limit (ha : s.sau.sessions[p].attached = true) (hs : s.sau.senior = p)
    (hl : s.sau.sessions[p].limit = 0) : s.take p = s.refuse .needLimit :=
  (State.ifAttached_of_attached ha).trans ((if_neg (not_not.2 hs)).trans (if_pos hl))

theorem State.take_of_takeOver {u : Sau} {bodies : List Body} (ha : s.sau.sessions[p].attached = true) (hs : s.sau.senior = p)
    (hl : s.sau.sessions[p].limit ≠ 0) (hu : s.sau.takeOver p = (u, bodies)) : s.take p = {
      state := ({ s with sau := u } : State).postAll .sau s.tbu.time bodies
      result := .granted, payload := [portCode s.sau.holder] } := by
  unfold State.take
  rw [State.ifAttached_of_attached ha, if_neg (not_not.2 hs), if_neg hl, hu]

end

/-- Settles O47: TAKE by its checks in their order, then by the previous holder. -/
theorem takeBySenior : Obligations.TakeBySenior := by
  intro s p tag d h he
  have answered {r : Reply} (hr : s.take p = r) (hk : r.state.hpu = s.hpu) :
      exec (.take p) s = .next (r.state.answered p tag d r.result r.payload) :=
    congrArg Host.Outcome.next (State.serveSau_of_reply he h hr hk)
  refine ⟨fun ha => ?_, fun ha hs => ?_, fun ha hs hl => ?_, fun ha hs hl =>
    ⟨fun hh => ?_, fun hh => ?_, fun q queue hh hne hq => ?_⟩⟩
  · exact answered (State.ifAttached_of_detached ha) rfl
  · exact answered (State.take_of_not_senior ha hs) rfl
  · exact answered (State.take_of_no_limit ha hs hl) rfl
  · rw [answered (State.take_of_takeOver ha hs hl (Sau.takeOver_of_holder hh)) rfl, hh]
    rfl
  · rw [answered (State.take_of_takeOver ha hs hl (Sau.takeOver_of_unheld hh)) rfl, hh]
    rfl
  · rw [answered (State.take_of_takeOver ha hs hl (Sau.takeOver_of_other hh hne)) rfl, hh, hq]
    rfl

end Sys2Proof.Machine
end

section
/-! The status of a port, its attention lines, and what its HPU hands on (O48, O52). -/

namespace Sys2Proof.Machine

/-! ## The attention reasons (R131, R150) -/

theorem Elu.logReason_iff (e : Elu) (p : Port) : e.logReason p = true ↔ ∃ r ∈ e.log, r.pending[p] = true := by
  simp [Elu.logReason, Elu.pendingCount, List.length_pos_iff_exists_mem]

/-- Three reasons as a byte, each with its own bit (R151). -/
theorem reasonByte_eq : ∀ log auth ended : Bool,
    (BitVec.ofNat 3 (bitNat log + 2 * bitNat auth + 4 * bitNat ended)).setWidth 8
      = ((if log = true then 1 else 0) + (if auth = true then 2 else 0) + (if ended = true then 4 else 0) : Byte) := by
  decide

/-- A mask names a reason that holds (R150). -/
theorem reasonMask_ne_zero_iff : ∀ (log auth ended : Bool) (mask : BitVec 3),
    BitVec.ofNat 3 (bitNat log + 2 * bitNat auth + 4 * bitNat ended) &&& mask ≠ 0
      ↔ log = true ∧ mask[0] = true ∨ auth = true ∧ mask[1] = true ∨ ended = true ∧ mask[2] = true := by
  decide

theorem State.ready_iff (s : State) (p : Port) : s.ready p = true ↔ s.hpu[p].slot = .free ∧ s.rst = false := by
  simp [State.ready, and_comm]

theorem State.atn_iff (s : State) (p : Port) : s.atn p = true ↔ s.rst = false
    ∧ ((∃ r ∈ s.elu.log, r.pending[p] = true) ∧ s.sau.sessions[p].mask[0] = true
      ∨ s.sau.sessions[p].auth = true ∧ s.sau.sessions[p].mask[1] = true
      ∨ s.sau.sessions[p].sessionEnded = true ∧ s.sau.sessions[p].mask[2] = true) := by
  unfold State.atn State.reasons
  rw [Bool.and_eq_true, Bool.not_eq_true', decide_eq_true_iff, reasonMask_ne_zero_iff, Elu.logReason_iff]

/-! ## GET_STATUS (R151) -/

/-- The whole seconds left are the number that the time left reaches and the next does not (R151). -/
theorem Session.timeLeft_of_attached {ses : Session} {left : Nat} (ha : ses.attached = true)
    (h1 : left * 10000000 + ses.seconds * 10000000 + ses.cycles ≤ ses.limit * 10000000)
    (h2 : ses.limit * 10000000 < (left + 1) * 10000000 + ses.seconds * 10000000 + ses.cycles) : ses.timeLeft = left := by
  unfold Session.timeLeft Config.secondCycles
  rw [if_pos ha]
  omega

theorem Session.timeLeft_of_detached {ses : Session} (ha : ses.attached = false) : ses.timeLeft = 0 :=
  if_neg (Bool.eq_false_iff.1 ha)

/-- Settles O48: the report field by field, on the state before the two reasons are cleared. -/
theorem statusReportedAndCleared : Obligations.StatusReportedAndCleared := by
  intro s p tag d ses left log auth ended place h he hses hatt hdet hlog hauth hended hout hin
  have hleft : ses.timeLeft = left := by
    cases ha : ses.attached with
    | true => exact Session.timeLeft_of_attached ha (hatt ha).1 (hatt ha).2
    | false => exact (Session.timeLeft_of_detached ha).trans (hdet ha).symm
  have hplace : s.sau.position p = place := by
    by_cases hp : p ∈ s.sau.queue
    · obtain ⟨ahead, behind, hq, hnot⟩ := List.eq_append_cons_of_mem hp
      rw [Sau.position_of_queued hq hnot, hin ahead behind hq hnot]
    · rw [Sau.position_of_not_queued hp, hout hp]
  have hreasons : (s.reasons p).setWidth 8 = log + auth + ended := by
    unfold State.reasons
    rw [reasonByte_eq, hlog, hauth, hended, hses]
    simp only [Elu.logReason_iff]
  refine congrArg Host.Outcome.next ((State.serveSau_of_reply he h rfl rfl).trans ?_)
  subst hses hleft hplace
  rw [← hreasons]
  rfl

/-! ## VALID_FRAME_REPORT (R138, R156) -/

section

variable {s : State} {p : Port}

/-- The oldest report of a port is taken from behind those of others. -/
theorem eraseP_report_at {r : Report} {before rest : List Report} (hr : r.port = p) (hb : ∀ b ∈ before, b.port ≠ p) :
    (before ++ r :: rest).eraseP (fun r => r.port == p) = before ++ rest := by
  rw [List.eraseP_append_right _ fun b h => by simpa using hb b h, List.eraseP_cons_of_pos (by simpa using hr)]

theorem State.validFrameReport_of_oldest {r : Report} {before rest : List Report}
    (hm : s.mail.reports = before ++ r :: rest) (hr : r.port = p) (hb : ∀ b ∈ before, b.port ≠ p) :
    s.validFrameReport p
      = ({ s with mail := { s.mail with reports := before ++ rest } } : State).withSession p Session.restart := by
  have hany : (s.mail.reports.any fun r => r.port == p) = true := by
    rw [hm]
    simp [hr]
  unfold State.validFrameReport
  rw [if_pos hany, hm, eraseP_report_at hr hb]

theorem Session.restart_of_running {ses : Session} (ha : ses.attached = true) (ho : ses.overdue = false) :
    ses.restart = { ses with seconds := 0, cycles := 0 } := if_pos (by rw [ha, ho]; rfl)

theorem Session.restart_of_not_running {ses : Session} (h : ses.attached = false ∨ ses.overdue = true) :
    ses.restart = ses := by
  refine if_neg ?_
  rcases h with h | h <;> simp [h]

theorem State.withSession_of_eq {f : Session → Session} (h : f s.sau.sessions[p] = s.sau.sessions[p]) :
    s.withSession p f = s := by
  unfold State.withSession
  rw [h]
  simp

end

/-- Settles O52: the report by the session it finds, the completion by its discard mark, and the two lines in every state. -/
theorem reportsAndCompletions : Obligations.ReportsAndCompletions := by
  refine ⟨fun s p r before rest t hm hr hb ht => ⟨fun ha ho => ?_, fun hn => ?_⟩, fun s p tag d r payload hs => ?_,
    fun s p => ⟨s.ready_iff p, s.atn_iff p⟩⟩
  · refine congrArg Host.Outcome.next ((State.validFrameReport_of_oldest hm hr hb).trans ?_)
    rw [ht, State.withSession, Session.restart_of_running ha ho]
  · refine congrArg Host.Outcome.next ((State.validFrameReport_of_oldest hm hr hb).trans ?_)
    rw [ht]
    exact State.withSession_of_eq (Session.restart_of_not_running hn)
  · refine congrArg Host.Outcome.next ?_
    rw [State.withHpu, Hpu.complete_of_answered hs]

end Sys2Proof.Machine
end

section
/-! The start of a frame and the bits that PnSDO presents (O49). -/

namespace Sys2Proof.Machine

/-! ## The STATUS byte (R155) -/

/-- Eight flags as a byte, each read back at its place. -/
theorem flagByte_eight : ∀ (a b c d e f g h : Bool) (i : Fin 8),
    (flagByte [a, b, c, d, e, f, g, h])[i] = [a, b, c, d, e, f, g, h].get i := by
  decide +kernel

/-- STATUS bit by bit, with the attention line spelled out by its reasons (R150, R155). -/
theorem State.statusByte_bit {s : State} (p : Port) (hr : s.rst = false) (b : Fin 8) :
    (s.statusByte p)[b] = match b.val with
      | 0 => s.hpu[p].refusal.isSome
      | 1 => decide ((∃ r ∈ s.elu.log, r.pending[p] = true) ∧ s.sau.sessions[p].mask[0] = true
          ∨ s.sau.sessions[p].auth = true ∧ s.sau.sessions[p].mask[1] = true
          ∨ s.sau.sessions[p].sessionEnded = true ∧ s.sau.sessions[p].mask[2] = true)
      | 2 => s.hpu[p].staged.isSome
      | 3 => decide (s.hpu[p].slot ≠ .free)
      | 4 => decide (∃ r ∈ s.elu.log, r.pending[p] = true)
      | 5 => decide (p ∈ s.sau.queue)
      | 6 => decide (s.sau.holder = some p)
      | _ => s.sau.sessions[p].attached := by
  refine (flagByte_eight _ _ _ _ _ _ _ _ b).trans ?_
  match b with
  | 1 => exact Bool.eq_iff_iff.2 ((s.atn_iff p).trans ((and_iff_right hr).trans decide_eq_true_iff.symm))
  | 4 => exact Bool.eq_iff_iff.2 ((s.elu.logReason_iff p).trans decide_eq_true_iff.symm)
  | 0 | 2 | 3 | 5 | 6 | 7 => rfl

/-! ## The bytes of an image (R154, R155) -/

theorem Image.bytes_of_none {m : Image} (h : m.staged = none) : m.bytes =
    [m.status, refusalByte m.refusal, 0, 0, 0] ++ [crcOfBytes [m.status, refusalByte m.refusal, 0, 0, 0]] := by
  unfold Image.bytes Image.body
  rw [h, crc_eq_crcOfBytes, refusalByte_eq]
  rfl

theorem Image.bytes_of_staged {m : Image} {r : Response} {body : List Byte} (h : m.staged = some r)
    (hb : body = [m.status, refusalByte m.refusal, resultByte r.result, r.tag, BitVec.ofNat 8 r.payload.length]
      ++ r.payload) : m.bytes = body ++ [crcOfBytes body] := by
  unfold Image.bytes Image.body
  rw [h, crc_eq_crcOfBytes, hb, refusalByte_eq, resultByte_eq]
  rfl

/-! ## PnSDO (R153, R155, R164) -/

theorem State.sdo_of_released {s : State} {p : Port} (k : Nat) (h : s.hpu[p].link = .idle ∨ s.rst = true) :
    s.sdo p k = none := by
  unfold State.sdo
  cases hl : s.hpu[p].link with
  | idle => rfl
  | inFrame m => exact if_pos (h.resolve_left (by rw [hl]; nofun))

theorem State.sdo_of_inFrame {s : State} {p : Port} {m : Image} (hr : s.rst = false) (hl : s.hpu[p].link = .inFrame m)
    (k : Nat) : s.sdo p k = some ((m.byteAt (k / 8)).getLsbD (7 - k % 8)) := by
  unfold State.sdo
  rw [hl, hr]
  rfl

section

variable {s : State} {p : Port} {m : Image} (hr : s.rst = false) (hl : s.hpu[p].link = .inFrame m)

include hr hl

/-- Edge 8j + k presents bit k of byte j, the most significant bit first. -/
theorem State.sdo_of_byte {j k : Nat} {b : Byte} (hb : m.bytes[j]? = some b) (hk : k < 8) :
    s.sdo p (8 * j + k) = some (decide (b.toNat / 2 ^ (7 - k) % 2 = 1)) := by
  have hbyte : m.byteAt j = b := by rw [Image.byteAt, List.getD_eq_getElem?_getD, hb, Option.getD_some]
  rw [State.sdo_of_inFrame hr hl, show (8 * j + k) / 8 = j by omega, show (8 * j + k) % 8 = k by omega, hbyte]
  rw [← BitVec.testBit_toNat, Nat.testBit_eq_decide_div_mod_eq]

/-- After the CRC every edge presents 0. -/
theorem State.sdo_after_bytes {k : Nat} (hk : 8 * m.bytes.length ≤ k) : s.sdo p k = some false := by
  have hbyte : m.byteAt (k / 8) = 0 := List.getD_eq_default _ _ (by omega)
  rw [State.sdo_of_inFrame hr hl, hbyte]
  exact congrArg some BitVec.getLsbD_zero

end

/-! ## FRAME_BEGIN (R153, R155) -/

theorem State.frameBegin_of_idle {s : State} {p : Port} (hr : s.rst = false) (hl : s.hpu[p].link = .idle) :
    s.frameBegin p = s.withHpu p fun h =>
      { h with edges := 0, link := .inFrame { status := s.statusByte p, refusal := h.refusal, staged := h.staged } } :=
  if_neg (by simp only [hr, hl]; decide)

/-- Settles O49: STATUS by its bits, and PnSDO on the image that the frame then shows. -/
theorem frameBeginLatchesImage : Obligations.FrameBeginLatchesImage := by
  refine ⟨fun s p k => State.sdo_of_released k, fun s p status hr hl hstatus => ?_⟩
  have hbyte : s.statusByte p = status := BitVec.eq_of_getElem_eq fun i hi =>
    (s.statusByte_bit p hr ⟨i, hi⟩).trans (hstatus ⟨i, hi⟩).symm
  subst hbyte
  have hframe : (s.frameBegin p).hpu[p].link = .inFrame
      { status := s.statusByte p, refusal := s.hpu[p].refusal, staged := s.hpu[p].staged } := by
    rw [State.frameBegin_of_idle hr hl]
    simp
  have hrst : (s.frameBegin p).rst = false := by rw [State.frameBegin_of_idle hr hl]; exact hr
  exact ⟨_, _, rfl, rfl, State.frameBegin_of_idle hr hl, fun j k b hb hk => State.sdo_of_byte hrst hframe hb hk,
    fun k hk => State.sdo_after_bytes hrst hframe hk, fun hn => Image.bytes_of_none hn,
    fun r body hs hb => Image.bytes_of_staged hs hb⟩

end Sys2Proof.Machine
end

section
/-! Frames by the table of R156, their settlement, and the ends of frames that carry no request (O50). -/

namespace Sys2Proof.Machine

/-! ## The bytes clocked (R153) -/

theorem length_frameBytes : ∀ bits : List Bool, (frameBytes bits).length = bits.length / 8
  | _ :: _ :: _ :: _ :: _ :: _ :: _ :: _ :: rest => by
    rw [frameBytes, List.length_cons, length_frameBytes rest]
    exact (Nat.add_div_right rest.length (by decide)).symm
  | [] | [_] | [_, _] | [_, _, _] | [_, _, _, _] | [_, _, _, _, _] | [_, _, _, _, _, _] | [_, _, _, _, _, _, _] => by
    simp [frameBytes]

/-! ## The table of R156 -/

theorem classify_of_linkBreak {edges : Nat} (bytes : List Byte) (h : edges < 8) : classify edges bytes = .linkBreak :=
  if_pos h

/-- The frames refused for their length or their CRC, with LEN as the frame gives it. -/
theorem classify_of_refused {edges len : Nat} {bytes : List Byte} {reason : FrameRefusal} (he : 8 ≤ edges)
    (hlen : len = (bytes.getD 2 0).toNat)
    (h : 128 < bytes.length ∧ reason = .overlength
      ∨ bytes.length < 3 ∧ reason = .short
      ∨ 3 ≤ bytes.length ∧ bytes.length ≤ 128 ∧ 48 < len ∧ reason = .overlength
      ∨ 3 ≤ bytes.length ∧ bytes.length ≤ 128 ∧ len ≤ 48 ∧ bytes.length < len + 4 ∧ reason = .short
      ∨ len + 4 ≤ bytes.length ∧ bytes.length ≤ 128 ∧ len ≤ 48
        ∧ bytes.getD (len + 3) 0 ≠ crcOfBytes (bytes.take (len + 3)) ∧ reason = .badCrc) :
    classify edges bytes = .refused reason := by
  unfold classify
  dsimp only
  rw [← hlen, crc_eq_crcOfBytes, if_neg (Nat.not_lt.2 he)]
  rcases h with ⟨h128, rfl⟩ | ⟨h3, rfl⟩ | ⟨h3, h128, h48, rfl⟩ | ⟨h3, h128, h48, hend, rfl⟩ | ⟨hend, h128, h48, hcrc, rfl⟩
  · rw [if_pos h128]
  · rw [if_neg (by omega), if_pos h3]
  · rw [if_neg (by omega), if_neg (by omega), if_pos h48]
  · rw [if_neg (by omega), if_neg (by omega), if_neg (by omega), if_pos hend]
  · rw [if_neg (by omega), if_neg (by omega), if_neg (by omega), if_neg (by omega), if_pos hcrc]

/-- A frame with its CRC in place is a NOP or a request, whatever fills it up behind the CRC. -/
theorem classify_of_valid {edges : Nat} {code tag : Byte} {bytes payload filler : List Byte} (he : 8 ≤ edges)
    (hp : payload.length ≤ 48) (hl : bytes.length ≤ 128)
    (hb : bytes = [code, tag, BitVec.ofNat 8 payload.length] ++ payload
      ++ [crcOfBytes ([code, tag, BitVec.ofNat 8 payload.length] ++ payload)] ++ filler) :
    classify edges bytes = if code = 0 then .nop else .request code tag payload := by
  have hlen : (bytes.getD 2 0).toNat = payload.length := by
    rw [hb]
    exact Nat.mod_eq_of_lt (show payload.length < 256 by omega)
  have hbytes : payload.length + 4 ≤ bytes.length := by
    rw [hb]
    simp
  have htake : bytes.take (payload.length + 3) = [code, tag, BitVec.ofNat 8 payload.length] ++ payload := by
    rw [hb, List.append_assoc]
    exact List.take_left' rfl
  have hcrc : bytes.getD (payload.length + 3) 0 = crcOfBytes (bytes.take (payload.length + 3)) := by
    rw [htake, hb, List.append_assoc, List.getD_append_right _ _ _ _ (by simp)]
    simp
  have hpayload : (bytes.drop 3).take payload.length = payload := by
    rw [hb, List.append_assoc, List.append_assoc]
    exact List.take_left' rfl
  have hcode : bytes.getD 0 0 = code := by rw [hb]; rfl
  have htag : bytes.getD 1 0 = tag := by rw [hb]; rfl
  unfold classify
  dsimp only
  rw [hlen, crc_eq_crcOfBytes, hpayload, hcode, htag, if_neg (by omega), if_neg (by omega), if_neg (by omega),
    if_neg (by omega), if_neg (by omega), if_neg (not_not.2 hcrc)]

/-! ## Settlement (R157) -/

section

variable {h : Hpu} {m : Image} {clocked : Nat}

theorem Hpu.settle_staged {staged : Option Response}
    (hout : ∀ r, m.staged = some r → r.payload.length + 6 ≤ clocked → staged = none)
    (hkeep : m.staged = none ∨ (∃ r, m.staged = some r ∧ clocked < r.payload.length + 6) → staged = h.staged) :
    (h.settle m clocked).staged = staged := by
  unfold Hpu.settle Response.frameLength
  cases hm : m.staged with
  | none => exact (hkeep (.inl hm)).symm
  | some r =>
    by_cases hr : r.payload.length + 6 ≤ clocked
    · simp [hr, hout r hm hr]
    · simp [hr, hkeep (.inr ⟨r, hm, Nat.lt_of_not_le hr⟩)]

theorem Hpu.settle_refusal {refusal : Option FrameRefusal}
    (hout : m.refusal.isSome = true ∧ 2 ≤ clocked → refusal = none)
    (hkeep : m.refusal = none ∨ clocked < 2 → refusal = h.refusal) : (h.settle m clocked).refusal = refusal := by
  unfold Hpu.settle
  dsimp only
  split
  next hm => exact (hout hm).symm
  next hm =>
    refine (hkeep ?_).symm
    rw [← Option.not_isSome_iff_eq_none, ← Nat.not_le]
    exact not_and_or.1 hm

theorem Hpu.settle_eq {staged : Option Response} {refusal : Option FrameRefusal}
    (hs : (h.settle m clocked).staged = staged) (hr : (h.settle m clocked).refusal = refusal) :
    h.settle m clocked = { h with staged, refusal } := by
  rw [← hs, ← hr]
  rfl

end

/-! ## FRAME_END (R156, R157) -/

section

variable {s : State} {p : Port} {m : Image} {bits : List Bool} {h k : Hpu} {cls : FrameClass}
  (hl : s.hpu[p].link = .inFrame m) (hs : s.hpu[p].settle m (frameBytes bits).length = h)
  (hc : classify bits.length (frameBytes bits) = cls)
  (hk : { h.conclude cls with link := .idle, edges := bits.length } = k)

include hl hs hc hk

/-- A frame that fails changes its port alone. -/
theorem State.frameEnd_of_unreported (hr : cls.reported = false) :
    s.frameEnd p bits = { s with hpu := s.hpu.set p.val k } := by
  unfold State.frameEnd
  rw [hl]
  dsimp only
  rw [hc, hs, hk, hr]
  rfl

/-- A valid frame is reported as well, marked if it passed a request on (log 36). -/
theorem State.frameEnd_of_reported {passed : Bool} (hr : cls.reported = true) (hp : s.hpu[p].passedOn k = passed) :
    s.frameEnd p bits = { s with
      hpu := s.hpu.set p.val k
      mail := { s.mail with reports := s.mail.reports ++ [{ port := p, request := passed }] } } := by
  unfold State.frameEnd
  rw [hl]
  dsimp only
  rw [hc, hs, hk, hr, hp]
  rfl

end

theorem Hpu.passedOn_of_slot_eq {h k : Hpu} (hs : k.slot = h.slot) : h.passedOn k = false := by
  unfold Hpu.passedOn
  rw [hs, Bool.and_eq_false_iff, decide_eq_false_iff_not, decide_eq_false_iff_not, not_not]
  exact (em _).symm

/-- Settles O50: a frame by its place in the table of R156, after its settlement. -/
theorem frameEndsWithoutRequest : Obligations.FrameEndsWithoutRequest := by
  intro s p m bits bytes settled len hl hbytes hout hkeep hclear hheld hlink hedges hslot hlen
  subst hbytes
  obtain ⟨link, edges, slot, staged, refusal⟩ := settled
  dsimp only at hout hkeep hclear hheld hlink hedges hslot
  subst hlink hedges hslot
  have hsettle := Hpu.settle_eq (Hpu.settle_staged hout hkeep) (Hpu.settle_refusal hclear hheld)
  refine ⟨fun h8 => ?_, fun reason h8 hreason => ?_, fun tag payload filler hp hb h128 => ?_⟩
  · exact congrArg Host.Outcome.next
      (State.frameEnd_of_unreported hl hsettle (classify_of_linkBreak _ h8) rfl rfl)
  · exact congrArg Host.Outcome.next
      (State.frameEnd_of_unreported hl hsettle (classify_of_refused h8 hlen hreason) rfl rfl)
  · have h8 : 8 ≤ bits.length := by
      have hpos : 0 < (frameBytes bits).length := by rw [hb]; exact Nat.succ_pos _
      rw [length_frameBytes] at hpos
      omega
    exact congrArg Host.Outcome.next (State.frameEnd_of_reported hl hsettle
      ((classify_of_valid h8 hp h128 hb).trans (if_pos rfl)) rfl rfl (Hpu.passedOn_of_slot_eq rfl))

end Sys2Proof.Machine
end

section
/-! How the request of a valid frame is judged (O51). -/

namespace Sys2Proof.Machine

/-! ## CODEs and the request table (R159) -/

theorem Code.ofByte_byte (c : Code) : Code.ofByte c.byte = some c := by cases c <;> rfl

theorem Code.eq_byte_of_ofByte : ∀ (b : Byte), ∀ c ∈ Code.ofByte b, b = c.byte := by decide +kernel

theorem Code.ofByte_of_mem {b : Byte} {c : Code} {lens : List Nat} (h : (b, c, lens) ∈ requestTable) :
    Code.ofByte b = some c := by
  obtain ⟨rfl, -⟩ := (mem_requestTable b c lens).1 h
  exact c.ofByte_byte

theorem Code.ofByte_of_not_mem {b : Byte} (h : ∀ row ∈ requestTable, row.1 ≠ b) : Code.ofByte b = none := by
  refine Option.eq_none_iff_forall_not_mem.2 fun c hc => ?_
  have hb : b = c.byte := Code.eq_byte_of_ofByte b c hc
  exact h (b, c, c.lengths) ((mem_requestTable b c c.lengths).2 ⟨hb, rfl⟩) rfl

/-! ## Acceptance (R158, R159) -/

section

variable {h : Hpu} {code tag : Byte} {payload : List Byte}

theorem Hpu.judge_of_executing (hs : h.slot ≠ .free) : h.judge code tag payload = { h with refusal := some .busy } :=
  if_pos hs

theorem Hpu.judge_of_staged (hs : h.slot = .free) (hr : h.staged ≠ none) :
    h.judge code tag payload = { h with refusal := some .undelivered } :=
  (if_neg (not_not.2 hs)).trans (if_pos (Option.isSome_iff_ne_none.2 hr))

theorem Hpu.judge_of_free (hs : h.slot = .free) (hr : h.staged = none) :
    h.judge code tag payload = h.accept code tag payload :=
  (if_neg (not_not.2 hs)).trans (if_neg (by rw [hr]; nofun))

theorem Hpu.accept_of_mem {c : Code} {lens : List Nat} (hc : (code, c, lens) ∈ requestTable) (hl : payload.length ∈ lens) :
    h.accept code tag payload = { h with slot := .executing tag false (.waiting c payload) } := by
  unfold Hpu.accept
  rw [Code.ofByte_of_mem hc]
  exact if_pos (((mem_requestTable code c lens).1 hc).2 ▸ hl)

theorem Hpu.accept_of_badLength {c : Code} {lens : List Nat} (hc : (code, c, lens) ∈ requestTable)
    (hl : payload.length ∉ lens) : h.accept code tag payload = h.stage .badLength tag := by
  unfold Hpu.accept
  rw [Code.ofByte_of_mem hc]
  exact if_neg (((mem_requestTable code c lens).1 hc).2 ▸ hl)

theorem Hpu.accept_of_unknown (hc : ∀ row ∈ requestTable, row.1 ≠ code) :
    h.accept code tag payload = h.stage .unknownRequest tag := by
  unfold Hpu.accept
  rw [Code.ofByte_of_not_mem hc]

end

/-- Settles O51: one judgement for each state of the slot and the staged response, then for each CODE and LEN. -/
theorem frameRequestJudged : Obligations.FrameRequestJudged := by
  intro s p m bits code tag payload filler staged refusal h hl hout hkeep hclear hheld hcode hp hbits hb hh
  have hbytes : 2 ≤ (frameBytes bits).length := by rw [hb]; exact Nat.le_add_left 2 _
  have hlen := length_frameBytes bits
  have h8 : 8 ≤ bits.length := by omega
  have h128 : (frameBytes bits).length ≤ 128 := by omega
  have hclass := (classify_of_valid h8 hp h128 hb).trans (if_neg hcode)
  have hsettle := Hpu.settle_eq (Hpu.settle_staged hout hkeep) (Hpu.settle_refusal
    (fun hr => hclear (Option.isSome_iff_ne_none.1 hr.1)) (fun hr => hheld (hr.resolve_right (Nat.not_lt.2 hbytes))))
  have judged : ∀ {k : Hpu} {passed : Bool},
      ({ s.hpu[p] with staged, refusal } : Hpu).judge code tag payload = k →
      s.hpu[p].passedOn { k with link := .idle, edges := bits.length } = passed →
      exec (.frameEnd p bits) s = .next (h passed k) := by
    rintro k passed rfl hpassed
    rw [hh]
    exact congrArg Host.Outcome.next (State.frameEnd_of_reported hl hsettle hclass rfl rfl hpassed)
  refine ⟨fun hs => ?_, fun hs hr => ?_, fun hs hr => ?_⟩
  · exact judged (Hpu.judge_of_executing hs) (Hpu.passedOn_of_slot_eq rfl)
  · exact judged (Hpu.judge_of_staged hs hr) (Hpu.passedOn_of_slot_eq rfl)
  · subst hr
    have haccept := Hpu.judge_of_free (h := { s.hpu[p] with staged := none, refusal }) (code := code) (tag := tag)
      (payload := payload) hs rfl
    refine ⟨fun c lens hc hmem => ?_, fun c lens hc hmem => ?_, fun hc => ?_⟩
    · exact judged (haccept.trans (Hpu.accept_of_mem hc hmem)) ((Hpu.passedOn_iff _ _).2 ⟨hs, nofun⟩)
    · exact judged (haccept.trans (Hpu.accept_of_badLength hc hmem)) (Hpu.passedOn_of_slot_eq rfl)
    · exact judged (haccept.trans (Hpu.accept_of_unknown hc)) (Hpu.passedOn_of_slot_eq rfl)

end Sys2Proof.Machine
end

section
/-! A step with a command waiting (O1). -/

namespace Sys2Proof.Machine

/-- The queue's front decides the step; what the part would do by itself (log 4) is not looked at. -/
theorem step_of_pending_cons {s : State} {c : Instr} {rest : List Instr} (h : s.pending = c :: rest) :
    step s = exec c { s with pending := rest } := by
  unfold step
  rw [h]

/-- Settles O1, by the branch of `step` for a queue that holds a command. -/
theorem stepRunsFrontCommand : Obligations.StepRunsFrontCommand :=
  fun _ _ _ => step_of_pending_cons

end Sys2Proof.Machine
end
